-- ==== Sys2Proof/Word.lean ====
section
/-! DEFINITION. The word types of NFCL-CORE (spec/00_scope.md R7, R12, R13). -/

namespace Sys2Proof

/-- One byte of a byte string (R13). -/
abbrev Byte := BitVec 8

/-- A 32-bit register or command word (R110, 10_state.md section 2). -/
abbrev Word := BitVec 32

/-- One 16-byte tag block, and a 16-byte block key (R7: BLOCK_BYTES, BLOCK_KEY_BYTES). -/
abbrev Block := Vector Byte 16

/-- A 6-byte sector key (R7: SECTOR_KEY_BYTES). -/
abbrev SectorKey := Vector Byte 6

end Sys2Proof
end

