-- ==== Sys2Proof/Syntax.lean ====
section
/-! DEFINITION. The commands of NFCL-CORE and its two computing bus operations
(spec/30_encoding.md R111 to R113): one constructor per row of spec/opcode_table.json. -/

namespace Sys2Proof

/-- The two copies of the data record (R112: REGION 0 is A, 1 is B). -/
inductive Region where
  | a
  | b
  deriving DecidableEq, Repr

/-- The instructions. A field has the width its format gives it (R111), so every value of a
constructor is an operand the encoding admits; whether the command's rule allows the value (R114,
third step) is `Instr.wellFormed`. -/
inductive Instr where
  /-- R117. -/
  | nop
  /-- R161. -/
  | crc16Init
  /-- R162. -/
  | crc16Run (addr len : BitVec 12)
  /-- R163. -/
  | crc16Zero (len : BitVec 12)
  /-- R164. -/
  | crc16Const (arg : Byte)
  /-- R165. -/
  | crc48Init
  /-- R166. -/
  | crc48Run (addr len : BitVec 12)
  /-- R167. -/
  | crc48Const (arg : Byte)
  /-- R190. -/
  | sectorKey (sector : Byte)
  /-- R191. -/
  | blockKey (block : Byte)
  /-- R192. -/
  | blkEnc (block : Byte)
  /-- R193. -/
  | blkDec (block : Byte)
  /-- R250. -/
  | hdrCheck
  /-- R251. -/
  | hdrSeal
  /-- R252. -/
  | p1Check
  /-- R253. -/
  | p1Seal
  /-- R254. -/
  | p2Check
  /-- R255. -/
  | p2Seal
  /-- R240. -/
  | fieldGet (fid bit : Byte)
  /-- R241. -/
  | fieldPut (fid bit : Byte)
  /-- R242. -/
  | bitGet (fid bit : Byte)
  /-- R243. -/
  | bitSet (fid bit : Byte)
  /-- R244. -/
  | bitClr (fid bit : Byte)
  /-- R246. -/
  | nickUnpack
  /-- R247. -/
  | nickPack
  /-- R271. -/
  | blockMap (index : BitVec 4) (region : Region)
  /-- R273. -/
  | seqReconcile
  /-- R280. -/
  | readRecord
  /-- R286. -/
  | writeRecord (rw : Bool)
  /-- R168: a host write to CRC16_DATA, carrying the written word. -/
  | crc16DataWrite (word : Word)
  /-- R169: a host write to CRC48_DATA, carrying the written word. -/
  | crc48DataWrite (word : Word)
  deriving DecidableEq, Repr

end Sys2Proof
end

