-- ==== Sys2Proof/Decode.lean ====
section
/-! DEFINITION. The decoder and the encoder of command words (spec/30_encoding.md R110 to R116), and
of the two computing bus operations (R113, spec/40_crc.md R168, R169). -/

namespace Sys2Proof

/-- The seven formats (R111). -/
inductive Format where
  | n | r | z | a | f | m | w
  deriving DecidableEq, Repr

/-- The opcodes (R113). -/
inductive Op where
  | nop | crc16Init | crc16Run | crc16Zero | crc16Const | crc48Init | crc48Run | crc48Const
  | sectorKey | blockKey | blkEnc | blkDec
  | hdrCheck | hdrSeal | p1Check | p1Seal | p2Check | p2Seal
  | fieldGet | fieldPut | bitGet | bitSet | bitClr | nickUnpack | nickPack
  | blockMap | seqReconcile | readRecord | writeRecord
  deriving DecidableEq, Repr

/-- Why a word is no instruction: the first two steps of R114, both ending in ILLEGAL. -/
inductive DecodeError where
  /-- Bits 7:0 are no opcode of R113 (R115). -/
  | unknownOpcode
  /-- A reserved bit of the opcode's format is 1. -/
  | reservedBitSet
  /-- The host write is to no address that makes an instruction. -/
  | notAnInstruction
  deriving DecidableEq, Repr

/-- The opcode byte of a command (R113). -/
def Op.code : Op → Byte
  | .nop => 0x00 | .crc16Init => 0x01 | .crc16Run => 0x02 | .crc16Zero => 0x03
  | .crc16Const => 0x04 | .crc48Init => 0x05 | .crc48Run => 0x06 | .crc48Const => 0x07
  | .sectorKey => 0x10 | .blockKey => 0x11 | .blkEnc => 0x12 | .blkDec => 0x13
  | .hdrCheck => 0x20 | .hdrSeal => 0x21 | .p1Check => 0x22 | .p1Seal => 0x23
  | .p2Check => 0x24 | .p2Seal => 0x25 | .fieldGet => 0x26 | .fieldPut => 0x27
  | .bitGet => 0x28 | .bitSet => 0x29 | .bitClr => 0x2A | .nickUnpack => 0x2B
  | .nickPack => 0x2C | .blockMap => 0x30 | .seqReconcile => 0x31 | .readRecord => 0x32
  | .writeRecord => 0x33

/-- The format of a command (R113). -/
def Op.format : Op → Format
  | .nop | .crc16Init | .crc48Init => .n
  | .crc16Run | .crc48Run => .r
  | .crc16Zero => .z
  | .crc16Const | .crc48Const | .sectorKey | .blockKey | .blkEnc | .blkDec => .a
  | .hdrCheck | .hdrSeal | .p1Check | .p1Seal | .p2Check | .p2Seal => .n
  | .fieldGet | .fieldPut | .bitGet | .bitSet | .bitClr => .f
  | .nickUnpack | .nickPack => .n
  | .blockMap => .m
  | .seqReconcile | .readRecord => .n
  | .writeRecord => .w

/-- Every opcode, in the order of R113. -/
def allOps : List Op :=
  [.nop, .crc16Init, .crc16Run, .crc16Zero, .crc16Const, .crc48Init, .crc48Run, .crc48Const,
   .sectorKey, .blockKey, .blkEnc, .blkDec] ++
  [.hdrCheck, .hdrSeal, .p1Check, .p1Seal, .p2Check, .p2Seal, .fieldGet, .fieldPut, .bitGet,
   .bitSet, .bitClr, .nickUnpack, .nickPack] ++
  [.blockMap, .seqReconcile, .readRecord, .writeRecord]

/-- The opcode of a byte; none for the illegal ones (R115). -/
def opOf (c : Byte) : Option Op := allOps.find? fun o => o.code == c

/-- The reserved bits of a format as a mask (R111). -/
def Format.reserved : Format → Word
  | .n => 0xFFFFFF00
  | .r => 0x00000000
  | .z => 0x000FFF00
  | .a => 0xFFFF0000
  | .f => 0xFF000000
  | .m => 0xFFFFE000
  | .w => 0xFFFFFE00

/-- ADDR = w[19:8] (R111, format R). -/
def wordAddr (w : Word) : BitVec 12 := w.extractLsb' 8 12

/-- LEN = w[31:20] (R111, formats R and Z). -/
def wordLen (w : Word) : BitVec 12 := w.extractLsb' 20 12

/-- ARG = w[15:8] (R111, format A). -/
def wordArg (w : Word) : Byte := w.extractLsb' 8 8

/-- FID = w[15:8] (R111, format F). -/
def wordFid (w : Word) : Byte := w.extractLsb' 8 8

/-- BIT = w[23:16] (R111, format F). -/
def wordBit (w : Word) : Byte := w.extractLsb' 16 8

/-- INDEX = w[11:8] (R111, format M). -/
def wordIndex (w : Word) : BitVec 4 := w.extractLsb' 8 4

/-- REGION = w[12] (R111, R112, format M). -/
def wordRegion (w : Word) : Region := if w.getLsbD 12 then .b else .a

/-- RW = w[8] (R111, format W). -/
def wordRw (w : Word) : Bool := w.getLsbD 8

/-- The instruction of an opcode, its operands taken from the fields of the word (R111, R112). -/
def assemble (o : Op) (w : Word) : Instr :=
  match o with
  | .nop => .nop
  | .crc16Init => .crc16Init
  | .crc16Run => .crc16Run (wordAddr w) (wordLen w)
  | .crc16Zero => .crc16Zero (wordLen w)
  | .crc16Const => .crc16Const (wordArg w)
  | .crc48Init => .crc48Init
  | .crc48Run => .crc48Run (wordAddr w) (wordLen w)
  | .crc48Const => .crc48Const (wordArg w)
  | .sectorKey => .sectorKey (wordArg w)
  | .blockKey => .blockKey (wordArg w)
  | .blkEnc => .blkEnc (wordArg w)
  | .blkDec => .blkDec (wordArg w)
  | .hdrCheck => .hdrCheck
  | .hdrSeal => .hdrSeal
  | .p1Check => .p1Check
  | .p1Seal => .p1Seal
  | .p2Check => .p2Check
  | .p2Seal => .p2Seal
  | .fieldGet => .fieldGet (wordFid w) (wordBit w)
  | .fieldPut => .fieldPut (wordFid w) (wordBit w)
  | .bitGet => .bitGet (wordFid w) (wordBit w)
  | .bitSet => .bitSet (wordFid w) (wordBit w)
  | .bitClr => .bitClr (wordFid w) (wordBit w)
  | .nickUnpack => .nickUnpack
  | .nickPack => .nickPack
  | .blockMap => .blockMap (wordIndex w) (wordRegion w)
  | .seqReconcile => .seqReconcile
  | .readRecord => .readRecord
  | .writeRecord => .writeRecord (wordRw w)

/-- R114, first and second step. -/
def decode (w : Word) : Except DecodeError Instr :=
  match opOf (w.extractLsb' 0 8) with
  | none => .error .unknownOpcode
  | some o =>
    if w &&& o.format.reserved = 0 then .ok (assemble o w) else .error .reservedBitSet

/-- A 4-byte host write: the local address and the word. Every instruction is one (R110, R113). -/
structure BusWrite where
  /-- The local address. -/
  addr : BitVec 12
  /-- The written word. -/
  word : Word
  deriving DecidableEq, Repr

/-- The address of CMD (spec/10_state.md R33). -/
def cmdAddr : BitVec 12 := 0x00C

/-- The address of CRC16_DATA (R113). -/
def crc16DataAddr : BitVec 12 := 0x01C

/-- The address of CRC48_DATA (R113). -/
def crc48DataAddr : BitVec 12 := 0x028

/-- The computing bus operation that a 4-byte host write is, if it is one (R113, R168, R169). -/
def busOperation (x : BusWrite) : Option Instr :=
  if x.addr = crc16DataAddr then some (.crc16DataWrite x.word)
  else if x.addr = crc48DataAddr then some (.crc48DataWrite x.word)
  else none

/-- The instruction that a 4-byte host write makes: a command word at CMD, or a bus operation. -/
def decodeWrite (x : BusWrite) : Except DecodeError Instr :=
  if x.addr = cmdAddr then decode x.word
  else
    match busOperation x with
    | some i => .ok i
    | none => .error .notAnInstruction

/-- Format N: 24 zeros and the opcode (R111). -/
def wordN (o : Op) : Word := 0#24 ++ o.code

/-- Format R: LEN, ADDR, OP (R111). -/
def wordR (o : Op) (addr len : BitVec 12) : Word := len ++ addr ++ o.code

/-- Format Z: LEN, 12 zeros, OP (R111). -/
def wordZ (o : Op) (len : BitVec 12) : Word := len ++ 0#12 ++ o.code

/-- Format A: 16 zeros, ARG, OP (R111). -/
def wordA (o : Op) (arg : Byte) : Word := 0#16 ++ arg ++ o.code

/-- Format F: 8 zeros, BIT, FID, OP (R111). -/
def wordF (o : Op) (fid bit : Byte) : Word := 0#8 ++ bit ++ fid ++ o.code

/-- The REGION bit (R112). -/
def regionBit : Region → BitVec 1
  | .a => 0
  | .b => 1

/-- Format M: 19 zeros, REGION, INDEX, OP (R111). -/
def wordM (o : Op) (index : BitVec 4) (r : Region) : Word :=
  0#19 ++ regionBit r ++ index ++ o.code

/-- Format W: 23 zeros, RW, OP (R111). -/
def wordW (o : Op) (rw : Bool) : Word := 0#23 ++ BitVec.ofBool rw ++ o.code

/-- A command word written to CMD. -/
def commandWrite (w : Word) : BusWrite := ⟨cmdAddr, w⟩

/-- The host write that makes an instruction (R110, R111, R113). -/
def encode : Instr → BusWrite
  | .nop => commandWrite (wordN .nop)
  | .crc16Init => commandWrite (wordN .crc16Init)
  | .crc16Run addr len => commandWrite (wordR .crc16Run addr len)
  | .crc16Zero len => commandWrite (wordZ .crc16Zero len)
  | .crc16Const arg => commandWrite (wordA .crc16Const arg)
  | .crc48Init => commandWrite (wordN .crc48Init)
  | .crc48Run addr len => commandWrite (wordR .crc48Run addr len)
  | .crc48Const arg => commandWrite (wordA .crc48Const arg)
  | .sectorKey s => commandWrite (wordA .sectorKey s)
  | .blockKey n => commandWrite (wordA .blockKey n)
  | .blkEnc n => commandWrite (wordA .blkEnc n)
  | .blkDec n => commandWrite (wordA .blkDec n)
  | .hdrCheck => commandWrite (wordN .hdrCheck)
  | .hdrSeal => commandWrite (wordN .hdrSeal)
  | .p1Check => commandWrite (wordN .p1Check)
  | .p1Seal => commandWrite (wordN .p1Seal)
  | .p2Check => commandWrite (wordN .p2Check)
  | .p2Seal => commandWrite (wordN .p2Seal)
  | .fieldGet fid bit => commandWrite (wordF .fieldGet fid bit)
  | .fieldPut fid bit => commandWrite (wordF .fieldPut fid bit)
  | .bitGet fid bit => commandWrite (wordF .bitGet fid bit)
  | .bitSet fid bit => commandWrite (wordF .bitSet fid bit)
  | .bitClr fid bit => commandWrite (wordF .bitClr fid bit)
  | .nickUnpack => commandWrite (wordN .nickUnpack)
  | .nickPack => commandWrite (wordN .nickPack)
  | .blockMap index r => commandWrite (wordM .blockMap index r)
  | .seqReconcile => commandWrite (wordN .seqReconcile)
  | .readRecord => commandWrite (wordN .readRecord)
  | .writeRecord rw => commandWrite (wordW .writeRecord rw)
  | .crc16DataWrite w => ⟨crc16DataAddr, w⟩
  | .crc48DataWrite w => ⟨crc48DataAddr, w⟩

/-- The host's question: the instruction read from the low nbits bits of w, every bit above zero. A
command word is one 32-bit bus value (R110), so there are no words to lay out in memory. -/
def decodeTableWord (nbits w : Nat) : Option Instr :=
  match decode (BitVec.ofNat 32 (w % 2 ^ nbits)) with
  | .ok i => some i
  | .error _ => none

end Sys2Proof
end

