-- ==== Sys2Proof/Config.lean ====
section
/-! DEFINITION. What the spec leaves open: the parameters of spec/00_scope.md R8, and the one value
it calls arbitrary (spec/20_memory.md R86). Each is an opaque constant without a body, so that what
is proved holds for every admitted configuration. -/

namespace Sys2Proof

/-- R9: the four conditions a pair of region bases must meet. -/
def admitsBases (a b : Nat) : Bool :=
  a % 4 == 0 && b % 4 == 0 && decide (4 ≤ a) && decide (4 ≤ b) && decide (a ≤ 48) &&
    decide (b ≤ 48) && (decide (a + 16 ≤ b) || decide (b + 16 ≤ a))

/-- The two region base blocks of an admitted configuration. A pair that fails R9 cannot be built,
which is how the model refuses it. -/
structure RegionBases where
  /-- P_REGION_A_BASE. -/
  a : Nat := 4
  /-- P_REGION_B_BASE. -/
  b : Nat := 20
  /-- R9. -/
  admitted : admitsBases a b = true := by decide
  deriving DecidableEq, Repr, Inhabited

/-- P_REGION_A_BASE and P_REGION_B_BASE (R8, U-1): nothing but R9 is known of them. -/
opaque Config.regionBases : RegionBases

/-- P_SECTOR0_KEY (R8, U-2). -/
opaque Config.sector0Key : SectorKey

/-- P_KEY_SUFFIX (R8, U-3): 53 bytes. -/
opaque Config.keySuffix : Vector Byte 53

/-- P_CIPHER (R8, R10, U-4): for each key a permutation of the blocks, E; D is its inverse.
DEDUCED (log 4): R10's law D(k, E(k, x)) = x makes E(k, _) injective on the finite set of blocks,
so a permutation with inverse D. -/
opaque Config.cipher : Block → Equiv.Perm Block

/-- The value a busy-guarded host read returns (R86, U-9: a draw under no law), one for each draw
(log 5). -/
opaque Config.busyRead : Nat → Word

/-- E of P_CIPHER. -/
def cipherE (k x : Block) : Block := Config.cipher k x

/-- D of P_CIPHER. -/
def cipherD (k x : Block) : Block := (Config.cipher k).symm x

end Sys2Proof
end

