-- ==== Sys2Proof/Machine/Bytes.lean ====
section
/-! DEFINITION. Byte strings (spec/00_scope.md R13): little-endian values, slices, vectors. -/

namespace Sys2Proof.Machine

/-- LE(s) of R13. -/
def leNat : List Byte → Nat
  | [] => 0
  | b :: t => b.toNat + 256 * leNat t

/-- LEbytes_n(v) of R13: the n-byte string whose LE value is v mod 256^n. -/
def leBytes : Nat → Nat → List Byte
  | 0, _ => []
  | n + 1, v => BitVec.ofNat 8 v :: leBytes n (v / 256)

/-- zeros(n) of R13. -/
def zeros (n : Nat) : List Byte := List.replicate n 0

/-- s[i..j) of R13. -/
def slice (s : List Byte) (i j : Nat) : List Byte := (s.drop i).take (j - i)

/-- s with the bytes t in place of those at s[i..i+len(t)). -/
def splice (s : List Byte) (i : Nat) (t : List Byte) : List Byte :=
  s.take i ++ t ++ s.drop (i + t.length)

/-- s[i], and 00 past the end. -/
def byteAt (s : List Byte) (i : Nat) : Byte := s.getD i 0

/-- The first n bytes of s as a vector. -/
def toVec (n : Nat) (s : List Byte) : Vector Byte n := Vector.ofFn fun i => byteAt s i.val

end Sys2Proof.Machine
end

