-- ==== Sys2Proof/Machine/State.lean ====
section
/-! DEFINITION. The state of NFCL-CORE (spec/10_state.md), of the transport agent (R53), and the
moves of the environment still to come (spec/00_scope.md R6, R15). -/

namespace Sys2Proof.Machine

/-- Byte cells by address, in canonical form (`Memory.wf` of Machine/Ops.lean): addresses strictly
rising, and no cell equal to 00, which is what an unlisted address reads as. For the local RAM
buffers 00 is the spec's reset value (R55). -/
abbrev Memory := List Host.Cell

/-- Nothing stops the machine: every error of the spec is a completion code or a status bit
(spec/60_exceptions.md R330, R347). So there is no fault, and no one raises one. -/
inductive Fault where
  deriving DecidableEq, Repr

/-- Why an instruction is refused. -/
inductive Refusal where
  /-- The instruction has no meaning yet. Raised by an arm of `exec` only, and at present by none.
  Safe: nothing is claimed of it. -/
  | notModelled (mnemonic : String)
  deriving DecidableEq, Repr

/-- The completion codes of STATUS.ERR (R330), which lists them all: no other is ever produced. -/
inductive ErrCode where
  | ok | illegal | badArg | hdrChecksum | p1Checksum | p2Checksum | authFailure | transportLost
  | blockGuard | ambiguousSequence | identityMismatch
  deriving DecidableEq, Repr

/-- The stages of a port command (R334). -/
inductive Stage where
  | none | hdrRead | regionARead | regionBRead | identityWrite | seqRead | p1Write | p2Write
  | compare
  deriving DecidableEq, Repr

/-- XSTAT.PORT (R45). -/
inductive PortCause where
  | none | authFail | lost
  deriving DecidableEq, Repr

/-- The operation of a block-port request (R95). -/
inductive PortOp where
  | read
  | write (data : Block)
  deriving DecidableEq, Repr

/-- A block-port request, with the sector key it carries (R95). -/
structure PortRequest where
  /-- The block number. -/
  block : Nat
  /-- Read, or write with its 16 bytes. -/
  op : PortOp
  /-- SectorKey(n div 4, UID). -/
  key : SectorKey
  deriving DecidableEq, Repr

/-- The transport's answers (R95). The 16 bytes of `ok` are those of an OK read; a write makes no
use of them (log 8). -/
inductive Answer where
  | ok (data : Block)
  | authFail
  | lost
  deriving DecidableEq, Repr

/-- The four reads of WRITE_RECORD's sequence read, in order (spec/43_arbiter.md R289). -/
inductive SeqSlot where
  | a0 | a7 | b0 | b7
  deriving DecidableEq, Repr

/-- The position a command has reached, with its temporaries (R50). All but the first wait for the
answer to one block-port transaction of R280 or R286. -/
inductive Position where
  /-- The command word is accepted (R51), and nothing of it is executed yet. -/
  | accepted
  /-- READ_RECORD, block 0. -/
  | readHdr0
  /-- READ_RECORD, block 1; T[0] is held. -/
  | readHdr1 (t0 : Block)
  /-- READ_RECORD, logical index i of region r; okA is ok_A, meant once region A is done. -/
  | readRegion (r : Region) (i : Fin 11) (hok okA authFail : Bool)
  /-- WRITE_RECORD, refresh of block 0. -/
  | wrRefresh0 (rw : Bool)
  /-- WRITE_RECORD, read of block 1; T0 is held. -/
  | wrRefresh1 (rw : Bool) (t0 : Block)
  /-- WRITE_RECORD, sequence read; the bytes read so far are held, 0 for one not read. -/
  | wrSeq (slot : SeqSlot) (p2 : Bool) (s1A s2A s1B : Byte)
  /-- WRITE_RECORD, stale-region write of part 1, logical index i; S1 and S2 are held. -/
  | wrPart1 (p2 : Bool) (stale1 stale2 : Region) (i : Fin 7)
  /-- WRITE_RECORD, stale-region write of part 2, logical index 7 + j. -/
  | wrPart2 (stale2 : Region) (j : Fin 4)
  /-- WRITE_RECORD, re-key: the identity block. -/
  | wrIdent (p2 : Bool)
  /-- WRITE_RECORD, re-key: part 1 to region r, logical index i. -/
  | wrRekey1 (p2 : Bool) (r : Region) (i : Fin 7)
  /-- WRITE_RECORD, re-key: part 2 to region r, logical index 7 + j. -/
  | wrRekey2 (r : Region) (j : Fin 4)
  deriving DecidableEq, Repr

/-- The sequencer's phase (R50). BUSY holds the command word, the position and the outstanding
block-port request; there is none at `accepted`. -/
inductive Phase where
  | idle
  | busy (word : Word) (pos : Position) (req : Option PortRequest)
  deriving DecidableEq, Repr

/-- The size of a host access (R80: n is 1, 2 or 4). -/
inductive Width where
  | w1 | w2 | w4
  deriving DecidableEq, Repr

/-- A move of the environment. The list of them in `State.inputs` is the part of R92's one total
order that is still to come (log 1). -/
inductive Event where
  /-- HostRead(a, n) (R80). -/
  | hostRead (addr : BitVec 12) (n : Width)
  /-- HostWrite(a, n, v) (R80); the low n bytes of v are the value (log 12). -/
  | hostWrite (addr : BitVec 12) (n : Width) (v : Word)
  /-- The transport answers the outstanding request, in any way R95 allows. -/
  | answer (a : Answer)
  /-- The transport answers the outstanding request as IDEAL_TAG does (R99). -/
  | idealAnswer
  /-- An answer to a request that a reset abandoned (R370). -/
  | staleAnswer (a : Answer)
  /-- A block of the tag changes outside the block port's OK answers under IDEAL_TAG: another tag,
  or what a write that was not answered OK left behind (U-23, log 8). -/
  | tagChanges (block : Fin 64) (data : Block)
  /-- The reset input (R370). -/
  | reset
  deriving DecidableEq, Repr

/-- The state. -/
structure State where
  /-- CTRL.EQ_POLICY (R37). -/
  eqPolicy : Bool
  /-- CTRL.IRQ_EN (R37). -/
  irqEn : Bool
  /-- STATUS.ERR (R34). -/
  err : ErrCode
  /-- STATUS.DONE (R34). -/
  done : Bool
  /-- STATUS.BUSERR (R34). -/
  busErr : Bool
  /-- STATUS.OVR (R34). -/
  ovr : Bool
  /-- RES0 (R38). -/
  res0 : Word
  /-- RES1 (R38). -/
  res1 : Word
  /-- The CRC16 state (R39). -/
  crc16 : BitVec 16
  /-- The CRC48 state (R41). -/
  crc48 : BitVec 48
  /-- RECON (R42). -/
  recon : Word
  /-- FVAL (R43). -/
  fval : BitVec 64
  /-- SEQ (R44). -/
  seq : Word
  /-- XSTAT (R45). -/
  xstat : Word
  /-- The RAM buffers of R40, by local address. -/
  mem : Memory
  /-- The sequencer's phase (R50). -/
  phase : Phase
  /-- The transport agent's: the tag's 1024 bytes (R53, R90; log 7). -/
  tag : Memory
  /-- The model's own: the environment's moves still to come (log 1). -/
  inputs : List Event
  /-- The model's own: the value the last HostRead returned (log 6). -/
  readData : Word
  /-- The model's own: how many arbitrary values busy reads have drawn (log 5). -/
  freeReads : Nat
  deriving DecidableEq, Repr

/-- The machine right after reset (R55, R370). The last four fields are no state of the block: the
spec gives them no reset value, and each value here is a DESIGN CHOICE (logs 7, 1, 6, 5). -/
def State.reset : State where
  eqPolicy := false
  irqEn := false
  err := .ok
  done := false
  busErr := false
  ovr := false
  res0 := 0
  res1 := 0
  crc16 := 0xFFFF
  crc48 := 0x9AE903260CC4
  recon := 0
  fval := 0
  seq := 0
  xstat := 0
  mem := []
  phase := .idle
  tag := []
  inputs := []
  readData := 0
  freeReads := 0

end Sys2Proof.Machine
end

