-- ==== Sys2Proof/Machine/Flags.lean ====
section
/-! DEFINITION. The bit layouts of the registers: STATUS (spec/10_state.md R34), CTRL (R37), the CRC48
and FVAL halves (R41, R43), XSTAT (R45), the codes (spec/60_exceptions.md R330, R334), and IRQ
(R343). -/

namespace Sys2Proof.Machine

/-- The number of a completion code (R330). -/
def ErrCode.code : ErrCode → Byte
  | .ok => 0x00 | .illegal => 0x01 | .badArg => 0x02
  | .hdrChecksum => 0x10 | .p1Checksum => 0x11 | .p2Checksum => 0x12
  | .authFailure => 0x20 | .transportLost => 0x21 | .blockGuard => 0x22
  | .ambiguousSequence => 0x30 | .identityMismatch => 0x40

/-- The number of a stage (R334). -/
def Stage.code : Stage → BitVec 4
  | .none => 0 | .hdrRead => 1 | .regionARead => 2 | .regionBRead => 3 | .identityWrite => 4
  | .seqRead => 5 | .p1Write => 6 | .p2Write => 7 | .compare => 8

/-- The number of XSTAT.PORT (R45). -/
def PortCause.code : PortCause → BitVec 2
  | .none => 0 | .authFail => 1 | .lost => 2

/-- STATUS.BUSY: 1 exactly when the phase is BUSY (R50). -/
def State.busy (s : State) : Bool :=
  match s.phase with
  | .idle => false
  | .busy _ _ _ => true

/-- STATUS as the host reads it (R34). -/
def State.statusWord (s : State) : Word :=
  0#20 ++ BitVec.ofBool s.ovr ++ BitVec.ofBool s.busErr ++ BitVec.ofBool s.done ++
    BitVec.ofBool s.busy ++ s.err.code

/-- A host write of w to STATUS: write 1 to clear DONE, BUSERR and OVR (R34). -/
def State.writeStatus (s : State) (w : Word) : State :=
  { s with
    done := s.done && !w.getLsbD 9
    busErr := s.busErr && !w.getLsbD 10
    ovr := s.ovr && !w.getLsbD 11 }

/-- CTRL as the host reads it (R37). -/
def State.ctrlWord (s : State) : Word :=
  0#30 ++ BitVec.ofBool s.irqEn ++ BitVec.ofBool s.eqPolicy

/-- A host write of w to CTRL: bits 31:2 are ignored (R37). -/
def State.writeCtrl (s : State) (w : Word) : State :=
  { s with eqPolicy := w.getLsbD 0, irqEn := w.getLsbD 1 }

/-- The IRQ output (R343). -/
def State.irq (s : State) : Bool := s.irqEn && s.done

/-- ID (R36). -/
def idWord : Word := 0x00014E46

/-- CRC16 as the host reads it: bits 31:16 read 0 (R39). -/
def State.crc16Word (s : State) : Word := s.crc16.setWidth 32

/-- A host write of w to CRC16: the state becomes w[15:0] (R39). -/
def State.writeCrc16 (s : State) (w : Word) : State := { s with crc16 := w.extractLsb' 0 16 }

/-- CRC48_LO: state bits 31:0 (R41). -/
def State.crc48LoWord (s : State) : Word := s.crc48.extractLsb' 0 32

/-- CRC48_HI: state bits 47:32, and bits 31:16 read 0 (R41). -/
def State.crc48HiWord (s : State) : Word := (s.crc48.extractLsb' 32 16).setWidth 32

/-- A host write of w to CRC48_LO replaces only state bits 31:0 (R41). -/
def State.writeCrc48Lo (s : State) (w : Word) : State :=
  { s with crc48 := s.crc48.extractLsb' 32 16 ++ w }

/-- A host write of w to CRC48_HI replaces only state bits 47:32, by w[15:0] (R41). -/
def State.writeCrc48Hi (s : State) (w : Word) : State :=
  { s with crc48 := w.extractLsb' 0 16 ++ s.crc48.extractLsb' 0 32 }

/-- FVAL_LO (R43). -/
def State.fvalLo (s : State) : Word := s.fval.extractLsb' 0 32

/-- FVAL_HI (R43). -/
def State.fvalHi (s : State) : Word := s.fval.extractLsb' 32 32

/-- A host write of w to FVAL_LO (R43). -/
def State.writeFvalLo (s : State) (w : Word) : State := { s with fval := s.fvalHi ++ w }

/-- A host write of w to FVAL_HI (R43). -/
def State.writeFvalHi (s : State) (w : Word) : State := { s with fval := w ++ s.fvalLo }

/-- XSTAT of a failing block (R45): SECTOR is BLOCK div 4. BLOCK has six bits (log 18). -/
def xstatWord (block : Nat) (stage : Stage) (port : PortCause) : Word :=
  0#14 ++ port.code ++ stage.code ++ BitVec.ofNat 4 (block / 4) ++ 0#2 ++ BitVec.ofNat 6 block

/-- SEQ (R44): S1A, S1B, S2A, S2B from the low byte up. -/
def seqWord (s1A s1B s2A s2B : Byte) : Word := s2B ++ s2A ++ s1B ++ s1A

end Sys2Proof.Machine
end

