-- ==== Sys2Proof/Machine/Operands.lean ====
section
/-! DEFINITION. What an operand may name: the buffers and their addresses (spec/10_state.md R40), the
legal ranges (spec/40_crc.md R160), the field table (spec/42_codec.md R235), and the static operand
ranges of the third decoding step (spec/30_encoding.md R114). -/

namespace Sys2Proof.Machine

/-- The buffers of R40. -/
inductive Buffer where
  | uid | skey | bkey | blk | name | hdr | p1 | p2 | ra | rb | ksuf | k0
  deriving DecidableEq, Repr

/-- First local address (R40). -/
def Buffer.base : Buffer → Nat
  | .uid => 0x040 | .skey => 0x048 | .bkey => 0x050 | .blk => 0x060 | .name => 0x070
  | .hdr => 0x100 | .p1 => 0x180 | .p2 => 0x200 | .ra => 0x300 | .rb => 0x400
  | .ksuf => 0x500 | .k0 => 0x540

/-- Size in bytes (R40). -/
def Buffer.size : Buffer → Nat
  | .uid => 4 | .skey => 6 | .bkey => 16 | .blk => 16 | .name => 16
  | .hdr => 32 | .p1 => 112 | .p2 => 64 | .ra => 176 | .rb => 176
  | .ksuf => 53 | .k0 => 6

/-- The buffers a host may write (R40: host access RW). -/
def Buffer.hostWritable : Buffer → Bool
  | .uid | .blk | .name | .hdr | .p1 | .p2 => true
  | .skey | .bkey | .ra | .rb | .ksuf | .k0 => false

/-- The read-only memories, which hold parameters and nothing writes (R40). -/
def Buffer.rom : Buffer → Bool
  | .ksuf | .k0 => true
  | .uid | .skey | .bkey | .blk | .name | .hdr | .p1 | .p2 | .ra | .rb => false

/-- All the buffers, by address. -/
def allBuffers : List Buffer :=
  [.uid, .skey, .bkey, .blk, .name, .hdr, .p1, .p2, .ra, .rb, .ksuf, .k0]

/-- Whether local address a lies in the buffer. -/
def Buffer.holds (b : Buffer) (a : Nat) : Bool :=
  decide (b.base ≤ a) && decide (a < b.base + b.size)

/-- The buffer a local address lies in; none for a register or a reserved address (R82). -/
def bufferAt (a : Nat) : Option Buffer := allBuffers.find? fun b => b.holds a

/-- R160: the ranges CRC16_RUN and CRC48_RUN may read. -/
def rangeLegal (addr len : Nat) : Bool :=
  len == 0 ||
    (decide (addr + len ≤ 0x1000) &&
      (List.range len).all fun k => (bufferAt (addr + k)).isSome)

/-- One row of the field table (R235). -/
structure FieldRow where
  /-- The field id. -/
  fid : Nat
  /-- The spec's name of the field, which assembler lines may use (R118). -/
  name : String
  /-- The buffer holding the field. -/
  buf : Buffer
  /-- Byte offset in the buffer. -/
  off : Nat
  /-- Width in bytes. -/
  width : Nat
  deriving DecidableEq, Repr

/-- R235, the header's rows. -/
def headerFields : List FieldRow :=
  [⟨0x00, "H_CHAR_ID", .hdr, 0x10, 3⟩, ⟨0x01, "H_ERROR", .hdr, 0x13, 1⟩,
   ⟨0x02, "H_CARD_ID", .hdr, 0x14, 8⟩, ⟨0x03, "H_DECORATION", .hdr, 0x1C, 1⟩,
   ⟨0x04, "H_VARIANT", .hdr, 0x1D, 1⟩, ⟨0x05, "H_CRC", .hdr, 0x1E, 2⟩]

/-- R235, the rows of part 1 up to the owner id. -/
def part1FieldsLow : List FieldRow :=
  [⟨0x10, "P1_XP1", .p1, 0x00, 3⟩, ⟨0x11, "P1_MONEY", .p1, 0x03, 2⟩,
   ⟨0x12, "P1_PORTAL_SECONDS", .p1, 0x05, 4⟩, ⟨0x13, "P1_SEQ", .p1, 0x09, 1⟩,
   ⟨0x14, "P1_CSUM3", .p1, 0x0A, 2⟩, ⟨0x15, "P1_CSUM2", .p1, 0x0C, 2⟩,
   ⟨0x16, "P1_CSUM1", .p1, 0x0E, 2⟩, ⟨0x17, "P1_UPGRADES", .p1, 0x10, 3⟩,
   ⟨0x18, "P1_PLATFORM_A", .p1, 0x13, 1⟩, ⟨0x19, "P1_HAT_LO", .p1, 0x14, 2⟩,
   ⟨0x1A, "P1_P2_PRESENT", .p1, 0x16, 1⟩, ⟨0x1B, "P1_PLATFORM_B", .p1, 0x17, 1⟩,
   ⟨0x1C, "P1_OWNER_ID", .p1, 0x18, 8⟩]

/-- R235, the rows of part 1 from the write-timestamp on (R232 gives the timestamps' fields). -/
def part1FieldsHigh : List FieldRow :=
  [⟨0x1D, "P1_WRITE_MINUTE", .p1, 0x40, 1⟩, ⟨0x1E, "P1_WRITE_HOUR", .p1, 0x41, 1⟩,
   ⟨0x1F, "P1_WRITE_DAY", .p1, 0x42, 1⟩, ⟨0x20, "P1_WRITE_MONTH", .p1, 0x43, 1⟩,
   ⟨0x21, "P1_WRITE_YEAR", .p1, 0x44, 2⟩, ⟨0x22, "P1_HEROIC_LO", .p1, 0x46, 4⟩,
   ⟨0x23, "P1_HERO_POINTS", .p1, 0x4A, 2⟩, ⟨0x24, "P1_BUILD_DATE", .p1, 0x4C, 3⟩,
   ⟨0x25, "P1_OWNER_COUNT", .p1, 0x4F, 1⟩, ⟨0x26, "P1_RESET_MINUTE", .p1, 0x50, 1⟩,
   ⟨0x27, "P1_RESET_HOUR", .p1, 0x51, 1⟩, ⟨0x28, "P1_RESET_DAY", .p1, 0x52, 1⟩,
   ⟨0x29, "P1_RESET_MONTH", .p1, 0x53, 1⟩, ⟨0x2A, "P1_RESET_YEAR", .p1, 0x54, 2⟩,
   ⟨0x2B, "P1_CHALLENGE_LEVEL", .p1, 0x6C, 4⟩]

/-- R235, the rows of part 2. -/
def part2Fields : List FieldRow :=
  [⟨0x40, "P2_CSUM4", .p2, 0x00, 2⟩, ⟨0x41, "P2_SEQ", .p2, 0x02, 1⟩,
   ⟨0x42, "P2_XP2", .p2, 0x03, 2⟩, ⟨0x43, "P2_HAT_B2", .p2, 0x05, 1⟩,
   ⟨0x44, "P2_FLAGS", .p2, 0x06, 2⟩, ⟨0x45, "P2_XP3", .p2, 0x08, 4⟩,
   ⟨0x46, "P2_HAT_B3", .p2, 0x0C, 1⟩, ⟨0x47, "P2_TRINKET", .p2, 0x0D, 1⟩,
   ⟨0x48, "P2_HAT_B4", .p2, 0x0E, 1⟩, ⟨0x49, "P2_RESERVED_0F", .p2, 0x0F, 1⟩,
   ⟨0x4A, "P2_BATTLEGROUND", .p2, 0x10, 4⟩, ⟨0x4B, "P2_HEROIC_HI", .p2, 0x14, 3⟩]

/-- The field table of R235: 46 rows. -/
def fieldTable : List FieldRow :=
  headerFields ++ part1FieldsLow ++ part1FieldsHigh ++ part2Fields

/-- The row of a field id; none for an undefined one. -/
def fieldRow (fid : Byte) : Option FieldRow := fieldTable.find? fun r => r.fid == fid.toNat

/-- FIELD_GET and FIELD_PUT (R240, R241): the row, when the FID is defined and BIT is 0. -/
def fieldOperand (fid bit : Byte) : Option FieldRow :=
  match fieldRow fid with
  | some r => if bit = 0 then some r else none
  | none => none

/-- BIT_GET, BIT_SET and BIT_CLR (R242): the row, when the FID is defined and BIT is in the field. -/
def bitOperand (fid bit : Byte) : Option FieldRow :=
  match fieldRow fid with
  | some r => if bit.toNat < 8 * r.width then some r else none
  | none => none

/-- SECTOR_KEY (R190): 0..15. -/
def sectorLegal (s : Byte) : Bool := decide (s.toNat ≤ 15)

/-- BLOCK_KEY, BLK_ENC, BLK_DEC (R191 to R193): 0..63. -/
def blockLegal (n : Byte) : Bool := decide (n.toNat ≤ 63)

/-- BLOCK_MAP (R271): 0..10. -/
def indexLegal (i : BitVec 4) : Bool := decide (i.toNat ≤ 10)

end Sys2Proof.Machine
end

