-- ==== Sys2Proof/Machine/Ops.lean ====
section
/-! DEFINITION. The shared operations: memory, the local space (spec/20_memory.md), acceptance
(spec/10_state.md R51), completion and raise (spec/60_exceptions.md R340, R333), refusal of a bus
access (R85). -/

namespace Sys2Proof.Machine

/-- The canonical form of a memory: addresses strictly rising, and no cell holding 00. -/
abbrev Memory.wf (m : Memory) : Prop :=
  m.Pairwise (fun x y => x.1 < y.1) ∧ ∀ c ∈ m, c.2 ≠ 0

/-- The byte at an address; an unlisted one reads 00. -/
def Memory.get : Memory → Nat → Byte
  | [], _ => 0
  | c :: t, a => if c.1 = a then c.2 else Memory.get t a

/-- A cell put in its place by address. -/
def insertCell (a : Nat) (b : Byte) : Memory → Memory
  | [] => [(a, b)]
  | c :: t => if a < c.1 then (a, b) :: c :: t else c :: insertCell a b t

/-- One byte written. Writing 00 removes the cell. -/
def Memory.set (m : Memory) (a : Nat) (b : Byte) : Memory :=
  let rest := m.filter fun c => c.1 != a
  if b = 0 then rest else insertCell a b rest

/-- A byte string written at consecutive addresses. -/
def Memory.write : Memory → Nat → List Byte → Memory
  | m, _, [] => m
  | m, a, b :: t => Memory.write (m.set a b) (a + 1) t

/-- The n bytes at consecutive addresses. -/
def Memory.bytes (m : Memory) (a n : Nat) : List Byte :=
  (List.range n).map fun k => m.get (a + k)

/-- One byte of the local space (R14's MemRead(a, 1)). KSUF and K0 hold parameters (R40). A
register or reserved address reads 00: no command reads one (R89, R160, log 17). -/
def State.byte (s : State) (a : Nat) : Byte :=
  if Buffer.ksuf.holds a then byteAt Config.keySuffix.toList (a - Buffer.ksuf.base)
  else if Buffer.k0.holds a then byteAt Config.sector0Key.toList (a - Buffer.k0.base)
  else s.mem.get a

/-- MemRead(a, n) (R14). -/
def State.memRead (s : State) (a n : Nat) : List Byte := (List.range n).map fun k => s.byte (a + k)

/-- MemWrite(a, len(bs), bs) (R14). -/
def State.memWrite (s : State) (a : Nat) (bs : List Byte) : State :=
  { s with mem := s.mem.write a bs }

/-- The whole of a buffer. -/
def State.buf (s : State) (b : Buffer) : List Byte := s.memRead b.base b.size

/-- One byte of a buffer. -/
def State.bufByte (s : State) (b : Buffer) (o : Nat) : Byte := s.byte (b.base + o)

/-- buf[off..off+len(bs)) <- bs. -/
def State.bufWrite (s : State) (b : Buffer) (off : Nat) (bs : List Byte) : State :=
  s.memWrite (b.base + off) bs

/-- RES0 <- v. -/
def State.withRes0 (s : State) (v : Word) : State := { s with res0 := v }

/-- RES1 <- v. -/
def State.withRes1 (s : State) (v : Word) : State := { s with res1 := v }

/-- FVAL <- v. -/
def State.withFval (s : State) (v : BitVec 64) : State := { s with fval := v }

/-- RECON <- v. -/
def State.withRecon (s : State) (v : Word) : State := { s with recon := v }

/-- SEQ <- v. -/
def State.withSeq (s : State) (v : Word) : State := { s with seq := v }

/-- XSTAT <- v. -/
def State.withXstat (s : State) (v : Word) : State := { s with xstat := v }

/-- The tag replaced: a move of the transport agent (R53). -/
def State.withTag (s : State) (m : Memory) : State := { s with tag := m }

/-- The 16 bytes of tag block n: bytes [16n, 16n+16) of the dump (R90). -/
def tagBlock (tag : Memory) (n : Nat) : Block := toVec 16 (tag.bytes (16 * n) 16)

/-- The tag with block n replaced. -/
def setTagBlock (tag : Memory) (n : Nat) (d : Block) : Memory := tag.write (16 * n) d.toList

/-- The completion of every command, finish(code) (R340): the trap-entry analogue. IRQ follows, since
it is computed from DONE (R343). -/
def finish (code : ErrCode) (s : State) : State :=
  { s with err := code, done := true, phase := .idle }

/-- raise E(BLOCK, STAGE, PORT) (R333): the information register, then completion. -/
def raise (code : ErrCode) (block : Nat) (stage : Stage) (port : PortCause) (s : State) : State :=
  finish code (s.withXstat (xstatWord block stage port))

/-- The acceptance of a command word (R51). -/
def accept (w : Word) (s : State) : State :=
  { s with done := false, err := .ok, xstat := 0, phase := .busy w .accepted none }

/-- A refused host access: no effect but BUSERR (R85). -/
def refuseAccess (s : State) : State := { s with busErr := true }

/-- A CMD write while BUSY: no effect but OVR (R51). -/
def overrun (s : State) : State := { s with ovr := true }

/-- The reset event (R370): every register, field and RAM buffer at its reset value, the phase IDLE,
the outstanding request abandoned. The tag, the transport and the host are not the block's. -/
def resetEvent (s : State) : State :=
  { State.reset with
    tag := s.tag, inputs := s.inputs, readData := s.readData, freeReads := s.freeReads }

end Sys2Proof.Machine
end

