-- ==== Sys2Proof/Machine/Crc.lean ====
section
/-! DEFINITION. The checksum generator (spec/40_crc.md): the fold functions, the seven CRC commands and
the two computing bus operations. -/

namespace Sys2Proof.Machine

/-- One of the eight shifts of R151. -/
def crc16Shift (c : BitVec 16) : BitVec 16 := if c.msb then (c <<< 1) ^^^ 0x1021 else c <<< 1

/-- crc16_byte(c, b) (R151). -/
def crc16Byte (c : BitVec 16) (b : Byte) : BitVec 16 :=
  Nat.iterate crc16Shift 8 (c ^^^ (b.setWidth 16 <<< 8))

/-- crc16_from(c, s) (R151). -/
def crc16From (c : BitVec 16) (s : List Byte) : BitVec 16 := s.foldl crc16Byte c

/-- The CRC16 initial value (R150). -/
def crc16Start : BitVec 16 := 0xFFFF

/-- crc16(s) (R151). -/
def crc16Of (s : List Byte) : BitVec 16 := crc16From crc16Start s

/-- One of the eight shifts of R153. -/
def crc48Shift (c : BitVec 48) : BitVec 48 :=
  if c.msb then (c <<< 1) ^^^ 0xE1EBA9EA3693 else c <<< 1

/-- crc48_byte(c, b) (R153). -/
def crc48Byte (c : BitVec 48) (b : Byte) : BitVec 48 :=
  Nat.iterate crc48Shift 8 (c ^^^ (b.setWidth 48 <<< 40))

/-- crc48_from(c, s) (R153). -/
def crc48From (c : BitVec 48) (s : List Byte) : BitVec 48 := s.foldl crc48Byte c

/-- The CRC48 initial value (R152): 2*2*3*1103*12868356821. -/
def crc48Start : BitVec 48 := BitVec.ofNat 48 (2 * 2 * 3 * 1103 * 12868356821)

/-- crc48(s) (R153). -/
def crc48Of (s : List Byte) : BitVec 48 := crc48From crc48Start s

/-- The CRC16 state folded over a string. -/
def State.foldCrc16 (s : State) (bs : List Byte) : State :=
  { s with crc16 := crc16From s.crc16 bs }

/-- The CRC48 state folded over a string. -/
def State.foldCrc48 (s : State) (bs : List Byte) : State :=
  { s with crc48 := crc48From s.crc48 bs }

/-- NOP (spec/30_encoding.md R117). -/
def execNop (s : State) : Host.Outcome State Fault Refusal := .next (finish .ok s)

/-- CRC16_INIT (R161). -/
def execCrc16Init (s : State) : Host.Outcome State Fault Refusal :=
  .next (finish .ok { s with crc16 := crc16Start })

/-- CRC16_RUN ADDR, LEN (R162). -/
def execCrc16Run (addr len : BitVec 12) (s : State) : Host.Outcome State Fault Refusal :=
  if rangeLegal addr.toNat len.toNat then
    .next (finish .ok (s.foldCrc16 (s.memRead addr.toNat len.toNat)))
  else .next (finish .badArg s)

/-- CRC16_ZERO LEN (R163). -/
def execCrc16Zero (len : BitVec 12) (s : State) : Host.Outcome State Fault Refusal :=
  .next (finish .ok (s.foldCrc16 (zeros len.toNat)))

/-- CRC16_CONST B (R164). -/
def execCrc16Const (arg : Byte) (s : State) : Host.Outcome State Fault Refusal :=
  .next (finish .ok (s.foldCrc16 [arg]))

/-- CRC48_INIT (R165). -/
def execCrc48Init (s : State) : Host.Outcome State Fault Refusal :=
  .next (finish .ok { s with crc48 := crc48Start })

/-- CRC48_RUN ADDR, LEN (R166). -/
def execCrc48Run (addr len : BitVec 12) (s : State) : Host.Outcome State Fault Refusal :=
  if rangeLegal addr.toNat len.toNat then
    .next (finish .ok (s.foldCrc48 (s.memRead addr.toNat len.toNat)))
  else .next (finish .badArg s)

/-- CRC48_CONST B (R167). -/
def execCrc48Const (arg : Byte) (s : State) : Host.Outcome State Fault Refusal :=
  .next (finish .ok (s.foldCrc48 [arg]))

/-- A write to CRC16_DATA (R168): refused while BUSY, and no completion, since it is no command. -/
def execCrc16DataWrite (word : Word) (s : State) : Host.Outcome State Fault Refusal :=
  if s.busy then .next (refuseAccess s) else .next (s.foldCrc16 [word.extractLsb' 0 8])

/-- A write to CRC48_DATA (R169). -/
def execCrc48DataWrite (word : Word) (s : State) : Host.Outcome State Fault Refusal :=
  if s.busy then .next (refuseAccess s) else .next (s.foldCrc48 [word.extractLsb' 0 8])

end Sys2Proof.Machine
end

