-- ==== Sys2Proof/Machine/Bus.lean ====
section
/-! DEFINITION. The host bus (spec/20_memory.md R80 to R88): what an access reaches, reads and writes. -/

namespace Sys2Proof.Machine

/-- The sixteen registers (spec/10_state.md R33). -/
inductive Register where
  | id | ctrl | status | cmd | res0 | res1 | crc16 | crc16Data
  | crc48Lo | crc48Hi | crc48Data | recon | fvalLo | fvalHi | seq | xstat
  deriving DecidableEq, Repr

/-- The registers by address: register k is at 4k (R33). -/
def allRegisters : List Register :=
  [.id, .ctrl, .status, .cmd, .res0, .res1, .crc16, .crc16Data] ++
  [.crc48Lo, .crc48Hi, .crc48Data, .recon, .fvalLo, .fvalHi, .seq, .xstat]

/-- The register a host write is refused to (R85 (b)). -/
def Register.readOnly : Register → Bool
  | .id | .res0 | .res1 | .recon | .seq | .xstat => true
  | .ctrl | .status | .cmd | .crc16 | .crc16Data | .crc48Lo | .crc48Hi | .crc48Data
  | .fvalLo | .fvalHi => false

/-- The registers a host read reaches while BUSY (R86). -/
def Register.readableBusy : Register → Bool
  | .id | .ctrl | .status => true
  | .cmd | .res0 | .res1 | .crc16 | .crc16Data | .crc48Lo | .crc48Hi | .crc48Data
  | .recon | .fvalLo | .fvalHi | .seq | .xstat => false

/-- n of an access (R80). -/
def Width.bytes : Width → Nat
  | .w1 => 1
  | .w2 => 2
  | .w4 => 4

/-- What an access that breaks no rule of R81, R82 or R83 reaches. -/
inductive Target where
  | reg (r : Register)
  | buf (b : Buffer)
  deriving DecidableEq, Repr

/-- The target of an access; none for one that R81, R82 or R83 refuses. -/
def target (addr : BitVec 12) (n : Width) : Option Target :=
  let a := addr.toNat
  if a < 0x040 then
    if n = .w4 ∧ a % 4 = 0 then (allRegisters[a / 4]?).map .reg else none
  else
    match bufferAt a with
    | some b => if a % n.bytes = 0 ∧ b.holds (a + n.bytes - 1) then some (.buf b) else none
    | none => none

/-- A register as a host read sees it (R33 to R45); a write-only one reads 0 (R85). -/
def State.readReg (s : State) : Register → Word
  | .id => idWord
  | .ctrl => s.ctrlWord
  | .status => s.statusWord
  | .cmd => 0
  | .res0 => s.res0
  | .res1 => s.res1
  | .crc16 => s.crc16Word
  | .crc16Data => 0
  | .crc48Lo => s.crc48LoWord
  | .crc48Hi => s.crc48HiWord
  | .crc48Data => 0
  | .recon => s.recon
  | .fvalLo => s.fvalLo
  | .fvalHi => s.fvalHi
  | .seq => s.seq
  | .xstat => s.xstat

/-- The low n bytes of a value (R80). -/
def truncate (n : Width) (v : Word) : Word :=
  match n with
  | .w1 => (v.extractLsb' 0 8).setWidth 32
  | .w2 => (v.extractLsb' 0 16).setWidth 32
  | .w4 => v

/-- An arbitrary value drawn by a busy read (R86, U-9, log 5). -/
def arbitraryRead (n : Width) (s : State) : State :=
  { s with readData := truncate n (Config.busyRead s.freeReads), freeReads := s.freeReads + 1 }

/-- HostRead(a, n) (R80 to R87): the value goes to the host, and nothing else changes, but that a
refused read sets BUSERR and returns 0 (R85). -/
def hostRead (addr : BitVec 12) (n : Width) (s : State) : State :=
  match target addr n with
  | none => { refuseAccess s with readData := 0 }
  | some (.reg r) =>
    if s.busy && !r.readableBusy then arbitraryRead n s else { s with readData := s.readReg r }
  | some (.buf _) =>
    if s.busy then arbitraryRead n s
    else { s with readData := BitVec.ofNat 32 (leNat (s.memRead addr.toNat n.bytes)) }

/-- A host write of w to a register that takes it, while not BUSY (R34 to R45). -/
def State.writeReg (s : State) (r : Register) (w : Word) : State :=
  match r with
  | .ctrl => s.writeCtrl w
  | .status => s.writeStatus w
  | .cmd => accept w s
  | .crc16 => s.writeCrc16 w
  | .crc16Data => s.foldCrc16 [w.extractLsb' 0 8]
  | .crc48Lo => s.writeCrc48Lo w
  | .crc48Hi => s.writeCrc48Hi w
  | .crc48Data => s.foldCrc48 [w.extractLsb' 0 8]
  | .fvalLo => s.writeFvalLo w
  | .fvalHi => s.writeFvalHi w
  | .id | .res0 | .res1 | .recon | .seq | .xstat => refuseAccess s

/-- A host write to a register that no access rule refuses (R85, R86, R51). -/
def hostWriteReg (r : Register) (w : Word) (s : State) : State :=
  match r with
  | .status => s.writeStatus w
  | .cmd => if s.busy then overrun s else accept w s
  | .id | .ctrl | .res0 | .res1 | .crc16 | .crc16Data | .crc48Lo | .crc48Hi | .crc48Data
  | .recon | .fvalLo | .fvalHi | .seq | .xstat =>
    if s.busy || r.readOnly then refuseAccess s else s.writeReg r w

/-- HostWrite(a, n, v) (R80 to R87). -/
def hostWrite (addr : BitVec 12) (n : Width) (v : Word) (s : State) : State :=
  match target addr n with
  | none => refuseAccess s
  | some (.reg r) => hostWriteReg r v s
  | some (.buf b) =>
    if s.busy || !b.hostWritable then refuseAccess s
    else s.memWrite addr.toNat (leBytes n.bytes v.toNat)

end Sys2Proof.Machine
end

