-- ==== Sys2Proof/Machine/Codec.lean ====
section
/-! DEFINITION. The record codec's checksums and seals (spec/42_codec.md R210 to R231) and the six
checksum commands (R250 to R255). -/

namespace Sys2Proof.Machine

/-- HdrCrc(h) (R212). -/
def hdrCrc (h : List Byte) : BitVec 16 := crc16Of (slice h 0 0x1E)

/-- The 16-bit LE value stored at [i, i+2). -/
def stored16 (s : List Byte) (i : Nat) : BitVec 16 := BitVec.ofNat 16 (leNat (slice s i (i + 2)))

/-- s with a 16-bit value stored LE at [i, i+2). -/
def store16 (s : List Byte) (i : Nat) (v : BitVec 16) : List Byte := splice s i (leBytes 2 v.toNat)

/-- Whether a header is valid (R213). -/
def hdrValid (h : List Byte) : Bool := stored16 h 0x1E == hdrCrc h

/-- The sealed header (R214). -/
def hdrSealed (h : List Byte) : List Byte := store16 h 0x1E (hdrCrc h)

/-- checksum1 (R222). -/
def c1Of (p : List Byte) : BitVec 16 := crc16Of (slice p 0 0x0E ++ [5, 0])

/-- checksum2 (R223). -/
def c2Of (p : List Byte) : BitVec 16 := crc16Of (slice p 0x10 0x40)

/-- checksum3 (R224): the 0x30 bytes in front of an otherwise zeroed 0x110-byte string. -/
def c3Of (p : List Byte) : BitVec 16 := crc16Of (slice p 0x40 0x70 ++ zeros 0xE0)

/-- checksum4 (R225). -/
def c4Of (q : List Byte) : BitVec 16 := crc16Of ([6, 1] ++ slice q 0x02 0x40)

/-- The mismatch mask of P1Check (R228). -/
def p1Mask (p : List Byte) : BitVec 3 :=
  BitVec.ofBool (stored16 p 0x0A != c3Of p) ++ BitVec.ofBool (stored16 p 0x0C != c2Of p) ++
    BitVec.ofBool (stored16 p 0x0E != c1Of p)

/-- Whether a part-1 image is valid (R227). -/
def p1Valid (p : List Byte) : Bool := p1Mask p == 0

/-- Whether a part-2 image is valid (R227). -/
def p2Valid (q : List Byte) : Bool := stored16 q 0 == c4Of q

/-- P1Seal(p) (R229): checksum3, checksum2, then checksum1 over the two just stored. -/
def p1Sealed (p : List Byte) : List Byte :=
  let p3 := store16 p 0x0A (c3Of p)
  let p2 := store16 p3 0x0C (c2Of p3)
  store16 p2 0x0E (c1Of p2)

/-- P2Seal(q) (R231). -/
def p2Sealed (q : List Byte) : List Byte := store16 q 0 (c4Of q)

/-- Part 2 is present in a record whose part 1 has p[0x16] ≠ 0 (R230). -/
def part2Present (p : List Byte) : Bool := byteAt p 0x16 != 0

/-- HDR <- its sealed bytes. -/
def State.sealHdr (s : State) : State := s.bufWrite .hdr 0 (hdrSealed (s.buf .hdr))

/-- P1 <- P1Seal(P1). -/
def State.sealP1 (s : State) : State := s.bufWrite .p1 0 (p1Sealed (s.buf .p1))

/-- P2 <- P2Seal(P2). -/
def State.sealP2 (s : State) : State := s.bufWrite .p2 0 (p2Sealed (s.buf .p2))

/-- HDR_CHECK (R250). -/
def execHdrCheck (s : State) : Host.Outcome State Fault Refusal :=
  let h := s.buf .hdr
  .next (finish (if hdrValid h then .ok else .hdrChecksum)
    ((s.withRes0 ((hdrCrc h).setWidth 32)).withRes1 ((stored16 h 0x1E).setWidth 32)))

/-- HDR_SEAL (R251). -/
def execHdrSeal (s : State) : Host.Outcome State Fault Refusal :=
  .next (finish .ok (s.sealHdr.withRes0 ((hdrCrc (s.buf .hdr)).setWidth 32)))

/-- P1_CHECK (R252). -/
def execP1Check (s : State) : Host.Outcome State Fault Refusal :=
  let p := s.buf .p1
  .next (finish (if p1Valid p then .ok else .p1Checksum)
    ((s.withRes0 (c2Of p ++ c1Of p)).withRes1 (0#13 ++ p1Mask p ++ c3Of p)))

/-- P1_SEAL (R253): the values reported are those stored. -/
def execP1Seal (s : State) : Host.Outcome State Fault Refusal :=
  let p := p1Sealed (s.buf .p1)
  .next (finish .ok
    ((s.sealP1.withRes0 (stored16 p 0x0C ++ stored16 p 0x0E)).withRes1
      ((stored16 p 0x0A).setWidth 32)))

/-- P2_CHECK (R254): done whatever P1[0x16] says. -/
def execP2Check (s : State) : Host.Outcome State Fault Refusal :=
  let q := s.buf .p2
  .next (finish (if p2Valid q then .ok else .p2Checksum)
    ((s.withRes0 ((c4Of q).setWidth 32)).withRes1 ((stored16 q 0).setWidth 32)))

/-- P2_SEAL (R255). -/
def execP2Seal (s : State) : Host.Outcome State Fault Refusal :=
  .next (finish .ok (s.sealP2.withRes0 ((c4Of (s.buf .p2)).setWidth 32)))

end Sys2Proof.Machine
end

