-- ==== Sys2Proof/Machine/Md5.lean ====
section
/-! DEFINITION. MD5 as spec/41_keys.md R184 defines it. -/

namespace Sys2Proof.Machine

/-- K[0..31] (R184). -/
def md5KLow : List Word :=
  [0xD76AA478, 0xE8C7B756, 0x242070DB, 0xC1BDCEEE, 0xF57C0FAF, 0x4787C62A, 0xA8304613, 0xFD469501] ++
  [0x698098D8, 0x8B44F7AF, 0xFFFF5BB1, 0x895CD7BE, 0x6B901122, 0xFD987193, 0xA679438E, 0x49B40821] ++
  [0xF61E2562, 0xC040B340, 0x265E5A51, 0xE9B6C7AA, 0xD62F105D, 0x02441453, 0xD8A1E681, 0xE7D3FBC8] ++
  [0x21E1CDE6, 0xC33707D6, 0xF4D50D87, 0x455A14ED, 0xA9E3E905, 0xFCEFA3F8, 0x676F02D9, 0x8D2A4C8A]

/-- K[32..63] (R184). -/
def md5KHigh : List Word :=
  [0xFFFA3942, 0x8771F681, 0x6D9D6122, 0xFDE5380C, 0xA4BEEA44, 0x4BDECFA9, 0xF6BB4B60, 0xBEBFBC70] ++
  [0x289B7EC6, 0xEAA127FA, 0xD4EF3085, 0x04881D05, 0xD9D4D039, 0xE6DB99E5, 0x1FA27CF8, 0xC4AC5665] ++
  [0xF4292244, 0x432AFF97, 0xAB9423A7, 0xFC93A039, 0x655B59C3, 0x8F0CCC92, 0xFFEFF47D, 0x85845DD1] ++
  [0x6FA87E4F, 0xFE2CE6E0, 0xA3014314, 0x4E0811A1, 0xF7537E82, 0xBD3AF235, 0x2AD7D2BB, 0xEB86D391]

/-- K[i] (R184). -/
def md5K (i : Nat) : Word := (md5KLow ++ md5KHigh).getD i 0

/-- The four rotation amounts of each of the four groups of sixteen (R184). -/
def md5SGroups : List (List Nat) := [[7, 12, 17, 22], [5, 9, 14, 20], [4, 11, 16, 23], [6, 10, 15, 21]]

/-- S[i] (R184). -/
def md5S (i : Nat) : Nat := (md5SGroups.getD (i / 16) []).getD (i % 4) 0

/-- The four state words of MD5. -/
structure Md5State where
  a : Word
  b : Word
  c : Word
  d : Word
  deriving DecidableEq, Repr

/-- The initial (A, B, C, D) (R184). -/
def md5Start : Md5State := ⟨0x67452301, 0xEFCDAB89, 0x98BADCFE, 0x10325476⟩

/-- f of round i (R184). -/
def md5F (i : Nat) (x : Md5State) : Word :=
  if i < 16 then (x.b &&& x.c) ||| (~~~x.b &&& x.d)
  else if i < 32 then (x.d &&& x.b) ||| (~~~x.d &&& x.c)
  else if i < 48 then x.b ^^^ x.c ^^^ x.d
  else x.c ^^^ (x.b ||| ~~~x.d)

/-- g of round i (R184). -/
def md5G (i : Nat) : Nat :=
  if i < 16 then i
  else if i < 32 then (5 * i + 1) % 16
  else if i < 48 then (3 * i + 5) % 16
  else (7 * i) % 16

/-- Round i over the sixteen message words (R184). -/
def md5Round (m : List Word) (x : Md5State) (i : Nat) : Md5State :=
  let f := md5F i x + x.a + md5K i + m.getD (md5G i) 0
  ⟨x.d, x.b + f.rotateLeft (md5S i), x.b, x.c⟩

/-- The sixteen little-endian words of a 64-byte chunk (R184). -/
def md5Words (q : List Byte) : List Word :=
  (List.range 16).map fun j => BitVec.ofNat 32 (leNat (slice q (4 * j) (4 * j + 4)))

/-- One chunk (R184). -/
def md5Chunk (x : Md5State) (q : List Byte) : Md5State :=
  let y := (List.range 64).foldl (md5Round (md5Words q)) x
  ⟨x.a + y.a, x.b + y.b, x.c + y.c, x.d + y.d⟩

/-- The padded message (R184): the least k ≥ 0 that makes the length a multiple of 64. -/
def md5Pad (s : List Byte) : List Byte :=
  s ++ [0x80] ++ zeros ((64 - (s.length + 9) % 64) % 64) ++ leBytes 8 (s.length * 8)

/-- The first n 64-byte chunks. -/
def md5Chunks : Nat → List Byte → List (List Byte)
  | 0, _ => []
  | n + 1, m => m.take 64 :: md5Chunks n (m.drop 64)

/-- MD5(s) (R184). -/
def md5 (s : List Byte) : List Byte :=
  let m := md5Pad s
  let x := (md5Chunks (m.length / 64) m).foldl md5Chunk md5Start
  leBytes 4 x.a.toNat ++ leBytes 4 x.b.toNat ++ leBytes 4 x.c.toNat ++ leBytes 4 x.d.toNat

end Sys2Proof.Machine
end

