-- ==== Sys2Proof/Machine/Keys.lean ====
section
/-! DEFINITION. The key derivation engine and the cipher step (spec/41_keys.md). -/

namespace Sys2Proof.Machine

/-- SectorKey(i, uid) (R180), over the bytes of K0. -/
def sectorKeyOf (k0 : List Byte) (i : Nat) (uid : List Byte) : List Byte :=
  if i = 0 then k0 else leBytes 6 (crc48Of (uid ++ [BitVec.ofNat 8 i])).toNat

/-- BlockKey(h, n) (R182), over the bytes of KSUF. -/
def blockKeyOf (ksuf h : List Byte) (n : Nat) : Block :=
  toVec 16 (md5 (h ++ [BitVec.ofNat 8 n] ++ ksuf))

/-- SectorKey(i, UID) with the UID and K0 of the state. -/
def State.sectorKey (s : State) (i : Nat) : List Byte := sectorKeyOf (s.buf .k0) i (s.buf .uid)

/-- BlockKey(HDR, n) with the HDR and KSUF of the state (R379). -/
def State.blockKey (s : State) (n : Nat) : Block := blockKeyOf (s.buf .ksuf) (s.buf .hdr) n

/-- EncBlock(HDR, n, p) (R185). -/
def State.encBlock (s : State) (n : Nat) (p : Block) : Block := cipherE (s.blockKey n) p

/-- DecBlock(HDR, n, c) (R185). -/
def State.decBlock (s : State) (n : Nat) (c : Block) : Block := cipherD (s.blockKey n) c

/-- SECTOR_KEY S (R190). -/
def execSectorKey (sector : Byte) (s : State) : Host.Outcome State Fault Refusal :=
  if sectorLegal sector then
    let k := s.sectorKey sector.toNat
    .next (finish .ok
      (((s.bufWrite .skey 0 k).withRes0 (BitVec.ofNat 32 (leNat (slice k 0 4)))).withRes1
        (BitVec.ofNat 32 (leNat (slice k 4 6)))))
  else .next (finish .badArg s)

/-- BLOCK_KEY N (R191). -/
def execBlockKey (block : Byte) (s : State) : Host.Outcome State Fault Refusal :=
  if blockLegal block then
    .next (finish .ok (s.bufWrite .bkey 0 (s.blockKey block.toNat).toList))
  else .next (finish .badArg s)

/-- The common body of BLK_ENC and BLK_DEC (R192, R193): BKEY, then BLK through the cipher step. -/
def cipherStep (f : Block → Block → Block) (block : Byte) (s : State) : State :=
  if blockLegal block then
    let k := s.blockKey block.toNat
    let x := f k (toVec 16 (s.buf .blk))
    finish .ok ((s.bufWrite .bkey 0 k.toList).bufWrite .blk 0 x.toList)
  else finish .badArg s

/-- BLK_ENC N (R192). -/
def execBlkEnc (block : Byte) (s : State) : Host.Outcome State Fault Refusal :=
  .next (cipherStep cipherE block s)

/-- BLK_DEC N (R193). -/
def execBlkDec (block : Byte) (s : State) : Host.Outcome State Fault Refusal :=
  .next (cipherStep cipherD block s)

end Sys2Proof.Machine
end

