-- ==== Sys2Proof/Machine/Arbiter.lean ====
section
/-! DEFINITION. The block map, reconciliation and WriteCurrent (spec/43_arbiter.md R270 to R276,
R285), with BLOCK_MAP and SEQ_RECONCILE. -/

namespace Sys2Proof.Machine

/-- The other region. -/
def otherRegion : Region → Region
  | .a => .b
  | .b => .a

/-- P_REGION_A_BASE or P_REGION_B_BASE (R270). -/
def regionBase : Region → Nat
  | .a => Config.regionBases.a
  | .b => Config.regionBases.b

/-- Map(b, i) (R270): one trailer is skipped for every three data blocks. -/
def mapBlock (b i : Nat) : Nat := b + i + i / 3

/-- The tag block of logical index i of a region (R270). -/
def regionBlock (r : Region) (i : Nat) : Nat := mapBlock (regionBase r) i

/-- The buffer of a region's image (R274). -/
def imageBuf : Region → Buffer
  | .a => .ra
  | .b => .rb

/-- The outcomes of R272, and NOT_ATTEMPTED, which READ_RECORD alone assigns. -/
inductive Choice where
  | absent | fromA | fromB | ambiguous | notAttempted
  deriving DecidableEq, Repr

/-- The outcome codes (R42, R272). -/
def Choice.code : Choice → BitVec 3
  | .absent => 0 | .fromA => 1 | .fromB => 2 | .ambiguous => 3 | .notAttempted => 4

/-- The region a choice selects. -/
def Choice.selects : Choice → Option Region
  | .fromA => some .a
  | .fromB => some .b
  | .absent | .ambiguous | .notAttempted => none

/-- Reconcile(vA, sA, vB, sB, eq) (R272, R275). -/
def reconcile (vA : Bool) (sA : Byte) (vB : Bool) (sB : Byte) (eq : Bool) : Choice :=
  if vA && vB then
    let d := sA - sB
    if d = 1 then .fromA
    else if d = 255 then .fromB
    else if d = 0 ∧ eq = true then .fromA
    else .ambiguous
  else if vA then .fromA
  else if vB then .fromB
  else .absent

/-- WriteCurrent(sA, sB) (R285): modular on a healthy pair, else the numeric maximum, tie to A. -/
def writeCurrent (sA sB : Byte) : Region :=
  let d := sA - sB
  if d = 1 then .a
  else if d = 255 then .b
  else if sB ≤ sA then .a
  else .b

/-- The region to write, the stale one (R285). -/
def staleRegion (sA sB : Byte) : Region := otherRegion (writeCurrent sA sB)

/-- The new sequence byte, (s_current + 1) mod 256 (R285). -/
def nextSequence (sA sB : Byte) : Byte :=
  match writeCurrent sA sB with
  | .a => sA + 1
  | .b => sB + 1

/-- BLOCK_MAP INDEX, REGION (R271). -/
def execBlockMap (index : BitVec 4) (region : Region) (s : State) :
    Host.Outcome State Fault Refusal :=
  if indexLegal index then
    let n := regionBlock region index.toNat
    .next (finish .ok ((s.withRes0 (BitVec.ofNat 32 n)).withRes1 (BitVec.ofNat 32 (n / 4))))
  else .next (finish .badArg s)

/-- SEQ_RECONCILE (R273). -/
def execSeqReconcile (s : State) : Host.Outcome State Fault Refusal :=
  let sA : Byte := s.fval.extractLsb' 0 8
  let sB : Byte := s.fval.extractLsb' 8 8
  let o := reconcile (s.fval.getLsbD 16) sA (s.fval.getLsbD 17) sB s.eqPolicy
  .next (finish (if o = .ambiguous then .ambiguousSequence else .ok)
    ((s.withRes0 (o.code.setWidth 32)).withRes1 ((sA - sB).setWidth 32)))

end Sys2Proof.Machine
end

