-- ==== Sys2Proof/Machine/Fields.lean ====
section
/-! DEFINITION. The field, bit and nickname commands (spec/42_codec.md R235 to R247). -/

namespace Sys2Proof.Machine

/-- The bytes of a field (R236). -/
def State.fieldBytes (s : State) (r : FieldRow) : List Byte :=
  s.memRead (r.buf.base + r.off) r.width

/-- FIELD_GET FID (R240). -/
def execFieldGet (fid bit : Byte) (s : State) : Host.Outcome State Fault Refusal :=
  match fieldOperand fid bit with
  | none => .next (finish .badArg s)
  | some r => .next (finish .ok (s.withFval (BitVec.ofNat 64 (leNat (s.fieldBytes r)))))

/-- FIELD_PUT FID (R241): a value that does not fit writes nothing. -/
def execFieldPut (fid bit : Byte) (s : State) : Host.Outcome State Fault Refusal :=
  match fieldOperand fid bit with
  | none => .next (finish .badArg s)
  | some r =>
    if s.fval.toNat < 256 ^ r.width then
      .next (finish .ok (s.bufWrite r.buf r.off (leBytes r.width s.fval.toNat)))
    else .next (finish .badArg s)

/-- The byte with its bit i set or cleared, and no other bit changed. -/
def putBit (b : Byte) (i : Nat) (v : Bool) : Byte :=
  let one : Byte := 1#8 <<< i
  if v then b ||| one else b &&& ~~~one

/-- BIT_GET FID, BIT (R242). -/
def execBitGet (fid bit : Byte) (s : State) : Host.Outcome State Fault Refusal :=
  match bitOperand fid bit with
  | none => .next (finish .badArg s)
  | some r =>
    let b := s.bufByte r.buf (r.off + bit.toNat / 8)
    .next (finish .ok (s.withRes0 ((BitVec.ofBool (b.getLsbD (bit.toNat % 8))).setWidth 32)))

/-- The common body of BIT_SET and BIT_CLR (R243, R244). -/
def bitPut (v : Bool) (fid bit : Byte) (s : State) : State :=
  match bitOperand fid bit with
  | none => finish .badArg s
  | some r =>
    let o := r.off + bit.toNat / 8
    finish .ok (s.bufWrite r.buf o [putBit (s.bufByte r.buf o) (bit.toNat % 8) v])

/-- BIT_SET FID, BIT (R243). -/
def execBitSet (fid bit : Byte) (s : State) : Host.Outcome State Fault Refusal :=
  .next (bitPut true fid bit s)

/-- BIT_CLR FID, BIT (R244). -/
def execBitClr (fid bit : Byte) (s : State) : Host.Outcome State Fault Refusal :=
  .next (bitPut false fid bit s)

/-- The sixteen character slots of the nickname field, P1[0x20 + 2k] (R237). -/
def State.nickChars (s : State) : List Byte :=
  (List.range 16).map fun k => s.bufByte .p1 (0x20 + 2 * k)

/-- The sixteen interleaved bytes of the nickname field, P1[0x21 + 2k] (R237). -/
def State.nickGaps (s : State) : List Byte :=
  (List.range 16).map fun k => s.bufByte .p1 (0x21 + 2 * k)

/-- The least index holding 00, or the length if there is none (R246, R247). -/
def nameLength : List Byte → Nat
  | [] => 0
  | c :: t => if c = 0 then 0 else nameLength t + 1

/-- NICK_UNPACK (R246). -/
def execNickUnpack (s : State) : Host.Outcome State Fault Refusal :=
  let broken := s.nickGaps.any fun b => b != 0
  .next (finish .ok
    (((s.bufWrite .name 0 s.nickChars).withRes0
      (BitVec.ofNat 32 (nameLength s.nickChars))).withRes1 ((BitVec.ofBool broken).setWidth 32)))

/-- The 32 bytes of the nickname field for a name of n characters (R247). -/
def nickField (name : List Byte) (n : Nat) : List Byte :=
  (List.range 16).flatMap fun k => [if k < n then byteAt name k else 0, 0]

/-- NICK_PACK (R247): a name of 15 or 16 characters writes nothing. -/
def execNickPack (s : State) : Host.Outcome State Fault Refusal :=
  let name := s.buf .name
  let n := nameLength name
  if 14 < n then .next (finish .badArg s)
  else
    .next (finish .ok
      ((s.bufWrite .p1 0x20 (nickField name n)).withRes0 (BitVec.ofNat 32 n)))

end Sys2Proof.Machine
end

