-- ==== Sys2Proof/Machine/Port.lean ====
section
/-! DEFINITION. The block port (spec/20_memory.md R95 to R98) and the two port commands READ_RECORD and
WRITE_RECORD (spec/43_arbiter.md R280 to R293), one step per transaction (spec/10_state.md R52): a
meaning runs the command up to its first request, and `onAnswer` runs it from an answer to the next
request or to its end (log 16). -/

namespace Sys2Proof.Machine

/-- The stage of a position (R334, R280, R286). -/
def Position.stage : Position → Stage
  | .accepted => .none
  | .readHdr0 | .readHdr1 _ => .hdrRead
  | .readRegion .a _ _ _ _ => .regionARead
  | .readRegion .b _ _ _ _ => .regionBRead
  | .wrRefresh0 _ | .wrRefresh1 _ _ => .hdrRead
  | .wrSeq _ _ _ _ _ => .seqRead
  | .wrPart1 _ _ _ _ | .wrRekey1 _ _ _ => .p1Write
  | .wrPart2 _ _ | .wrRekey2 _ _ => .p2Write
  | .wrIdent _ => .identityWrite

/-- The block-port guard (R97): no block past 63, no trailer, and no write to block 0. -/
def portGuard (n : Nat) (op : PortOp) : Bool :=
  decide (n < 64) && n % 4 != 3 &&
    match op with
    | .read => true
    | .write _ => n != 0

/-- A request issued, with the sector key of its block (R95), or BLOCK_GUARD (R97). -/
def issue (w : Word) (n : Nat) (op : PortOp) (pos : Position) (s : State) : State :=
  if portGuard n op then
    { s with phase := .busy w pos (some ⟨n, op, toVec 6 (s.sectorKey (n / 4))⟩) }
  else raise .blockGuard n pos.stage .none s

/-- The index after i, if it is one. -/
def nextIndex {n : Nat} (i : Fin n) : Option (Fin n) :=
  if h : i.val + 1 < n then some ⟨i.val + 1, h⟩ else none

/-! READ_RECORD. -/

/-- RECON (R42, R280). -/
def reconWord (o1 o2 : Choice) (hok v1A v1B v2A v2B okA okB : Bool) : Word :=
  0#17 ++ BitVec.ofBool okB ++ BitVec.ofBool okA ++ BitVec.ofBool v2B ++ BitVec.ofBool v2A ++
    BitVec.ofBool v1B ++ BitVec.ofBool v1A ++ BitVec.ofBool hok ++
    0#1 ++ o2.code ++ 0#1 ++ o1.code

/-- The completion code of READ_RECORD once every read is done (R282). -/
def readCode (authFail : Bool) (o1 o2 : Choice) (hok : Bool) : ErrCode :=
  if authFail then .authFailure
  else if o1 = .ambiguous ∨ o2 = .ambiguous then .ambiguousSequence
  else if hok then .ok
  else .hdrChecksum

/-- Bytes [i, j) of the selected region's image, or zeros (R280). -/
def State.selected (s : State) (o : Choice) (i j : Nat) : List Byte :=
  match o.selects with
  | some r => slice (s.buf (imageBuf r)) i j
  | none => zeros (j - i)

/-- v1A and v1B (R280): the region was read and its part 1 is valid. -/
def imageValid1 (ok : Bool) (img : List Byte) : Bool := ok && p1Valid (slice img 0 112)

/-- v2A and v2B (R280): the region was read and its part 2 is valid. -/
def imageValid2 (ok : Bool) (img : List Byte) : Bool := ok && p2Valid (slice img 112 176)

/-- o1 (R280), from the two images and whether each region was read. -/
def State.choice1 (s : State) (okA okB : Bool) : Choice :=
  reconcile (imageValid1 okA (s.buf .ra)) (byteAt (s.buf .ra) 0x09)
    (imageValid1 okB (s.buf .rb)) (byteAt (s.buf .rb) 0x09) s.eqPolicy

/-- o2 (R280): attempted when part 1 is selected and says that part 2 is present. -/
def State.choice2 (s : State) (o1 : Choice) (okA okB : Bool) : Choice :=
  if o1.selects.isSome && part2Present (s.selected o1 0 112) then
    reconcile (imageValid2 okA (s.buf .ra)) (byteAt (s.buf .ra) 0x72)
      (imageValid2 okB (s.buf .rb)) (byteAt (s.buf .rb) 0x72) s.eqPolicy
  else .notAttempted

/-- P1 and P2 loaded with what the two choices select (R280). -/
def State.loadRecord (s : State) (o1 o2 : Choice) : State :=
  (s.bufWrite .p1 0 (s.selected o1 0 112)).bufWrite .p2 0 (s.selected o2 112 176)

/-- READ_RECORD's RECON for the two choices (R280). -/
def State.reconValue (s : State) (o1 o2 : Choice) (hok okA okB : Bool) : Word :=
  reconWord o1 o2 hok (imageValid1 okA (s.buf .ra)) (imageValid1 okB (s.buf .rb))
    (imageValid2 okA (s.buf .ra)) (imageValid2 okB (s.buf .rb)) okA okB

/-- READ_RECORD's SEQ (R280). -/
def State.seqValue (s : State) : Word :=
  seqWord (byteAt (s.buf .ra) 0x09) (byteAt (s.buf .rb) 0x09) (byteAt (s.buf .ra) 0x72)
    (byteAt (s.buf .rb) 0x72)

/-- READ_RECORD from the validation on (R280, R281, R282). -/
def finishRead (hok okA okB authFail : Bool) (s : State) : State :=
  let o1 := s.choice1 okA okB
  let o2 := s.choice2 o1 okA okB
  finish (readCode authFail o1 o2 hok)
    (((s.loadRecord o1 o2).withRecon (s.reconValue o1 o2 hok okA okB)).withSeq s.seqValue)

/-- The start of a region's loop (R280): its image zeroed, index 0 requested. -/
def beginRegion (w : Word) (r : Region) (hok okA authFail : Bool) (s : State) : State :=
  issue w (regionBlock r 0) .read (.readRegion r 0 hok okA authFail)
    (s.bufWrite (imageBuf r) 0 (zeros 176))

/-- The end of region r's loop with its ok_R: region B follows A, and the validation follows B. -/
def endRegion (w : Word) (r : Region) (okR hok okA authFail : Bool) (s : State) : State :=
  match r with
  | .a => beginRegion w .b hok okR authFail s
  | .b => finishRead hok okA okR authFail s

/-- Both header blocks are read (R280): HDR, its check, and region A. -/
def headerRead (w : Word) (t0 t1 : Block) (s : State) : State :=
  let s1 := (s.bufWrite .hdr 0 t0.toList).bufWrite .hdr 16 t1.toList
  beginRegion w .a (hdrValid (s1.buf .hdr)) true false s1

/-- Index i of region r answered OK (R280): deciphered into the image, then the next index. -/
def regionBlockRead (w : Word) (r : Region) (i : Fin 11) (hok okA authFail : Bool) (n : Nat)
    (d : Block) (s : State) : State :=
  let s1 := s.bufWrite (imageBuf r) (16 * i.val) (s.decBlock n d).toList
  match nextIndex i with
  | some j => issue w (regionBlock r j.val) .read (.readRegion r j hok okA authFail) s1
  | none => endRegion w r true hok okA authFail s1

/-- Region r answered AUTH_FAIL at block n (R280): the first one is recorded, the rest of the region
is skipped. -/
def regionAuthFail (w : Word) (r : Region) (i : Fin 11) (hok okA authFail : Bool) (n : Nat)
    (s : State) : State :=
  let s1 :=
    if authFail then s
    else
      s.withXstat (xstatWord n (Position.readRegion r i hok okA authFail).stage .authFail)
  endRegion w r false hok okA true s1

/-- READ_RECORD (R280), up to its first request. -/
def execReadRecord (s : State) : Host.Outcome State Fault Refusal :=
  .next (issue (encode .readRecord).word 0 .read .readHdr0 ((s.withRecon 0).withSeq 0))

/-! WRITE_RECORD. -/

/-- The bit of RES0 for a part written to a region (R291). -/
def pieceBit (part2 : Bool) (r : Region) : Word :=
  match part2, r with
  | false, .a => 1
  | false, .b => 2
  | true, .a => 4
  | true, .b => 8

/-- RES0 <- RES0 | bits. -/
def State.orRes0 (s : State) (v : Word) : State := s.withRes0 (s.res0 ||| v)

/-- RES1 <- n1 | n2<<8 (R286, R291). -/
def sequenceWord (n1 n2 : Byte) : Word := 0#16 ++ n2 ++ n1

/-- Block i of the record (R274): part 1 for 0..6, part 2 for 7..10. -/
def State.recordBlock (s : State) (i : Nat) : Block :=
  if i < 7 then toVec 16 (slice (s.buf .p1) (16 * i) (16 * i + 16))
  else toVec 16 (slice (s.buf .p2) (16 * (i - 7)) (16 * (i - 7) + 16))

/-- PortWrite(Map(r, i), Enc(Map(r, i), block i of the record)) (R286). -/
def writeRecordBlock (w : Word) (r : Region) (i : Nat) (pos : Position) (s : State) : State :=
  let n := regionBlock r i
  issue w n (.write (s.encBlock n (s.recordBlock i))) pos s

/-- P1[0x09] <- n1; P1 <- P1Seal(P1) (R286). -/
def State.sealP1With (s : State) (n1 : Byte) : State := (s.bufWrite .p1 0x09 [n1]).sealP1

/-- P2[0x02] <- n2; P2 <- P2Seal(P2) (R286). -/
def State.sealP2With (s : State) (n2 : Byte) : State := (s.bufWrite .p2 0x02 [n2]).sealP2

/-- The record sealed with its new sequence bytes, which RES1 reports; part 2 when it is present (R286,
R288, R291). -/
def State.sealRecord (s : State) (p2 : Bool) (n1 n2 : Byte) : State :=
  if p2 then ((s.sealP1With n1).sealP2With n2).withRes1 (sequenceWord n1 n2)
  else (s.sealP1With n1).withRes1 (sequenceWord n1 0)

/-- The stale-region write (R290), from the four sequence bytes to its first request. -/
def beginStaleWrite (w : Word) (p2 : Bool) (s1A s1B s2A s2B : Byte) (s : State) : State :=
  writeRecordBlock w (staleRegion s1A s1B) 0
    (.wrPart1 p2 (staleRegion s1A s1B) (staleRegion s2A s2B) 0)
    ((s.withSeq (seqWord s1A s1B s2A s2B)).sealRecord p2 (nextSequence s1A s1B)
      (nextSequence s2A s2B))

/-- The re-key (R288), up to the write of the identity block. -/
def beginRekey (w : Word) (p2 : Bool) (s : State) : State :=
  issue w 1 (.write (toVec 16 (slice (s.buf .hdr) 16 32))) (.wrIdent p2) s

/-- The identity block is written (R288): both parts get sequence 1, and region A follows. -/
def identityWritten (w : Word) (p2 : Bool) (s : State) : State :=
  writeRecordBlock w .a 0 (.wrRekey1 p2 .a 0)
    ((s.withRes0 0x10).sealRecord p2 1 1)

/-- Blocks 0 and 1 are read (R287): the refresh and the comparison. -/
def refreshed (w : Word) (rw : Bool) (t0 t1 : Block) (s : State) : State :=
  let s1 := (s.bufWrite .hdr 0 t0.toList).sealHdr
  let p2 := part2Present (s1.buf .p1)
  if slice (s1.buf .hdr) 16 32 = t1.toList then
    issue w (regionBlock .a 0) .read (.wrSeq .a0 p2 0 0 0) s1
  else if rw then beginRekey w p2 s1
  else raise .identityMismatch 1 .compare .none s1

/-- A read of the sequence read answered OK (R289), in the order A0, A7, B0, B7. -/
def sequenceRead (w : Word) (slot : SeqSlot) (p2 : Bool) (s1A s2A s1B : Byte) (n : Nat)
    (d : Block) (s : State) : State :=
  let x := (s.decBlock n d).toList
  match slot with
  | .a0 =>
    if p2 then
      issue w (regionBlock .a 7) .read (.wrSeq .a7 p2 (byteAt x 0x09) s2A s1B) s
    else issue w (regionBlock .b 0) .read (.wrSeq .b0 p2 (byteAt x 0x09) 0 s1B) s
  | .a7 => issue w (regionBlock .b 0) .read (.wrSeq .b0 p2 s1A (byteAt x 0x02) s1B) s
  | .b0 =>
    if p2 then issue w (regionBlock .b 7) .read (.wrSeq .b7 p2 s1A s2A (byteAt x 0x09)) s
    else beginStaleWrite w p2 s1A (byteAt x 0x09) s2A 0 s
  | .b7 => beginStaleWrite w p2 s1A s1B s2A (byteAt x 0x02) s

/-- A write of part 1 to the stale region answered OK (R290, R291). -/
def part1Written (w : Word) (p2 : Bool) (stale1 stale2 : Region) (i : Fin 7) (s : State) : State :=
  match nextIndex i with
  | some j => writeRecordBlock w stale1 j.val (.wrPart1 p2 stale1 stale2 j) s
  | none =>
    let s1 := s.orRes0 (pieceBit false stale1)
    if p2 then writeRecordBlock w stale2 7 (.wrPart2 stale2 0) s1 else finish .ok s1

/-- A write of part 2 to the stale region answered OK (R290, R291). -/
def part2Written (w : Word) (stale2 : Region) (j : Fin 4) (s : State) : State :=
  match nextIndex j with
  | some k => writeRecordBlock w stale2 (7 + k.val) (.wrPart2 stale2 k) s
  | none => finish .ok (s.orRes0 (pieceBit true stale2))

/-- The end of the re-key of region r: region B follows A (R288). -/
def rekeyNext (w : Word) (p2 : Bool) (r : Region) (s : State) : State :=
  match r with
  | .a => writeRecordBlock w .b 0 (.wrRekey1 p2 .b 0) s
  | .b => finish .ok s

/-- A write of part 1 in the re-key answered OK (R288, R291). -/
def rekey1Written (w : Word) (p2 : Bool) (r : Region) (i : Fin 7) (s : State) : State :=
  match nextIndex i with
  | some j => writeRecordBlock w r j.val (.wrRekey1 p2 r j) s
  | none =>
    let s1 := s.orRes0 (pieceBit false r)
    if p2 then writeRecordBlock w r 7 (.wrRekey2 r 0) s1 else rekeyNext w p2 r s1

/-- A write of part 2 in the re-key answered OK (R288, R291); part 2 is present. -/
def rekey2Written (w : Word) (r : Region) (j : Fin 4) (s : State) : State :=
  match nextIndex j with
  | some k => writeRecordBlock w r (7 + k.val) (.wrRekey2 r k) s
  | none => rekeyNext w true r (s.orRes0 (pieceBit true r))

/-- WRITE_RECORD RW (R286), up to its first request. -/
def execWriteRecord (rw : Bool) (s : State) : Host.Outcome State Fault Refusal :=
  .next (issue (encode (.writeRecord rw)).word 0 .read (.wrRefresh0 rw)
    (((s.withRes0 0).withRes1 0).withSeq 0))

/-! Answers. -/

/-- The command goes on from an OK answer d to the request for block n. -/
def onOk (w : Word) (pos : Position) (n : Nat) (d : Block) (s : State) : State :=
  match pos with
  | .accepted => s
  | .readHdr0 => issue w 1 .read (.readHdr1 d) s
  | .readHdr1 t0 => headerRead w t0 d s
  | .readRegion r i hok okA authFail => regionBlockRead w r i hok okA authFail n d s
  | .wrRefresh0 rw => issue w 1 .read (.wrRefresh1 rw d) s
  | .wrRefresh1 rw t0 => refreshed w rw t0 d s
  | .wrSeq slot p2 s1A s2A s1B => sequenceRead w slot p2 s1A s2A s1B n d s
  | .wrPart1 p2 stale1 stale2 i => part1Written w p2 stale1 stale2 i s
  | .wrPart2 stale2 j => part2Written w stale2 j s
  | .wrIdent p2 => identityWritten w p2 s
  | .wrRekey1 p2 r i => rekey1Written w p2 r i s
  | .wrRekey2 r j => rekey2Written w r j s

/-- The command goes on from AUTH_FAIL: inside a region of READ_RECORD it skips the region (R280),
anywhere else it ends (R280, R292). -/
def onAuthFail (w : Word) (pos : Position) (n : Nat) (s : State) : State :=
  match pos with
  | .readRegion r i hok okA authFail => regionAuthFail w r i hok okA authFail n s
  | .accepted | .readHdr0 | .readHdr1 _ | .wrRefresh0 _ | .wrRefresh1 _ _ | .wrSeq _ _ _ _ _
  | .wrPart1 _ _ _ _ | .wrPart2 _ _ | .wrIdent _ | .wrRekey1 _ _ _ | .wrRekey2 _ _ =>
    raise .authFailure n pos.stage .authFail s

/-- One sequencer step of a port command: the answer to the outstanding request is taken. With no
request outstanding there is nothing to answer, and nothing happens (R370, log 9). -/
def onAnswer (a : Answer) (s : State) : State :=
  match s.phase with
  | .busy w pos (some req) =>
    match a with
    | .ok d => onOk w pos req.block d s
    | .authFail => onAuthFail w pos req.block s
    | .lost => raise .transportLost req.block pos.stage .lost s
  | .busy _ _ none => s
  | .idle => s

/-- The transport answers as IDEAL_TAG (R99): OK; a read returns the block, a write replaces it. -/
def onIdealAnswer (s : State) : State :=
  match s.phase with
  | .busy _ _ (some req) =>
    match req.op with
    | .read => onAnswer (.ok (tagBlock s.tag req.block)) s
    | .write d => onAnswer (.ok d) (s.withTag (setTagBlock s.tag req.block d))
  | .busy _ _ none => s
  | .idle => s

end Sys2Proof.Machine
end

