-- ==== Sys2Proof/Machine/Dispatch.lean ====
section
/-! DEFINITION. The meaning of each instruction, one arm per constructor (spec/30_encoding.md R113). -/

namespace Sys2Proof.Machine

def exec (i : Instr) (s : State) : Host.Outcome State Fault Refusal :=
  match i with
  | .nop => Sys2Proof.Machine.execNop s
  | .crc16Init => Sys2Proof.Machine.execCrc16Init s
  | .crc16Run addr len => Sys2Proof.Machine.execCrc16Run addr len s
  | .crc16Zero len => Sys2Proof.Machine.execCrc16Zero len s
  | .crc16Const arg => Sys2Proof.Machine.execCrc16Const arg s
  | .crc48Init => Sys2Proof.Machine.execCrc48Init s
  | .crc48Run addr len => Sys2Proof.Machine.execCrc48Run addr len s
  | .crc48Const arg => Sys2Proof.Machine.execCrc48Const arg s
  | .sectorKey sector => Sys2Proof.Machine.execSectorKey sector s
  | .blockKey block => Sys2Proof.Machine.execBlockKey block s
  | .blkEnc block => Sys2Proof.Machine.execBlkEnc block s
  | .blkDec block => Sys2Proof.Machine.execBlkDec block s
  | .hdrCheck => Sys2Proof.Machine.execHdrCheck s
  | .hdrSeal => Sys2Proof.Machine.execHdrSeal s
  | .p1Check => Sys2Proof.Machine.execP1Check s
  | .p1Seal => Sys2Proof.Machine.execP1Seal s
  | .p2Check => Sys2Proof.Machine.execP2Check s
  | .p2Seal => Sys2Proof.Machine.execP2Seal s
  | .fieldGet fid bit => Sys2Proof.Machine.execFieldGet fid bit s
  | .fieldPut fid bit => Sys2Proof.Machine.execFieldPut fid bit s
  | .bitGet fid bit => Sys2Proof.Machine.execBitGet fid bit s
  | .bitSet fid bit => Sys2Proof.Machine.execBitSet fid bit s
  | .bitClr fid bit => Sys2Proof.Machine.execBitClr fid bit s
  | .nickUnpack => Sys2Proof.Machine.execNickUnpack s
  | .nickPack => Sys2Proof.Machine.execNickPack s
  | .blockMap index region => Sys2Proof.Machine.execBlockMap index region s
  | .seqReconcile => Sys2Proof.Machine.execSeqReconcile s
  | .readRecord => Sys2Proof.Machine.execReadRecord s
  | .writeRecord rw => Sys2Proof.Machine.execWriteRecord rw s
  | .crc16DataWrite word => Sys2Proof.Machine.execCrc16DataWrite word s
  | .crc48DataWrite word => Sys2Proof.Machine.execCrc48DataWrite word s

end Sys2Proof.Machine
end

