-- ==== Sys2Proof/Machine/Sequencer.lean ====
section
/-! DEFINITION. Who moves next: the sequencer, when a command word is accepted and not yet begun
(spec/10_state.md R52), and otherwise the environment's next move (spec/20_memory.md R92). -/

namespace Sys2Proof.Machine

/-- The sequencer begins an accepted command word: the decoded instruction runs, or the word ends in
ILLEGAL (spec/30_encoding.md R114). -/
def startCommand (w : Word) (s : State) : Host.Outcome State Fault Refusal :=
  match decode w with
  | .ok i => exec i s
  | .error _ => .next (finish .illegal s)

/-- A host write is performed: a computing bus operation through its meaning (R168, R169), any other
by the bus. -/
def performWrite (addr : BitVec 12) (n : Width) (v : Word) (s : State) :
    Host.Outcome State Fault Refusal :=
  match n with
  | .w4 =>
    match busOperation ⟨addr, v⟩ with
    | some i => exec i s
    | none => .next (hostWrite addr .w4 v s)
  | .w1 => .next (hostWrite addr .w1 v s)
  | .w2 => .next (hostWrite addr .w2 v s)

/-- One move of the environment. -/
def perform (e : Event) (s : State) : Host.Outcome State Fault Refusal :=
  match e with
  | .hostRead addr n => .next (hostRead addr n s)
  | .hostWrite addr n v => performWrite addr n v s
  | .answer a => .next (onAnswer a s)
  | .idealAnswer => .next (onIdealAnswer s)
  | .staleAnswer _ => .next s
  | .tagChanges block data => .next (s.withTag (setTagBlock s.tag block.val data))
  | .reset => .next (resetEvent s)

/-- The environment's next move. When none is to come nothing moves, and the state stays
(spec/20_memory.md R96, log 20). -/
def environmentStep (s : State) : Host.Outcome State Fault Refusal :=
  match s.inputs with
  | [] => .next s
  | e :: rest => perform e { s with inputs := rest }

/-- The command word the sequencer is to begin: the machine's fetch (R51, R100). -/
def State.fetch (s : State) : Option Word :=
  match s.phase with
  | .busy w .accepted none => some w
  | .busy _ _ _ => none
  | .idle => none

/-- One step of the whole: an accepted command word is begun before the environment moves (R52). -/
def stepOnce (s : State) : Host.Outcome State Fault Refusal :=
  match s.fetch with
  | some w => startCommand w s
  | none => environmentStep s

end Sys2Proof.Machine
end

