-- ==== Sys2Proof/Machine/Step.lean ====
section
/-! DEFINITION. The step, and the placing of a command word where the next step begins it. -/

namespace Sys2Proof.Machine

/-- One step (`stepOnce` of Machine/Sequencer.lean). -/
def step (s : State) : Host.Outcome State Fault Refusal := stepOnce s

/-- s with the command word w accepted and not yet begun (spec/10_state.md R50, R51), so that the
next step runs it (log 1). -/
def State.withFetchWord (s : State) (nbits w : Nat) : State :=
  { s with phase := .busy (BitVec.ofNat 32 (w % 2 ^ nbits)) .accepted none }

end Sys2Proof.Machine
end

