-- ==== Sys2Proof/Machine/Asm.lean ====
section
/-! DEFINITION. Host program lines (spec/30_encoding.md R118, R119) as the host accesses they stand
for. -/

namespace Sys2Proof.Machine

/-- A line of a host program (R118). -/
inductive Line where
  /-- st8, st16, st32. -/
  | st (n : Width) (addr : BitVec 12) (v : Word)
  /-- ld8, ld16, ld32. -/
  | ld (n : Width) (addr : BitVec 12)
  /-- wait, whose loop reads STATUS this many times (log 19). -/
  | wait (polls : Nat)
  /-- ack. -/
  | ack
  /-- A command mnemonic with its operands. -/
  | command (i : Instr)
  deriving DecidableEq, Repr

/-- The address of STATUS (spec/10_state.md R33). -/
def statusAddr : BitVec 12 := 0x008

/-- The accesses of a line (R118). -/
def lineEvents : Line → List Event
  | .st n addr v => [.hostWrite addr n v]
  | .ld n addr => [.hostRead addr n]
  | .wait polls => List.replicate polls (.hostRead statusAddr .w4)
  | .ack => [.hostWrite statusAddr .w4 0x200]
  | .command i => [.hostWrite (encode i).addr .w4 (encode i).word]

/-- Whether the loop of `wait` ends at the value just read: DONE, bit 9, is 1 (R118). -/
def waitEnds (s : State) : Bool := s.readData.getLsbD 9

/-- The field of a name, for lines that write FID as its name (R118). -/
def fieldNamed (name : String) : Option FieldRow := fieldTable.find? fun r => r.name == name

/-- The pseudo-instructions (R119). -/
inductive Pseudo where
  | crc16 (addr len : BitVec 12)
  | crc48 (addr len : BitVec 12)
  | cmd (w : Word)
  | recReadWait (polls : Nat)
  | recWriteWait (rw : Bool) (polls : Nat)
  | c3Calc
  | c1Calc
  | c4Calc
  deriving DecidableEq, Repr

/-- The expansion of a pseudo-instruction (R119). -/
def expand : Pseudo → List Line
  | .crc16 addr len => [.command .crc16Init, .command (.crc16Run addr len)]
  | .crc48 addr len => [.command .crc48Init, .command (.crc48Run addr len)]
  | .cmd w => [.st .w4 cmdAddr w]
  | .recReadWait polls => [.command .readRecord, .wait polls]
  | .recWriteWait rw polls => [.command (.writeRecord rw), .wait polls]
  | .c3Calc => [.command .crc16Init, .command (.crc16Run 0x1C0 0x30), .command (.crc16Zero 0xE0)]
  | .c1Calc =>
    [.command .crc16Init, .command (.crc16Run 0x180 0x0E), .command (.crc16Const 5),
     .command (.crc16Const 0)]
  | .c4Calc =>
    [.command .crc16Init, .command (.crc16Const 6), .command (.crc16Const 1),
     .command (.crc16Run 0x202 0x3E)]

/-- The accesses of a whole program of lines. -/
def programEvents (p : List Line) : List Event := p.flatMap lineEvents

end Sys2Proof.Machine
end

