-- ==== Sys2Proof/WellFormed.lean ====
section
/-! DEFINITION. The operand ranges of the third decoding step (spec/30_encoding.md R114), as far as
the command word alone decides them. A command word that decodes to an instruction failing this
check ends in BAD_ARG; two more BAD_ARG cases depend on the state (the value of FIELD_PUT, R241, and
the name of NICK_PACK, R247). -/

namespace Sys2Proof

/-- Whether every operand lies in the range its command's rule allows. -/
def Instr.wellFormed : Instr → Bool
  | .nop | .crc16Init | .crc48Init => true
  | .crc16Run addr len | .crc48Run addr len => Machine.rangeLegal addr.toNat len.toNat
  | .crc16Zero _ | .crc16Const _ | .crc48Const _ => true
  | .sectorKey s => Machine.sectorLegal s
  | .blockKey n | .blkEnc n | .blkDec n => Machine.blockLegal n
  | .hdrCheck | .hdrSeal | .p1Check | .p1Seal | .p2Check | .p2Seal => true
  | .fieldGet fid bit | .fieldPut fid bit => (Machine.fieldOperand fid bit).isSome
  | .bitGet fid bit | .bitSet fid bit | .bitClr fid bit => (Machine.bitOperand fid bit).isSome
  | .nickUnpack | .nickPack => true
  | .blockMap index _ => Machine.indexLegal index
  | .seqReconcile | .readRecord | .writeRecord _ => true
  | .crc16DataWrite _ | .crc48DataWrite _ => true

end Sys2Proof
end

