-- ==== Sys2Proof/Safety.lean ====
section
/-! DEFINITION. The terms claims are stated in: frames, completion, the kinds of instruction, and the
invariant that holds of every state a run from reset reaches. -/

namespace Sys2Proof.Machine

/-- Every byte of the local space but those at [lo, lo + n) reads in t as in s. -/
def SameBytesBut (s t : State) (lo n : Nat) : Prop :=
  ∀ a, a < lo ∨ lo + n ≤ a → t.byte a = s.byte a

/-- Every byte of the local space reads in t as in s. -/
def SameBytes (s t : State) : Prop := ∀ a, t.byte a = s.byte a

/-- t is s but for a completion with a code (R340): nothing else differs. -/
def CompletedOnly (code : ErrCode) (s t : State) : Prop :=
  t = { s with err := code, done := true, phase := .idle }

/-- t is s but for a completion with a code and the contents of the RAM buffers. -/
def CompletedWithMem (code : ErrCode) (s t : State) : Prop :=
  t = { s with err := code, done := true, phase := .idle, mem := t.mem }

/-- The port commands (R52). -/
def isPortCommand : Instr → Bool
  | .readRecord | .writeRecord _ => true
  | .nop | .crc16Init | .crc16Run _ _ | .crc16Zero _ | .crc16Const _ | .crc48Init
  | .crc48Run _ _ | .crc48Const _ | .sectorKey _ | .blockKey _ | .blkEnc _ | .blkDec _
  | .hdrCheck | .hdrSeal | .p1Check | .p1Seal | .p2Check | .p2Seal | .fieldGet _ _
  | .fieldPut _ _ | .bitGet _ _ | .bitSet _ _ | .bitClr _ _ | .nickUnpack | .nickPack
  | .blockMap _ _ | .seqReconcile | .crc16DataWrite _ | .crc48DataWrite _ => false

/-- The bus operations, which are no commands (R113). -/
def isBusOperation : Instr → Bool
  | .crc16DataWrite _ | .crc48DataWrite _ => true
  | .nop | .crc16Init | .crc16Run _ _ | .crc16Zero _ | .crc16Const _ | .crc48Init
  | .crc48Run _ _ | .crc48Const _ | .sectorKey _ | .blockKey _ | .blkEnc _ | .blkDec _
  | .hdrCheck | .hdrSeal | .p1Check | .p1Seal | .p2Check | .p2Seal | .fieldGet _ _
  | .fieldPut _ _ | .bitGet _ _ | .bitSet _ _ | .bitClr _ _ | .nickUnpack | .nickPack
  | .blockMap _ _ | .seqReconcile | .readRecord | .writeRecord _ => false

/-- The instructions that may change the CRC16 or the CRC48 register (R170, R381). -/
def writesCrc : Instr → Bool
  | .crc16Init | .crc16Run _ _ | .crc16Zero _ | .crc16Const _ | .crc48Init | .crc48Run _ _
  | .crc48Const _ | .crc16DataWrite _ | .crc48DataWrite _ => true
  | .nop | .sectorKey _ | .blockKey _ | .blkEnc _ | .blkDec _
  | .hdrCheck | .hdrSeal | .p1Check | .p1Seal | .p2Check | .p2Seal | .fieldGet _ _
  | .fieldPut _ _ | .bitGet _ _ | .bitSet _ _ | .bitClr _ _ | .nickUnpack | .nickPack
  | .blockMap _ _ | .seqReconcile | .readRecord | .writeRecord _ => false

/-- Whether a local address lies in a RAM buffer (R40, R82). -/
def inRam (a : Nat) : Bool :=
  match bufferAt a with
  | some b => !b.rom
  | none => false

/-- The block a position waits for (R280, R286). -/
def Position.block : Position → Nat
  | .accepted => 0
  | .readHdr0 | .wrRefresh0 _ => 0
  | .readHdr1 _ | .wrRefresh1 _ _ | .wrIdent _ => 1
  | .readRegion r i _ _ _ => regionBlock r i.val
  | .wrSeq .a0 _ _ _ _ => regionBlock .a 0
  | .wrSeq .a7 _ _ _ _ => regionBlock .a 7
  | .wrSeq .b0 _ _ _ _ => regionBlock .b 0
  | .wrSeq .b7 _ _ _ _ => regionBlock .b 7
  | .wrPart1 _ stale1 _ i => regionBlock stale1 i.val
  | .wrPart2 stale2 j => regionBlock stale2 (7 + j.val)
  | .wrRekey1 _ r i => regionBlock r i.val
  | .wrRekey2 r j => regionBlock r (7 + j.val)

/-- Whether a position waits for a write (R280, R286). -/
def Position.writes : Position → Bool
  | .wrPart1 _ _ _ _ | .wrPart2 _ _ | .wrIdent _ | .wrRekey1 _ _ _ | .wrRekey2 _ _ => true
  | .accepted | .readHdr0 | .readHdr1 _ | .readRegion _ _ _ _ _ | .wrRefresh0 _
  | .wrRefresh1 _ _ | .wrSeq _ _ _ _ _ => false

/-- The stage code of the transaction a position waits for, as R334's table numbers it. -/
def Position.stageNumber : Position → Nat
  | .accepted => 0
  | .readHdr0 | .readHdr1 _ | .wrRefresh0 _ | .wrRefresh1 _ _ => 1
  | .readRegion .a _ _ _ _ => 2
  | .readRegion .b _ _ _ _ => 3
  | .wrIdent _ => 4
  | .wrSeq _ _ _ _ _ => 5
  | .wrPart1 _ _ _ _ | .wrRekey1 _ _ _ => 6
  | .wrPart2 _ _ | .wrRekey2 _ _ => 7

/-- Whether a request writes. -/
def PortOp.isWrite : PortOp → Bool
  | .read => false
  | .write _ => true

/-- A BUSY phase holds either an accepted word with no request, or a position with the request it
waits for, which passes the block-port guard (R50, R95, R97). -/
def Phase.legal : Phase → Prop
  | .idle => True
  | .busy _ pos none => pos = .accepted
  | .busy _ pos (some req) =>
    pos ≠ .accepted ∧ req.block = pos.block ∧ req.op.isWrite = pos.writes ∧
      portGuard req.block req.op = true

/-- The key a request must carry (R95), as R180 words SectorKey(n div 4, UID): the sector-0 key for
sector 0, and else the little-endian CRC48 of the UID and the sector number. -/
def PortRequest.keyed (uid : List Byte) (req : PortRequest) : Prop :=
  (req.block / 4 = 0 → req.key = Config.sector0Key) ∧
    (req.block / 4 ≠ 0 →
      leNat req.key.toList = (crc48Of (uid ++ [BitVec.ofNat 8 (req.block / 4)])).toNat)

/-- The invariant: both memories are in canonical form, the local one lists only RAM buffer bytes
(so reserved addresses and the read-only memories hold no state, R40, R82), the tag lists only its
1024 bytes (R90), the phase is legal, an outstanding request carries its sector's key (R95), and while
BUSY nothing has completed since the acceptance (R51, R340). -/
structure State.Inv (s : State) : Prop where
  memWf : s.mem.wf
  tagWf : s.tag.wf
  memInRam : ∀ c ∈ s.mem, inRam c.1 = true
  tagInDump : ∀ c ∈ s.tag, c.1 < 1024
  phaseLegal : s.phase.legal
  requestKeyed : ∀ w pos req, s.phase = .busy w pos (some req) → req.keyed (s.buf .uid)
  busyQuiet : s.busy = true → s.done = false ∧ s.err = .ok

/-- k steps of the machine. -/
def run (k : Nat) (s : State) : Host.Outcome State Fault Refusal :=
  Host.Core.run Sys2Proof.core k s

/-- R160, as the rule words it: an empty range, or one inside the local space whose every byte lies
in a buffer. -/
def RangeReadable (addr len : Nat) : Prop :=
  len = 0 ∨ (addr + len ≤ 0x1000 ∧ ∀ k < len, ∃ b : Buffer, b.holds (addr + k) = true)

/-- R33's table: the register of each address of the register block. -/
def registerTable : List (BitVec 12 × Register) :=
  [(0x000, .id), (0x004, .ctrl), (0x008, .status), (0x00C, .cmd), (0x010, .res0), (0x014, .res1),
   (0x018, .crc16), (0x01C, .crc16Data), (0x020, .crc48Lo), (0x024, .crc48Hi),
   (0x028, .crc48Data), (0x02C, .recon), (0x030, .fvalLo), (0x034, .fvalHi), (0x038, .seq),
   (0x03C, .xstat)]

/-- R40's table: the first address and the size of each buffer. -/
def bufferTable : List (Buffer × Nat × Nat) :=
  [(.uid, 0x040, 4), (.skey, 0x048, 6), (.bkey, 0x050, 16), (.blk, 0x060, 16), (.name, 0x070, 16),
   (.hdr, 0x100, 32), (.p1, 0x180, 112), (.p2, 0x200, 64), (.ra, 0x300, 176), (.rb, 0x400, 176),
   (.ksuf, 0x500, 53), (.k0, 0x540, 6)]

/-- What a host read of an idle machine finds in the register at each address (R33 to R45); a
write-only one reads 0 (R85). -/
def State.registerValues (s : State) : List (BitVec 12 × Word) :=
  [(0x000, 0x00014E46), (0x004, 0#30 ++ BitVec.ofBool s.irqEn ++ BitVec.ofBool s.eqPolicy),
   (0x008, s.statusWord), (0x00C, 0), (0x010, s.res0), (0x014, s.res1),
   (0x018, 0#16 ++ s.crc16), (0x01C, 0), (0x020, s.crc48.extractLsb' 0 32),
   (0x024, 0#16 ++ s.crc48.extractLsb' 32 16), (0x028, 0), (0x02C, s.recon),
   (0x030, s.fval.extractLsb' 0 32), (0x034, s.fval.extractLsb' 32 32), (0x038, s.seq),
   (0x03C, s.xstat)]

/-- R81, R82 and R83, as the rules word them: an aligned 4-byte access to the register block, or an
aligned access whose bytes all lie in one buffer. -/
def AccessWellFormed (addr : BitVec 12) (n : Width) : Prop :=
  (addr.toNat < 0x040 ∧ n.bytes = 4 ∧ addr.toNat % 4 = 0) ∨
    (0x040 ≤ addr.toNat ∧ addr.toNat % n.bytes = 0 ∧
      ∃ b : Buffer, ∀ k < n.bytes, b.holds (addr.toNat + k) = true)

/-- FieldValue of R236. -/
def State.fieldValue (s : State) (r : FieldRow) : Nat := leNat (s.fieldBytes r)

/-- n is the length of the name whose character k is f k: the least k in 0..15 with f k = 00, or 16
if there is none (R246, R247). -/
def IsNameLength (f : Nat → Byte) (n : Nat) : Prop :=
  n ≤ 16 ∧ (∀ k < n, f k ≠ 0) ∧ (n < 16 → f n = 0)

/-- The header on the tag: blocks 0 and 1 (R91). -/
def tagHeader (tag : Memory) : List Byte := (tagBlock tag 0).toList ++ (tagBlock tag 1).toList

/-- The plaintext of tag block n under the header h: D(BlockKey(h, n), block n) (R185, R186). -/
def plainBlock (tag : Memory) (h : List Byte) (n : Nat) : Block :=
  cipherD (blockKeyOf Config.keySuffix.toList h n) (tagBlock tag n)

/-- The image of region r under the header h: its eleven blocks deciphered (R274, R280). -/
def plainRegion (tag : Memory) (h : List Byte) (r : Region) : List Byte :=
  (List.range 11).flatMap fun i => (plainBlock tag h (regionBlock r i)).toList

/-- The image of region r when its first i blocks were read and the rest was not: zeros there (R280,
R281). -/
def partialImage (tag : Memory) (h : List Byte) (r : Region) (i : Nat) : List Byte :=
  (plainRegion tag h r).take (16 * i) ++ zeros (176 - 16 * i)

/-- Bytes [i, j) of the image a choice selects, or zeros (R280). -/
def chosenBytes (o : Choice) (ra rb : List Byte) (i j : Nat) : List Byte :=
  match o.selects with
  | some .a => slice ra i j
  | some .b => slice rb i j
  | none => zeros (j - i)

/-- What READ_RECORD's validation leaves in t, from the two images on (R280 to R282): okA and okB say
whether each region was read, and authFail whether an AUTH_FAIL came in a region. -/
def ReadOutcome (hok okA okB authFail eq : Bool) (ra rb : List Byte) (t : State) : Prop :=
  let v1A := okA && p1Valid (slice ra 0 112)
  let v1B := okB && p1Valid (slice rb 0 112)
  let v2A := okA && p2Valid (slice ra 112 176)
  let v2B := okB && p2Valid (slice rb 112 176)
  let o1 := reconcile v1A (byteAt ra 0x09) v1B (byteAt rb 0x09) eq
  let o2 :=
    if o1.selects.isSome && byteAt (chosenBytes o1 ra rb 0 112) 0x16 != 0 then
      reconcile v2A (byteAt ra 0x72) v2B (byteAt rb 0x72) eq
    else .notAttempted
  t.buf .p1 = chosenBytes o1 ra rb 0 112 ∧ t.buf .p2 = chosenBytes o2 ra rb 112 176 ∧
  t.recon.extractLsb' 0 4 = o1.code.setWidth 4 ∧ t.recon.extractLsb' 4 4 = o2.code.setWidth 4 ∧
  t.recon.getLsbD 8 = hok ∧ t.recon.getLsbD 9 = v1A ∧ t.recon.getLsbD 10 = v1B ∧
  t.recon.getLsbD 11 = v2A ∧ t.recon.getLsbD 12 = v2B ∧
  t.recon.getLsbD 13 = okA ∧ t.recon.getLsbD 14 = okB ∧ t.recon.extractLsb' 15 17 = 0 ∧
  t.seq = byteAt rb 0x72 ++ byteAt ra 0x72 ++ byteAt rb 0x09 ++ byteAt ra 0x09 ∧
  t.err =
    if authFail then .authFailure
    else if o1 = .ambiguous ∨ o2 = .ambiguous then .ambiguousSequence
    else if hok then .ok else .hdrChecksum

/-- The choice that selects a region. -/
def choiceOf : Region → Choice
  | .a => .fromA
  | .b => .fromB

/-- HDR as WRITE_RECORD refreshes it from tag block 0 (R287): its vendor bytes replaced, its CRC
recomputed. -/
def refreshedHeader (tag : Memory) (hdr : List Byte) : List Byte :=
  hdrSealed ((tagBlock tag 0).toList ++ slice hdr 16 32)

/-- The part-1 sequence byte of region r as it stands on the tag, under the header h (R289). -/
def tagSeq1 (tag : Memory) (h : List Byte) (r : Region) : Byte :=
  byteAt (plainBlock tag h (regionBlock r 0)).toList 0x09

/-- The part-2 sequence byte of region r as it stands on the tag, under the header h (R289). -/
def tagSeq2 (tag : Memory) (h : List Byte) (r : Region) : Byte :=
  byteAt (plainBlock tag h (regionBlock r 7)).toList 0x02

/-- Whether a move is an answer to the outstanding request, or the reset. -/
def Event.endsWait : Event → Bool
  | .answer _ | .idealAnswer | .reset => true
  | .hostRead _ _ | .hostWrite _ _ _ | .staleAnswer _ | .tagChanges _ _ => false

/-- The answers to READ_RECORD's reads of one region of which the first i are answered as IDEAL_TAG
does (R99): all eleven, or i of them and then an AUTH_FAIL. -/
def regionAnswers (i : Nat) : List Event :=
  if i < 11 then List.replicate i .idealAnswer ++ [.answer .authFail]
  else List.replicate 11 .idealAnswer

/-- A block-port transaction as R280 and R286 write it: the block, the operation with what it writes, and
the number of its stage (R334). -/
structure Transaction where
  /-- The block number. -/
  block : Nat
  /-- Read, or write with its 16 bytes. -/
  op : PortOp
  /-- The stage code of R334's table. -/
  stage : Nat
  deriving DecidableEq, Repr

/-- The ciphertext of x as tag block n under the header h: E(BlockKey(h, n), x) (R185, R286). -/
def cipherBlock (h : List Byte) (n : Nat) (x : Block) : Block :=
  cipherE (blockKeyOf Config.keySuffix.toList h n) x

/-- The writes of the part 1 p to region r under the header h, indices 0..6 in order (R286, stage 6). -/
def part1Writes (h p : List Byte) (r : Region) : List Transaction :=
  (List.range 7).map fun i =>
    ⟨regionBlock r i,
      .write (cipherBlock h (regionBlock r i) (toVec 16 (slice p (16 * i) (16 * i + 16)))), 6⟩

/-- The writes of the part 2 q to region r under the header h, indices 7..10 in order (R286, stage 7). -/
def part2Writes (h q : List Byte) (r : Region) : List Transaction :=
  (List.range 4).map fun j =>
    ⟨regionBlock r (7 + j),
      .write (cipherBlock h (regionBlock r (7 + j)) (toVec 16 (slice q (16 * j) (16 * j + 16)))), 7⟩

/-- The refresh of WRITE_RECORD (R287, stage 1). -/
def refreshReads : List Transaction := [⟨0, .read, 1⟩, ⟨1, .read, 1⟩]

/-- The transactions of the re-key in R288's order: the refresh, the identity block of the header h, and
then to region A and to region B part 1 and, when it is present, part 2. -/
def rekeyTransactions (h p q : List Byte) (part2 : Bool) : List Transaction :=
  refreshReads ++ [⟨1, .write (toVec 16 (slice h 16 32)), 4⟩] ++
    part1Writes h p .a ++ (if part2 then part2Writes h q .a else []) ++
    part1Writes h p .b ++ (if part2 then part2Writes h q .b else [])

/-- The sequence read in R289's order, A0, A7, B0, B7 (stage 5); index 7 when part 2 is present. -/
def sequenceReads (part2 : Bool) : List Transaction :=
  [Region.a, Region.b].flatMap fun r =>
    ⟨regionBlock r 0, .read, 5⟩ :: if part2 then [⟨regionBlock r 7, .read, 5⟩] else []

/-- The transactions of the matching-identity path in the order of R287, R289 and R290: the refresh, the
sequence read, part 1 to its stale region and, when it is present, part 2 to its own. -/
def matchingTransactions (h p q : List Byte) (part2 : Bool) (stale1 stale2 : Region) :
    List Transaction :=
  refreshReads ++ sequenceReads part2 ++ part1Writes h p stale1 ++
    if part2 then part2Writes h q stale2 else []

/-- Tag t is tag s after the transactions in l (R99): a block that one of them writes holds what it
writes, and every other block is as it was. -/
def TagAfter (l : List Transaction) (s t : Memory) : Prop :=
  (∀ x ∈ l, ∀ d, x.op = .write d → tagBlock t x.block = d) ∧
    ∀ n, (∀ x ∈ l, x.op ≠ .read → x.block ≠ n) → tagBlock t n = tagBlock s n

/-- In t the command w waits for the answer to transaction x, whose request carries the key of x's
sector under the UID of s (R50, R95). -/
def WaitsFor (w : Word) (x : Transaction) (s t : State) : Prop :=
  ∃ pos, t.phase = .busy w pos (some ⟨x.block, x.op, toVec 6 (s.sectorKey (x.block / 4))⟩)

/-- u is t after the answer a, LOST or AUTH_FAIL, to transaction x ended the command (R292, R333): XSTAT
names the block, its sector, the stage and the cause, and nothing but the completion goes with it. -/
def AbortedAt (x : Transaction) (a : Answer) (rest : List Event) (t u : State) : Prop :=
  u = { t with
    xstat := u.xstat, err := if a = .lost then .transportLost else .authFailure, done := true,
    phase := .idle, inputs := rest } ∧
  u.xstat.toNat =
    x.block + 2 ^ 8 * (x.block / 4) + 2 ^ 12 * x.stage + 2 ^ 16 * (if a = .lost then 2 else 1)

/-- Whether a move answers the outstanding request (R95). -/
def Event.answers : Event → Bool
  | .answer _ | .idealAnswer => true
  | .hostRead _ _ | .hostWrite _ _ _ | .staleAnswer _ | .tagChanges _ _ | .reset => false

/-- TRANSPORT_ANSWERS (R96), the fairness assumption on the transport: every request is eventually
answered. In every state that a run from s reaches with a request outstanding, its answer, or the reset
that abandons it (R370), is among the moves still to come (log 23). -/
def TransportAnswers (s : State) : Prop :=
  ∀ (k : Nat) (t : State) (w : Word) (pos : Position) (req : PortRequest),
    run k s = .next t → t.phase = .busy w pos (some req) → ∃ e ∈ t.inputs, e.endsWait = true

/-- The moves under which the crash-safety of WRITE_RECORD is claimed (R295): IDEAL_TAG answers for the
transactions completed, any failure, a reset, and host reads; no host write, so no other command. -/
def Event.crashOnly : Event → Bool
  | .idealAnswer | .answer .authFail | .answer .lost | .reset | .hostRead _ _ | .staleAnswer _ => true
  | .answer (.ok _) | .hostWrite _ _ _ | .tagChanges _ _ => false

/-- The positions of READ_RECORD's header stage and of WRITE_RECORD: where AUTH_FAIL ends the command
(R280, R292). -/
def Position.abortsOnAuthFail : Position → Bool
  | .accepted | .readRegion _ _ _ _ _ => false
  | .readHdr0 | .readHdr1 _ | .wrRefresh0 _ | .wrRefresh1 _ _ | .wrSeq _ _ _ _ _
  | .wrPart1 _ _ _ _ | .wrPart2 _ _ | .wrIdent _ | .wrRekey1 _ _ _ | .wrRekey2 _ _ => true

end Sys2Proof.Machine
end

