-- ==== Sys2Proof/Certificates/Slice0/Obligations.lean ====
section
/-! DEFINITION. The statements for the provers. Each docstring names the rules of spec/ that the
statement formalises or rests on. -/

open Sys2Proof Sys2Proof.Machine

/-! Encoding. -/

/-- R110 to R113: every instruction, with its operands at every value the formats admit, is what its
encoded host write decodes to. -/
def Obligations.DecodeEncodeAgree : Prop := ∀ i : Instr, decodeWrite (encode i) = .ok i

/-- R111, R114: a command word that decodes is the encoding of what it decodes to, so each instruction
has one word and no bit of a word is ignored. -/
def Obligations.DecodedWordIsEncoded : Prop :=
  ∀ (w : Word) (i : Instr), decode w = .ok i → encode i = ⟨0x00C, w⟩

/-- R114 and R332: the three decoding steps, in their order, and what a command that ends in ILLEGAL or
BAD_ARG leaves. A premise of the last clause, that ERR is not BAD_ARG or ILLEGAL when the command
begins, is what acceptance makes of it (R51). -/
def Obligations.DecodingThreeSteps : Prop :=
  ∀ (s : State) (w : Word), s.fetch = some w →
    (opOf (w.extractLsb' 0 8) = none →
      step s = .next { s with err := .illegal, done := true, phase := .idle }) ∧
    (∀ o, opOf (w.extractLsb' 0 8) = some o → w &&& o.format.reserved ≠ 0 →
      step s = .next { s with err := .illegal, done := true, phase := .idle }) ∧
    (∀ o, opOf (w.extractLsb' 0 8) = some o → w &&& o.format.reserved = 0 →
      (assemble o w).wellFormed = false →
      step s = .next { s with err := .badArg, done := true, phase := .idle }) ∧
    (∀ t, s.err = .ok → step s = .next t → t.err = .illegal ∨ t.err = .badArg →
      CompletedOnly t.err s t)

/-- R115: the illegal opcodes, their number, and that every one of them ends in ILLEGAL. -/
def Obligations.IllegalOpcodesExactly : Prop :=
  (∀ c : Byte, opOf c = none ↔
    ((0x08 ≤ c ∧ c ≤ 0x0F) ∨ (0x14 ≤ c ∧ c ≤ 0x1F) ∨ (0x2D ≤ c ∧ c ≤ 0x2F) ∨ 0x34 ≤ c)) ∧
  ((List.range 256).filter fun c => (opOf (BitVec.ofNat 8 c)).isNone).length = 227 ∧
  ∀ (s : State) (w : Word), s.fetch = some w → opOf (w.extractLsb' 0 8) = none →
    step s = .next { s with err := .illegal, done := true, phase := .idle }

/-- R116: with opcode 0x00, the word 0 is NOP and every other word ends in ILLEGAL. -/
def Obligations.OnlyTheZeroWordIsNop : Prop :=
  ∀ (s : State) (w : Word), s.fetch = some w → w.extractLsb' 0 8 = 0 →
    (w = 0 → step s = exec .nop s) ∧
    (w ≠ 0 → step s = .next { s with err := .illegal, done := true, phase := .idle })

/-- R120: the encoding examples, each a host write to CMD that decodes to its instruction. -/
def Obligations.EncodingExamples : Prop :=
  decodeWrite ⟨0x00C, 0x00000000⟩ = .ok .nop ∧
  decodeWrite ⟨0x00C, 0x01E10002⟩ = .ok (.crc16Run 0x100 0x1E) ∧
  decodeWrite ⟨0x00C, 0x0301C002⟩ = .ok (.crc16Run 0x1C0 0x30) ∧
  decodeWrite ⟨0x00C, 0x0E000003⟩ = .ok (.crc16Zero 0xE0) ∧
  decodeWrite ⟨0x00C, 0x00000504⟩ = .ok (.crc16Const 5) ∧
  decodeWrite ⟨0x00C, 0x00404006⟩ = .ok (.crc48Run 0x040 4) ∧
  decodeWrite ⟨0x00C, 0x00000207⟩ = .ok (.crc48Const 2) ∧
  decodeWrite ⟨0x00C, 0x00000110⟩ = .ok (.sectorKey 1) ∧
  decodeWrite ⟨0x00C, 0x00002411⟩ = .ok (.blockKey 0x24) ∧
  decodeWrite ⟨0x00C, 0x00000813⟩ = .ok (.blkDec 0x08) ∧
  decodeWrite ⟨0x00C, 0x00001126⟩ = .ok (.fieldGet 0x11 0) ∧
  decodeWrite ⟨0x00C, 0x00051729⟩ = .ok (.bitSet 0x17 5) ∧
  decodeWrite ⟨0x00C, 0x00001A30⟩ = .ok (.blockMap 10 .b) ∧
  decodeWrite ⟨0x00C, 0x00000032⟩ = .ok .readRecord ∧
  decodeWrite ⟨0x00C, 0x00000133⟩ = .ok (.writeRecord true) ∧
  (fieldNamed "P1_MONEY").map (fun r => r.fid) = some 0x11 ∧
  (fieldNamed "P1_UPGRADES").map (fun r => r.fid) = some 0x17

/-! Steps, reset, registers and the host bus. -/

/-- R51, R52, R88, R113: a step runs the decoded instruction. An accepted command word that decodes to i
is executed as i, before any move of the environment that is to come, a reset among them: that is the
model's own order (log 2, DEDUCED). So is a word placed by withFetchWord, which stands for an
acceptance (log 1, DESIGN CHOICE). A 4-byte host write that is a computing bus operation is executed as
that operation, and its move is taken from the list (log 1). -/
def Obligations.StepRunsDecodedInstruction : Prop :=
  (∀ (s : State) (w : Word) (i : Instr), s.fetch = some w → decode w = .ok i →
    step s = exec i s) ∧
  (∀ (s : State) (w : Word) (i : Instr), decode w = .ok i →
    step (s.withFetchWord 32 w.toNat) = exec i (s.withFetchWord 32 w.toNat)) ∧
  (∀ (s : State) (addr : BitVec 12) (v : Word) (rest : List Event) (i : Instr),
    s.fetch = none → s.inputs = .hostWrite addr .w4 v :: rest →
    busOperation ⟨addr, v⟩ = some i → step s = exec i { s with inputs := rest })

/-- R51: the acceptance of a command word, which then executes, and the overrun. That acceptance and
execution are two steps of the model is its own choice (log 2). -/
def Obligations.AcceptanceAndOverrun : Prop :=
  ∀ (s : State) (w : Word) (rest : List Event),
    s.inputs = .hostWrite 0x00C .w4 w :: rest →
    (s.phase = .idle → ∃ t, step s = .next t ∧
      t = { s with
        done := false, err := .ok, xstat := 0, phase := .busy w .accepted none,
        inputs := rest } ∧
      t.busy = true ∧ step t = startCommand w t ∧
      ∀ i, decode w = .ok i → startCommand w t = exec i t) ∧
    (s.busy = true → s.fetch = none →
      step s = .next { s with ovr := true, inputs := rest })

/-- R52, R88, R347: the host write that issues a local command, and one step of the sequencer, complete
it; the machine is then IDLE, and the next host access finds the command's whole effect. -/
def Obligations.LocalCommandCompletesInOneStep : Prop :=
  ∀ (i : Instr) (s : State) (rest : List Event),
    isPortCommand i = false → isBusOperation i = false → s.phase = .idle →
    s.inputs = .hostWrite 0x00C .w4 (encode i).word :: rest →
    ∃ t, run 2 s = .next t ∧
      exec i (accept (encode i).word { s with inputs := rest }) = .next t ∧
      t.phase = .idle ∧ t.done = true ∧ t.inputs = rest

/-- R55 and R33: what reset leaves. CMD, CRC16_DATA and CRC48_DATA are write-only and read 0. -/
def Obligations.ResetState : Prop :=
  let s := State.reset
  s.readReg .id = 0x00014E46 ∧ s.readReg .ctrl = 0 ∧ s.readReg .status = 0 ∧
  s.readReg .cmd = 0 ∧ s.readReg .res0 = 0 ∧ s.readReg .res1 = 0 ∧
  s.readReg .crc16 = 0x0000FFFF ∧ s.readReg .crc16Data = 0 ∧
  s.readReg .crc48Lo = 0x03260CC4 ∧ s.readReg .crc48Hi = 0x00009AE9 ∧
  s.readReg .crc48Data = 0 ∧ s.readReg .recon = 0 ∧ s.readReg .fvalLo = 0 ∧
  s.readReg .fvalHi = 0 ∧ s.readReg .seq = 0 ∧ s.readReg .xstat = 0 ∧
  (∀ b : Buffer, b ≠ .ksuf → b ≠ .k0 → s.buf b = zeros b.size) ∧
  s.buf .ksuf = Config.keySuffix.toList ∧ s.buf .k0 = Config.sector0Key.toList ∧
  s.phase = .idle ∧ s.irq = false

/-- The invariant of Safety.lean holds after reset. -/
def Obligations.ResetKeepsInvariant : Prop := State.reset.Inv

/-- Every step, from every state with the invariant, keeps it: the memories stay in canonical form,
only RAM buffer bytes and the tag's 1024 bytes are ever listed, the outstanding request is always the
one the position waits for, passes the block-port guard and carries SectorKey(n div 4, UID), and while
BUSY, DONE stays 0 and ERR stays OK (R40, R50, R51, R82, R90, R95, R97, R340). -/
def Obligations.StepKeepsInvariant : Prop :=
  ∀ s t : State, s.Inv → step s = .next t → t.Inv

/-- R370: the reset event, from every state, a port command running or not, whenever its move comes (a
command word that is accepted and not begun is begun first: log 2, DEDUCED); and the answer of an
abandoned request is ignored, in every phase, a later request outstanding or not. An answer with no
request outstanding is ignored too (log 9, DEDUCED). -/
def Obligations.ResetEventFromEveryState : Prop :=
  (∀ s : State, ∃ t, perform .reset s = .next t ∧
    t.statusWord = 0 ∧ t.ctrlWord = 0 ∧ t.crc16 = 0xFFFF ∧ t.crc48 = 0x9AE903260CC4 ∧
    (∀ b : Buffer, b ≠ .ksuf → b ≠ .k0 → t.buf b = zeros b.size) ∧
    t.recon = 0 ∧ t.seq = 0 ∧ t.xstat = 0 ∧ t.fval = 0 ∧ t.res0 = 0 ∧ t.res1 = 0 ∧
    t.phase = .idle ∧ t.irq = false ∧
    t.buf .ksuf = s.buf .ksuf ∧ t.buf .k0 = s.buf .k0 ∧ t.tag = s.tag ∧ t.inputs = s.inputs) ∧
  (∀ (s : State) (rest : List Event), s.fetch = none → s.inputs = .reset :: rest →
    step s = perform .reset { s with inputs := rest }) ∧
  (∀ (s : State) (a : Answer) (rest : List Event), s.fetch = none →
    s.inputs = .staleAnswer a :: rest → step s = .next { s with inputs := rest }) ∧
  (∀ (s : State) (a : Answer) (rest : List Event), s.phase = .idle →
    s.inputs = .answer a :: rest → step s = .next { s with inputs := rest })

/-- R341, R343: the interrupt output. Around a local command: low once its word is accepted, enabled
after it, and low again after the host has written 1 to STATUS bit 9. Any command, a port command among
them: low while BUSY, and enabled by the step that completes it. And a host write to CTRL enables and
clears it. The state between acceptance and execution, in which the first is said, is the model's own
(log 2, DEDUCED). -/
def Obligations.InterruptFollowsCompletion : Prop :=
  (∀ (i : Instr) (s : State) (rest : List Event),
    isPortCommand i = false → isBusOperation i = false → s.phase = .idle →
    s.inputs = .hostWrite 0x00C .w4 (encode i).word :: .hostWrite 0x008 .w4 0x200 :: rest →
    ∃ t1 t2 t3, run 1 s = .next t1 ∧ t1.irq = false ∧
      run 2 s = .next t2 ∧ t2.irq = s.irqEn ∧
      run 3 s = .next t3 ∧ t3.irq = false ∧ t3.err = t2.err) ∧
  (∀ s : State, s.Inv → s.busy = true → s.irq = false) ∧
  (∀ s t : State, s.busy = true → (s.fetch = none → s.inputs.head? ≠ some .reset) →
    step s = .next t → t.busy = false → t.done = true ∧ t.irq = s.irqEn) ∧
  (∀ (s : State) (v : Word) (rest : List Event), s.phase = .idle →
    s.inputs = .hostWrite 0x004 .w4 v :: rest →
    ∃ t, step s = .next t ∧ t.done = s.done ∧ t.irq = (v.getLsbD 1 && s.done))

/-- R34, R330: the fields of STATUS, the number of each of the eleven codes, and the write-1-to-clear of
a host write, at rest and while BUSY. -/
def Obligations.StatusRegister : Prop :=
  (ErrCode.code .ok = 0x00 ∧ ErrCode.code .illegal = 0x01 ∧ ErrCode.code .badArg = 0x02 ∧
    ErrCode.code .hdrChecksum = 0x10 ∧ ErrCode.code .p1Checksum = 0x11 ∧
    ErrCode.code .p2Checksum = 0x12 ∧ ErrCode.code .authFailure = 0x20 ∧
    ErrCode.code .transportLost = 0x21 ∧ ErrCode.code .blockGuard = 0x22 ∧
    ErrCode.code .ambiguousSequence = 0x30 ∧ ErrCode.code .identityMismatch = 0x40) ∧
  (∀ s : State,
    s.statusWord.extractLsb' 0 8 = s.err.code ∧ s.statusWord.getLsbD 8 = s.busy ∧
    s.statusWord.getLsbD 9 = s.done ∧ s.statusWord.getLsbD 10 = s.busErr ∧
    s.statusWord.getLsbD 11 = s.ovr ∧ s.statusWord.extractLsb' 12 20 = 0) ∧
  State.reset.statusWord = 0 ∧
  (∀ (s : State) (w : Word) (rest : List Event), s.fetch = none →
    s.inputs = .hostWrite 0x008 .w4 w :: rest →
    step s = .next { s with
      done := s.done && !w.getLsbD 9
      busErr := s.busErr && !w.getLsbD 10
      ovr := s.ovr && !w.getLsbD 11
      inputs := rest }) ∧
  (∀ (s : State) (rest : List Event), s.fetch = none →
    s.inputs = .hostRead 0x008 .w4 :: rest →
    step s = .next { s with readData := s.statusWord, inputs := rest })

/-- R33, R40, R81 to R85: an access has a target exactly when it is well formed; the target is the
register that R33's table has at the address, or the buffer of R40's table that holds the access; and
a host read of an idle machine returns what the register holds, or the little-endian value of the
buffer's bytes, the read-only buffers among them, and changes nothing. -/
def Obligations.AccessHasTargetWhenWellFormed : Prop :=
  (∀ (addr : BitVec 12) (n : Width), (target addr n).isSome = true ↔ AccessWellFormed addr n) ∧
  (∀ (addr : BitVec 12) (n : Width) (r : Register),
    target addr n = some (.reg r) ↔ n = .w4 ∧ (addr, r) ∈ registerTable) ∧
  (∀ (b : Buffer) (base size : Nat), (b, base, size) ∈ bufferTable →
    b.base = base ∧ b.size = size ∧
    (∀ a, b.holds a = true ↔ base ≤ a ∧ a < base + size) ∧
    ∀ (addr : BitVec 12) (n : Width), target addr n = some (.buf b) ↔
      addr.toNat % n.bytes = 0 ∧ base ≤ addr.toNat ∧ addr.toNat + n.bytes ≤ base + size) ∧
  (∀ b : Buffer, ∃ base size, (b, base, size) ∈ bufferTable) ∧
  (∀ (s : State) (addr : BitVec 12) (n : Width) (rest : List Event), s.phase = .idle →
    s.inputs = .hostRead addr n :: rest →
    (∀ v, n = .w4 → (addr, v) ∈ s.registerValues →
      step s = .next { s with readData := v, inputs := rest }) ∧
    (∀ b base size, (b, base, size) ∈ bufferTable → addr.toNat % n.bytes = 0 →
      base ≤ addr.toNat → addr.toNat + n.bytes ≤ base + size →
      step s = .next { s with
        readData := BitVec.ofNat 32
          (leNat (slice (s.buf b) (addr.toNat - base) (addr.toNat - base + n.bytes)))
        inputs := rest })) ∧
  (∀ s : State,
    s.buf .ksuf = Config.keySuffix.toList ∧ s.buf .k0 = Config.sector0Key.toList)

/-- R85: a refused access sets BUSERR and has no other effect, and a refused read returns 0. Refused are
the accesses that R81, R82 or R83 forbids, busy or not (while BUSY that is log 10, DEDUCED and unsafe);
the writes to the read-only registers and buffers of R85 (b); and while BUSY the writes R86 refuses (no
read is refused for BUSY alone). A read of a write-only register is not refused and returns 0. -/
def Obligations.RefusedAccessSetsBusErrOnly : Prop :=
  ∀ (s : State) (addr : BitVec 12) (n : Width) (v : Word) (rest : List Event), s.fetch = none →
    (¬ AccessWellFormed addr n →
      (s.inputs = .hostWrite addr n v :: rest →
        step s = .next { s with busErr := true, inputs := rest }) ∧
      (s.inputs = .hostRead addr n :: rest →
        step s = .next { s with busErr := true, readData := 0, inputs := rest })) ∧
    (∀ r, target addr n = some (.reg r) →
      r = .id ∨ r = .res0 ∨ r = .res1 ∨ r = .recon ∨ r = .seq ∨ r = .xstat →
      s.inputs = .hostWrite addr n v :: rest →
      step s = .next { s with busErr := true, inputs := rest }) ∧
    (∀ b, target addr n = some (.buf b) →
      b = .skey ∨ b = .bkey ∨ b = .ra ∨ b = .rb ∨ b = .ksuf ∨ b = .k0 →
      s.inputs = .hostWrite addr n v :: rest →
      step s = .next { s with busErr := true, inputs := rest }) ∧
    (∀ x, target addr n = some x → s.busy = true → x ≠ .reg .status → x ≠ .reg .cmd →
      s.inputs = .hostWrite addr n v :: rest →
      step s = .next { s with busErr := true, inputs := rest }) ∧
    (∀ r, target addr n = some (.reg r) → r = .cmd ∨ r = .crc16Data ∨ r = .crc48Data →
      s.busy = false → s.inputs = .hostRead addr n :: rest →
      step s = .next { s with readData := 0, inputs := rest })

/-- R86: while a port command runs. A guarded read returns the next arbitrary value and has no effect;
the count of the values drawn is the model's own (log 5, DESIGN CHOICE). That a guarded read of a
write-only register, too, is arbitrary, and not R85's 0, is log 11 (DEDUCED). -/
def Obligations.BusyAccesses : Prop :=
  ∀ (s : State) (addr : BitVec 12) (n : Width) (v : Word) (rest : List Event),
    s.busy = true → s.fetch = none →
    (∀ r, target addr n = some (.reg r) → r = .id ∨ r = .ctrl ∨ r = .status →
      s.inputs = .hostRead addr n :: rest →
      step s = .next { s with readData := s.readReg r, inputs := rest }) ∧
    (∀ x, target addr n = some x → x ≠ .reg .id → x ≠ .reg .ctrl → x ≠ .reg .status →
      s.inputs = .hostRead addr n :: rest →
      step s = .next { s with
        readData := truncate n (Config.busyRead s.freeReads)
        freeReads := s.freeReads + 1
        inputs := rest }) ∧
    (target addr n = some (.reg .status) → s.inputs = .hostWrite addr n v :: rest →
      step s = .next { s with
        done := s.done && !v.getLsbD 9
        busErr := s.busErr && !v.getLsbD 10
        ovr := s.ovr && !v.getLsbD 11
        inputs := rest }) ∧
    (target addr n = some (.reg .cmd) → s.inputs = .hostWrite addr n v :: rest →
      step s = .next { s with ovr := true, inputs := rest }) ∧
    (∀ x, target addr n = some x → x ≠ .reg .status → x ≠ .reg .cmd →
      s.inputs = .hostWrite addr n v :: rest →
      step s = .next { s with busErr := true, inputs := rest })

/-- R85, R87: no host read changes anything but the value the host gets, and BUSERR when it is refused;
that a malformed read is refused while BUSY too is log 10 (DEDUCED, unsafe). The count of arbitrary
values drawn is the model's own (log 5, DESIGN CHOICE). -/
def Obligations.HostReadHasNoSideEffect : Prop :=
  ∀ (s : State) (addr : BitVec 12) (n : Width) (rest : List Event), s.fetch = none →
    s.inputs = .hostRead addr n :: rest →
    ∃ t, step s = .next t ∧
      t = { s with
        busErr := t.busErr, readData := t.readData, freeReads := t.freeReads, inputs := rest } ∧
      (t.busErr = true ↔ s.busErr = true ∨ ¬ AccessWellFormed addr n) ∧
      (s.busy = false → t.freeReads = s.freeReads)

/-- R40, R84: an accepted write to a buffer that the host may write stores the low n bytes of the value, leaves every other byte and
everything else, and reads back through the same access. -/
def Obligations.BufferWriteReadsBack : Prop :=
  ∀ (s : State) (addr : BitVec 12) (n : Width) (v : Word) (b : Buffer) (rest : List Event),
    s.phase = .idle → target addr n = some (.buf b) →
    b = .uid ∨ b = .blk ∨ b = .name ∨ b = .hdr ∨ b = .p1 ∨ b = .p2 →
    s.inputs = .hostWrite addr n v :: .hostRead addr n :: rest →
    ∃ t u, run 1 s = .next t ∧ run 2 s = .next u ∧
      t = { s with mem := t.mem, inputs := .hostRead addr n :: rest } ∧
      SameBytesBut s t addr.toNat n.bytes ∧
      leNat (t.memRead addr.toNat n.bytes) = v.toNat % 256 ^ n.bytes ∧
      u = { t with readData := BitVec.ofNat 32 (v.toNat % 256 ^ n.bytes), inputs := rest }

/-- R37, R39, R41, R43: the bits each writable register keeps of a host write, as the next host read
sees them, and what of the other registers the write leaves. -/
def Obligations.RegisterWriteReadsBack : Prop :=
  ∀ (s : State) (addr : BitVec 12) (v : Word) (rest : List Event), s.phase = .idle →
    s.inputs = .hostWrite addr .w4 v :: .hostRead addr .w4 :: rest →
    (addr = 0x004 → ∃ t, run 2 s = .next t ∧ t.readData = v &&& 0x3 ∧
      t = { s with
        eqPolicy := v.getLsbD 0, irqEn := v.getLsbD 1, readData := t.readData,
        inputs := rest }) ∧
    (addr = 0x018 → ∃ t, run 2 s = .next t ∧ t.readData = v &&& 0xFFFF ∧
      t = { s with crc16 := v.setWidth 16, readData := t.readData, inputs := rest }) ∧
    (addr = 0x020 → ∃ t, run 2 s = .next t ∧ t.readData = v ∧
      t.readReg .crc48Hi = s.readReg .crc48Hi ∧
      t = { s with crc48 := t.crc48, readData := t.readData, inputs := rest }) ∧
    (addr = 0x024 → ∃ t, run 2 s = .next t ∧ t.readData = v &&& 0xFFFF ∧
      t.readReg .crc48Lo = s.readReg .crc48Lo ∧
      t = { s with crc48 := t.crc48, readData := t.readData, inputs := rest }) ∧
    (addr = 0x030 → ∃ t, run 2 s = .next t ∧ t.readData = v ∧
      t.readReg .fvalHi = s.readReg .fvalHi ∧
      t = { s with fval := t.fval, readData := t.readData, inputs := rest }) ∧
    (addr = 0x034 → ∃ t, run 2 s = .next t ∧ t.readData = v ∧
      t.readReg .fvalLo = s.readReg .fvalLo ∧
      t = { s with fval := t.fval, readData := t.readData, inputs := rest })

/-! The checksum generator. -/

/-- R117, R161, R163, R164, R165, R167: NOP and the CRC commands without a range complete with these
states: the named CRC state and the completion, and nothing else, no byte of memory among it. And R151
and R153 at the string "123456789". -/
def Obligations.NopAndCrcConstantResults : Prop :=
  crc16Of [0x31, 0x32, 0x33, 0x34, 0x35, 0x36, 0x37, 0x38, 0x39] = 0x29B1 ∧
  crc48Of [0x31, 0x32, 0x33, 0x34, 0x35, 0x36, 0x37, 0x38, 0x39] = 0xA3B83FBFAD0A ∧
  ∀ (s : State) (b : Byte) (len : BitVec 12),
    exec .nop s = .next { s with err := .ok, done := true, phase := .idle } ∧
    exec .crc16Init s =
      .next { s with crc16 := 0xFFFF, err := .ok, done := true, phase := .idle } ∧
    exec (.crc16Zero len) s =
      .next { s with
        crc16 := crc16From s.crc16 (zeros len.toNat), err := .ok, done := true, phase := .idle } ∧
    exec (.crc16Const b) s =
      .next { s with crc16 := crc16Byte s.crc16 b, err := .ok, done := true, phase := .idle } ∧
    exec .crc48Init s =
      .next { s with crc48 := 0x9AE903260CC4, err := .ok, done := true, phase := .idle } ∧
    exec (.crc48Const b) s =
      .next { s with crc48 := crc48Byte s.crc48 b, err := .ok, done := true, phase := .idle }

/-- R160, R162, R166: CRC16_RUN and CRC48_RUN fold a readable range, and end in BAD_ARG with the CRC
state unchanged on any other, a range that touches the register block or a reserved byte among them. -/
def Obligations.CrcRunResults : Prop :=
  ∀ (s : State) (addr len : BitVec 12),
    (RangeReadable addr.toNat len.toNat →
      exec (.crc16Run addr len) s =
        .next { s with
          crc16 := crc16From s.crc16 (s.memRead addr.toNat len.toNat)
          err := .ok, done := true, phase := .idle } ∧
      exec (.crc48Run addr len) s =
        .next { s with
          crc48 := crc48From s.crc48 (s.memRead addr.toNat len.toNat)
          err := .ok, done := true, phase := .idle }) ∧
    (¬ RangeReadable addr.toNat len.toNat →
      exec (.crc16Run addr len) s =
        .next { s with err := .badArg, done := true, phase := .idle } ∧
      exec (.crc48Run addr len) s =
        .next { s with err := .badArg, done := true, phase := .idle }) ∧
    (∀ k < len.toNat, addr.toNat + k < 0x040 ∨ (∀ b : Buffer, b.holds (addr.toNat + k) = false) →
      ¬ RangeReadable addr.toNat len.toNat)

/-- R168, R169: the two computing bus operations, their refusal while BUSY and in a narrow write, and
the rules' examples. They are no commands: STATUS.DONE and ERR stay. -/
def Obligations.CrcDataWriteResults : Prop :=
  (∀ (s : State) (w : Word), s.busy = false →
    exec (.crc16DataWrite w) s =
      .next { s with crc16 := crc16Byte s.crc16 (w.extractLsb' 0 8) } ∧
    exec (.crc48DataWrite w) s =
      .next { s with crc48 := crc48Byte s.crc48 (w.extractLsb' 0 8) }) ∧
  (∀ (s : State) (w : Word), s.busy = true →
    exec (.crc16DataWrite w) s = .next { s with busErr := true } ∧
    exec (.crc48DataWrite w) s = .next { s with busErr := true }) ∧
  (∀ (s : State) (addr : BitVec 12) (n : Width) (w : Word) (rest : List Event), s.fetch = none →
    addr = 0x01C ∨ addr = 0x028 → n ≠ .w4 → s.inputs = .hostWrite addr n w :: rest →
    step s = .next { s with busErr := true, inputs := rest }) ∧
  crc16Byte 0 1 = 0x1021 ∧ crc48Byte 0 1 = 0xE1EBA9EA3693

/-- R156: both folds compose over concatenation, so a run over a range is the run over its first part
followed by the run over its second, and a data-register write is the run over one byte. -/
def Obligations.CrcRunsCompose : Prop :=
  (∀ (c : BitVec 16) (x y : List Byte), crc16From c (x ++ y) = crc16From (crc16From c x) y) ∧
  (∀ (c : BitVec 48) (x y : List Byte), crc48From c (x ++ y) = crc48From (crc48From c x) y) ∧
  (∀ (s : State) (addr m n : BitVec 12), addr.toNat + m.toNat < 4096 → m.toNat + n.toNat < 4096 →
    RangeReadable addr.toNat (m + n).toNat →
    ∃ t u, exec (.crc16Run addr m) s = .next t ∧ exec (.crc16Run (addr + m) n) t = .next u ∧
      exec (.crc16Run addr (m + n)) s = .next u) ∧
  (∀ (s : State) (addr m n : BitVec 12), addr.toNat + m.toNat < 4096 → m.toNat + n.toNat < 4096 →
    RangeReadable addr.toNat (m + n).toNat →
    ∃ t u, exec (.crc48Run addr m) s = .next t ∧ exec (.crc48Run (addr + m) n) t = .next u ∧
      exec (.crc48Run addr (m + n)) s = .next u) ∧
  (∀ (s : State) (w : Word), s.busy = false →
    exec (.crc16DataWrite w) s =
      .next { s with crc16 := crc16From s.crc16 [w.extractLsb' 0 8] } ∧
    exec (.crc48DataWrite w) s =
      .next { s with crc48 := crc48From s.crc48 [w.extractLsb' 0 8] })

/-- R170: no codec, key or arbiter command reads or writes the CRC16 or CRC48 register, in its first
step or in a later one: with other values in the two registers, the next state is the same but for
those values. -/
def Obligations.CrcRegistersSurvive : Prop :=
  (∀ (i : Instr) (s : State) (x : BitVec 16) (y : BitVec 48), writesCrc i = false →
    ∃ t, exec i s = .next t ∧ t.crc16 = s.crc16 ∧ t.crc48 = s.crc48 ∧
      exec i { s with crc16 := x, crc48 := y } = .next { t with crc16 := x, crc48 := y }) ∧
  (∀ (a : Answer) (s : State) (x : BitVec 16) (y : BitVec 48),
    (onAnswer a s).crc16 = s.crc16 ∧ (onAnswer a s).crc48 = s.crc48 ∧
      onAnswer a { s with crc16 := x, crc48 := y } =
        { onAnswer a s with crc16 := x, crc48 := y })

/-! Keys and the cipher step. -/

/-- R180, R190: SECTOR_KEY. SKEY is K0 for sector 0 whatever UID holds, and else the little-endian CRC48
of UID and the sector number; RES0 and RES1 are its low four and its high two bytes; nothing but SKEY,
RES0, RES1 and the completion changes. -/
def Obligations.SectorKeyResult : Prop :=
  ∀ (s : State) (sector : Byte),
    (sector.toNat ≤ 15 → ∃ t, exec (.sectorKey sector) s = .next t ∧
      t = { s with
        mem := t.mem, res0 := t.res0, res1 := t.res1, err := .ok, done := true,
        phase := .idle } ∧
      SameBytesBut s t 0x048 6 ∧
      (sector = 0 → t.buf .skey = Config.sector0Key.toList) ∧
      (sector ≠ 0 → leNat (t.buf .skey) = (crc48Of (s.buf .uid ++ [sector])).toNat) ∧
      t.res0.toNat + 2 ^ 32 * t.res1.toNat = leNat (t.buf .skey)) ∧
    (15 < sector.toNat → exec (.sectorKey sector) s =
      .next { s with err := .badArg, done := true, phase := .idle })

/-- R182, R184, R191: BLOCK_KEY. BKEY is the MD5 digest of HDR, the block number and P_KEY_SUFFIX;
nothing but BKEY and the completion changes. And R184's check values of MD5. -/
def Obligations.BlockKeyResult : Prop :=
  md5 [] = [0xD4, 0x1D, 0x8C, 0xD9, 0x8F, 0x00, 0xB2, 0x04, 0xE9, 0x80, 0x09, 0x98, 0xEC, 0xF8, 0x42,
    0x7E] ∧
  md5 [0x61, 0x62, 0x63] = [0x90, 0x01, 0x50, 0x98, 0x3C, 0xD2, 0x4F, 0xB0, 0xD6, 0x96, 0x3F, 0x7D,
    0x28, 0xE1, 0x7F, 0x72] ∧
  ∀ (s : State) (n : Byte),
    (n.toNat ≤ 63 → ∃ t, exec (.blockKey n) s = .next t ∧ CompletedWithMem .ok s t ∧
      SameBytesBut s t 0x050 16 ∧
      t.buf .bkey = md5 (s.buf .hdr ++ [n] ++ Config.keySuffix.toList)) ∧
    (63 < n.toNat → exec (.blockKey n) s =
      .next { s with err := .badArg, done := true, phase := .idle })

/-- R185, R192, R193: BLK_ENC and BLK_DEC. BKEY is the block key, BLK is E or D of the whole old BLK
under it; nothing but BKEY, BLK and the completion changes. -/
def Obligations.CipherCommandResults : Prop :=
  ∀ (s : State) (n : Byte),
    (n.toNat ≤ 63 → ∃ t u, exec (.blkEnc n) s = .next t ∧ exec (.blkDec n) s = .next u ∧
      CompletedWithMem .ok s t ∧ CompletedWithMem .ok s u ∧
      SameBytesBut s t 0x050 32 ∧ SameBytesBut s u 0x050 32 ∧
      t.buf .bkey = md5 (s.buf .hdr ++ [n] ++ Config.keySuffix.toList) ∧
      u.buf .bkey = t.buf .bkey ∧
      t.buf .blk = (cipherE (toVec 16 (t.buf .bkey)) (toVec 16 (s.buf .blk))).toList ∧
      u.buf .blk = (cipherD (toVec 16 (u.buf .bkey)) (toVec 16 (s.buf .blk))).toList) ∧
    (63 < n.toNat →
      exec (.blkEnc n) s = .next { s with err := .badArg, done := true, phase := .idle } ∧
      exec (.blkDec n) s = .next { s with err := .badArg, done := true, phase := .idle })

/-- R10, R193: BLK_ENC N followed by BLK_DEC N restores BLK, whatever happens in between that leaves HDR
and BLK. -/
def Obligations.EncryptThenDecryptRestoresBlk : Prop :=
  ∀ (s t t' u : State) (n : Byte), n.toNat ≤ 63 → exec (.blkEnc n) s = .next t →
    t'.buf .hdr = s.buf .hdr → t'.buf .blk = t.buf .blk → exec (.blkDec n) t' = .next u →
    u.buf .blk = s.buf .blk

/-! The record codec. -/

/-- R212, R213, R222 to R228, R250, R252, R254: the three checks. Each computes its checksums over the
bytes as they stand, compares them with the stored ones, reports both, and changes no memory. The bits
of the mask in RES1[18:16] are those of checksums 1, 2 and 3. A header, a part 1 and a part 2 are valid
exactly when every stored checksum is the computed one. -/
def Obligations.ChecksumCheckResults : Prop :=
  ∀ s : State,
    let h := s.buf .hdr
    let p := s.buf .p1
    let q := s.buf .p2
    let hc := crc16Of (slice h 0 0x1E)
    let c1 := crc16Of (slice p 0 0x0E ++ [5, 0])
    let c2 := crc16Of (slice p 0x10 0x40)
    let c3 := crc16Of (slice p 0x40 0x70 ++ zeros 0xE0)
    let c4 := crc16Of ([6, 1] ++ slice q 2 0x40)
    let bad1 := decide (leNat (slice p 0x0E 0x10) ≠ c1.toNat)
    let bad2 := decide (leNat (slice p 0x0C 0x0E) ≠ c2.toNat)
    let bad3 := decide (leNat (slice p 0x0A 0x0C) ≠ c3.toNat)
    hdrValid h = decide (leNat (slice h 0x1E 0x20) = hc.toNat) ∧
    p1Valid p = (!bad1 && !bad2 && !bad3) ∧
    p2Valid q = decide (leNat (slice q 0 2) = c4.toNat) ∧
    exec .hdrCheck s = .next { s with
      res0 := BitVec.ofNat 32 hc.toNat
      res1 := BitVec.ofNat 32 (leNat (slice h 0x1E 0x20))
      err := if leNat (slice h 0x1E 0x20) = hc.toNat then .ok else .hdrChecksum
      done := true, phase := .idle } ∧
    exec .p1Check s = .next { s with
      res0 := BitVec.ofNat 32 (c1.toNat + 2 ^ 16 * c2.toNat)
      res1 := BitVec.ofNat 32
        (c3.toNat + 2 ^ 16 * (bad1.toNat + 2 * bad2.toNat + 4 * bad3.toNat))
      err := if bad1 || bad2 || bad3 then .p1Checksum else .ok
      done := true, phase := .idle } ∧
    exec .p2Check s = .next { s with
      res0 := BitVec.ofNat 32 c4.toNat
      res1 := BitVec.ofNat 32 (leNat (slice q 0 2))
      err := if leNat (slice q 0 2) = c4.toNat then .ok else .p2Checksum
      done := true, phase := .idle }

/-- R214, R229, R231, R251, R253, R255: the three seals. Only the checksum bytes, the named result
registers and the completion change; each stored checksum is the one its rule defines, checksum1 over
the checksum2 and checksum3 just stored. -/
def Obligations.SealResults : Prop :=
  ∀ s : State,
    (∃ t, exec .hdrSeal s = .next t ∧
      t = { s with mem := t.mem, res0 := t.res0, err := .ok, done := true, phase := .idle } ∧
      SameBytesBut s t 0x11E 2 ∧
      leNat (slice (t.buf .hdr) 0x1E 0x20) = (crc16Of (slice (s.buf .hdr) 0 0x1E)).toNat ∧
      t.res0.toNat = leNat (slice (t.buf .hdr) 0x1E 0x20)) ∧
    (∃ t, exec .p1Seal s = .next t ∧
      t = { s with
        mem := t.mem, res0 := t.res0, res1 := t.res1, err := .ok, done := true,
        phase := .idle } ∧
      SameBytesBut s t 0x18A 6 ∧
      leNat (slice (t.buf .p1) 0x0A 0x0C) =
        (crc16Of (slice (s.buf .p1) 0x40 0x70 ++ zeros 0xE0)).toNat ∧
      leNat (slice (t.buf .p1) 0x0C 0x0E) = (crc16Of (slice (s.buf .p1) 0x10 0x40)).toNat ∧
      leNat (slice (t.buf .p1) 0x0E 0x10) =
        (crc16Of (slice (t.buf .p1) 0 0x0E ++ [5, 0])).toNat ∧
      t.res0.toNat = leNat (slice (t.buf .p1) 0x0E 0x10) +
        2 ^ 16 * leNat (slice (t.buf .p1) 0x0C 0x0E) ∧
      t.res1.toNat = leNat (slice (t.buf .p1) 0x0A 0x0C)) ∧
    (∃ t, exec .p2Seal s = .next t ∧
      t = { s with mem := t.mem, res0 := t.res0, err := .ok, done := true, phase := .idle } ∧
      SameBytesBut s t 0x200 2 ∧
      leNat (slice (t.buf .p2) 0 2) = (crc16Of ([6, 1] ++ slice (s.buf .p2) 2 0x40)).toNat ∧
      t.res0.toNat = leNat (slice (t.buf .p2) 0 2))

/-- R214, R229, R231: what a seal leaves is valid, so the matching check after it ends OK and reports
the stored checksum as the computed one. -/
def Obligations.SealThenCheckPasses : Prop :=
  (∀ s t : State, exec .hdrSeal s = .next t →
    ∃ u, exec .hdrCheck t = .next u ∧ u.err = .ok ∧ u.res0 = t.res0 ∧ u.res1 = t.res0) ∧
  (∀ s t : State, exec .p1Seal s = .next t →
    ∃ u, exec .p1Check t = .next u ∧ u.err = .ok ∧ u.res0 = t.res0 ∧ u.res1 = t.res1) ∧
  (∀ s t : State, exec .p2Seal s = .next t →
    ∃ u, exec .p2Check t = .next u ∧ u.err = .ok ∧ u.res0 = t.res0 ∧ u.res1 = t.res0)

/-- R251, R253, R255: a seal is idempotent. -/
def Obligations.SealIsIdempotent : Prop :=
  ∀ (i : Instr) (s t : State), i = .hdrSeal ∨ i = .p1Seal ∨ i = .p2Seal →
    exec i s = .next t →
    ∃ u, exec i t = .next u ∧ SameBytes t u ∧ u.res0 = t.res0 ∧ u.res1 = t.res1 ∧ u.err = .ok

/-- R235: the 46 rows, each with its field id, name, buffer, offset and width in bytes; each is the row
its field id names, the undefined ids are exactly those of the rule, every field lies in its buffer, and
no two fields share a byte. -/
def Obligations.FieldTableShape : Prop :=
  fieldTable.map (fun r => (r.fid, r.name, r.buf, r.off, r.width)) =
    [(0x00, "H_CHAR_ID", .hdr, 0x10, 3), (0x01, "H_ERROR", .hdr, 0x13, 1),
     (0x02, "H_CARD_ID", .hdr, 0x14, 8), (0x03, "H_DECORATION", .hdr, 0x1C, 1),
     (0x04, "H_VARIANT", .hdr, 0x1D, 1), (0x05, "H_CRC", .hdr, 0x1E, 2)] ++
    [(0x10, "P1_XP1", .p1, 0x00, 3), (0x11, "P1_MONEY", .p1, 0x03, 2),
     (0x12, "P1_PORTAL_SECONDS", .p1, 0x05, 4), (0x13, "P1_SEQ", .p1, 0x09, 1),
     (0x14, "P1_CSUM3", .p1, 0x0A, 2), (0x15, "P1_CSUM2", .p1, 0x0C, 2),
     (0x16, "P1_CSUM1", .p1, 0x0E, 2), (0x17, "P1_UPGRADES", .p1, 0x10, 3),
     (0x18, "P1_PLATFORM_A", .p1, 0x13, 1), (0x19, "P1_HAT_LO", .p1, 0x14, 2),
     (0x1A, "P1_P2_PRESENT", .p1, 0x16, 1), (0x1B, "P1_PLATFORM_B", .p1, 0x17, 1),
     (0x1C, "P1_OWNER_ID", .p1, 0x18, 8)] ++
    [(0x1D, "P1_WRITE_MINUTE", .p1, 0x40, 1), (0x1E, "P1_WRITE_HOUR", .p1, 0x41, 1),
     (0x1F, "P1_WRITE_DAY", .p1, 0x42, 1), (0x20, "P1_WRITE_MONTH", .p1, 0x43, 1),
     (0x21, "P1_WRITE_YEAR", .p1, 0x44, 2), (0x22, "P1_HEROIC_LO", .p1, 0x46, 4),
     (0x23, "P1_HERO_POINTS", .p1, 0x4A, 2), (0x24, "P1_BUILD_DATE", .p1, 0x4C, 3),
     (0x25, "P1_OWNER_COUNT", .p1, 0x4F, 1), (0x26, "P1_RESET_MINUTE", .p1, 0x50, 1),
     (0x27, "P1_RESET_HOUR", .p1, 0x51, 1), (0x28, "P1_RESET_DAY", .p1, 0x52, 1),
     (0x29, "P1_RESET_MONTH", .p1, 0x53, 1), (0x2A, "P1_RESET_YEAR", .p1, 0x54, 2),
     (0x2B, "P1_CHALLENGE_LEVEL", .p1, 0x6C, 4)] ++
    [(0x40, "P2_CSUM4", .p2, 0x00, 2), (0x41, "P2_SEQ", .p2, 0x02, 1),
     (0x42, "P2_XP2", .p2, 0x03, 2), (0x43, "P2_HAT_B2", .p2, 0x05, 1),
     (0x44, "P2_FLAGS", .p2, 0x06, 2), (0x45, "P2_XP3", .p2, 0x08, 4),
     (0x46, "P2_HAT_B3", .p2, 0x0C, 1), (0x47, "P2_TRINKET", .p2, 0x0D, 1),
     (0x48, "P2_HAT_B4", .p2, 0x0E, 1), (0x49, "P2_RESERVED_0F", .p2, 0x0F, 1),
     (0x4A, "P2_BATTLEGROUND", .p2, 0x10, 4), (0x4B, "P2_HEROIC_HI", .p2, 0x14, 3)] ∧
  fieldTable.length = 46 ∧ headerFields.length = 6 ∧
  (part1FieldsLow ++ part1FieldsHigh).length = 28 ∧ part2Fields.length = 12 ∧
  (∀ fid : Byte, fieldRow fid = none ↔
    ((0x06 ≤ fid ∧ fid ≤ 0x0F) ∨ (0x2C ≤ fid ∧ fid ≤ 0x3F) ∨ 0x4C ≤ fid)) ∧
  (∀ r ∈ fieldTable, fieldRow (BitVec.ofNat 8 r.fid) = some r ∧ 1 ≤ r.width ∧ r.width ≤ 8 ∧
    r.off + r.width ≤ r.buf.size ∧ r.buf.hostWritable = true) ∧
  fieldTable.Pairwise fun r q =>
    r.fid ≠ q.fid ∧ r.name ≠ q.name ∧
      (r.buf ≠ q.buf ∨ r.off + r.width ≤ q.off ∨ q.off + q.width ≤ r.off)

/-- R236, R240: FIELD_GET writes the zero-extended value of the field to FVAL, and completes; on an
undefined field id or a BIT other than 0 it ends in BAD_ARG. -/
def Obligations.FieldGetResult : Prop :=
  ∀ (s : State) (fid bit : Byte),
    (∀ r, fieldRow fid = some r → bit = 0 →
      exec (.fieldGet fid bit) s = .next { s with
        fval := BitVec.ofNat 64 (leNat (slice (s.buf r.buf) r.off (r.off + r.width)))
        err := .ok, done := true, phase := .idle }) ∧
    (fieldRow fid = none ∨ bit ≠ 0 →
      exec (.fieldGet fid bit) s =
        .next { s with err := .badArg, done := true, phase := .idle })

/-- R241: FIELD_PUT stores a value that fits little-endian in the field's bytes, and nothing elsewhere;
a value that does not fit, an undefined field id or a BIT other than 0 ends in BAD_ARG with nothing
written. -/
def Obligations.FieldPutResult : Prop :=
  ∀ (s : State) (fid bit : Byte),
    (∀ r, fieldRow fid = some r → bit = 0 → s.fval.toNat < 2 ^ (8 * r.width) →
      ∃ t, exec (.fieldPut fid bit) s = .next t ∧ CompletedWithMem .ok s t ∧
        SameBytesBut s t (r.buf.base + r.off) r.width ∧ t.fieldValue r = s.fval.toNat) ∧
    (∀ r, fieldRow fid = some r → bit = 0 → 2 ^ (8 * r.width) ≤ s.fval.toNat →
      exec (.fieldPut fid bit) s =
        .next { s with err := .badArg, done := true, phase := .idle }) ∧
    (fieldRow fid = none ∨ bit ≠ 0 →
      exec (.fieldPut fid bit) s =
        .next { s with err := .badArg, done := true, phase := .idle })

/-- R260: the round trip. What FIELD_PUT stores FIELD_GET returns, whatever FVAL holds in between; the
put changes no byte outside the field; and the three seals change no byte but the checksum bytes. -/
def Obligations.FieldRoundTrip : Prop :=
  (∀ (s : State) (fid : Byte) (r : FieldRow), fieldRow fid = some r →
    s.fval.toNat < 2 ^ (8 * r.width) →
    ∃ t, exec (.fieldPut fid 0) s = .next t ∧ SameBytesBut s t (r.buf.base + r.off) r.width ∧
      ∀ x : BitVec 64, ∃ u, exec (.fieldGet fid 0) { t with fval := x } = .next u ∧
        u.err = .ok ∧ u.fval = s.fval) ∧
  (∀ s : State, ∃ t u v, exec .hdrSeal s = .next t ∧ exec .p1Seal t = .next u ∧
    exec .p2Seal u = .next v ∧
    ∀ a, ¬ (0x11E ≤ a ∧ a < 0x120) → ¬ (0x18A ≤ a ∧ a < 0x190) → ¬ (0x200 ≤ a ∧ a < 0x202) →
      v.byte a = s.byte a)

/-- R234, R242, R243, R244: BIT_GET reads, and BIT_SET and BIT_CLR write, the bit of that index of the
field's value, and no other bit of the field and no byte but the one that holds it; an undefined field
id or an index not below the field's width ends in BAD_ARG. -/
def Obligations.BitCommandResults : Prop :=
  ∀ (s : State) (fid bit : Byte),
    (∀ r, fieldRow fid = some r → bit.toNat < 8 * r.width →
      exec (.bitGet fid bit) s = .next { s with
        res0 := if (s.fieldValue r).testBit bit.toNat then 1 else 0
        err := .ok, done := true, phase := .idle } ∧
      (∃ t, exec (.bitSet fid bit) s = .next t ∧ CompletedWithMem .ok s t ∧
        SameBytesBut s t (r.buf.base + r.off + bit.toNat / 8) 1 ∧
        ∀ j, (t.fieldValue r).testBit j = (decide (j = bit.toNat) || (s.fieldValue r).testBit j)) ∧
      (∃ t, exec (.bitClr fid bit) s = .next t ∧ CompletedWithMem .ok s t ∧
        SameBytesBut s t (r.buf.base + r.off + bit.toNat / 8) 1 ∧
        ∀ j, (t.fieldValue r).testBit j =
          (!decide (j = bit.toNat) && (s.fieldValue r).testBit j))) ∧
    ((∀ r, fieldRow fid = some r → 8 * r.width ≤ bit.toNat) →
      exec (.bitGet fid bit) s = .next { s with err := .badArg, done := true, phase := .idle } ∧
      exec (.bitSet fid bit) s = .next { s with err := .badArg, done := true, phase := .idle } ∧
      exec (.bitClr fid bit) s = .next { s with err := .badArg, done := true, phase := .idle })

/-- R237, R246: NICK_UNPACK copies the sixteen character slots to NAME, and reports the length of the
name and whether the field breaks the zero interleave. -/
def Obligations.NickUnpackResult : Prop :=
  ∀ (s : State) (n : Nat), IsNameLength (fun k => s.byte (0x1A0 + 2 * k)) n →
    ∃ t, exec .nickUnpack s = .next t ∧
      t = { s with
        mem := t.mem, res0 := BitVec.ofNat 32 n, res1 := t.res1, err := .ok, done := true,
        phase := .idle } ∧
      SameBytesBut s t 0x070 16 ∧
      (∀ k < 16, t.byte (0x070 + k) = s.byte (0x1A0 + 2 * k)) ∧
      ((∃ k < 16, s.byte (0x1A1 + 2 * k) ≠ 0) → t.res1 = 1) ∧
      ((∀ k < 16, s.byte (0x1A1 + 2 * k) = 0) → t.res1 = 0)

/-- R237, R247: NICK_PACK writes a name of at most 14 characters, and zeros, to the nickname field; a
longer one ends in BAD_ARG with nothing written. -/
def Obligations.NickPackResult : Prop :=
  ∀ (s : State) (n : Nat), IsNameLength (fun k => s.byte (0x070 + k)) n →
    (n ≤ 14 → ∃ t, exec .nickPack s = .next t ∧
      t = { s with
        mem := t.mem, res0 := BitVec.ofNat 32 n, err := .ok, done := true, phase := .idle } ∧
      SameBytesBut s t 0x1A0 32 ∧
      (∀ k < 16, t.byte (0x1A0 + 2 * k) = if k < n then s.byte (0x070 + k) else 0) ∧
      (∀ k < 16, t.byte (0x1A1 + 2 * k) = 0)) ∧
    (14 < n → exec .nickPack s =
      .next { s with err := .badArg, done := true, phase := .idle })

/-- R246, R247: NICK_PACK followed by NICK_UNPACK gives back the name, its bytes after the end zeroed,
its length, and an unbroken interleave. -/
def Obligations.NickRoundTrip : Prop :=
  ∀ (s : State) (n : Nat), IsNameLength (fun k => s.byte (0x070 + k)) n → n ≤ 14 →
    ∃ t u, exec .nickPack s = .next t ∧ exec .nickUnpack t = .next u ∧
      (∀ k < 16, u.byte (0x070 + k) = if k < n then s.byte (0x070 + k) else 0) ∧
      u.res0.toNat = n ∧ u.res1 = 0

/-! The arbiter. -/

/-- R271: BLOCK_MAP reports the mapped block and its sector; an INDEX above 10 ends in BAD_ARG. -/
def Obligations.BlockMapResult : Prop :=
  ∀ (s : State) (index : BitVec 4) (r : Region),
    (index.toNat ≤ 10 → exec (.blockMap index r) s = .next { s with
      res0 := BitVec.ofNat 32 (regionBlock r index.toNat)
      res1 := BitVec.ofNat 32 (regionBlock r index.toNat / 4)
      err := .ok, done := true, phase := .idle }) ∧
    (10 < index.toNat → exec (.blockMap index r) s =
      .next { s with err := .badArg, done := true, phase := .idle })

/-- R9, R270: the block map sends index i of a region to b + i + i div 3; the block is never a trailer
and lies in one of the sectors b/4 to b/4 + 3, b + 13 being the last; the maps of the
configuration EX; and, from R9, every block is at least 4 and at most 61, and no two indices and no
two regions share one. -/
def Obligations.BlockMapAvoidsTrailers : Prop :=
  (∀ b i : Nat, mapBlock b i = b + i + i / 3) ∧
  (List.range 11).map (mapBlock 0x08) =
    [0x08, 0x09, 0x0A, 0x0C, 0x0D, 0x0E, 0x10, 0x11, 0x12, 0x14, 0x15] ∧
  (List.range 11).map (mapBlock 0x24) =
    [0x24, 0x25, 0x26, 0x28, 0x29, 0x2A, 0x2C, 0x2D, 0x2E, 0x30, 0x31] ∧
  (∀ i, regionBlock .a i = mapBlock Config.regionBases.a i) ∧
  (∀ i, regionBlock .b i = mapBlock Config.regionBases.b i) ∧
  ∀ (r q : Region) (i j : Nat), i ≤ 10 → j ≤ 10 →
    regionBlock r i % 4 = i % 3 ∧ regionBlock r i % 4 ≠ 3 ∧
    regionBase r / 4 ≤ regionBlock r i / 4 ∧ regionBlock r i / 4 ≤ regionBase r / 4 + 3 ∧
    regionBlock r i ≤ regionBase r + 13 ∧ regionBlock r 10 = regionBase r + 13 ∧
    4 ≤ regionBlock r i ∧ regionBlock r i ≤ 61 ∧
    (regionBlock r i = regionBlock q j → r = q ∧ i = j)

/-- R272, R273, R275: SEQ_RECONCILE, case by case. -/
def Obligations.SeqReconcileResult : Prop :=
  ∀ s : State,
    let sA := s.fval.extractLsb' 0 8
    let sB := s.fval.extractLsb' 8 8
    let vA := s.fval.getLsbD 16
    let vB := s.fval.getLsbD 17
    ∃ t, exec .seqReconcile s = .next t ∧
      t = { s with
        res0 := t.res0, res1 := BitVec.ofNat 32 ((sA.toNat + 256 - sB.toNat) % 256),
        err := if t.res0 = 3 then .ambiguousSequence else .ok, done := true, phase := .idle } ∧
      (vA = false → vB = false → t.res0 = 0) ∧
      (vA = true → vB = false → t.res0 = 1) ∧
      (vA = false → vB = true → t.res0 = 2) ∧
      (vA = true → vB = true →
        (sA = sB + 1 → t.res0 = 1) ∧ (sB = sA + 1 → t.res0 = 2) ∧
        (sA = sB → s.eqPolicy = true → t.res0 = 1) ∧
        (sA = sB → s.eqPolicy = false → t.res0 = 3) ∧
        (sA ≠ sB → sA ≠ sB + 1 → sB ≠ sA + 1 → t.res0 = 3))

/-- R276: under EQ_POLICY = 0, with both copies valid, a copy is selected exactly when the pair is
healthy (the two sequence bytes differ by exactly 1 mod 256), and it is the one ahead by 1. -/
def Obligations.HealthyPairSelectsTheNewer : Prop :=
  ∀ sA sB : Byte,
    ((reconcile true sA true sB false).selects.isSome = true ↔ sA = sB + 1 ∨ sB = sA + 1) ∧
    ((reconcile true sA true sB false).selects = some .a ↔ sA = sB + 1) ∧
    ((reconcile true sA true sB false).selects = some .b ↔ sB = sA + 1)

/-- R285: the region WRITE_RECORD picks as stale: B when the bytes make A the one ahead by 1 (the wrap
from 255 to 0 included), A when B is, and for any other pair B when A's byte is at least B's, else A.
Given the next sequence byte it makes a healthy pair with the other one and is the copy that
reconciliation then selects, whatever the bytes were, under either policy, and whether or not the other
copy is valid. -/
def Obligations.StaleWriteIsSelected : Prop :=
  staleRegion 0 255 = .b ∧ staleRegion 255 0 = .a ∧
  ∀ (sA sB : Byte) (v eq : Bool),
    (sA = sB + 1 → staleRegion sA sB = .b) ∧
    (sB = sA + 1 → staleRegion sA sB = .a) ∧
    (sA ≠ sB + 1 → sB ≠ sA + 1 →
      (sB.toNat ≤ sA.toNat → staleRegion sA sB = .b) ∧
      (sA.toNat < sB.toNat → staleRegion sA sB = .a)) ∧
    (staleRegion sA sB = .a →
      nextSequence sA sB = sB + 1 ∧
        reconcile true (nextSequence sA sB) v sB eq = .fromA) ∧
    (staleRegion sA sB = .b →
      nextSequence sA sB = sA + 1 ∧
        reconcile v sA true (nextSequence sA sB) eq = .fromB)

/-! The port commands. -/

/-- R280, R286, R95: READ_RECORD and WRITE_RECORD begin, in every state: their result registers are
zeroed, and the read of block 0 is requested with the key of sector 0, which is K0; nothing else
changes, no byte of memory among it. -/
def Obligations.PortCommandsBegin : Prop :=
  ∀ (s : State) (rw : Bool),
    exec .readRecord s = .next { s with
      recon := 0, seq := 0,
      phase := .busy 0x00000032 .readHdr0 (some ⟨0, .read, Config.sector0Key⟩) } ∧
    exec (.writeRecord rw) s = .next { s with
      res0 := 0, res1 := 0, seq := 0,
      phase := .busy (if rw then 0x00000133 else 0x00000033) (.wrRefresh0 rw)
        (some ⟨0, .read, Config.sector0Key⟩) }

/-- R280, R282, R292, R333: the answers that end a port command at once. LOST ends it anywhere, AUTH_FAIL
in READ_RECORD's header stage and anywhere in WRITE_RECORD: XSTAT names the block, its sector, the stage
(by R334's number for the position) and the cause, the completion follows, and nothing else changes,
the tag and the buffers among it. -/
def Obligations.FailedTransactionEndsCommand : Prop :=
  ∀ (s : State) (w : Word) (pos : Position) (req : PortRequest) (rest : List Event),
    s.phase = .busy w pos (some req) → req.block < 64 →
    (s.inputs = .answer .lost :: rest →
      ∃ t, step s = .next t ∧
        t = { s with
          xstat := t.xstat, err := .transportLost, done := true, phase := .idle,
          inputs := rest } ∧
        t.xstat.toNat =
          req.block + 2 ^ 8 * (req.block / 4) + 2 ^ 12 * pos.stageNumber + 2 ^ 16 * 2) ∧
    (s.inputs = .answer .authFail :: rest → pos.abortsOnAuthFail = true →
      ∃ t, step s = .next t ∧
        t = { s with
          xstat := t.xstat, err := .authFailure, done := true, phase := .idle,
          inputs := rest } ∧
        t.xstat.toNat =
          req.block + 2 ^ 8 * (req.block / 4) + 2 ^ 12 * pos.stageNumber + 2 ^ 16)

/-- R280, R281, R282, R284: AUTH_FAIL inside a region of READ_RECORD. The first one of the command is
recorded in XSTAT. After region A the read of region B begins, its image zeroed; after region B the
command ends in AUTH_FAILURE, with the region's bits of RECON 0 and with P1, P2, RECON and SEQ by
ReadOutcome. A command that skips region A reads region B to its end, 11 ideal answers later (R99), and
ends in AUTH_FAILURE with what region B alone gives. Then from the command word on, under IDEAL_TAG but
for the answer named: what AUTH_FAIL and LOST at index i of region A, and LOST at index j of region B,
leave in HDR, RA and RB, the unread bytes of an image being zeros; and the whole command with the
regions' first i and j blocks read, the unread sequence bytes of SEQ being 0. -/
def Obligations.AuthFailSkipsRegion : Prop :=
  (∀ (s : State) (w : Word) (r : Region) (i : Fin 11) (hok okA authFail : Bool)
    (req : PortRequest) (rest : List Event),
    s.phase = .busy w (.readRegion r i hok okA authFail) (some req) →
    s.inputs = .answer .authFail :: rest →
    ∃ t, step s = .next t ∧ t.tag = s.tag ∧ t.inputs = rest ∧
      t.buf .ra = s.buf .ra ∧ t.buf .hdr = s.buf .hdr ∧
      (authFail = true → t.xstat = s.xstat) ∧
      (authFail = false →
        t.xstat =
          xstatWord req.block (if r = .a then .regionARead else .regionBRead) .authFail ∧
        (req.block < 64 → t.xstat.toNat =
          req.block + 2 ^ 8 * (req.block / 4) + 2 ^ 12 * (if r = .a then 2 else 3) + 2 ^ 16)) ∧
      (r = .a →
        t.phase = .busy w (.readRegion .b 0 hok false true)
          (some ⟨regionBlock .b 0, .read, toVec 6 (s.sectorKey (regionBlock .b 0 / 4))⟩) ∧
        t.buf .rb = zeros 176 ∧ t.buf .p1 = s.buf .p1 ∧ t.buf .p2 = s.buf .p2 ∧
        t = { s with mem := t.mem, xstat := t.xstat, phase := t.phase, inputs := rest }) ∧
      (r = .b →
        t.phase = .idle ∧ t.done = true ∧ t.err = .authFailure ∧ t.buf .rb = s.buf .rb ∧
        t.recon.getLsbD 14 = false ∧ t.recon.getLsbD 12 = false ∧ t.recon.getLsbD 10 = false ∧
        t.recon.getLsbD 13 = okA ∧
        ReadOutcome hok okA false true s.eqPolicy (s.buf .ra) (s.buf .rb) t ∧
        t = { s with
          mem := t.mem, xstat := t.xstat, recon := t.recon, seq := t.seq, err := .authFailure,
          done := true, phase := .idle, inputs := rest } ∧
        ∀ b : Buffer, b ≠ .p1 → b ≠ .p2 → t.buf b = s.buf b)) ∧
  (∀ (s : State) (w : Word) (i : Fin 11) (hok okA authFail : Bool) (req : PortRequest)
    (rest : List Event),
    s.phase = .busy w (.readRegion .a i hok okA authFail) (some req) →
    s.inputs = .answer .authFail :: (List.replicate 11 .idealAnswer ++ rest) →
    let rb := plainRegion s.tag (s.buf .hdr) .b
    ∃ t, run 12 s = .next t ∧
      t = { s with
        mem := t.mem, xstat := t.xstat, recon := t.recon, seq := t.seq, err := .authFailure,
        done := true, phase := .idle, inputs := rest } ∧
      (∀ b : Buffer, b ≠ .p1 → b ≠ .p2 → b ≠ .rb → t.buf b = s.buf b) ∧ t.buf .rb = rb ∧
      (authFail = true → t.xstat = s.xstat) ∧
      (authFail = false → req.block < 64 → t.xstat.toNat =
        req.block + 2 ^ 8 * (req.block / 4) + 2 ^ 12 * 2 + 2 ^ 16) ∧
      ReadOutcome hok false true true s.eqPolicy (s.buf .ra) rb t) ∧
  (∀ (s : State) (i : Nat) (a : Answer) (rest : List Event), i < 11 → s.fetch = some 0x00000032 →
    a = .authFail ∨ a = .lost →
    s.inputs = List.replicate (2 + i) .idealAnswer ++ .answer a :: rest →
    let h := tagHeader s.tag
    let n := regionBlock .a i
    ∃ t, run (4 + i) s = .next t ∧
      t.buf .hdr = h ∧ t.buf .ra = partialImage s.tag h .a i ∧
      t.xstat.toNat =
        n + 2 ^ 8 * (n / 4) + 2 ^ 12 * 2 + 2 ^ 16 * (if a = .lost then 2 else 1) ∧
      (a = .lost →
        t = { s with
          mem := t.mem, recon := 0, seq := 0, xstat := t.xstat, err := .transportLost,
          done := true, phase := .idle, inputs := rest } ∧
        ∀ b : Buffer, b ≠ .hdr → b ≠ .ra → t.buf b = s.buf b) ∧
      (a = .authFail →
        t = { s with
          mem := t.mem, recon := 0, seq := 0, xstat := t.xstat, phase := t.phase,
          inputs := rest } ∧
        t.phase = .busy 0x00000032 (.readRegion .b 0 (hdrValid h) false true)
          (some ⟨regionBlock .b 0, .read, toVec 6 (s.sectorKey (regionBlock .b 0 / 4))⟩) ∧
        t.buf .rb = zeros 176 ∧
        ∀ b : Buffer, b ≠ .hdr → b ≠ .ra → b ≠ .rb → t.buf b = s.buf b)) ∧
  (∀ (s : State) (i j : Nat) (rest : List Event), i ≤ 11 → j < 11 →
    s.fetch = some 0x00000032 →
    s.inputs = List.replicate 2 .idealAnswer ++ regionAnswers i ++
      List.replicate j .idealAnswer ++ .answer .lost :: rest →
    let h := tagHeader s.tag
    let n := regionBlock .b j
    ∃ t, run (4 + (regionAnswers i).length + j) s = .next t ∧
      t = { s with
        mem := t.mem, recon := 0, seq := 0, xstat := t.xstat, err := .transportLost,
        done := true, phase := .idle, inputs := rest } ∧
      t.xstat.toNat = n + 2 ^ 8 * (n / 4) + 2 ^ 12 * 3 + 2 ^ 16 * 2 ∧
      t.buf .hdr = h ∧ t.buf .ra = partialImage s.tag h .a i ∧
      t.buf .rb = partialImage s.tag h .b j ∧
      ∀ b : Buffer, b ≠ .hdr → b ≠ .ra → b ≠ .rb → t.buf b = s.buf b) ∧
  (∀ (s : State) (i j : Nat) (rest : List Event), i ≤ 11 → j ≤ 11 →
    s.fetch = some 0x00000032 →
    s.inputs = List.replicate 2 .idealAnswer ++ regionAnswers i ++ regionAnswers j ++ rest →
    let h := tagHeader s.tag
    let ra := partialImage s.tag h .a i
    let rb := partialImage s.tag h .b j
    let nA := regionBlock .a i
    let nB := regionBlock .b j
    ∃ t, run (3 + (regionAnswers i).length + (regionAnswers j).length) s = .next t ∧
      t = { s with
        mem := t.mem, recon := t.recon, seq := t.seq, xstat := t.xstat, err := t.err,
        done := true, phase := .idle, inputs := rest } ∧
      (∀ b : Buffer, b ≠ .hdr → b ≠ .p1 → b ≠ .p2 → b ≠ .ra → b ≠ .rb → t.buf b = s.buf b) ∧
      t.buf .hdr = h ∧ t.buf .ra = ra ∧ t.buf .rb = rb ∧
      (i < 11 → t.xstat.toNat = nA + 2 ^ 8 * (nA / 4) + 2 ^ 12 * 2 + 2 ^ 16) ∧
      (i = 11 → j < 11 → t.xstat.toNat = nB + 2 ^ 8 * (nB / 4) + 2 ^ 12 * 3 + 2 ^ 16) ∧
      (i = 11 → j = 11 → t.xstat = s.xstat) ∧
      (i = 0 → t.seq.extractLsb' 0 8 = 0) ∧ (i ≤ 7 → t.seq.extractLsb' 16 8 = 0) ∧
      (j = 0 → t.seq.extractLsb' 8 8 = 0) ∧ (j ≤ 7 → t.seq.extractLsb' 24 8 = 0) ∧
      ReadOutcome (hdrValid h) (decide (i = 11)) (decide (j = 11))
        (decide (i < 11) || decide (j < 11)) s.eqPolicy ra rb t)

/-- R280, R281, R282 under IDEAL_TAG (R99): READ_RECORD, from its command word to its completion, 24 reads
later, for every content of the tag. -/
def Obligations.ReadRecordResult : Prop :=
  ∀ (s : State) (rest : List Event), s.fetch = some 0x00000032 →
    s.inputs = List.replicate 24 .idealAnswer ++ rest →
    let h := tagHeader s.tag
    let ra := plainRegion s.tag h .a
    let rb := plainRegion s.tag h .b
    ∃ t, run 25 s = .next t ∧
      t = { s with
        mem := t.mem, recon := t.recon, seq := t.seq, err := t.err, done := true,
        phase := .idle, inputs := rest } ∧
      (∀ b : Buffer, b ≠ .hdr → b ≠ .p1 → b ≠ .p2 → b ≠ .ra → b ≠ .rb → t.buf b = s.buf b) ∧
      t.buf .hdr = h ∧ t.buf .ra = ra ∧ t.buf .rb = rb ∧
      ReadOutcome (hdrValid h) true true false s.eqPolicy ra rb t

/-- R296: the end-to-end property of READ_RECORD under IDEAL_TAG. The rule's ERR = OK is stated where
R282 gives it: unless part 2 reconciles to AMBIGUOUS, which the rule's premises do not exclude. -/
def Obligations.ReadRecordEndToEnd : Prop :=
  ∀ (s : State) (rest : List Event), s.fetch = some 0x00000032 →
    s.inputs = List.replicate 24 .idealAnswer ++ rest →
    let h := tagHeader s.tag
    let ra := plainRegion s.tag h .a
    let rb := plainRegion s.tag h .b
    hdrValid h = true → p1Valid (slice ra 0 112) = true → byteAt ra 0x09 = 3 →
    p1Valid (slice rb 0 112) = false → p2Valid (slice ra 112 176) = true →
    ∃ t, run 25 s = .next t ∧ t.buf .hdr = h ∧ t.recon.getLsbD 8 = true ∧
      t.recon.extractLsb' 0 3 = 1 ∧ t.buf .p1 = slice ra 0 112 ∧
      (byteAt ra 0x16 = 0 → t.recon.extractLsb' 4 3 = 4 ∧ t.err = .ok) ∧
      (byteAt ra 0x16 ≠ 0 →
        t.recon.extractLsb' 4 3 =
          (reconcile true (byteAt ra 0x72) (p2Valid (slice rb 112 176)) (byteAt rb 0x72)
            s.eqPolicy).code ∧
        (t.recon.extractLsb' 4 3 ≠ 3 → t.err = .ok)) ∧
      (byteAt ra 0x16 ≠ 0 → p2Valid (slice rb 112 176) = false →
        t.recon.extractLsb' 4 3 = 1 ∧ t.buf .p2 = slice ra 112 176 ∧ t.err = .ok)

/-- R287, R293: WRITE_RECORD with RW = 0 whose refreshed identity differs from block 1. Its only
transactions are the reads of blocks 0 and 1; it ends in IDENTITY_MISMATCH with RES0 = 0; no answer
that the transport gives to a later request is asked for, and the tag is as before. -/
def Obligations.IdentityMismatchWritesNothing : Prop :=
  ∀ (s : State) (d0 d1 : Block) (rest : List Event), s.fetch = some 0x00000033 →
    s.inputs = .answer (.ok d0) :: .answer (.ok d1) :: rest →
    slice (hdrSealed (d0.toList ++ slice (s.buf .hdr) 16 32)) 16 32 ≠ d1.toList →
    ∃ t1 t2 t3,
      run 1 s = .next t1 ∧
      t1.phase = .busy 0x00000033 (.wrRefresh0 false) (some ⟨0, .read, Config.sector0Key⟩) ∧
      run 2 s = .next t2 ∧
      t2.phase = .busy 0x00000033 (.wrRefresh1 false d0) (some ⟨1, .read, Config.sector0Key⟩) ∧
      run 3 s = .next t3 ∧
      t3 = { s with
        res0 := 0, res1 := 0, seq := 0, xstat := 0x00008001, mem := t3.mem,
        err := .identityMismatch, done := true, phase := .idle, inputs := rest } ∧
      t3.statusWord.extractLsb' 0 8 = 0x40 ∧ t3.tag = s.tag ∧ SameBytesBut s t3 0x100 32 ∧
      t3.buf .hdr = hdrSealed (d0.toList ++ slice (s.buf .hdr) 16 32)

/-- R288, R291, R292 under IDEAL_TAG: the full re-key. The identity block holds the new identity; both
regions hold the sealed part 1, and part 2 when it is present, with sequence 1, enciphered under the new
header; no other tag block changes. And its order: after the first k ideal answers the outstanding
request is the k-th of R288's transactions (blocks 0 and 1 read, block 1 written, region A's part 1 and
part 2, then region B's); the tag holds just the blocks answered; a bit of RES0 is set once the last
block of its piece is answered; HDR is refreshed and sealed from the second answer on, RES1, P1 and P2
as sealed stand from the third on; and a LOST or an AUTH_FAIL there ends the command and leaves these. -/
def Obligations.RekeyWritesBothRegions : Prop :=
  ∀ (s : State) (rest : List Event), s.fetch = some 0x00000133 →
    let h := refreshedHeader s.tag (s.buf .hdr)
    let p2 := part2Present (s.buf .p1)
    let p := p1Sealed (splice (s.buf .p1) 0x09 [1])
    let q := p2Sealed (splice (s.buf .p2) 0x02 [1])
    let l := rekeyTransactions h p q p2
    slice h 16 32 ≠ (tagBlock s.tag 1).toList →
    (s.inputs = List.replicate (if p2 then 25 else 17) .idealAnswer ++ rest →
      ∃ t, run (if p2 then 26 else 18) s = .next t ∧
        t = { s with
          mem := t.mem, tag := t.tag, res0 := if p2 then 0x1F else 0x13,
          res1 := if p2 then 0x0101 else 0x0001, seq := 0, err := .ok, done := true,
          phase := .idle, inputs := rest } ∧
        (∀ b : Buffer, b ≠ .hdr → b ≠ .p1 → b ≠ .p2 → t.buf b = s.buf b) ∧
        t.buf .hdr = h ∧ (tagBlock t.tag 1).toList = slice h 16 32 ∧
        t.buf .p1 = p ∧ t.buf .p2 = (if p2 then q else s.buf .p2) ∧
        (∀ r : Region, slice (plainRegion t.tag h r) 0 112 = t.buf .p1) ∧
        (p2 = true → ∀ r : Region, slice (plainRegion t.tag h r) 112 176 = t.buf .p2) ∧
        (∀ n, n ≠ 1 → (∀ (r : Region) (i : Nat), i ≤ 6 → n ≠ regionBlock r i) →
          (p2 = true → ∀ (r : Region) (i : Nat), i ≤ 10 → n ≠ regionBlock r i) →
          tagBlock t.tag n = tagBlock s.tag n)) ∧
    l.length = (if p2 then 25 else 17) ∧
    (∀ (k : Nat) (hk : k < l.length), s.inputs = List.replicate k .idealAnswer ++ rest →
      ∃ t, run (1 + k) s = .next t ∧ WaitsFor 0x00000133 l[k] s t ∧
        t = { s with
          mem := t.mem, tag := t.tag, res0 := t.res0,
          res1 := if k < 3 then 0 else if p2 then 0x0101 else 0x0001,
          seq := 0, phase := t.phase, inputs := rest } ∧
        (∀ b : Buffer, b ≠ .hdr → b ≠ .p1 → b ≠ .p2 → t.buf b = s.buf b) ∧
        t.buf .hdr = (if k < 2 then s.buf .hdr else h) ∧
        t.buf .p1 = (if k < 3 then s.buf .p1 else p) ∧
        t.buf .p2 = (if 3 ≤ k ∧ p2 = true then q else s.buf .p2) ∧
        t.res0.toNat =
          (if 3 ≤ k then 0x10 else 0) + (if 10 ≤ k then 1 else 0) +
            (if p2 then (if 14 ≤ k then 4 else 0) + (if 21 ≤ k then 2 else 0) else 0) ∧
        TagAfter (l.take k) s.tag t.tag ∧
        ∀ (a : Answer) (rest' : List Event), a = .authFail ∨ a = .lost →
          rest = .answer a :: rest' →
          ∃ u, run (2 + k) s = .next u ∧ AbortedAt l[k] a rest' t u)

/-- R287, R289, R290, R291, R292 under IDEAL_TAG: WRITE_RECORD on the matching-identity path, from its
command word to its completion. The record is sealed with the next sequence byte of each part,
enciphered into each part's own stale region, and no other tag block changes; SEQ holds the four bytes
read, 0 for one not read. And its order: after the first k ideal answers the outstanding request is the
k-th of the path's transactions (blocks 0 and 1; A0, A7, B0, B7; part 1 and then part 2, each in index
order); the tag holds just the blocks answered; HDR is refreshed and sealed from the second answer on;
SEQ, RES1, P1 and P2 are written once the sequence read is complete, SEQ and RES1 being 0 before it;
RES0 is 0 until the last block of part 1 is answered; and a LOST or an AUTH_FAIL there ends the command
and leaves these. -/
def Obligations.WriteRecordResult : Prop :=
  ∀ (s : State) (rw : Bool) (rest : List Event),
    let w : Word := if rw then 0x00000133 else 0x00000033
    s.fetch = some w →
    let h := refreshedHeader s.tag (s.buf .hdr)
    let p2 := part2Present (s.buf .p1)
    let s1A := tagSeq1 s.tag h .a
    let s1B := tagSeq1 s.tag h .b
    let s2A := if p2 then tagSeq2 s.tag h .a else 0
    let s2B := if p2 then tagSeq2 s.tag h .b else 0
    let stale1 := staleRegion s1A s1B
    let stale2 := staleRegion s2A s2B
    let n1 := nextSequence s1A s1B
    let n2 := if p2 then nextSequence s2A s2B else 0
    let p := p1Sealed (splice (s.buf .p1) 0x09 [n1])
    let q := p2Sealed (splice (s.buf .p2) 0x02 [n2])
    let l := matchingTransactions h p q p2 stale1 stale2
    let reads := if p2 then 6 else 4
    let bit1 := if stale1 = .a then 1 else 2
    slice h 16 32 = (tagBlock s.tag 1).toList →
    (s.inputs = List.replicate (if p2 then 17 else 11) .idealAnswer ++ rest →
      ∃ t, run (if p2 then 18 else 12) s = .next t ∧
        t = { s with
          mem := t.mem, tag := t.tag, res0 := t.res0, res1 := 0#16 ++ n2 ++ n1,
          seq := s2B ++ s2A ++ s1B ++ s1A, err := .ok, done := true, phase := .idle,
          inputs := rest } ∧
        (∀ b : Buffer, b ≠ .hdr → b ≠ .p1 → b ≠ .p2 → t.buf b = s.buf b) ∧
        t.buf .hdr = h ∧ t.buf .p1 = p ∧ t.buf .p2 = (if p2 then q else s.buf .p2) ∧
        t.res0.toNat = bit1 + (if p2 then if stale2 = .a then 4 else 8 else 0) ∧
        slice (plainRegion t.tag h stale1) 0 112 = t.buf .p1 ∧
        (p2 = true → slice (plainRegion t.tag h stale2) 112 176 = t.buf .p2) ∧
        (∀ n, (∀ i ≤ 6, n ≠ regionBlock stale1 i) →
          (p2 = true → ∀ i, 7 ≤ i → i ≤ 10 → n ≠ regionBlock stale2 i) →
          tagBlock t.tag n = tagBlock s.tag n)) ∧
    l.length = (if p2 then 17 else 11) ∧
    (∀ (k : Nat) (hk : k < l.length), s.inputs = List.replicate k .idealAnswer ++ rest →
      ∃ t, run (1 + k) s = .next t ∧ WaitsFor w l[k] s t ∧
        t = { s with
          mem := t.mem, tag := t.tag, res0 := t.res0,
          res1 := if k < reads then 0 else 0#16 ++ n2 ++ n1,
          seq := if k < reads then 0 else s2B ++ s2A ++ s1B ++ s1A,
          phase := t.phase, inputs := rest } ∧
        (∀ b : Buffer, b ≠ .hdr → b ≠ .p1 → b ≠ .p2 → t.buf b = s.buf b) ∧
        t.buf .hdr = (if k < 2 then s.buf .hdr else h) ∧
        t.buf .p1 = (if k < reads then s.buf .p1 else p) ∧
        t.buf .p2 = (if reads ≤ k ∧ p2 = true then q else s.buf .p2) ∧
        t.res0.toNat = (if reads + 7 ≤ k then bit1 else 0) ∧
        TagAfter (l.take k) s.tag t.tag ∧
        ∀ (a : Answer) (rest' : List Event), a = .authFail ∨ a = .lost →
          rest = .answer a :: rest' →
          ∃ u, run (2 + k) s = .next u ∧ AbortedAt l[k] a rest' t u)

/-- R290, R295: on the matching-identity path, whatever prefix of the transactions is completed, and
whatever failure, reset or host read comes when, every tag block outside the stale regions' own indices
stays as it was, the current region of each part among them. The read answers, too, are the ideal tag's
(R99). -/
def Obligations.CurrentRegionUntouched : Prop :=
  ∀ (s : State) (k : Nat) (t : State),
    s.fetch = some 0x00000033 ∨ s.fetch = some 0x00000133 →
    (∀ e ∈ s.inputs, e.crashOnly = true) →
    let h := refreshedHeader s.tag (s.buf .hdr)
    let p2 := part2Present (s.buf .p1)
    let stale1 := staleRegion (tagSeq1 s.tag h .a) (tagSeq1 s.tag h .b)
    let stale2 := staleRegion (tagSeq2 s.tag h .a) (tagSeq2 s.tag h .b)
    slice h 16 32 = (tagBlock s.tag 1).toList → run k s = .next t →
    (∀ n, (∀ i ≤ 6, n ≠ regionBlock stale1 i) →
      (p2 = true → ∀ i, 7 ≤ i → i ≤ 10 → n ≠ regionBlock stale2 i) →
      tagBlock t.tag n = tagBlock s.tag n) ∧
    (∀ i ≤ 6, tagBlock t.tag (regionBlock (otherRegion stale1) i) =
      tagBlock s.tag (regionBlock (otherRegion stale1) i)) ∧
    (∀ i, 7 ≤ i → i ≤ 10 → tagBlock t.tag (regionBlock (otherRegion stale2) i) =
      tagBlock s.tag (regionBlock (otherRegion stale2) i))

/-- R290, R294 under IDEAL_TAG: a WRITE_RECORD on the matching-identity path ends OK, and the READ_RECORD
after it returns the record as written, from the regions that were stale, with a valid header. -/
def Obligations.WriteThenReadReturnsRecord : Prop :=
  ∀ (s : State) (rw : Bool) (rest : List Event),
    s.fetch = some (if rw then 0x00000133 else 0x00000033) →
    let h := refreshedHeader s.tag (s.buf .hdr)
    let p2 := part2Present (s.buf .p1)
    let stale1 := staleRegion (tagSeq1 s.tag h .a) (tagSeq1 s.tag h .b)
    let stale2 := staleRegion (tagSeq2 s.tag h .a) (tagSeq2 s.tag h .b)
    slice h 16 32 = (tagBlock s.tag 1).toList →
    s.inputs = List.replicate (if p2 then 17 else 11) .idealAnswer ++
      .hostWrite 0x00C .w4 0x00000032 :: List.replicate 24 .idealAnswer ++ rest →
    ∃ t u, run (if p2 then 18 else 12) s = .next t ∧ t.phase = .idle ∧ t.err = .ok ∧
      run 26 t = .next u ∧ u.phase = .idle ∧ u.err = .ok ∧ u.buf .p1 = t.buf .p1 ∧
      u.recon.extractLsb' 0 3 = (choiceOf stale1).code ∧
      (p2 = true → u.buf .p2 = t.buf .p2 ∧
        u.recon.extractLsb' 4 3 = (choiceOf stale2).code) ∧
      u.recon.getLsbD 8 = true

/-- R97, R333: the block-port guard, what happens where a request would break it, and that no step from a
state with the invariant ends in BLOCK_GUARD or leaves a request outstanding that breaks the guard. What
XSTAT holds of a refused block of 64 or more is the model's own (log 18, DESIGN CHOICE). -/
def Obligations.GuardNeverTrips : Prop :=
  (∀ (n : Nat) (op : PortOp), portGuard n op = true ↔
    n < 64 ∧ n % 4 ≠ 3 ∧ (op.isWrite = true → n ≠ 0)) ∧
  (∀ (w : Word) (n : Nat) (op : PortOp) (pos : Position) (s : State), portGuard n op = false →
    issue w n op pos s = { s with
      xstat := xstatWord n pos.stage .none, err := .blockGuard, done := true, phase := .idle } ∧
    (n < 64 → (xstatWord n pos.stage .none).toNat =
      n + 2 ^ 8 * (n / 4) + 2 ^ 12 * pos.stageNumber)) ∧
  (∀ s t : State, s.Inv → step s = .next t →
    (t.err = .blockGuard → s.err = .blockGuard) ∧
    ∀ w pos req, t.phase = .busy w pos (some req) → portGuard req.block req.op = true)

/-- R91, R97, R345: no step changes block 0 or a sector trailer of the tag, but the environment's own
move that changes a tag block. -/
def Obligations.Block0AndTrailersNeverWritten : Prop :=
  ∀ s t : State, s.Inv → step s = .next t →
    (∀ b d, s.inputs.head? ≠ some (.tagChanges b d)) →
    ∀ n, n = 0 ∨ n % 4 = 3 → tagBlock t.tag n = tagBlock s.tag n

/-- R96: while a request is outstanding and no answer and no reset comes, the sequencer takes no step:
the command stays where it is, however long that lasts and whatever the host does. Under
TRANSPORT_ANSWERS every command ends: a run comes to a state that is not BUSY, by a completion unless a
reset came; and 25 answers are enough, whatever they are. Runs of finite lists of moves are the model's
own (logs 1 and 23). -/
def Obligations.PortCommandWaitsForAnswer : Prop :=
  (∀ (s t : State) (w : Word) (pos : Position) (req : PortRequest) (k : Nat),
    s.phase = .busy w pos (some req) → (∀ e ∈ s.inputs, e.endsWait = false) →
    run k s = .next t → t.phase = s.phase ∧ t.busy = true ∧ t.mem = s.mem ∧ t.err = s.err) ∧
  (∀ s : State, s.Inv → s.busy = true → TransportAnswers s →
    ∃ k t, run k s = .next t ∧ t.busy = false ∧
      ((∀ e ∈ s.inputs, e ≠ .reset) → t.done = true)) ∧
  (∀ s : State, s.Inv → s.busy = true → 25 ≤ s.inputs.countP Event.answers →
    ∃ k t, k ≤ s.inputs.length + 1 ∧ run k s = .next t ∧ t.busy = false ∧
      ((∀ e ∈ s.inputs, e ≠ .reset) → t.done = true))
end

