-- ==== Sys2Proof/Laws/Bytes.lean ====
section
/-! SUPPORT. The laws of byte strings: lengths, little-endian values, slices and splices, vectors. -/

namespace Sys2Proof.Machine

@[simp] theorem length_leBytes (n v : Nat) : (leBytes n v).length = n := by
  induction n generalizing v with
  | zero => rfl
  | succ n ih => simp [leBytes, ih]

@[simp] theorem length_zeros (n : Nat) : (zeros n).length = n := by simp [zeros]

theorem leNat_lt (s : List Byte) : leNat s < 256 ^ s.length := by
  induction s with
  | nil => simp [leNat]
  | cons b t ih =>
    have hb := b.isLt
    simp only [leNat, List.length_cons, pow_succ]
    omega

/-- LE(LEbytes_n(v)) = v mod 256^n (R13). -/
theorem leNat_leBytes (n v : Nat) : leNat (leBytes n v) = v % 256 ^ n := by
  induction n generalizing v with
  | zero => simp [leBytes, leNat, Nat.mod_one]
  | succ n ih =>
    have h := Nat.mod_mul (x := v) (a := 256) (b := 256 ^ n)
    simp only [leBytes, leNat, ih, BitVec.toNat_ofNat]
    rw [Nat.pow_succ' (m := 256), h]

/-- LEbytes_n(LE(s)) = s for a string of n bytes. -/
theorem leBytes_leNat (s : List Byte) : leBytes s.length (leNat s) = s := by
  induction s with
  | nil => rfl
  | cons b t ih =>
    have hb := b.isLt
    have hd : (b.toNat + 256 * leNat t) / 256 = leNat t := by omega
    have hm : BitVec.ofNat 8 (b.toNat + 256 * leNat t) = b := by
      apply BitVec.eq_of_toNat_eq
      simp only [BitVec.toNat_ofNat]
      omega
    simp only [List.length_cons, leNat, leBytes, hd, hm, ih]

theorem length_slice (s : List Byte) (i j : Nat) :
    (slice s i j).length = min (j - i) (s.length - i) := by
  simp [slice]

theorem length_splice (s t : List Byte) (i : Nat) (h : i + t.length ≤ s.length) :
    (splice s i t).length = s.length := by
  simp [splice]
  omega

/-- The spliced string, byte by byte. -/
theorem getElem?_splice (s t : List Byte) (i k : Nat) (h : i + t.length ≤ s.length) :
    (splice s i t)[k]? = if i ≤ k ∧ k < i + t.length then t[k - i]? else s[k]? := by
  simp only [splice, List.append_assoc]
  by_cases h1 : k < i
  · have : k < (s.take i).length := by simp; omega
    rw [List.getElem?_append_left this, List.getElem?_take]
    simp [h1]
  · have hl : (s.take i).length = i := by simp; omega
    rw [List.getElem?_append_right (by omega), hl]
    by_cases h2 : k < i + t.length
    · rw [List.getElem?_append_left (by omega), if_pos ⟨by omega, h2⟩]
    · rw [List.getElem?_append_right (by omega), if_neg (by omega), List.getElem?_drop]
      congr 1
      omega

/-- A slice that meets no byte of the splice reads as before. -/
theorem slice_splice_disjoint (s t : List Byte) (i a b : Nat) (h : i + t.length ≤ s.length)
    (hd : b ≤ i ∨ i + t.length ≤ a) : slice (splice s i t) a b = slice s a b := by
  apply List.ext_getElem?
  intro k
  simp only [slice, List.getElem?_take, List.getElem?_drop]
  by_cases hk : k < b - a
  · rw [if_pos hk, if_pos hk, getElem?_splice s t i _ h, if_neg (by omega)]
  · rw [if_neg hk, if_neg hk]

/-- The slice at the splice is what was spliced in. -/
theorem slice_splice_same (s t : List Byte) (i : Nat) (h : i + t.length ≤ s.length) :
    slice (splice s i t) i (i + t.length) = t := by
  apply List.ext_getElem?
  intro k
  simp only [slice, List.getElem?_take, List.getElem?_drop]
  by_cases hk : k < i + t.length - i
  · rw [if_pos hk, getElem?_splice s t i _ h, if_pos (by omega)]
    congr 1
    omega
  · rw [if_neg hk, List.getElem?_eq_none (by omega)]

theorem byteAt_eq (s : List Byte) (i : Nat) : byteAt s i = (s[i]?).getD 0 := by
  simp [byteAt, List.getD_eq_getElem?_getD]

theorem getElem_toVec (n : Nat) (s : List Byte) (i : Nat) (h : i < n) :
    (toVec n s)[i] = byteAt s i := by
  simp [toVec]

/-- A string of n bytes, as a vector and back. -/
theorem toList_toVec (s : List Byte) (n : Nat) (h : s.length = n) : (toVec n s).toList = s := by
  apply List.ext_getElem
  · simp [h]
  · intro i h1 h2
    have hi : i < n := by simpa using h1
    simp [toVec, byteAt_eq, h2]

/-- A vector, as a string and back. -/
theorem toVec_toList {n : Nat} (v : Vector Byte n) : toVec n v.toList = v := by
  apply Vector.ext
  intro i h
  simp [toVec, byteAt_eq]

end Sys2Proof.Machine
end

