-- ==== Sys2Proof/Laws/Memory.lean ====
section
/-! SUPPORT. The laws of memory: a read after a write, and the canonical form. -/

namespace Sys2Proof.Machine

theorem get_insertCell_same (m : Memory) (a : Nat) (b : Byte) (h : ∀ c ∈ m, c.1 ≠ a) :
    Memory.get (insertCell a b m) a = b := by
  induction m with
  | nil => simp [insertCell, Memory.get]
  | cons c t ih =>
    have hc : c.1 ≠ a := h c (by simp)
    have ht : ∀ x ∈ t, x.1 ≠ a := fun x hx => h x (by simp [hx])
    simp only [insertCell]
    split
    · simp [Memory.get]
    · simp [Memory.get, hc, ih ht]

theorem get_insertCell_other (m : Memory) (a x : Nat) (b : Byte) (h : x ≠ a) :
    Memory.get (insertCell a b m) x = Memory.get m x := by
  induction m with
  | nil => simp [insertCell, Memory.get, Ne.symm h]
  | cons c t ih =>
    simp only [insertCell]
    split
    · simp [Memory.get, Ne.symm h]
    · simp [Memory.get, ih]

theorem get_eq_zero (m : Memory) (a : Nat) (h : ∀ c ∈ m, c.1 ≠ a) : Memory.get m a = 0 := by
  induction m with
  | nil => rfl
  | cons c t ih =>
    have hc : c.1 ≠ a := h c (by simp)
    simp [Memory.get, hc, ih fun x hx => h x (by simp [hx])]

theorem get_filter_other (m : Memory) (a x : Nat) (h : x ≠ a) :
    Memory.get (m.filter fun c => c.1 != a) x = Memory.get m x := by
  induction m with
  | nil => rfl
  | cons c t ih =>
    by_cases hc : c.1 = a
    · have hx : c.1 ≠ x := fun e => h (e.symm.trans hc)
      simp [Memory.get, hc, ih, Ne.symm h]
    · simp [Memory.get, hc, ih]

/-- A byte reads as it was written. -/
@[simp] theorem get_set_same (m : Memory) (a : Nat) (b : Byte) : (m.set a b).get a = b := by
  have hf : ∀ c ∈ m.filter (fun c => c.1 != a), c.1 ≠ a := by
    intro c hc
    simpa using (List.mem_filter.mp hc).2
  simp only [Memory.set]
  split
  · next hb => rw [get_eq_zero _ _ hf, hb]
  · exact get_insertCell_same _ _ _ hf

/-- A write leaves every other byte. -/
theorem get_set_other (m : Memory) (a x : Nat) (b : Byte) (h : x ≠ a) :
    (m.set a b).get x = m.get x := by
  simp only [Memory.set]
  split
  · exact get_filter_other m a x h
  · rw [get_insertCell_other _ _ _ _ h, get_filter_other m a x h]

/-- A byte outside the string written reads as before. -/
theorem get_write_outside (m : Memory) (a x : Nat) (bs : List Byte)
    (h : x < a ∨ a + bs.length ≤ x) : (m.write a bs).get x = m.get x := by
  induction bs generalizing m a with
  | nil => rfl
  | cons b t ih =>
    simp only [List.length_cons] at h
    rw [Memory.write, ih _ _ (by omega), get_set_other _ _ _ _ (by omega)]

/-- A byte inside the string written reads as written. -/
theorem get_write_inside (m : Memory) (a k : Nat) (bs : List Byte) (h : k < bs.length) :
    (m.write a bs).get (a + k) = bs[k] := by
  induction bs generalizing m a k with
  | nil => simp at h
  | cons b t ih =>
    cases k with
    | zero =>
      rw [Memory.write, get_write_outside _ _ _ _ (by omega)]
      simp
    | succ k =>
      have := ih (m.set a b) (a + 1) k (by simpa using h)
      simpa [Memory.write, Nat.add_assoc, Nat.add_comm 1 k] using this

/-- The string written reads back whole. -/
theorem bytes_write_same (m : Memory) (a : Nat) (bs : List Byte) :
    (m.write a bs).bytes a bs.length = bs := by
  apply List.ext_getElem
  · simp [Memory.bytes]
  · intro k h1 h2
    simp [Memory.bytes, get_write_inside m a k bs h2]

/-- A string that the write does not meet reads as before. -/
theorem bytes_write_disjoint (m : Memory) (a x n : Nat) (bs : List Byte)
    (h : x + n ≤ a ∨ a + bs.length ≤ x) : (m.write a bs).bytes x n = m.bytes x n := by
  apply List.ext_getElem
  · simp [Memory.bytes]
  · intro k h1 h2
    have hk : k < n := by simpa [Memory.bytes] using h2
    simp only [Memory.bytes, List.getElem_map, List.getElem_range]
    exact get_write_outside m a (x + k) bs (by omega)

theorem mem_insertCell (a : Nat) (b : Byte) (m : Memory) (c : Host.Cell) :
    c ∈ insertCell a b m ↔ c = (a, b) ∨ c ∈ m := by
  induction m with
  | nil => simp [insertCell]
  | cons x t ih =>
    simp only [insertCell]
    split
    · simp
    · simp only [List.mem_cons, ih]
      tauto

theorem insertCell_sorted (a : Nat) (b : Byte) (m : Memory)
    (hs : m.Pairwise (fun x y => x.1 < y.1)) (h : ∀ c ∈ m, c.1 ≠ a) :
    (insertCell a b m).Pairwise (fun x y => x.1 < y.1) := by
  induction m with
  | nil => simp [insertCell]
  | cons x t ih =>
    have hx := List.pairwise_cons.mp hs
    have hxa : x.1 ≠ a := h x (by simp)
    simp only [insertCell]
    split
    · next hlt =>
      refine List.pairwise_cons.mpr ⟨fun y hy => ?_, hs⟩
      rcases List.mem_cons.mp hy with rfl | hy
      · exact hlt
      · exact Nat.lt_trans hlt (hx.1 y hy)
    · next hlt =>
      refine List.pairwise_cons.mpr ⟨fun y hy => ?_, ih hx.2 fun c hc => h c (by simp [hc])⟩
      rcases (mem_insertCell a b t y).mp hy with rfl | hy
      · show x.1 < a
        omega
      · exact hx.1 y hy

/-- A byte written keeps the canonical form. -/
theorem set_wf (m : Memory) (a : Nat) (b : Byte) (h : m.wf) : (m.set a b).wf := by
  have hf : ∀ c ∈ m.filter (fun c => c.1 != a), c.1 ≠ a := by
    intro c hc
    simpa using (List.mem_filter.mp hc).2
  have hs := h.1.filter (fun c => c.1 != a)
  have hz : ∀ c ∈ m.filter (fun c => c.1 != a), c.2 ≠ 0 :=
    fun c hc => h.2 c (List.mem_filter.mp hc).1
  simp only [Memory.set]
  split
  · exact ⟨hs, hz⟩
  · next hb =>
    refine ⟨insertCell_sorted a b _ hs hf, fun c hc => ?_⟩
    rcases (mem_insertCell a b _ c).mp hc with rfl | hc
    · exact hb
    · exact hz c hc

/-- A string written keeps the canonical form. -/
theorem write_wf (m : Memory) (a : Nat) (bs : List Byte) (h : m.wf) : (m.write a bs).wf := by
  induction bs generalizing m a with
  | nil => exact h
  | cons b t ih => exact ih _ _ (set_wf m a b h)

/-- The empty memory is in canonical form. -/
theorem nil_wf : Memory.wf [] := ⟨List.Pairwise.nil, by simp⟩

theorem mem_set (m : Memory) (a : Nat) (b : Byte) (c : Host.Cell) (h : c ∈ m.set a b) :
    c.1 = a ∨ c ∈ m := by
  simp only [Memory.set] at h
  split at h
  · exact .inr (List.mem_filter.mp h).1
  · rcases (mem_insertCell a b _ c).mp h with rfl | h
    · exact .inl rfl
    · exact .inr (List.mem_filter.mp h).1

/-- A cell after a write is an old one or lies in the string written. -/
theorem mem_write (m : Memory) (a : Nat) (bs : List Byte) (c : Host.Cell)
    (h : c ∈ m.write a bs) : (a ≤ c.1 ∧ c.1 < a + bs.length) ∨ c ∈ m := by
  induction bs generalizing m a with
  | nil => exact .inr h
  | cons b t ih =>
    rcases ih _ _ h with h | h
    · exact .inl ⟨by omega, by simp only [List.length_cons]; omega⟩
    · rcases mem_set m a b c h with h | h
      · exact .inl ⟨by omega, by simp only [List.length_cons]; omega⟩
      · exact .inr h

/-- Two memories in canonical form that read alike are one memory. -/
theorem get_mem (m : Memory) (h : m.wf) (c : Host.Cell) (hc : c ∈ m) : m.get c.1 = c.2 := by
  induction m with
  | nil => simp at hc
  | cons x t ih =>
    have hx := List.pairwise_cons.mp h.1
    rcases List.mem_cons.mp hc with rfl | hc'
    · simp [Memory.get]
    · have hlt := hx.1 c hc'
      have hne : x.1 ≠ c.1 := Nat.ne_of_lt hlt
      simp only [Memory.get, if_neg hne]
      exact ih ⟨hx.2, fun y hy => h.2 y (by simp [hy])⟩ hc'

/-- A tag block written reads back (R99). -/
theorem tagBlock_setTagBlock_same (tag : Memory) (n : Nat) (d : Block) :
    tagBlock (setTagBlock tag n d) n = d := by
  have h := bytes_write_same tag (16 * n) d.toList
  simp only [Vector.length_toList] at h
  rw [tagBlock, setTagBlock, h, toVec_toList]

/-- A tag block written leaves every other block (R99). -/
theorem tagBlock_setTagBlock_other (tag : Memory) (n k : Nat) (d : Block) (h : k ≠ n) :
    tagBlock (setTagBlock tag n d) k = tagBlock tag k := by
  rw [tagBlock, setTagBlock, bytes_write_disjoint _ _ _ _ _ (by simp; omega), tagBlock]

end Sys2Proof.Machine
end

