-- ==== Sys2Proof/Laws/Local.lean ====
section
/-! SUPPORT. The laws of the local space: what a write to a buffer leaves in each buffer. -/

namespace Sys2Proof.Machine

/-- The local space depends on the memory alone. -/
theorem byte_of_mem_eq {s t : State} (h : t.mem = s.mem) : t.byte = s.byte := by
  funext a
  simp only [State.byte, h]

theorem memRead_of_mem_eq {s t : State} (h : t.mem = s.mem) : t.memRead = s.memRead := by
  funext a n
  simp only [State.memRead, byte_of_mem_eq h]

theorem buf_of_mem_eq {s t : State} (h : t.mem = s.mem) : t.buf = s.buf := by
  funext b
  simp only [State.buf, memRead_of_mem_eq h]

@[simp] theorem finish_byte (c : ErrCode) (s : State) (a : Nat) :
    (finish c s).byte a = s.byte a := rfl

@[simp] theorem finish_buf (c : ErrCode) (s : State) (x : Buffer) :
    (finish c s).buf x = s.buf x := rfl

@[simp] theorem raise_byte (c : ErrCode) (n : Nat) (st : Stage) (p : PortCause) (s : State) (a : Nat) :
    (raise c n st p s).byte a = s.byte a := rfl

@[simp] theorem raise_buf (c : ErrCode) (n : Nat) (st : Stage) (p : PortCause) (s : State) (x : Buffer) :
    (raise c n st p s).buf x = s.buf x := rfl

@[simp] theorem accept_byte (w : Word) (s : State) (a : Nat) :
    (accept w s).byte a = s.byte a := rfl

@[simp] theorem accept_buf (w : Word) (s : State) (x : Buffer) :
    (accept w s).buf x = s.buf x := rfl

@[simp] theorem withRes0_byte (s : State) (v : Word) (a : Nat) :
    (s.withRes0 v).byte a = s.byte a := rfl

@[simp] theorem withRes0_buf (s : State) (v : Word) (x : Buffer) :
    (s.withRes0 v).buf x = s.buf x := rfl

@[simp] theorem withRes1_byte (s : State) (v : Word) (a : Nat) :
    (s.withRes1 v).byte a = s.byte a := rfl

@[simp] theorem withRes1_buf (s : State) (v : Word) (x : Buffer) :
    (s.withRes1 v).buf x = s.buf x := rfl

@[simp] theorem withFval_byte (s : State) (v : BitVec 64) (a : Nat) :
    (s.withFval v).byte a = s.byte a := rfl

@[simp] theorem withFval_buf (s : State) (v : BitVec 64) (x : Buffer) :
    (s.withFval v).buf x = s.buf x := rfl

@[simp] theorem withRecon_byte (s : State) (v : Word) (a : Nat) :
    (s.withRecon v).byte a = s.byte a := rfl

@[simp] theorem withRecon_buf (s : State) (v : Word) (x : Buffer) :
    (s.withRecon v).buf x = s.buf x := rfl

@[simp] theorem withSeq_byte (s : State) (v : Word) (a : Nat) :
    (s.withSeq v).byte a = s.byte a := rfl

@[simp] theorem withSeq_buf (s : State) (v : Word) (x : Buffer) :
    (s.withSeq v).buf x = s.buf x := rfl

@[simp] theorem withXstat_byte (s : State) (v : Word) (a : Nat) :
    (s.withXstat v).byte a = s.byte a := rfl

@[simp] theorem withXstat_buf (s : State) (v : Word) (x : Buffer) :
    (s.withXstat v).buf x = s.buf x := rfl

@[simp] theorem withTag_byte (s : State) (m : Memory) (a : Nat) :
    (s.withTag m).byte a = s.byte a := rfl

@[simp] theorem withTag_buf (s : State) (m : Memory) (x : Buffer) :
    (s.withTag m).buf x = s.buf x := rfl

@[simp] theorem orRes0_byte (s : State) (v : Word) (a : Nat) :
    (s.orRes0 v).byte a = s.byte a := rfl

@[simp] theorem orRes0_buf (s : State) (v : Word) (x : Buffer) :
    (s.orRes0 v).buf x = s.buf x := rfl

@[simp] theorem foldCrc16_byte (s : State) (bs : List Byte) (a : Nat) :
    (s.foldCrc16 bs).byte a = s.byte a := rfl

@[simp] theorem foldCrc16_buf (s : State) (bs : List Byte) (x : Buffer) :
    (s.foldCrc16 bs).buf x = s.buf x := rfl

@[simp] theorem foldCrc48_byte (s : State) (bs : List Byte) (a : Nat) :
    (s.foldCrc48 bs).byte a = s.byte a := rfl

@[simp] theorem foldCrc48_buf (s : State) (bs : List Byte) (x : Buffer) :
    (s.foldCrc48 bs).buf x = s.buf x := rfl

@[simp] theorem issue_byte (w : Word) (n : Nat) (op : PortOp) (pos : Position) (s : State) (a : Nat) :
    (issue w n op pos s).byte a = s.byte a := by
  simp only [issue]; split <;> rfl

@[simp] theorem issue_buf (w : Word) (n : Nat) (op : PortOp) (pos : Position) (s : State) (x : Buffer) :
    (issue w n op pos s).buf x = s.buf x := by
  simp only [issue]; split <;> rfl

@[simp] theorem length_memRead (s : State) (a n : Nat) : (s.memRead a n).length = n := by
  simp [State.memRead]

@[simp] theorem length_buf (s : State) (b : Buffer) : (s.buf b).length = b.size := by
  simp [State.buf]

theorem getElem?_memRead (s : State) (a n k : Nat) :
    (s.memRead a n)[k]? = if k < n then some (s.byte (a + k)) else none := by
  simp only [State.memRead, List.getElem?_map]
  by_cases h : k < n
  · simp [h]
  · simp [h]

/-- A byte of a buffer as the byte of the local space. -/
theorem byteAt_buf (s : State) (b : Buffer) (o : Nat) (h : o < b.size) :
    byteAt (s.buf b) o = s.bufByte b o := by
  rw [byteAt_eq, State.buf, getElem?_memRead, if_pos h]
  rfl

/-- A slice of a buffer as a read of the local space. -/
theorem slice_buf (s : State) (b : Buffer) (i j : Nat) (hj : j ≤ b.size) :
    slice (s.buf b) i j = s.memRead (b.base + i) (j - i) := by
  apply List.ext_getElem?
  intro k
  simp only [slice, List.getElem?_take, List.getElem?_drop, State.buf, getElem?_memRead]
  by_cases hk : k < j - i
  · rw [if_pos hk, if_pos (by omega), if_pos hk, Nat.add_assoc]
  · rw [if_neg hk, if_neg hk]

/-- A write leaves every byte outside it. -/
theorem byte_memWrite_outside (s : State) (a x : Nat) (bs : List Byte)
    (h : x < a ∨ a + bs.length ≤ x) : (s.memWrite a bs).byte x = s.byte x := by
  simp only [State.byte, State.memWrite, get_write_outside _ _ _ _ h]

/-- A byte written outside the read-only memories reads as written. -/
theorem byte_memWrite_inside (s : State) (a k : Nat) (bs : List Byte) (h : k < bs.length)
    (h1 : Buffer.ksuf.holds (a + k) = false) (h2 : Buffer.k0.holds (a + k) = false) :
    (s.memWrite a bs).byte (a + k) = bs[k] := by
  simp only [State.byte, State.memWrite, h1, h2, get_write_inside _ _ _ _ h, Bool.false_eq_true,
    if_false]

/-- No address of another buffer lies in a read-only memory. -/
theorem not_rom_of_holds (b : Buffer) (hb : b.rom = false) (a : Nat) (h : b.holds a = true) :
    Buffer.ksuf.holds a = false ∧ Buffer.k0.holds a = false := by
  simp only [Buffer.holds, Bool.and_eq_true, Bool.and_eq_false_iff, decide_eq_true_eq,
    decide_eq_false_iff_not] at h ⊢
  cases b <;> simp only [Buffer.rom, Bool.true_eq_false] at hb <;>
    simp only [Buffer.base, Buffer.size] at h ⊢ <;> omega

/-- Two buffers share no address. -/
theorem holds_disjoint (b c : Buffer) (h : b ≠ c) (a : Nat) (hb : b.holds a = true) :
    c.holds a = false := by
  simp only [Buffer.holds, Bool.and_eq_true, Bool.and_eq_false_iff, decide_eq_true_eq,
    decide_eq_false_iff_not] at hb ⊢
  cases b <;> cases c <;> simp only [ne_eq, not_true_eq_false] at h <;>
    simp only [Buffer.base, Buffer.size] at hb ⊢ <;> omega

/-- An address lies in the buffer that holds it, and in no other. -/
theorem bufferAt_eq (b : Buffer) (a : Nat) (h : b.holds a = true) : bufferAt a = some b := by
  have hd : ∀ c, c ≠ b → c.holds a = false := fun c hc => holds_disjoint b c (Ne.symm hc) a h
  cases b <;> simp [bufferAt, allBuffers, List.find?, h, hd]

theorem holds_offset (b : Buffer) (o : Nat) (h : o < b.size) : b.holds (b.base + o) = true := by
  simp [Buffer.holds, h]

/-- A byte outside the written part of a buffer reads as before. -/
theorem byte_bufWrite_outside (s : State) (b : Buffer) (o x : Nat) (bs : List Byte)
    (h : x < b.base + o ∨ b.base + o + bs.length ≤ x) : (s.bufWrite b o bs).byte x = s.byte x :=
  byte_memWrite_outside s (b.base + o) x bs h

/-- A byte of the written part of a RAM buffer reads as written. -/
theorem byte_bufWrite_inside (s : State) (b : Buffer) (hb : b.rom = false) (o k : Nat)
    (bs : List Byte) (h : k < bs.length) (hs : o + bs.length ≤ b.size) :
    (s.bufWrite b o bs).byte (b.base + o + k) = bs[k] := by
  have hh : b.holds (b.base + o + k) = true := by
    rw [Nat.add_assoc]
    exact holds_offset b (o + k) (by omega)
  have hr := not_rom_of_holds b hb _ hh
  exact byte_memWrite_inside s _ k bs h hr.1 hr.2

/-- The written RAM buffer holds the written bytes spliced in. -/
theorem buf_bufWrite_same (s : State) (b : Buffer) (hb : b.rom = false) (o : Nat)
    (bs : List Byte) (hs : o + bs.length ≤ b.size) :
    (s.bufWrite b o bs).buf b = splice (s.buf b) o bs := by
  apply List.ext_getElem?
  intro k
  rw [getElem?_splice _ _ _ _ (by simpa using hs)]
  simp only [State.buf, getElem?_memRead]
  by_cases hk : k < b.size
  · by_cases hi : o ≤ k ∧ k < o + bs.length
    · have := byte_bufWrite_inside s b hb o (k - o) bs (by omega) hs
      rw [if_pos hk, if_pos hi, show b.base + k = b.base + o + (k - o) by omega, this]
      simp [List.getElem?_eq_getElem (show k - o < bs.length by omega)]
    · rw [if_pos hk, if_neg hi, if_pos hk, byte_bufWrite_outside _ _ _ _ _ (by omega)]
  · rw [if_neg hk, if_neg hk, if_neg (by omega)]

/-- A write of a whole RAM buffer. -/
theorem buf_bufWrite_whole (s : State) (b : Buffer) (hb : b.rom = false) (bs : List Byte)
    (hs : bs.length = b.size) : (s.bufWrite b 0 bs).buf b = bs := by
  rw [buf_bufWrite_same s b hb 0 bs (by omega)]
  simp [splice, hs]

/-- A write inside a buffer leaves every other buffer. -/
theorem buf_bufWrite_other (s : State) (b c : Buffer) (h : c ≠ b) (o : Nat) (bs : List Byte)
    (hs : o + bs.length ≤ b.size) : (s.bufWrite b o bs).buf c = s.buf c := by
  apply List.ext_getElem?
  intro k
  simp only [State.buf, getElem?_memRead]
  by_cases hk : k < c.size
  · rw [if_pos hk, if_pos hk]
    congr 1
    apply byte_bufWrite_outside
    have hc := holds_offset c k hk
    have hd := holds_disjoint c b h _ hc
    simp only [Buffer.holds, Bool.and_eq_false_iff, decide_eq_false_iff_not] at hd
    omega
  · rw [if_neg hk, if_neg hk]

/-- What a write inside a RAM buffer can list: an old cell, or one in that buffer. -/
theorem mem_bufWrite (s : State) (b : Buffer) (o : Nat) (bs : List Byte)
    (hs : o + bs.length ≤ b.size) (c : Host.Cell) (h : c ∈ (s.bufWrite b o bs).mem) :
    b.holds c.1 = true ∨ c ∈ s.mem := by
  rcases mem_write s.mem (b.base + o) bs c h with h | h
  · refine .inl ?_
    simp only [Buffer.holds, Bool.and_eq_true, decide_eq_true_eq]
    omega
  · exact .inr h

/-- KSUF holds the parameter (R40). -/
theorem buf_ksuf (s : State) : s.buf .ksuf = Config.keySuffix.toList := by
  apply List.ext_getElem?
  intro k
  rw [State.buf, getElem?_memRead]
  by_cases hk : k < Buffer.ksuf.size
  · have hk' : k < 53 := hk
    rw [if_pos hk, State.byte, if_pos (holds_offset .ksuf k hk), Nat.add_sub_cancel_left, byteAt_eq]
    simp [hk']
  · have hk' : ¬ k < 53 := hk
    rw [if_neg hk, List.getElem?_eq_none (by simp; omega)]

/-- K0 holds the parameter (R40). -/
theorem buf_k0 (s : State) : s.buf .k0 = Config.sector0Key.toList := by
  apply List.ext_getElem?
  intro k
  rw [State.buf, getElem?_memRead]
  by_cases hk : k < Buffer.k0.size
  · have hk' : k < 6 := hk
    have hn : Buffer.ksuf.holds (Buffer.k0.base + k) = false :=
      holds_disjoint .k0 .ksuf (by decide) _ (holds_offset .k0 k hk)
    rw [if_pos hk, State.byte, hn, if_neg (by decide), if_pos (holds_offset .k0 k hk),
      Nat.add_sub_cancel_left, byteAt_eq]
    simp [hk']
  · have hk' : ¬ k < 6 := hk
    rw [if_neg hk, List.getElem?_eq_none (by simp; omega)]

/-- With nothing written, every RAM buffer holds zeros (R55). -/
theorem buf_of_mem_nil (s : State) (h : s.mem = []) (b : Buffer) (hb : b.rom = false) :
    s.buf b = zeros b.size := by
  apply List.ext_getElem?
  intro k
  rw [State.buf, getElem?_memRead]
  by_cases hk : k < b.size
  · have hr := not_rom_of_holds b hb _ (holds_offset b k hk)
    rw [if_pos hk, State.byte, hr.1, hr.2, h]
    simp [zeros, Memory.get, hk]
  · rw [if_neg hk, List.getElem?_eq_none (by simp; omega)]

end Sys2Proof.Machine
end

