-- ==== Sys2Proof/Laws/Codec.lean ====
section
/-! SUPPORT. The laws of the codec: lengths, stored checksums, the field table's rows. -/

namespace Sys2Proof.Machine

theorem length_store16 (p : List Byte) (i : Nat) (v : BitVec 16) (h : i + 2 ≤ p.length) :
    (store16 p i v).length = p.length := by
  simp only [store16]
  rw [length_splice]
  simpa using h

/-- The two bytes of a stored 16-bit value. -/
theorem slice_store16_same (p : List Byte) (i : Nat) (v : BitVec 16) (h : i + 2 ≤ p.length) :
    slice (store16 p i v) i (i + 2) = leBytes 2 v.toNat := by
  have := slice_splice_same p (leBytes 2 v.toNat) i (by simpa using h)
  simpa [store16] using this

/-- A 16-bit value stored leaves the other bytes. -/
theorem slice_store16_other (p : List Byte) (i : Nat) (v : BitVec 16) (a b : Nat)
    (h : i + 2 ≤ p.length) (hd : b ≤ i ∨ i + 2 ≤ a) :
    slice (store16 p i v) a b = slice p a b :=
  slice_splice_disjoint p (leBytes 2 v.toNat) i a b (by simpa using h) (by simpa using hd)

theorem leNat_leBytes_16 (v : BitVec 16) : leNat (leBytes 2 v.toNat) = v.toNat := by
  rw [leNat_leBytes]
  exact Nat.mod_eq_of_lt v.isLt

/-- A 16-bit value stored reads back. -/
theorem stored16_store16_same (p : List Byte) (i : Nat) (v : BitVec 16) (h : i + 2 ≤ p.length) :
    stored16 (store16 p i v) i = v := by
  rw [stored16, slice_store16_same p i v h, leNat_leBytes_16]
  simp

theorem stored16_store16_other (p : List Byte) (i j : Nat) (v : BitVec 16)
    (h : i + 2 ≤ p.length) (hd : j + 2 ≤ i ∨ i + 2 ≤ j) :
    stored16 (store16 p i v) j = stored16 p j := by
  rw [stored16, slice_store16_other p i v _ _ h hd, stored16]

/-- A stored value is the 16-bit number of its bytes. -/
theorem toNat_stored16 (p : List Byte) (i : Nat) (h : i + 2 ≤ p.length) :
    (stored16 p i).toNat = leNat (slice p i (i + 2)) := by
  have hl : (slice p i (i + 2)).length = 2 := by
    rw [length_slice]; omega
  have := leNat_lt (slice p i (i + 2))
  rw [hl] at this
  simp only [stored16, BitVec.toNat_ofNat]
  exact Nat.mod_eq_of_lt this

theorem length_hdrSealed (h : List Byte) (hl : h.length = 32) : (hdrSealed h).length = 32 := by
  rw [hdrSealed, length_store16 _ _ _ (by omega), hl]

theorem length_p1Sealed (p : List Byte) (hl : p.length = 112) : (p1Sealed p).length = 112 := by
  simp only [p1Sealed]
  rw [length_store16, length_store16, length_store16] <;> simp [length_store16, hl]

theorem length_p2Sealed (q : List Byte) (hl : q.length = 64) : (p2Sealed q).length = 64 := by
  rw [p2Sealed, length_store16 _ _ _ (by omega), hl]

theorem length_sectorKey (s : State) (i : Nat) : (s.sectorKey i).length = 6 := by
  simp only [State.sectorKey, sectorKeyOf]
  split <;> simp [Buffer.size]

theorem length_selected (s : State) (o : Choice) (i j : Nat) (hj : j ≤ 176) :
    (s.selected o i j).length = j - i := by
  simp only [State.selected]
  split
  · next r _ => rw [length_slice, length_buf]; cases r <;> simp [imageBuf, Buffer.size] <;> omega
  · simp

/-- A field lies in its buffer, which is a RAM buffer (R235). -/
theorem fieldRow_bounds (fid : Byte) (r : FieldRow) (h : fieldRow fid = some r) :
    r.buf.rom = false ∧ 1 ≤ r.width ∧ r.width ≤ 8 ∧ r.off + r.width ≤ r.buf.size := by
  have hall : ∀ q ∈ fieldTable,
      q.buf.rom = false ∧ 1 ≤ q.width ∧ q.width ≤ 8 ∧ q.off + q.width ≤ q.buf.size := by
    decide +kernel
  exact hall r (List.mem_of_find?_eq_some h)

/-- What the operand check of the field commands answers (R240, R241). -/
theorem fieldOperand_eq_some {fid bit : Byte} {r : FieldRow} :
    fieldOperand fid bit = some r ↔ fieldRow fid = some r ∧ bit = 0 := by
  simp only [fieldOperand]
  split
  · next q hq =>
    split
    · next hb => simp [hq, hb]
    · next hb =>
      simp only [reduceCtorEq, false_iff, not_and]
      exact fun _ => hb
  · next hq => simp [hq]

/-- What the operand check of the bit commands answers (R242). -/
theorem bitOperand_eq_some {fid bit : Byte} {r : FieldRow} :
    bitOperand fid bit = some r ↔ fieldRow fid = some r ∧ bit.toNat < 8 * r.width := by
  simp only [bitOperand]
  split
  · next q hq =>
    split
    · next hb =>
      simp only [hq, Option.some.injEq]
      constructor
      · rintro rfl; exact ⟨rfl, hb⟩
      · exact fun h => h.1
    · next hb =>
      simp only [hq, Option.some.injEq, reduceCtorEq, false_iff, not_and]
      rintro rfl; exact hb
  · next hq => simp [hq]

end Sys2Proof.Machine
end

