-- ==== Sys2Proof/Laws/Encoding.lean ====
section
/-! SUPPORT. The laws of the encoding (R111): the fields of each encoded word. -/

namespace Sys2Proof

theorem opOf_code (o : Op) : opOf o.code = some o := by cases o <;> decide

/-- An opcode byte that is in the table is its opcode's code. -/
theorem code_of_opOf {c : Byte} {o : Op} (h : opOf c = some o) : o.code = c := by
  simpa using List.find?_some h

/-- The low part of a concatenation. -/
theorem extract_low {n m : Nat} (x : BitVec n) (y : BitVec m) :
    (x ++ y).extractLsb' 0 m = y := by
  ext j hj
  simp [BitVec.getLsbD_append, hj]

/-- A part of the high part of a concatenation. -/
theorem extract_high {n m : Nat} (x : BitVec n) (y : BitVec m) (k j : Nat) :
    (x ++ y).extractLsb' (m + k) j = x.extractLsb' k j := by
  ext i hi
  simp [BitVec.getLsbD_append, Nat.add_assoc]

/-- The whole of a bit vector. -/
theorem extract_all {n : Nat} (x : BitVec n) : x.extractLsb' 0 n = x := by
  ext j hj
  simp

/-- A bit of the high part of a concatenation. -/
theorem bit_high {n m : Nat} (x : BitVec n) (y : BitVec m) (k : Nat) :
    (x ++ y).getLsbD (m + k) = x.getLsbD k := by
  simp [BitVec.getLsbD_append]

theorem wordN_op (o : Op) : (wordN o).extractLsb' 0 8 = o.code := extract_low _ _

theorem wordR_op (o : Op) (a l : BitVec 12) : (wordR o a l).extractLsb' 0 8 = o.code :=
  extract_low _ _

theorem wordZ_op (o : Op) (l : BitVec 12) : (wordZ o l).extractLsb' 0 8 = o.code :=
  extract_low _ _

theorem wordA_op (o : Op) (b : Byte) : (wordA o b).extractLsb' 0 8 = o.code := extract_low _ _

theorem wordF_op (o : Op) (f b : Byte) : (wordF o f b).extractLsb' 0 8 = o.code :=
  extract_low _ _

theorem wordM_op (o : Op) (i : BitVec 4) (r : Region) :
    (wordM o i r).extractLsb' 0 8 = o.code := extract_low _ _

theorem wordW_op (o : Op) (b : Bool) : (wordW o b).extractLsb' 0 8 = o.code := extract_low _ _

theorem wordR_addr (o : Op) (a l : BitVec 12) : wordAddr (wordR o a l) = a :=
  (extract_high (l ++ a) o.code 0 12).trans (extract_low l a)

theorem wordR_len (o : Op) (a l : BitVec 12) : wordLen (wordR o a l) = l :=
  (extract_high (l ++ a) o.code 12 12).trans
    ((extract_high l a 0 12).trans (extract_all l))

theorem wordZ_len (o : Op) (l : BitVec 12) : wordLen (wordZ o l) = l :=
  (extract_high (l ++ 0#12) o.code 12 12).trans
    ((extract_high l 0#12 0 12).trans (extract_all l))

theorem wordA_arg (o : Op) (b : Byte) : wordArg (wordA o b) = b :=
  (extract_high (0#16 ++ b) o.code 0 8).trans (extract_low 0#16 b)

theorem wordF_fid (o : Op) (f b : Byte) : wordFid (wordF o f b) = f :=
  (extract_high (0#8 ++ b ++ f) o.code 0 8).trans (extract_low (0#8 ++ b) f)

theorem wordF_bit (o : Op) (f b : Byte) : wordBit (wordF o f b) = b :=
  (extract_high (0#8 ++ b ++ f) o.code 8 8).trans
    ((extract_high (0#8 ++ b) f 0 8).trans (extract_low 0#8 b))

theorem wordM_index (o : Op) (i : BitVec 4) (r : Region) : wordIndex (wordM o i r) = i :=
  (extract_high (0#19 ++ regionBit r ++ i) o.code 0 4).trans
    (extract_low (0#19 ++ regionBit r) i)

theorem wordM_region (o : Op) (i : BitVec 4) (r : Region) : wordRegion (wordM o i r) = r := by
  have h : (wordM o i r).getLsbD 12 = (regionBit r).getLsbD 0 :=
    (bit_high (0#19 ++ regionBit r ++ i) o.code 4).trans
      ((bit_high (0#19 ++ regionBit r) i 0).trans (by cases r <;> decide))
  rw [wordRegion, h]
  cases r <;> decide

theorem wordW_rw (o : Op) (b : Bool) : wordRw (wordW o b) = b :=
  (bit_high (0#23 ++ BitVec.ofBool b) o.code 0).trans (by cases b <;> decide)

theorem and_concat {n m : Nat} (x x' : BitVec n) (y y' : BitVec m) :
    (x ++ y) &&& (x' ++ y') = (x &&& x') ++ (y &&& y') := BitVec.and_append

/-- No encoded word has a reserved bit set (R111). -/
theorem wordN_reserved (o : Op) : wordN o &&& Format.n.reserved = 0 :=
  (and_concat 0#24 0xFFFFFF#24 o.code 0#8).trans (by simp)

theorem wordZ_reserved (o : Op) (l : BitVec 12) : wordZ o l &&& Format.z.reserved = 0 :=
  (and_concat (l ++ 0#12) (0#12 ++ 0xFFF#12) o.code 0#8).trans
    (by rw [and_concat l 0#12 0#12 0xFFF#12]; simp)

theorem wordA_reserved (o : Op) (b : Byte) : wordA o b &&& Format.a.reserved = 0 :=
  (and_concat (0#16 ++ b) (0xFFFF#16 ++ 0#8) o.code 0#8).trans
    (by rw [and_concat 0#16 0xFFFF#16 b 0#8]; simp)

theorem wordF_reserved (o : Op) (f b : Byte) : wordF o f b &&& Format.f.reserved = 0 :=
  (and_concat (0#8 ++ b ++ f) (0xFF#8 ++ 0#8 ++ 0#8) o.code 0#8).trans
    (by rw [and_concat (0#8 ++ b) (0xFF#8 ++ 0#8) f 0#8, and_concat 0#8 0xFF#8 b 0#8]; simp)

theorem wordM_reserved (o : Op) (i : BitVec 4) (r : Region) :
    wordM o i r &&& Format.m.reserved = 0 :=
  (and_concat (0#19 ++ regionBit r ++ i) (0x7FFFF#19 ++ 0#1 ++ 0#4) o.code 0#8).trans
    (by
      rw [and_concat (0#19 ++ regionBit r) (0x7FFFF#19 ++ 0#1) i 0#4,
        and_concat 0#19 0x7FFFF#19 (regionBit r) 0#1]
      simp)

theorem wordW_reserved (o : Op) (b : Bool) : wordW o b &&& Format.w.reserved = 0 :=
  (and_concat (0#23 ++ BitVec.ofBool b) (0x7FFFFF#23 ++ 0#1) o.code 0#8).trans
    (by rw [and_concat 0#23 0x7FFFFF#23 (BitVec.ofBool b) 0#1]; simp)

/-- A word that an opcode's format admits decodes to the opcode's instruction. -/
theorem decode_of (w : Word) (o : Op) (h : w.extractLsb' 0 8 = o.code)
    (hr : w &&& o.format.reserved = 0) : decode w = .ok (assemble o w) := by
  simp only [decode, h, opOf_code, hr, if_true]

/-- What a decoded word says of itself. -/
theorem decode_eq_ok {w : Word} {i : Instr} (h : decode w = .ok i) :
    ∃ o, w.extractLsb' 0 8 = o.code ∧ w &&& o.format.reserved = 0 ∧ i = assemble o w := by
  rcases ho : opOf (w.extractLsb' 0 8) with _ | o
  · simp only [decode, ho] at h
    cases h
  · simp only [decode, ho] at h
    split at h
    · next hr => exact ⟨o, (code_of_opOf ho).symm, hr, (Except.ok.inj h).symm⟩
    · cases h

end Sys2Proof
end

