-- ==== Sys2Proof/Laws/State.lean ====
section
/-! SUPPORT. What each state update leaves in each field: one lemma per field per update, true by
unfolding, so that no later proof unfolds an update. -/

namespace Sys2Proof.Machine

/-! `finish` (R340). -/

@[simp] theorem finish_eqPolicy (c : ErrCode) (s : State) :
    (finish c s).eqPolicy = s.eqPolicy := rfl

@[simp] theorem finish_irqEn (c : ErrCode) (s : State) :
    (finish c s).irqEn = s.irqEn := rfl

@[simp] theorem finish_err (c : ErrCode) (s : State) :
    (finish c s).err = c := rfl

@[simp] theorem finish_done (c : ErrCode) (s : State) :
    (finish c s).done = true := rfl

@[simp] theorem finish_busErr (c : ErrCode) (s : State) :
    (finish c s).busErr = s.busErr := rfl

@[simp] theorem finish_ovr (c : ErrCode) (s : State) :
    (finish c s).ovr = s.ovr := rfl

@[simp] theorem finish_res0 (c : ErrCode) (s : State) :
    (finish c s).res0 = s.res0 := rfl

@[simp] theorem finish_res1 (c : ErrCode) (s : State) :
    (finish c s).res1 = s.res1 := rfl

@[simp] theorem finish_crc16 (c : ErrCode) (s : State) :
    (finish c s).crc16 = s.crc16 := rfl

@[simp] theorem finish_crc48 (c : ErrCode) (s : State) :
    (finish c s).crc48 = s.crc48 := rfl

@[simp] theorem finish_recon (c : ErrCode) (s : State) :
    (finish c s).recon = s.recon := rfl

@[simp] theorem finish_fval (c : ErrCode) (s : State) :
    (finish c s).fval = s.fval := rfl

@[simp] theorem finish_seq (c : ErrCode) (s : State) :
    (finish c s).seq = s.seq := rfl

@[simp] theorem finish_xstat (c : ErrCode) (s : State) :
    (finish c s).xstat = s.xstat := rfl

@[simp] theorem finish_mem (c : ErrCode) (s : State) :
    (finish c s).mem = s.mem := rfl

@[simp] theorem finish_phase (c : ErrCode) (s : State) :
    (finish c s).phase = .idle := rfl

@[simp] theorem finish_tag (c : ErrCode) (s : State) :
    (finish c s).tag = s.tag := rfl

@[simp] theorem finish_inputs (c : ErrCode) (s : State) :
    (finish c s).inputs = s.inputs := rfl

@[simp] theorem finish_readData (c : ErrCode) (s : State) :
    (finish c s).readData = s.readData := rfl

@[simp] theorem finish_freeReads (c : ErrCode) (s : State) :
    (finish c s).freeReads = s.freeReads := rfl

/-! `raise` (R333). -/

@[simp] theorem raise_eqPolicy (c : ErrCode) (n : Nat) (st : Stage) (p : PortCause) (s : State) :
    (raise c n st p s).eqPolicy = s.eqPolicy := rfl

@[simp] theorem raise_irqEn (c : ErrCode) (n : Nat) (st : Stage) (p : PortCause) (s : State) :
    (raise c n st p s).irqEn = s.irqEn := rfl

@[simp] theorem raise_err (c : ErrCode) (n : Nat) (st : Stage) (p : PortCause) (s : State) :
    (raise c n st p s).err = c := rfl

@[simp] theorem raise_done (c : ErrCode) (n : Nat) (st : Stage) (p : PortCause) (s : State) :
    (raise c n st p s).done = true := rfl

@[simp] theorem raise_busErr (c : ErrCode) (n : Nat) (st : Stage) (p : PortCause) (s : State) :
    (raise c n st p s).busErr = s.busErr := rfl

@[simp] theorem raise_ovr (c : ErrCode) (n : Nat) (st : Stage) (p : PortCause) (s : State) :
    (raise c n st p s).ovr = s.ovr := rfl

@[simp] theorem raise_res0 (c : ErrCode) (n : Nat) (st : Stage) (p : PortCause) (s : State) :
    (raise c n st p s).res0 = s.res0 := rfl

@[simp] theorem raise_res1 (c : ErrCode) (n : Nat) (st : Stage) (p : PortCause) (s : State) :
    (raise c n st p s).res1 = s.res1 := rfl

@[simp] theorem raise_crc16 (c : ErrCode) (n : Nat) (st : Stage) (p : PortCause) (s : State) :
    (raise c n st p s).crc16 = s.crc16 := rfl

@[simp] theorem raise_crc48 (c : ErrCode) (n : Nat) (st : Stage) (p : PortCause) (s : State) :
    (raise c n st p s).crc48 = s.crc48 := rfl

@[simp] theorem raise_recon (c : ErrCode) (n : Nat) (st : Stage) (p : PortCause) (s : State) :
    (raise c n st p s).recon = s.recon := rfl

@[simp] theorem raise_fval (c : ErrCode) (n : Nat) (st : Stage) (p : PortCause) (s : State) :
    (raise c n st p s).fval = s.fval := rfl

@[simp] theorem raise_seq (c : ErrCode) (n : Nat) (st : Stage) (p : PortCause) (s : State) :
    (raise c n st p s).seq = s.seq := rfl

@[simp] theorem raise_xstat (c : ErrCode) (n : Nat) (st : Stage) (p : PortCause) (s : State) :
    (raise c n st p s).xstat = xstatWord n st p := rfl

@[simp] theorem raise_mem (c : ErrCode) (n : Nat) (st : Stage) (p : PortCause) (s : State) :
    (raise c n st p s).mem = s.mem := rfl

@[simp] theorem raise_phase (c : ErrCode) (n : Nat) (st : Stage) (p : PortCause) (s : State) :
    (raise c n st p s).phase = .idle := rfl

@[simp] theorem raise_tag (c : ErrCode) (n : Nat) (st : Stage) (p : PortCause) (s : State) :
    (raise c n st p s).tag = s.tag := rfl

@[simp] theorem raise_inputs (c : ErrCode) (n : Nat) (st : Stage) (p : PortCause) (s : State) :
    (raise c n st p s).inputs = s.inputs := rfl

@[simp] theorem raise_readData (c : ErrCode) (n : Nat) (st : Stage) (p : PortCause) (s : State) :
    (raise c n st p s).readData = s.readData := rfl

@[simp] theorem raise_freeReads (c : ErrCode) (n : Nat) (st : Stage) (p : PortCause) (s : State) :
    (raise c n st p s).freeReads = s.freeReads := rfl

/-! `accept` (R51). -/

@[simp] theorem accept_eqPolicy (w : Word) (s : State) :
    (accept w s).eqPolicy = s.eqPolicy := rfl

@[simp] theorem accept_irqEn (w : Word) (s : State) :
    (accept w s).irqEn = s.irqEn := rfl

@[simp] theorem accept_err (w : Word) (s : State) :
    (accept w s).err = .ok := rfl

@[simp] theorem accept_done (w : Word) (s : State) :
    (accept w s).done = false := rfl

@[simp] theorem accept_busErr (w : Word) (s : State) :
    (accept w s).busErr = s.busErr := rfl

@[simp] theorem accept_ovr (w : Word) (s : State) :
    (accept w s).ovr = s.ovr := rfl

@[simp] theorem accept_res0 (w : Word) (s : State) :
    (accept w s).res0 = s.res0 := rfl

@[simp] theorem accept_res1 (w : Word) (s : State) :
    (accept w s).res1 = s.res1 := rfl

@[simp] theorem accept_crc16 (w : Word) (s : State) :
    (accept w s).crc16 = s.crc16 := rfl

@[simp] theorem accept_crc48 (w : Word) (s : State) :
    (accept w s).crc48 = s.crc48 := rfl

@[simp] theorem accept_recon (w : Word) (s : State) :
    (accept w s).recon = s.recon := rfl

@[simp] theorem accept_fval (w : Word) (s : State) :
    (accept w s).fval = s.fval := rfl

@[simp] theorem accept_seq (w : Word) (s : State) :
    (accept w s).seq = s.seq := rfl

@[simp] theorem accept_xstat (w : Word) (s : State) :
    (accept w s).xstat = 0 := rfl

@[simp] theorem accept_mem (w : Word) (s : State) :
    (accept w s).mem = s.mem := rfl

@[simp] theorem accept_phase (w : Word) (s : State) :
    (accept w s).phase = .busy w .accepted none := rfl

@[simp] theorem accept_tag (w : Word) (s : State) :
    (accept w s).tag = s.tag := rfl

@[simp] theorem accept_inputs (w : Word) (s : State) :
    (accept w s).inputs = s.inputs := rfl

@[simp] theorem accept_readData (w : Word) (s : State) :
    (accept w s).readData = s.readData := rfl

@[simp] theorem accept_freeReads (w : Word) (s : State) :
    (accept w s).freeReads = s.freeReads := rfl

/-! `refuseAccess` (R85). -/

@[simp] theorem refuseAccess_eqPolicy (s : State) :
    (refuseAccess s).eqPolicy = s.eqPolicy := rfl

@[simp] theorem refuseAccess_irqEn (s : State) :
    (refuseAccess s).irqEn = s.irqEn := rfl

@[simp] theorem refuseAccess_err (s : State) :
    (refuseAccess s).err = s.err := rfl

@[simp] theorem refuseAccess_done (s : State) :
    (refuseAccess s).done = s.done := rfl

@[simp] theorem refuseAccess_busErr (s : State) :
    (refuseAccess s).busErr = true := rfl

@[simp] theorem refuseAccess_ovr (s : State) :
    (refuseAccess s).ovr = s.ovr := rfl

@[simp] theorem refuseAccess_res0 (s : State) :
    (refuseAccess s).res0 = s.res0 := rfl

@[simp] theorem refuseAccess_res1 (s : State) :
    (refuseAccess s).res1 = s.res1 := rfl

@[simp] theorem refuseAccess_crc16 (s : State) :
    (refuseAccess s).crc16 = s.crc16 := rfl

@[simp] theorem refuseAccess_crc48 (s : State) :
    (refuseAccess s).crc48 = s.crc48 := rfl

@[simp] theorem refuseAccess_recon (s : State) :
    (refuseAccess s).recon = s.recon := rfl

@[simp] theorem refuseAccess_fval (s : State) :
    (refuseAccess s).fval = s.fval := rfl

@[simp] theorem refuseAccess_seq (s : State) :
    (refuseAccess s).seq = s.seq := rfl

@[simp] theorem refuseAccess_xstat (s : State) :
    (refuseAccess s).xstat = s.xstat := rfl

@[simp] theorem refuseAccess_mem (s : State) :
    (refuseAccess s).mem = s.mem := rfl

@[simp] theorem refuseAccess_phase (s : State) :
    (refuseAccess s).phase = s.phase := rfl

@[simp] theorem refuseAccess_tag (s : State) :
    (refuseAccess s).tag = s.tag := rfl

@[simp] theorem refuseAccess_inputs (s : State) :
    (refuseAccess s).inputs = s.inputs := rfl

@[simp] theorem refuseAccess_readData (s : State) :
    (refuseAccess s).readData = s.readData := rfl

@[simp] theorem refuseAccess_freeReads (s : State) :
    (refuseAccess s).freeReads = s.freeReads := rfl

/-! `overrun` (R51). -/

@[simp] theorem overrun_eqPolicy (s : State) :
    (overrun s).eqPolicy = s.eqPolicy := rfl

@[simp] theorem overrun_irqEn (s : State) :
    (overrun s).irqEn = s.irqEn := rfl

@[simp] theorem overrun_err (s : State) :
    (overrun s).err = s.err := rfl

@[simp] theorem overrun_done (s : State) :
    (overrun s).done = s.done := rfl

@[simp] theorem overrun_busErr (s : State) :
    (overrun s).busErr = s.busErr := rfl

@[simp] theorem overrun_ovr (s : State) :
    (overrun s).ovr = true := rfl

@[simp] theorem overrun_res0 (s : State) :
    (overrun s).res0 = s.res0 := rfl

@[simp] theorem overrun_res1 (s : State) :
    (overrun s).res1 = s.res1 := rfl

@[simp] theorem overrun_crc16 (s : State) :
    (overrun s).crc16 = s.crc16 := rfl

@[simp] theorem overrun_crc48 (s : State) :
    (overrun s).crc48 = s.crc48 := rfl

@[simp] theorem overrun_recon (s : State) :
    (overrun s).recon = s.recon := rfl

@[simp] theorem overrun_fval (s : State) :
    (overrun s).fval = s.fval := rfl

@[simp] theorem overrun_seq (s : State) :
    (overrun s).seq = s.seq := rfl

@[simp] theorem overrun_xstat (s : State) :
    (overrun s).xstat = s.xstat := rfl

@[simp] theorem overrun_mem (s : State) :
    (overrun s).mem = s.mem := rfl

@[simp] theorem overrun_phase (s : State) :
    (overrun s).phase = s.phase := rfl

@[simp] theorem overrun_tag (s : State) :
    (overrun s).tag = s.tag := rfl

@[simp] theorem overrun_inputs (s : State) :
    (overrun s).inputs = s.inputs := rfl

@[simp] theorem overrun_readData (s : State) :
    (overrun s).readData = s.readData := rfl

@[simp] theorem overrun_freeReads (s : State) :
    (overrun s).freeReads = s.freeReads := rfl

/-! `memWrite` (R14). -/

@[simp] theorem memWrite_eqPolicy (s : State) (a : Nat) (bs : List Byte) :
    (s.memWrite a bs).eqPolicy = s.eqPolicy := rfl

@[simp] theorem memWrite_irqEn (s : State) (a : Nat) (bs : List Byte) :
    (s.memWrite a bs).irqEn = s.irqEn := rfl

@[simp] theorem memWrite_err (s : State) (a : Nat) (bs : List Byte) :
    (s.memWrite a bs).err = s.err := rfl

@[simp] theorem memWrite_done (s : State) (a : Nat) (bs : List Byte) :
    (s.memWrite a bs).done = s.done := rfl

@[simp] theorem memWrite_busErr (s : State) (a : Nat) (bs : List Byte) :
    (s.memWrite a bs).busErr = s.busErr := rfl

@[simp] theorem memWrite_ovr (s : State) (a : Nat) (bs : List Byte) :
    (s.memWrite a bs).ovr = s.ovr := rfl

@[simp] theorem memWrite_res0 (s : State) (a : Nat) (bs : List Byte) :
    (s.memWrite a bs).res0 = s.res0 := rfl

@[simp] theorem memWrite_res1 (s : State) (a : Nat) (bs : List Byte) :
    (s.memWrite a bs).res1 = s.res1 := rfl

@[simp] theorem memWrite_crc16 (s : State) (a : Nat) (bs : List Byte) :
    (s.memWrite a bs).crc16 = s.crc16 := rfl

@[simp] theorem memWrite_crc48 (s : State) (a : Nat) (bs : List Byte) :
    (s.memWrite a bs).crc48 = s.crc48 := rfl

@[simp] theorem memWrite_recon (s : State) (a : Nat) (bs : List Byte) :
    (s.memWrite a bs).recon = s.recon := rfl

@[simp] theorem memWrite_fval (s : State) (a : Nat) (bs : List Byte) :
    (s.memWrite a bs).fval = s.fval := rfl

@[simp] theorem memWrite_seq (s : State) (a : Nat) (bs : List Byte) :
    (s.memWrite a bs).seq = s.seq := rfl

@[simp] theorem memWrite_xstat (s : State) (a : Nat) (bs : List Byte) :
    (s.memWrite a bs).xstat = s.xstat := rfl

@[simp] theorem memWrite_mem (s : State) (a : Nat) (bs : List Byte) :
    (s.memWrite a bs).mem = s.mem.write a bs := rfl

@[simp] theorem memWrite_phase (s : State) (a : Nat) (bs : List Byte) :
    (s.memWrite a bs).phase = s.phase := rfl

@[simp] theorem memWrite_tag (s : State) (a : Nat) (bs : List Byte) :
    (s.memWrite a bs).tag = s.tag := rfl

@[simp] theorem memWrite_inputs (s : State) (a : Nat) (bs : List Byte) :
    (s.memWrite a bs).inputs = s.inputs := rfl

@[simp] theorem memWrite_readData (s : State) (a : Nat) (bs : List Byte) :
    (s.memWrite a bs).readData = s.readData := rfl

@[simp] theorem memWrite_freeReads (s : State) (a : Nat) (bs : List Byte) :
    (s.memWrite a bs).freeReads = s.freeReads := rfl

/-! `bufWrite` (R14). -/

@[simp] theorem bufWrite_eqPolicy (s : State) (b : Buffer) (o : Nat) (bs : List Byte) :
    (s.bufWrite b o bs).eqPolicy = s.eqPolicy := rfl

@[simp] theorem bufWrite_irqEn (s : State) (b : Buffer) (o : Nat) (bs : List Byte) :
    (s.bufWrite b o bs).irqEn = s.irqEn := rfl

@[simp] theorem bufWrite_err (s : State) (b : Buffer) (o : Nat) (bs : List Byte) :
    (s.bufWrite b o bs).err = s.err := rfl

@[simp] theorem bufWrite_done (s : State) (b : Buffer) (o : Nat) (bs : List Byte) :
    (s.bufWrite b o bs).done = s.done := rfl

@[simp] theorem bufWrite_busErr (s : State) (b : Buffer) (o : Nat) (bs : List Byte) :
    (s.bufWrite b o bs).busErr = s.busErr := rfl

@[simp] theorem bufWrite_ovr (s : State) (b : Buffer) (o : Nat) (bs : List Byte) :
    (s.bufWrite b o bs).ovr = s.ovr := rfl

@[simp] theorem bufWrite_res0 (s : State) (b : Buffer) (o : Nat) (bs : List Byte) :
    (s.bufWrite b o bs).res0 = s.res0 := rfl

@[simp] theorem bufWrite_res1 (s : State) (b : Buffer) (o : Nat) (bs : List Byte) :
    (s.bufWrite b o bs).res1 = s.res1 := rfl

@[simp] theorem bufWrite_crc16 (s : State) (b : Buffer) (o : Nat) (bs : List Byte) :
    (s.bufWrite b o bs).crc16 = s.crc16 := rfl

@[simp] theorem bufWrite_crc48 (s : State) (b : Buffer) (o : Nat) (bs : List Byte) :
    (s.bufWrite b o bs).crc48 = s.crc48 := rfl

@[simp] theorem bufWrite_recon (s : State) (b : Buffer) (o : Nat) (bs : List Byte) :
    (s.bufWrite b o bs).recon = s.recon := rfl

@[simp] theorem bufWrite_fval (s : State) (b : Buffer) (o : Nat) (bs : List Byte) :
    (s.bufWrite b o bs).fval = s.fval := rfl

@[simp] theorem bufWrite_seq (s : State) (b : Buffer) (o : Nat) (bs : List Byte) :
    (s.bufWrite b o bs).seq = s.seq := rfl

@[simp] theorem bufWrite_xstat (s : State) (b : Buffer) (o : Nat) (bs : List Byte) :
    (s.bufWrite b o bs).xstat = s.xstat := rfl

@[simp] theorem bufWrite_mem (s : State) (b : Buffer) (o : Nat) (bs : List Byte) :
    (s.bufWrite b o bs).mem = s.mem.write (b.base + o) bs := rfl

@[simp] theorem bufWrite_phase (s : State) (b : Buffer) (o : Nat) (bs : List Byte) :
    (s.bufWrite b o bs).phase = s.phase := rfl

@[simp] theorem bufWrite_tag (s : State) (b : Buffer) (o : Nat) (bs : List Byte) :
    (s.bufWrite b o bs).tag = s.tag := rfl

@[simp] theorem bufWrite_inputs (s : State) (b : Buffer) (o : Nat) (bs : List Byte) :
    (s.bufWrite b o bs).inputs = s.inputs := rfl

@[simp] theorem bufWrite_readData (s : State) (b : Buffer) (o : Nat) (bs : List Byte) :
    (s.bufWrite b o bs).readData = s.readData := rfl

@[simp] theorem bufWrite_freeReads (s : State) (b : Buffer) (o : Nat) (bs : List Byte) :
    (s.bufWrite b o bs).freeReads = s.freeReads := rfl

/-! `withRes0` (R38). -/

@[simp] theorem withRes0_eqPolicy (s : State) (v : Word) :
    (s.withRes0 v).eqPolicy = s.eqPolicy := rfl

@[simp] theorem withRes0_irqEn (s : State) (v : Word) :
    (s.withRes0 v).irqEn = s.irqEn := rfl

@[simp] theorem withRes0_err (s : State) (v : Word) :
    (s.withRes0 v).err = s.err := rfl

@[simp] theorem withRes0_done (s : State) (v : Word) :
    (s.withRes0 v).done = s.done := rfl

@[simp] theorem withRes0_busErr (s : State) (v : Word) :
    (s.withRes0 v).busErr = s.busErr := rfl

@[simp] theorem withRes0_ovr (s : State) (v : Word) :
    (s.withRes0 v).ovr = s.ovr := rfl

@[simp] theorem withRes0_res0 (s : State) (v : Word) :
    (s.withRes0 v).res0 = v := rfl

@[simp] theorem withRes0_res1 (s : State) (v : Word) :
    (s.withRes0 v).res1 = s.res1 := rfl

@[simp] theorem withRes0_crc16 (s : State) (v : Word) :
    (s.withRes0 v).crc16 = s.crc16 := rfl

@[simp] theorem withRes0_crc48 (s : State) (v : Word) :
    (s.withRes0 v).crc48 = s.crc48 := rfl

@[simp] theorem withRes0_recon (s : State) (v : Word) :
    (s.withRes0 v).recon = s.recon := rfl

@[simp] theorem withRes0_fval (s : State) (v : Word) :
    (s.withRes0 v).fval = s.fval := rfl

@[simp] theorem withRes0_seq (s : State) (v : Word) :
    (s.withRes0 v).seq = s.seq := rfl

@[simp] theorem withRes0_xstat (s : State) (v : Word) :
    (s.withRes0 v).xstat = s.xstat := rfl

@[simp] theorem withRes0_mem (s : State) (v : Word) :
    (s.withRes0 v).mem = s.mem := rfl

@[simp] theorem withRes0_phase (s : State) (v : Word) :
    (s.withRes0 v).phase = s.phase := rfl

@[simp] theorem withRes0_tag (s : State) (v : Word) :
    (s.withRes0 v).tag = s.tag := rfl

@[simp] theorem withRes0_inputs (s : State) (v : Word) :
    (s.withRes0 v).inputs = s.inputs := rfl

@[simp] theorem withRes0_readData (s : State) (v : Word) :
    (s.withRes0 v).readData = s.readData := rfl

@[simp] theorem withRes0_freeReads (s : State) (v : Word) :
    (s.withRes0 v).freeReads = s.freeReads := rfl

/-! `withRes1` (R38). -/

@[simp] theorem withRes1_eqPolicy (s : State) (v : Word) :
    (s.withRes1 v).eqPolicy = s.eqPolicy := rfl

@[simp] theorem withRes1_irqEn (s : State) (v : Word) :
    (s.withRes1 v).irqEn = s.irqEn := rfl

@[simp] theorem withRes1_err (s : State) (v : Word) :
    (s.withRes1 v).err = s.err := rfl

@[simp] theorem withRes1_done (s : State) (v : Word) :
    (s.withRes1 v).done = s.done := rfl

@[simp] theorem withRes1_busErr (s : State) (v : Word) :
    (s.withRes1 v).busErr = s.busErr := rfl

@[simp] theorem withRes1_ovr (s : State) (v : Word) :
    (s.withRes1 v).ovr = s.ovr := rfl

@[simp] theorem withRes1_res0 (s : State) (v : Word) :
    (s.withRes1 v).res0 = s.res0 := rfl

@[simp] theorem withRes1_res1 (s : State) (v : Word) :
    (s.withRes1 v).res1 = v := rfl

@[simp] theorem withRes1_crc16 (s : State) (v : Word) :
    (s.withRes1 v).crc16 = s.crc16 := rfl

@[simp] theorem withRes1_crc48 (s : State) (v : Word) :
    (s.withRes1 v).crc48 = s.crc48 := rfl

@[simp] theorem withRes1_recon (s : State) (v : Word) :
    (s.withRes1 v).recon = s.recon := rfl

@[simp] theorem withRes1_fval (s : State) (v : Word) :
    (s.withRes1 v).fval = s.fval := rfl

@[simp] theorem withRes1_seq (s : State) (v : Word) :
    (s.withRes1 v).seq = s.seq := rfl

@[simp] theorem withRes1_xstat (s : State) (v : Word) :
    (s.withRes1 v).xstat = s.xstat := rfl

@[simp] theorem withRes1_mem (s : State) (v : Word) :
    (s.withRes1 v).mem = s.mem := rfl

@[simp] theorem withRes1_phase (s : State) (v : Word) :
    (s.withRes1 v).phase = s.phase := rfl

@[simp] theorem withRes1_tag (s : State) (v : Word) :
    (s.withRes1 v).tag = s.tag := rfl

@[simp] theorem withRes1_inputs (s : State) (v : Word) :
    (s.withRes1 v).inputs = s.inputs := rfl

@[simp] theorem withRes1_readData (s : State) (v : Word) :
    (s.withRes1 v).readData = s.readData := rfl

@[simp] theorem withRes1_freeReads (s : State) (v : Word) :
    (s.withRes1 v).freeReads = s.freeReads := rfl

/-! `withFval` (R43). -/

@[simp] theorem withFval_eqPolicy (s : State) (v : BitVec 64) :
    (s.withFval v).eqPolicy = s.eqPolicy := rfl

@[simp] theorem withFval_irqEn (s : State) (v : BitVec 64) :
    (s.withFval v).irqEn = s.irqEn := rfl

@[simp] theorem withFval_err (s : State) (v : BitVec 64) :
    (s.withFval v).err = s.err := rfl

@[simp] theorem withFval_done (s : State) (v : BitVec 64) :
    (s.withFval v).done = s.done := rfl

@[simp] theorem withFval_busErr (s : State) (v : BitVec 64) :
    (s.withFval v).busErr = s.busErr := rfl

@[simp] theorem withFval_ovr (s : State) (v : BitVec 64) :
    (s.withFval v).ovr = s.ovr := rfl

@[simp] theorem withFval_res0 (s : State) (v : BitVec 64) :
    (s.withFval v).res0 = s.res0 := rfl

@[simp] theorem withFval_res1 (s : State) (v : BitVec 64) :
    (s.withFval v).res1 = s.res1 := rfl

@[simp] theorem withFval_crc16 (s : State) (v : BitVec 64) :
    (s.withFval v).crc16 = s.crc16 := rfl

@[simp] theorem withFval_crc48 (s : State) (v : BitVec 64) :
    (s.withFval v).crc48 = s.crc48 := rfl

@[simp] theorem withFval_recon (s : State) (v : BitVec 64) :
    (s.withFval v).recon = s.recon := rfl

@[simp] theorem withFval_fval (s : State) (v : BitVec 64) :
    (s.withFval v).fval = v := rfl

@[simp] theorem withFval_seq (s : State) (v : BitVec 64) :
    (s.withFval v).seq = s.seq := rfl

@[simp] theorem withFval_xstat (s : State) (v : BitVec 64) :
    (s.withFval v).xstat = s.xstat := rfl

@[simp] theorem withFval_mem (s : State) (v : BitVec 64) :
    (s.withFval v).mem = s.mem := rfl

@[simp] theorem withFval_phase (s : State) (v : BitVec 64) :
    (s.withFval v).phase = s.phase := rfl

@[simp] theorem withFval_tag (s : State) (v : BitVec 64) :
    (s.withFval v).tag = s.tag := rfl

@[simp] theorem withFval_inputs (s : State) (v : BitVec 64) :
    (s.withFval v).inputs = s.inputs := rfl

@[simp] theorem withFval_readData (s : State) (v : BitVec 64) :
    (s.withFval v).readData = s.readData := rfl

@[simp] theorem withFval_freeReads (s : State) (v : BitVec 64) :
    (s.withFval v).freeReads = s.freeReads := rfl

/-! `withRecon` (R42). -/

@[simp] theorem withRecon_eqPolicy (s : State) (v : Word) :
    (s.withRecon v).eqPolicy = s.eqPolicy := rfl

@[simp] theorem withRecon_irqEn (s : State) (v : Word) :
    (s.withRecon v).irqEn = s.irqEn := rfl

@[simp] theorem withRecon_err (s : State) (v : Word) :
    (s.withRecon v).err = s.err := rfl

@[simp] theorem withRecon_done (s : State) (v : Word) :
    (s.withRecon v).done = s.done := rfl

@[simp] theorem withRecon_busErr (s : State) (v : Word) :
    (s.withRecon v).busErr = s.busErr := rfl

@[simp] theorem withRecon_ovr (s : State) (v : Word) :
    (s.withRecon v).ovr = s.ovr := rfl

@[simp] theorem withRecon_res0 (s : State) (v : Word) :
    (s.withRecon v).res0 = s.res0 := rfl

@[simp] theorem withRecon_res1 (s : State) (v : Word) :
    (s.withRecon v).res1 = s.res1 := rfl

@[simp] theorem withRecon_crc16 (s : State) (v : Word) :
    (s.withRecon v).crc16 = s.crc16 := rfl

@[simp] theorem withRecon_crc48 (s : State) (v : Word) :
    (s.withRecon v).crc48 = s.crc48 := rfl

@[simp] theorem withRecon_recon (s : State) (v : Word) :
    (s.withRecon v).recon = v := rfl

@[simp] theorem withRecon_fval (s : State) (v : Word) :
    (s.withRecon v).fval = s.fval := rfl

@[simp] theorem withRecon_seq (s : State) (v : Word) :
    (s.withRecon v).seq = s.seq := rfl

@[simp] theorem withRecon_xstat (s : State) (v : Word) :
    (s.withRecon v).xstat = s.xstat := rfl

@[simp] theorem withRecon_mem (s : State) (v : Word) :
    (s.withRecon v).mem = s.mem := rfl

@[simp] theorem withRecon_phase (s : State) (v : Word) :
    (s.withRecon v).phase = s.phase := rfl

@[simp] theorem withRecon_tag (s : State) (v : Word) :
    (s.withRecon v).tag = s.tag := rfl

@[simp] theorem withRecon_inputs (s : State) (v : Word) :
    (s.withRecon v).inputs = s.inputs := rfl

@[simp] theorem withRecon_readData (s : State) (v : Word) :
    (s.withRecon v).readData = s.readData := rfl

@[simp] theorem withRecon_freeReads (s : State) (v : Word) :
    (s.withRecon v).freeReads = s.freeReads := rfl

/-! `withSeq` (R44). -/

@[simp] theorem withSeq_eqPolicy (s : State) (v : Word) :
    (s.withSeq v).eqPolicy = s.eqPolicy := rfl

@[simp] theorem withSeq_irqEn (s : State) (v : Word) :
    (s.withSeq v).irqEn = s.irqEn := rfl

@[simp] theorem withSeq_err (s : State) (v : Word) :
    (s.withSeq v).err = s.err := rfl

@[simp] theorem withSeq_done (s : State) (v : Word) :
    (s.withSeq v).done = s.done := rfl

@[simp] theorem withSeq_busErr (s : State) (v : Word) :
    (s.withSeq v).busErr = s.busErr := rfl

@[simp] theorem withSeq_ovr (s : State) (v : Word) :
    (s.withSeq v).ovr = s.ovr := rfl

@[simp] theorem withSeq_res0 (s : State) (v : Word) :
    (s.withSeq v).res0 = s.res0 := rfl

@[simp] theorem withSeq_res1 (s : State) (v : Word) :
    (s.withSeq v).res1 = s.res1 := rfl

@[simp] theorem withSeq_crc16 (s : State) (v : Word) :
    (s.withSeq v).crc16 = s.crc16 := rfl

@[simp] theorem withSeq_crc48 (s : State) (v : Word) :
    (s.withSeq v).crc48 = s.crc48 := rfl

@[simp] theorem withSeq_recon (s : State) (v : Word) :
    (s.withSeq v).recon = s.recon := rfl

@[simp] theorem withSeq_fval (s : State) (v : Word) :
    (s.withSeq v).fval = s.fval := rfl

@[simp] theorem withSeq_seq (s : State) (v : Word) :
    (s.withSeq v).seq = v := rfl

@[simp] theorem withSeq_xstat (s : State) (v : Word) :
    (s.withSeq v).xstat = s.xstat := rfl

@[simp] theorem withSeq_mem (s : State) (v : Word) :
    (s.withSeq v).mem = s.mem := rfl

@[simp] theorem withSeq_phase (s : State) (v : Word) :
    (s.withSeq v).phase = s.phase := rfl

@[simp] theorem withSeq_tag (s : State) (v : Word) :
    (s.withSeq v).tag = s.tag := rfl

@[simp] theorem withSeq_inputs (s : State) (v : Word) :
    (s.withSeq v).inputs = s.inputs := rfl

@[simp] theorem withSeq_readData (s : State) (v : Word) :
    (s.withSeq v).readData = s.readData := rfl

@[simp] theorem withSeq_freeReads (s : State) (v : Word) :
    (s.withSeq v).freeReads = s.freeReads := rfl

/-! `withXstat` (R45). -/

@[simp] theorem withXstat_eqPolicy (s : State) (v : Word) :
    (s.withXstat v).eqPolicy = s.eqPolicy := rfl

@[simp] theorem withXstat_irqEn (s : State) (v : Word) :
    (s.withXstat v).irqEn = s.irqEn := rfl

@[simp] theorem withXstat_err (s : State) (v : Word) :
    (s.withXstat v).err = s.err := rfl

@[simp] theorem withXstat_done (s : State) (v : Word) :
    (s.withXstat v).done = s.done := rfl

@[simp] theorem withXstat_busErr (s : State) (v : Word) :
    (s.withXstat v).busErr = s.busErr := rfl

@[simp] theorem withXstat_ovr (s : State) (v : Word) :
    (s.withXstat v).ovr = s.ovr := rfl

@[simp] theorem withXstat_res0 (s : State) (v : Word) :
    (s.withXstat v).res0 = s.res0 := rfl

@[simp] theorem withXstat_res1 (s : State) (v : Word) :
    (s.withXstat v).res1 = s.res1 := rfl

@[simp] theorem withXstat_crc16 (s : State) (v : Word) :
    (s.withXstat v).crc16 = s.crc16 := rfl

@[simp] theorem withXstat_crc48 (s : State) (v : Word) :
    (s.withXstat v).crc48 = s.crc48 := rfl

@[simp] theorem withXstat_recon (s : State) (v : Word) :
    (s.withXstat v).recon = s.recon := rfl

@[simp] theorem withXstat_fval (s : State) (v : Word) :
    (s.withXstat v).fval = s.fval := rfl

@[simp] theorem withXstat_seq (s : State) (v : Word) :
    (s.withXstat v).seq = s.seq := rfl

@[simp] theorem withXstat_xstat (s : State) (v : Word) :
    (s.withXstat v).xstat = v := rfl

@[simp] theorem withXstat_mem (s : State) (v : Word) :
    (s.withXstat v).mem = s.mem := rfl

@[simp] theorem withXstat_phase (s : State) (v : Word) :
    (s.withXstat v).phase = s.phase := rfl

@[simp] theorem withXstat_tag (s : State) (v : Word) :
    (s.withXstat v).tag = s.tag := rfl

@[simp] theorem withXstat_inputs (s : State) (v : Word) :
    (s.withXstat v).inputs = s.inputs := rfl

@[simp] theorem withXstat_readData (s : State) (v : Word) :
    (s.withXstat v).readData = s.readData := rfl

@[simp] theorem withXstat_freeReads (s : State) (v : Word) :
    (s.withXstat v).freeReads = s.freeReads := rfl

/-! `withTag` (R53). -/

@[simp] theorem withTag_eqPolicy (s : State) (m : Memory) :
    (s.withTag m).eqPolicy = s.eqPolicy := rfl

@[simp] theorem withTag_irqEn (s : State) (m : Memory) :
    (s.withTag m).irqEn = s.irqEn := rfl

@[simp] theorem withTag_err (s : State) (m : Memory) :
    (s.withTag m).err = s.err := rfl

@[simp] theorem withTag_done (s : State) (m : Memory) :
    (s.withTag m).done = s.done := rfl

@[simp] theorem withTag_busErr (s : State) (m : Memory) :
    (s.withTag m).busErr = s.busErr := rfl

@[simp] theorem withTag_ovr (s : State) (m : Memory) :
    (s.withTag m).ovr = s.ovr := rfl

@[simp] theorem withTag_res0 (s : State) (m : Memory) :
    (s.withTag m).res0 = s.res0 := rfl

@[simp] theorem withTag_res1 (s : State) (m : Memory) :
    (s.withTag m).res1 = s.res1 := rfl

@[simp] theorem withTag_crc16 (s : State) (m : Memory) :
    (s.withTag m).crc16 = s.crc16 := rfl

@[simp] theorem withTag_crc48 (s : State) (m : Memory) :
    (s.withTag m).crc48 = s.crc48 := rfl

@[simp] theorem withTag_recon (s : State) (m : Memory) :
    (s.withTag m).recon = s.recon := rfl

@[simp] theorem withTag_fval (s : State) (m : Memory) :
    (s.withTag m).fval = s.fval := rfl

@[simp] theorem withTag_seq (s : State) (m : Memory) :
    (s.withTag m).seq = s.seq := rfl

@[simp] theorem withTag_xstat (s : State) (m : Memory) :
    (s.withTag m).xstat = s.xstat := rfl

@[simp] theorem withTag_mem (s : State) (m : Memory) :
    (s.withTag m).mem = s.mem := rfl

@[simp] theorem withTag_phase (s : State) (m : Memory) :
    (s.withTag m).phase = s.phase := rfl

@[simp] theorem withTag_tag (s : State) (m : Memory) :
    (s.withTag m).tag = m := rfl

@[simp] theorem withTag_inputs (s : State) (m : Memory) :
    (s.withTag m).inputs = s.inputs := rfl

@[simp] theorem withTag_readData (s : State) (m : Memory) :
    (s.withTag m).readData = s.readData := rfl

@[simp] theorem withTag_freeReads (s : State) (m : Memory) :
    (s.withTag m).freeReads = s.freeReads := rfl

/-! `foldCrc16` (R151). -/

@[simp] theorem foldCrc16_eqPolicy (s : State) (bs : List Byte) :
    (s.foldCrc16 bs).eqPolicy = s.eqPolicy := rfl

@[simp] theorem foldCrc16_irqEn (s : State) (bs : List Byte) :
    (s.foldCrc16 bs).irqEn = s.irqEn := rfl

@[simp] theorem foldCrc16_err (s : State) (bs : List Byte) :
    (s.foldCrc16 bs).err = s.err := rfl

@[simp] theorem foldCrc16_done (s : State) (bs : List Byte) :
    (s.foldCrc16 bs).done = s.done := rfl

@[simp] theorem foldCrc16_busErr (s : State) (bs : List Byte) :
    (s.foldCrc16 bs).busErr = s.busErr := rfl

@[simp] theorem foldCrc16_ovr (s : State) (bs : List Byte) :
    (s.foldCrc16 bs).ovr = s.ovr := rfl

@[simp] theorem foldCrc16_res0 (s : State) (bs : List Byte) :
    (s.foldCrc16 bs).res0 = s.res0 := rfl

@[simp] theorem foldCrc16_res1 (s : State) (bs : List Byte) :
    (s.foldCrc16 bs).res1 = s.res1 := rfl

@[simp] theorem foldCrc16_crc16 (s : State) (bs : List Byte) :
    (s.foldCrc16 bs).crc16 = crc16From s.crc16 bs := rfl

@[simp] theorem foldCrc16_crc48 (s : State) (bs : List Byte) :
    (s.foldCrc16 bs).crc48 = s.crc48 := rfl

@[simp] theorem foldCrc16_recon (s : State) (bs : List Byte) :
    (s.foldCrc16 bs).recon = s.recon := rfl

@[simp] theorem foldCrc16_fval (s : State) (bs : List Byte) :
    (s.foldCrc16 bs).fval = s.fval := rfl

@[simp] theorem foldCrc16_seq (s : State) (bs : List Byte) :
    (s.foldCrc16 bs).seq = s.seq := rfl

@[simp] theorem foldCrc16_xstat (s : State) (bs : List Byte) :
    (s.foldCrc16 bs).xstat = s.xstat := rfl

@[simp] theorem foldCrc16_mem (s : State) (bs : List Byte) :
    (s.foldCrc16 bs).mem = s.mem := rfl

@[simp] theorem foldCrc16_phase (s : State) (bs : List Byte) :
    (s.foldCrc16 bs).phase = s.phase := rfl

@[simp] theorem foldCrc16_tag (s : State) (bs : List Byte) :
    (s.foldCrc16 bs).tag = s.tag := rfl

@[simp] theorem foldCrc16_inputs (s : State) (bs : List Byte) :
    (s.foldCrc16 bs).inputs = s.inputs := rfl

@[simp] theorem foldCrc16_readData (s : State) (bs : List Byte) :
    (s.foldCrc16 bs).readData = s.readData := rfl

@[simp] theorem foldCrc16_freeReads (s : State) (bs : List Byte) :
    (s.foldCrc16 bs).freeReads = s.freeReads := rfl

/-! `foldCrc48` (R153). -/

@[simp] theorem foldCrc48_eqPolicy (s : State) (bs : List Byte) :
    (s.foldCrc48 bs).eqPolicy = s.eqPolicy := rfl

@[simp] theorem foldCrc48_irqEn (s : State) (bs : List Byte) :
    (s.foldCrc48 bs).irqEn = s.irqEn := rfl

@[simp] theorem foldCrc48_err (s : State) (bs : List Byte) :
    (s.foldCrc48 bs).err = s.err := rfl

@[simp] theorem foldCrc48_done (s : State) (bs : List Byte) :
    (s.foldCrc48 bs).done = s.done := rfl

@[simp] theorem foldCrc48_busErr (s : State) (bs : List Byte) :
    (s.foldCrc48 bs).busErr = s.busErr := rfl

@[simp] theorem foldCrc48_ovr (s : State) (bs : List Byte) :
    (s.foldCrc48 bs).ovr = s.ovr := rfl

@[simp] theorem foldCrc48_res0 (s : State) (bs : List Byte) :
    (s.foldCrc48 bs).res0 = s.res0 := rfl

@[simp] theorem foldCrc48_res1 (s : State) (bs : List Byte) :
    (s.foldCrc48 bs).res1 = s.res1 := rfl

@[simp] theorem foldCrc48_crc16 (s : State) (bs : List Byte) :
    (s.foldCrc48 bs).crc16 = s.crc16 := rfl

@[simp] theorem foldCrc48_crc48 (s : State) (bs : List Byte) :
    (s.foldCrc48 bs).crc48 = crc48From s.crc48 bs := rfl

@[simp] theorem foldCrc48_recon (s : State) (bs : List Byte) :
    (s.foldCrc48 bs).recon = s.recon := rfl

@[simp] theorem foldCrc48_fval (s : State) (bs : List Byte) :
    (s.foldCrc48 bs).fval = s.fval := rfl

@[simp] theorem foldCrc48_seq (s : State) (bs : List Byte) :
    (s.foldCrc48 bs).seq = s.seq := rfl

@[simp] theorem foldCrc48_xstat (s : State) (bs : List Byte) :
    (s.foldCrc48 bs).xstat = s.xstat := rfl

@[simp] theorem foldCrc48_mem (s : State) (bs : List Byte) :
    (s.foldCrc48 bs).mem = s.mem := rfl

@[simp] theorem foldCrc48_phase (s : State) (bs : List Byte) :
    (s.foldCrc48 bs).phase = s.phase := rfl

@[simp] theorem foldCrc48_tag (s : State) (bs : List Byte) :
    (s.foldCrc48 bs).tag = s.tag := rfl

@[simp] theorem foldCrc48_inputs (s : State) (bs : List Byte) :
    (s.foldCrc48 bs).inputs = s.inputs := rfl

@[simp] theorem foldCrc48_readData (s : State) (bs : List Byte) :
    (s.foldCrc48 bs).readData = s.readData := rfl

@[simp] theorem foldCrc48_freeReads (s : State) (bs : List Byte) :
    (s.foldCrc48 bs).freeReads = s.freeReads := rfl

/-! `orRes0` (R286). -/

@[simp] theorem orRes0_eqPolicy (s : State) (v : Word) :
    (s.orRes0 v).eqPolicy = s.eqPolicy := rfl

@[simp] theorem orRes0_irqEn (s : State) (v : Word) :
    (s.orRes0 v).irqEn = s.irqEn := rfl

@[simp] theorem orRes0_err (s : State) (v : Word) :
    (s.orRes0 v).err = s.err := rfl

@[simp] theorem orRes0_done (s : State) (v : Word) :
    (s.orRes0 v).done = s.done := rfl

@[simp] theorem orRes0_busErr (s : State) (v : Word) :
    (s.orRes0 v).busErr = s.busErr := rfl

@[simp] theorem orRes0_ovr (s : State) (v : Word) :
    (s.orRes0 v).ovr = s.ovr := rfl

@[simp] theorem orRes0_res0 (s : State) (v : Word) :
    (s.orRes0 v).res0 = s.res0 ||| v := rfl

@[simp] theorem orRes0_res1 (s : State) (v : Word) :
    (s.orRes0 v).res1 = s.res1 := rfl

@[simp] theorem orRes0_crc16 (s : State) (v : Word) :
    (s.orRes0 v).crc16 = s.crc16 := rfl

@[simp] theorem orRes0_crc48 (s : State) (v : Word) :
    (s.orRes0 v).crc48 = s.crc48 := rfl

@[simp] theorem orRes0_recon (s : State) (v : Word) :
    (s.orRes0 v).recon = s.recon := rfl

@[simp] theorem orRes0_fval (s : State) (v : Word) :
    (s.orRes0 v).fval = s.fval := rfl

@[simp] theorem orRes0_seq (s : State) (v : Word) :
    (s.orRes0 v).seq = s.seq := rfl

@[simp] theorem orRes0_xstat (s : State) (v : Word) :
    (s.orRes0 v).xstat = s.xstat := rfl

@[simp] theorem orRes0_mem (s : State) (v : Word) :
    (s.orRes0 v).mem = s.mem := rfl

@[simp] theorem orRes0_phase (s : State) (v : Word) :
    (s.orRes0 v).phase = s.phase := rfl

@[simp] theorem orRes0_tag (s : State) (v : Word) :
    (s.orRes0 v).tag = s.tag := rfl

@[simp] theorem orRes0_inputs (s : State) (v : Word) :
    (s.orRes0 v).inputs = s.inputs := rfl

@[simp] theorem orRes0_readData (s : State) (v : Word) :
    (s.orRes0 v).readData = s.readData := rfl

@[simp] theorem orRes0_freeReads (s : State) (v : Word) :
    (s.orRes0 v).freeReads = s.freeReads := rfl

/-! `writeStatus` (R34). -/

@[simp] theorem writeStatus_eqPolicy (s : State) (w : Word) :
    (s.writeStatus w).eqPolicy = s.eqPolicy := rfl

@[simp] theorem writeStatus_irqEn (s : State) (w : Word) :
    (s.writeStatus w).irqEn = s.irqEn := rfl

@[simp] theorem writeStatus_err (s : State) (w : Word) :
    (s.writeStatus w).err = s.err := rfl

@[simp] theorem writeStatus_done (s : State) (w : Word) :
    (s.writeStatus w).done = (s.done && !w.getLsbD 9) := rfl

@[simp] theorem writeStatus_busErr (s : State) (w : Word) :
    (s.writeStatus w).busErr = (s.busErr && !w.getLsbD 10) := rfl

@[simp] theorem writeStatus_ovr (s : State) (w : Word) :
    (s.writeStatus w).ovr = (s.ovr && !w.getLsbD 11) := rfl

@[simp] theorem writeStatus_res0 (s : State) (w : Word) :
    (s.writeStatus w).res0 = s.res0 := rfl

@[simp] theorem writeStatus_res1 (s : State) (w : Word) :
    (s.writeStatus w).res1 = s.res1 := rfl

@[simp] theorem writeStatus_crc16 (s : State) (w : Word) :
    (s.writeStatus w).crc16 = s.crc16 := rfl

@[simp] theorem writeStatus_crc48 (s : State) (w : Word) :
    (s.writeStatus w).crc48 = s.crc48 := rfl

@[simp] theorem writeStatus_recon (s : State) (w : Word) :
    (s.writeStatus w).recon = s.recon := rfl

@[simp] theorem writeStatus_fval (s : State) (w : Word) :
    (s.writeStatus w).fval = s.fval := rfl

@[simp] theorem writeStatus_seq (s : State) (w : Word) :
    (s.writeStatus w).seq = s.seq := rfl

@[simp] theorem writeStatus_xstat (s : State) (w : Word) :
    (s.writeStatus w).xstat = s.xstat := rfl

@[simp] theorem writeStatus_mem (s : State) (w : Word) :
    (s.writeStatus w).mem = s.mem := rfl

@[simp] theorem writeStatus_phase (s : State) (w : Word) :
    (s.writeStatus w).phase = s.phase := rfl

@[simp] theorem writeStatus_tag (s : State) (w : Word) :
    (s.writeStatus w).tag = s.tag := rfl

@[simp] theorem writeStatus_inputs (s : State) (w : Word) :
    (s.writeStatus w).inputs = s.inputs := rfl

@[simp] theorem writeStatus_readData (s : State) (w : Word) :
    (s.writeStatus w).readData = s.readData := rfl

@[simp] theorem writeStatus_freeReads (s : State) (w : Word) :
    (s.writeStatus w).freeReads = s.freeReads := rfl

/-! `resetEvent` (R370). -/

@[simp] theorem resetEvent_eqPolicy (s : State) :
    (resetEvent s).eqPolicy = State.reset.eqPolicy := rfl

@[simp] theorem resetEvent_irqEn (s : State) :
    (resetEvent s).irqEn = State.reset.irqEn := rfl

@[simp] theorem resetEvent_err (s : State) :
    (resetEvent s).err = State.reset.err := rfl

@[simp] theorem resetEvent_done (s : State) :
    (resetEvent s).done = State.reset.done := rfl

@[simp] theorem resetEvent_busErr (s : State) :
    (resetEvent s).busErr = State.reset.busErr := rfl

@[simp] theorem resetEvent_ovr (s : State) :
    (resetEvent s).ovr = State.reset.ovr := rfl

@[simp] theorem resetEvent_res0 (s : State) :
    (resetEvent s).res0 = State.reset.res0 := rfl

@[simp] theorem resetEvent_res1 (s : State) :
    (resetEvent s).res1 = State.reset.res1 := rfl

@[simp] theorem resetEvent_crc16 (s : State) :
    (resetEvent s).crc16 = State.reset.crc16 := rfl

@[simp] theorem resetEvent_crc48 (s : State) :
    (resetEvent s).crc48 = State.reset.crc48 := rfl

@[simp] theorem resetEvent_recon (s : State) :
    (resetEvent s).recon = State.reset.recon := rfl

@[simp] theorem resetEvent_fval (s : State) :
    (resetEvent s).fval = State.reset.fval := rfl

@[simp] theorem resetEvent_seq (s : State) :
    (resetEvent s).seq = State.reset.seq := rfl

@[simp] theorem resetEvent_xstat (s : State) :
    (resetEvent s).xstat = State.reset.xstat := rfl

@[simp] theorem resetEvent_mem (s : State) :
    (resetEvent s).mem = State.reset.mem := rfl

@[simp] theorem resetEvent_phase (s : State) :
    (resetEvent s).phase = State.reset.phase := rfl

@[simp] theorem resetEvent_tag (s : State) :
    (resetEvent s).tag = s.tag := rfl

@[simp] theorem resetEvent_inputs (s : State) :
    (resetEvent s).inputs = s.inputs := rfl

@[simp] theorem resetEvent_readData (s : State) :
    (resetEvent s).readData = s.readData := rfl

@[simp] theorem resetEvent_freeReads (s : State) :
    (resetEvent s).freeReads = s.freeReads := rfl

/-! `sealHdr`. -/

@[simp] theorem sealHdr_eqPolicy (s : State) :
    (s.sealHdr).eqPolicy = s.eqPolicy := by simp [State.sealHdr]

@[simp] theorem sealHdr_irqEn (s : State) :
    (s.sealHdr).irqEn = s.irqEn := by simp [State.sealHdr]

@[simp] theorem sealHdr_err (s : State) :
    (s.sealHdr).err = s.err := by simp [State.sealHdr]

@[simp] theorem sealHdr_done (s : State) :
    (s.sealHdr).done = s.done := by simp [State.sealHdr]

@[simp] theorem sealHdr_busErr (s : State) :
    (s.sealHdr).busErr = s.busErr := by simp [State.sealHdr]

@[simp] theorem sealHdr_ovr (s : State) :
    (s.sealHdr).ovr = s.ovr := by simp [State.sealHdr]

@[simp] theorem sealHdr_res0 (s : State) :
    (s.sealHdr).res0 = s.res0 := by simp [State.sealHdr]

@[simp] theorem sealHdr_res1 (s : State) :
    (s.sealHdr).res1 = s.res1 := by simp [State.sealHdr]

@[simp] theorem sealHdr_crc16 (s : State) :
    (s.sealHdr).crc16 = s.crc16 := by simp [State.sealHdr]

@[simp] theorem sealHdr_crc48 (s : State) :
    (s.sealHdr).crc48 = s.crc48 := by simp [State.sealHdr]

@[simp] theorem sealHdr_recon (s : State) :
    (s.sealHdr).recon = s.recon := by simp [State.sealHdr]

@[simp] theorem sealHdr_fval (s : State) :
    (s.sealHdr).fval = s.fval := by simp [State.sealHdr]

@[simp] theorem sealHdr_seq (s : State) :
    (s.sealHdr).seq = s.seq := by simp [State.sealHdr]

@[simp] theorem sealHdr_xstat (s : State) :
    (s.sealHdr).xstat = s.xstat := by simp [State.sealHdr]

@[simp] theorem sealHdr_phase (s : State) :
    (s.sealHdr).phase = s.phase := by simp [State.sealHdr]

@[simp] theorem sealHdr_tag (s : State) :
    (s.sealHdr).tag = s.tag := by simp [State.sealHdr]

@[simp] theorem sealHdr_inputs (s : State) :
    (s.sealHdr).inputs = s.inputs := by simp [State.sealHdr]

@[simp] theorem sealHdr_readData (s : State) :
    (s.sealHdr).readData = s.readData := by simp [State.sealHdr]

@[simp] theorem sealHdr_freeReads (s : State) :
    (s.sealHdr).freeReads = s.freeReads := by simp [State.sealHdr]

/-! `sealP1`. -/

@[simp] theorem sealP1_eqPolicy (s : State) :
    (s.sealP1).eqPolicy = s.eqPolicy := by simp [State.sealP1]

@[simp] theorem sealP1_irqEn (s : State) :
    (s.sealP1).irqEn = s.irqEn := by simp [State.sealP1]

@[simp] theorem sealP1_err (s : State) :
    (s.sealP1).err = s.err := by simp [State.sealP1]

@[simp] theorem sealP1_done (s : State) :
    (s.sealP1).done = s.done := by simp [State.sealP1]

@[simp] theorem sealP1_busErr (s : State) :
    (s.sealP1).busErr = s.busErr := by simp [State.sealP1]

@[simp] theorem sealP1_ovr (s : State) :
    (s.sealP1).ovr = s.ovr := by simp [State.sealP1]

@[simp] theorem sealP1_res0 (s : State) :
    (s.sealP1).res0 = s.res0 := by simp [State.sealP1]

@[simp] theorem sealP1_res1 (s : State) :
    (s.sealP1).res1 = s.res1 := by simp [State.sealP1]

@[simp] theorem sealP1_crc16 (s : State) :
    (s.sealP1).crc16 = s.crc16 := by simp [State.sealP1]

@[simp] theorem sealP1_crc48 (s : State) :
    (s.sealP1).crc48 = s.crc48 := by simp [State.sealP1]

@[simp] theorem sealP1_recon (s : State) :
    (s.sealP1).recon = s.recon := by simp [State.sealP1]

@[simp] theorem sealP1_fval (s : State) :
    (s.sealP1).fval = s.fval := by simp [State.sealP1]

@[simp] theorem sealP1_seq (s : State) :
    (s.sealP1).seq = s.seq := by simp [State.sealP1]

@[simp] theorem sealP1_xstat (s : State) :
    (s.sealP1).xstat = s.xstat := by simp [State.sealP1]

@[simp] theorem sealP1_phase (s : State) :
    (s.sealP1).phase = s.phase := by simp [State.sealP1]

@[simp] theorem sealP1_tag (s : State) :
    (s.sealP1).tag = s.tag := by simp [State.sealP1]

@[simp] theorem sealP1_inputs (s : State) :
    (s.sealP1).inputs = s.inputs := by simp [State.sealP1]

@[simp] theorem sealP1_readData (s : State) :
    (s.sealP1).readData = s.readData := by simp [State.sealP1]

@[simp] theorem sealP1_freeReads (s : State) :
    (s.sealP1).freeReads = s.freeReads := by simp [State.sealP1]

/-! `sealP2`. -/

@[simp] theorem sealP2_eqPolicy (s : State) :
    (s.sealP2).eqPolicy = s.eqPolicy := by simp [State.sealP2]

@[simp] theorem sealP2_irqEn (s : State) :
    (s.sealP2).irqEn = s.irqEn := by simp [State.sealP2]

@[simp] theorem sealP2_err (s : State) :
    (s.sealP2).err = s.err := by simp [State.sealP2]

@[simp] theorem sealP2_done (s : State) :
    (s.sealP2).done = s.done := by simp [State.sealP2]

@[simp] theorem sealP2_busErr (s : State) :
    (s.sealP2).busErr = s.busErr := by simp [State.sealP2]

@[simp] theorem sealP2_ovr (s : State) :
    (s.sealP2).ovr = s.ovr := by simp [State.sealP2]

@[simp] theorem sealP2_res0 (s : State) :
    (s.sealP2).res0 = s.res0 := by simp [State.sealP2]

@[simp] theorem sealP2_res1 (s : State) :
    (s.sealP2).res1 = s.res1 := by simp [State.sealP2]

@[simp] theorem sealP2_crc16 (s : State) :
    (s.sealP2).crc16 = s.crc16 := by simp [State.sealP2]

@[simp] theorem sealP2_crc48 (s : State) :
    (s.sealP2).crc48 = s.crc48 := by simp [State.sealP2]

@[simp] theorem sealP2_recon (s : State) :
    (s.sealP2).recon = s.recon := by simp [State.sealP2]

@[simp] theorem sealP2_fval (s : State) :
    (s.sealP2).fval = s.fval := by simp [State.sealP2]

@[simp] theorem sealP2_seq (s : State) :
    (s.sealP2).seq = s.seq := by simp [State.sealP2]

@[simp] theorem sealP2_xstat (s : State) :
    (s.sealP2).xstat = s.xstat := by simp [State.sealP2]

@[simp] theorem sealP2_phase (s : State) :
    (s.sealP2).phase = s.phase := by simp [State.sealP2]

@[simp] theorem sealP2_tag (s : State) :
    (s.sealP2).tag = s.tag := by simp [State.sealP2]

@[simp] theorem sealP2_inputs (s : State) :
    (s.sealP2).inputs = s.inputs := by simp [State.sealP2]

@[simp] theorem sealP2_readData (s : State) :
    (s.sealP2).readData = s.readData := by simp [State.sealP2]

@[simp] theorem sealP2_freeReads (s : State) :
    (s.sealP2).freeReads = s.freeReads := by simp [State.sealP2]

/-! `sealP1With`. -/

@[simp] theorem sealP1With_eqPolicy (s : State) (n : Byte) :
    (s.sealP1With n).eqPolicy = s.eqPolicy := by simp [State.sealP1With]

@[simp] theorem sealP1With_irqEn (s : State) (n : Byte) :
    (s.sealP1With n).irqEn = s.irqEn := by simp [State.sealP1With]

@[simp] theorem sealP1With_err (s : State) (n : Byte) :
    (s.sealP1With n).err = s.err := by simp [State.sealP1With]

@[simp] theorem sealP1With_done (s : State) (n : Byte) :
    (s.sealP1With n).done = s.done := by simp [State.sealP1With]

@[simp] theorem sealP1With_busErr (s : State) (n : Byte) :
    (s.sealP1With n).busErr = s.busErr := by simp [State.sealP1With]

@[simp] theorem sealP1With_ovr (s : State) (n : Byte) :
    (s.sealP1With n).ovr = s.ovr := by simp [State.sealP1With]

@[simp] theorem sealP1With_res0 (s : State) (n : Byte) :
    (s.sealP1With n).res0 = s.res0 := by simp [State.sealP1With]

@[simp] theorem sealP1With_res1 (s : State) (n : Byte) :
    (s.sealP1With n).res1 = s.res1 := by simp [State.sealP1With]

@[simp] theorem sealP1With_crc16 (s : State) (n : Byte) :
    (s.sealP1With n).crc16 = s.crc16 := by simp [State.sealP1With]

@[simp] theorem sealP1With_crc48 (s : State) (n : Byte) :
    (s.sealP1With n).crc48 = s.crc48 := by simp [State.sealP1With]

@[simp] theorem sealP1With_recon (s : State) (n : Byte) :
    (s.sealP1With n).recon = s.recon := by simp [State.sealP1With]

@[simp] theorem sealP1With_fval (s : State) (n : Byte) :
    (s.sealP1With n).fval = s.fval := by simp [State.sealP1With]

@[simp] theorem sealP1With_seq (s : State) (n : Byte) :
    (s.sealP1With n).seq = s.seq := by simp [State.sealP1With]

@[simp] theorem sealP1With_xstat (s : State) (n : Byte) :
    (s.sealP1With n).xstat = s.xstat := by simp [State.sealP1With]

@[simp] theorem sealP1With_phase (s : State) (n : Byte) :
    (s.sealP1With n).phase = s.phase := by simp [State.sealP1With]

@[simp] theorem sealP1With_tag (s : State) (n : Byte) :
    (s.sealP1With n).tag = s.tag := by simp [State.sealP1With]

@[simp] theorem sealP1With_inputs (s : State) (n : Byte) :
    (s.sealP1With n).inputs = s.inputs := by simp [State.sealP1With]

@[simp] theorem sealP1With_readData (s : State) (n : Byte) :
    (s.sealP1With n).readData = s.readData := by simp [State.sealP1With]

@[simp] theorem sealP1With_freeReads (s : State) (n : Byte) :
    (s.sealP1With n).freeReads = s.freeReads := by simp [State.sealP1With]

/-! `sealP2With`. -/

@[simp] theorem sealP2With_eqPolicy (s : State) (n : Byte) :
    (s.sealP2With n).eqPolicy = s.eqPolicy := by simp [State.sealP2With]

@[simp] theorem sealP2With_irqEn (s : State) (n : Byte) :
    (s.sealP2With n).irqEn = s.irqEn := by simp [State.sealP2With]

@[simp] theorem sealP2With_err (s : State) (n : Byte) :
    (s.sealP2With n).err = s.err := by simp [State.sealP2With]

@[simp] theorem sealP2With_done (s : State) (n : Byte) :
    (s.sealP2With n).done = s.done := by simp [State.sealP2With]

@[simp] theorem sealP2With_busErr (s : State) (n : Byte) :
    (s.sealP2With n).busErr = s.busErr := by simp [State.sealP2With]

@[simp] theorem sealP2With_ovr (s : State) (n : Byte) :
    (s.sealP2With n).ovr = s.ovr := by simp [State.sealP2With]

@[simp] theorem sealP2With_res0 (s : State) (n : Byte) :
    (s.sealP2With n).res0 = s.res0 := by simp [State.sealP2With]

@[simp] theorem sealP2With_res1 (s : State) (n : Byte) :
    (s.sealP2With n).res1 = s.res1 := by simp [State.sealP2With]

@[simp] theorem sealP2With_crc16 (s : State) (n : Byte) :
    (s.sealP2With n).crc16 = s.crc16 := by simp [State.sealP2With]

@[simp] theorem sealP2With_crc48 (s : State) (n : Byte) :
    (s.sealP2With n).crc48 = s.crc48 := by simp [State.sealP2With]

@[simp] theorem sealP2With_recon (s : State) (n : Byte) :
    (s.sealP2With n).recon = s.recon := by simp [State.sealP2With]

@[simp] theorem sealP2With_fval (s : State) (n : Byte) :
    (s.sealP2With n).fval = s.fval := by simp [State.sealP2With]

@[simp] theorem sealP2With_seq (s : State) (n : Byte) :
    (s.sealP2With n).seq = s.seq := by simp [State.sealP2With]

@[simp] theorem sealP2With_xstat (s : State) (n : Byte) :
    (s.sealP2With n).xstat = s.xstat := by simp [State.sealP2With]

@[simp] theorem sealP2With_phase (s : State) (n : Byte) :
    (s.sealP2With n).phase = s.phase := by simp [State.sealP2With]

@[simp] theorem sealP2With_tag (s : State) (n : Byte) :
    (s.sealP2With n).tag = s.tag := by simp [State.sealP2With]

@[simp] theorem sealP2With_inputs (s : State) (n : Byte) :
    (s.sealP2With n).inputs = s.inputs := by simp [State.sealP2With]

@[simp] theorem sealP2With_readData (s : State) (n : Byte) :
    (s.sealP2With n).readData = s.readData := by simp [State.sealP2With]

@[simp] theorem sealP2With_freeReads (s : State) (n : Byte) :
    (s.sealP2With n).freeReads = s.freeReads := by simp [State.sealP2With]

/-! `loadRecord`. -/

@[simp] theorem loadRecord_eqPolicy (s : State) (x y : Choice) :
    (s.loadRecord x y).eqPolicy = s.eqPolicy := by simp [State.loadRecord]

@[simp] theorem loadRecord_irqEn (s : State) (x y : Choice) :
    (s.loadRecord x y).irqEn = s.irqEn := by simp [State.loadRecord]

@[simp] theorem loadRecord_err (s : State) (x y : Choice) :
    (s.loadRecord x y).err = s.err := by simp [State.loadRecord]

@[simp] theorem loadRecord_done (s : State) (x y : Choice) :
    (s.loadRecord x y).done = s.done := by simp [State.loadRecord]

@[simp] theorem loadRecord_busErr (s : State) (x y : Choice) :
    (s.loadRecord x y).busErr = s.busErr := by simp [State.loadRecord]

@[simp] theorem loadRecord_ovr (s : State) (x y : Choice) :
    (s.loadRecord x y).ovr = s.ovr := by simp [State.loadRecord]

@[simp] theorem loadRecord_res0 (s : State) (x y : Choice) :
    (s.loadRecord x y).res0 = s.res0 := by simp [State.loadRecord]

@[simp] theorem loadRecord_res1 (s : State) (x y : Choice) :
    (s.loadRecord x y).res1 = s.res1 := by simp [State.loadRecord]

@[simp] theorem loadRecord_crc16 (s : State) (x y : Choice) :
    (s.loadRecord x y).crc16 = s.crc16 := by simp [State.loadRecord]

@[simp] theorem loadRecord_crc48 (s : State) (x y : Choice) :
    (s.loadRecord x y).crc48 = s.crc48 := by simp [State.loadRecord]

@[simp] theorem loadRecord_recon (s : State) (x y : Choice) :
    (s.loadRecord x y).recon = s.recon := by simp [State.loadRecord]

@[simp] theorem loadRecord_fval (s : State) (x y : Choice) :
    (s.loadRecord x y).fval = s.fval := by simp [State.loadRecord]

@[simp] theorem loadRecord_seq (s : State) (x y : Choice) :
    (s.loadRecord x y).seq = s.seq := by simp [State.loadRecord]

@[simp] theorem loadRecord_xstat (s : State) (x y : Choice) :
    (s.loadRecord x y).xstat = s.xstat := by simp [State.loadRecord]

@[simp] theorem loadRecord_phase (s : State) (x y : Choice) :
    (s.loadRecord x y).phase = s.phase := by simp [State.loadRecord]

@[simp] theorem loadRecord_tag (s : State) (x y : Choice) :
    (s.loadRecord x y).tag = s.tag := by simp [State.loadRecord]

@[simp] theorem loadRecord_inputs (s : State) (x y : Choice) :
    (s.loadRecord x y).inputs = s.inputs := by simp [State.loadRecord]

@[simp] theorem loadRecord_readData (s : State) (x y : Choice) :
    (s.loadRecord x y).readData = s.readData := by simp [State.loadRecord]

@[simp] theorem loadRecord_freeReads (s : State) (x y : Choice) :
    (s.loadRecord x y).freeReads = s.freeReads := by simp [State.loadRecord]

/-! `sealRecord`. -/

@[simp] theorem sealRecord_eqPolicy (s : State) (p : Bool) (x y : Byte) :
    (s.sealRecord p x y).eqPolicy = s.eqPolicy := by
  simp only [State.sealRecord]; split <;> simp

@[simp] theorem sealRecord_irqEn (s : State) (p : Bool) (x y : Byte) :
    (s.sealRecord p x y).irqEn = s.irqEn := by
  simp only [State.sealRecord]; split <;> simp

@[simp] theorem sealRecord_err (s : State) (p : Bool) (x y : Byte) :
    (s.sealRecord p x y).err = s.err := by
  simp only [State.sealRecord]; split <;> simp

@[simp] theorem sealRecord_done (s : State) (p : Bool) (x y : Byte) :
    (s.sealRecord p x y).done = s.done := by
  simp only [State.sealRecord]; split <;> simp

@[simp] theorem sealRecord_busErr (s : State) (p : Bool) (x y : Byte) :
    (s.sealRecord p x y).busErr = s.busErr := by
  simp only [State.sealRecord]; split <;> simp

@[simp] theorem sealRecord_ovr (s : State) (p : Bool) (x y : Byte) :
    (s.sealRecord p x y).ovr = s.ovr := by
  simp only [State.sealRecord]; split <;> simp

@[simp] theorem sealRecord_res0 (s : State) (p : Bool) (x y : Byte) :
    (s.sealRecord p x y).res0 = s.res0 := by
  simp only [State.sealRecord]; split <;> simp

@[simp] theorem sealRecord_crc16 (s : State) (p : Bool) (x y : Byte) :
    (s.sealRecord p x y).crc16 = s.crc16 := by
  simp only [State.sealRecord]; split <;> simp

@[simp] theorem sealRecord_crc48 (s : State) (p : Bool) (x y : Byte) :
    (s.sealRecord p x y).crc48 = s.crc48 := by
  simp only [State.sealRecord]; split <;> simp

@[simp] theorem sealRecord_recon (s : State) (p : Bool) (x y : Byte) :
    (s.sealRecord p x y).recon = s.recon := by
  simp only [State.sealRecord]; split <;> simp

@[simp] theorem sealRecord_fval (s : State) (p : Bool) (x y : Byte) :
    (s.sealRecord p x y).fval = s.fval := by
  simp only [State.sealRecord]; split <;> simp

@[simp] theorem sealRecord_seq (s : State) (p : Bool) (x y : Byte) :
    (s.sealRecord p x y).seq = s.seq := by
  simp only [State.sealRecord]; split <;> simp

@[simp] theorem sealRecord_xstat (s : State) (p : Bool) (x y : Byte) :
    (s.sealRecord p x y).xstat = s.xstat := by
  simp only [State.sealRecord]; split <;> simp

@[simp] theorem sealRecord_phase (s : State) (p : Bool) (x y : Byte) :
    (s.sealRecord p x y).phase = s.phase := by
  simp only [State.sealRecord]; split <;> simp

@[simp] theorem sealRecord_tag (s : State) (p : Bool) (x y : Byte) :
    (s.sealRecord p x y).tag = s.tag := by
  simp only [State.sealRecord]; split <;> simp

@[simp] theorem sealRecord_inputs (s : State) (p : Bool) (x y : Byte) :
    (s.sealRecord p x y).inputs = s.inputs := by
  simp only [State.sealRecord]; split <;> simp

@[simp] theorem sealRecord_readData (s : State) (p : Bool) (x y : Byte) :
    (s.sealRecord p x y).readData = s.readData := by
  simp only [State.sealRecord]; split <;> simp

@[simp] theorem sealRecord_freeReads (s : State) (p : Bool) (x y : Byte) :
    (s.sealRecord p x y).freeReads = s.freeReads := by
  simp only [State.sealRecord]; split <;> simp

/-! `issue`. -/

@[simp] theorem issue_eqPolicy (w : Word) (n : Nat) (op : PortOp) (pos : Position) (s : State) :
    (issue w n op pos s).eqPolicy = s.eqPolicy := by
  simp only [issue]; split <;> rfl

@[simp] theorem issue_irqEn (w : Word) (n : Nat) (op : PortOp) (pos : Position) (s : State) :
    (issue w n op pos s).irqEn = s.irqEn := by
  simp only [issue]; split <;> rfl

@[simp] theorem issue_busErr (w : Word) (n : Nat) (op : PortOp) (pos : Position) (s : State) :
    (issue w n op pos s).busErr = s.busErr := by
  simp only [issue]; split <;> rfl

@[simp] theorem issue_ovr (w : Word) (n : Nat) (op : PortOp) (pos : Position) (s : State) :
    (issue w n op pos s).ovr = s.ovr := by
  simp only [issue]; split <;> rfl

@[simp] theorem issue_res0 (w : Word) (n : Nat) (op : PortOp) (pos : Position) (s : State) :
    (issue w n op pos s).res0 = s.res0 := by
  simp only [issue]; split <;> rfl

@[simp] theorem issue_res1 (w : Word) (n : Nat) (op : PortOp) (pos : Position) (s : State) :
    (issue w n op pos s).res1 = s.res1 := by
  simp only [issue]; split <;> rfl

@[simp] theorem issue_crc16 (w : Word) (n : Nat) (op : PortOp) (pos : Position) (s : State) :
    (issue w n op pos s).crc16 = s.crc16 := by
  simp only [issue]; split <;> rfl

@[simp] theorem issue_crc48 (w : Word) (n : Nat) (op : PortOp) (pos : Position) (s : State) :
    (issue w n op pos s).crc48 = s.crc48 := by
  simp only [issue]; split <;> rfl

@[simp] theorem issue_recon (w : Word) (n : Nat) (op : PortOp) (pos : Position) (s : State) :
    (issue w n op pos s).recon = s.recon := by
  simp only [issue]; split <;> rfl

@[simp] theorem issue_fval (w : Word) (n : Nat) (op : PortOp) (pos : Position) (s : State) :
    (issue w n op pos s).fval = s.fval := by
  simp only [issue]; split <;> rfl

@[simp] theorem issue_seq (w : Word) (n : Nat) (op : PortOp) (pos : Position) (s : State) :
    (issue w n op pos s).seq = s.seq := by
  simp only [issue]; split <;> rfl

@[simp] theorem issue_mem (w : Word) (n : Nat) (op : PortOp) (pos : Position) (s : State) :
    (issue w n op pos s).mem = s.mem := by
  simp only [issue]; split <;> rfl

@[simp] theorem issue_tag (w : Word) (n : Nat) (op : PortOp) (pos : Position) (s : State) :
    (issue w n op pos s).tag = s.tag := by
  simp only [issue]; split <;> rfl

@[simp] theorem issue_inputs (w : Word) (n : Nat) (op : PortOp) (pos : Position) (s : State) :
    (issue w n op pos s).inputs = s.inputs := by
  simp only [issue]; split <;> rfl

@[simp] theorem issue_readData (w : Word) (n : Nat) (op : PortOp) (pos : Position) (s : State) :
    (issue w n op pos s).readData = s.readData := by
  simp only [issue]; split <;> rfl

@[simp] theorem issue_freeReads (w : Word) (n : Nat) (op : PortOp) (pos : Position) (s : State) :
    (issue w n op pos s).freeReads = s.freeReads := by
  simp only [issue]; split <;> rfl

/-! `writeRecordBlock`. -/

@[simp] theorem writeRecordBlock_eqPolicy (w : Word) (r : Region) (i : Nat) (pos : Position) (s : State) :
    (writeRecordBlock w r i pos s).eqPolicy = s.eqPolicy := by simp [writeRecordBlock]

@[simp] theorem writeRecordBlock_irqEn (w : Word) (r : Region) (i : Nat) (pos : Position) (s : State) :
    (writeRecordBlock w r i pos s).irqEn = s.irqEn := by simp [writeRecordBlock]

@[simp] theorem writeRecordBlock_busErr (w : Word) (r : Region) (i : Nat) (pos : Position) (s : State) :
    (writeRecordBlock w r i pos s).busErr = s.busErr := by simp [writeRecordBlock]

@[simp] theorem writeRecordBlock_ovr (w : Word) (r : Region) (i : Nat) (pos : Position) (s : State) :
    (writeRecordBlock w r i pos s).ovr = s.ovr := by simp [writeRecordBlock]

@[simp] theorem writeRecordBlock_res0 (w : Word) (r : Region) (i : Nat) (pos : Position) (s : State) :
    (writeRecordBlock w r i pos s).res0 = s.res0 := by simp [writeRecordBlock]

@[simp] theorem writeRecordBlock_res1 (w : Word) (r : Region) (i : Nat) (pos : Position) (s : State) :
    (writeRecordBlock w r i pos s).res1 = s.res1 := by simp [writeRecordBlock]

@[simp] theorem writeRecordBlock_crc16 (w : Word) (r : Region) (i : Nat) (pos : Position) (s : State) :
    (writeRecordBlock w r i pos s).crc16 = s.crc16 := by simp [writeRecordBlock]

@[simp] theorem writeRecordBlock_crc48 (w : Word) (r : Region) (i : Nat) (pos : Position) (s : State) :
    (writeRecordBlock w r i pos s).crc48 = s.crc48 := by simp [writeRecordBlock]

@[simp] theorem writeRecordBlock_recon (w : Word) (r : Region) (i : Nat) (pos : Position) (s : State) :
    (writeRecordBlock w r i pos s).recon = s.recon := by simp [writeRecordBlock]

@[simp] theorem writeRecordBlock_fval (w : Word) (r : Region) (i : Nat) (pos : Position) (s : State) :
    (writeRecordBlock w r i pos s).fval = s.fval := by simp [writeRecordBlock]

@[simp] theorem writeRecordBlock_seq (w : Word) (r : Region) (i : Nat) (pos : Position) (s : State) :
    (writeRecordBlock w r i pos s).seq = s.seq := by simp [writeRecordBlock]

@[simp] theorem writeRecordBlock_mem (w : Word) (r : Region) (i : Nat) (pos : Position) (s : State) :
    (writeRecordBlock w r i pos s).mem = s.mem := by simp [writeRecordBlock]

@[simp] theorem writeRecordBlock_tag (w : Word) (r : Region) (i : Nat) (pos : Position) (s : State) :
    (writeRecordBlock w r i pos s).tag = s.tag := by simp [writeRecordBlock]

@[simp] theorem writeRecordBlock_inputs (w : Word) (r : Region) (i : Nat) (pos : Position) (s : State) :
    (writeRecordBlock w r i pos s).inputs = s.inputs := by simp [writeRecordBlock]

@[simp] theorem writeRecordBlock_readData (w : Word) (r : Region) (i : Nat) (pos : Position) (s : State) :
    (writeRecordBlock w r i pos s).readData = s.readData := by simp [writeRecordBlock]

@[simp] theorem writeRecordBlock_freeReads (w : Word) (r : Region) (i : Nat) (pos : Position) (s : State) :
    (writeRecordBlock w r i pos s).freeReads = s.freeReads := by simp [writeRecordBlock]

/-! BUSY. -/

/-- BUSY depends on the phase alone (R50). -/
theorem busy_congr {s t : State} (h : t.phase = s.phase) : t.busy = s.busy := by
  simp only [State.busy, h]

/-- BUSY is 0 exactly in the phase IDLE (R50). -/
theorem busy_eq_false {s : State} : s.busy = false ↔ s.phase = .idle := by
  cases hp : s.phase <;> simp [State.busy, hp]

end Sys2Proof.Machine
end

