-- ==== Sys2Proof/Laws/Exec.lean ====
section
/-! SUPPORT. What the local commands can do, said once for all of them. -/

namespace Sys2Proof.Machine

/-- s' is s but for the results a local command may write: RES0, RES1, the two CRC states, FVAL and the
buffers. -/
def OnlyResults (s s' : State) : Prop :=
  s' = { s with
    res0 := s'.res0, res1 := s'.res1, crc16 := s'.crc16, crc48 := s'.crc48, fval := s'.fval,
    mem := s'.mem }

theorem OnlyResults.refl (s : State) : OnlyResults s s := rfl

theorem OnlyResults.bufWrite {s s' : State} (h : OnlyResults s s') (b : Buffer) (o : Nat)
    (bs : List Byte) : OnlyResults s (s'.bufWrite b o bs) := by
  rw [h]; rfl

theorem OnlyResults.withRes0 {s s' : State} (h : OnlyResults s s') (x : Word) :
    OnlyResults s (s'.withRes0 x) := by
  rw [h]; rfl

theorem OnlyResults.withRes1 {s s' : State} (h : OnlyResults s s') (x : Word) :
    OnlyResults s (s'.withRes1 x) := by
  rw [h]; rfl

/-- Everything a local command can do: its results, then its completion (R52, R340). -/
theorem exec_local (i : Instr) (s : State) (hp : isPortCommand i = false)
    (hb : isBusOperation i = false) :
    ∃ c s', exec i s = .next (finish c s') ∧ OnlyResults s s' := by
  have keep : OnlyResults s s := rfl
  cases i
  case readRecord => cases hp
  case writeRecord => cases hp
  case crc16DataWrite => cases hb
  case crc48DataWrite => cases hb
  case crc16Run a l =>
    simp only [exec, execCrc16Run]; split
    · exact ⟨_, _, rfl, rfl⟩
    · exact ⟨_, _, rfl, keep⟩
  case crc48Run a l =>
    simp only [exec, execCrc48Run]; split
    · exact ⟨_, _, rfl, rfl⟩
    · exact ⟨_, _, rfl, keep⟩
  case sectorKey n =>
    simp only [exec, execSectorKey]; split
    · exact ⟨_, _, rfl, ((keep.bufWrite _ _ _).withRes0 _).withRes1 _⟩
    · exact ⟨_, _, rfl, keep⟩
  case blockKey n =>
    simp only [exec, execBlockKey]; split
    · exact ⟨_, _, rfl, keep.bufWrite _ _ _⟩
    · exact ⟨_, _, rfl, keep⟩
  case blkEnc n =>
    simp only [exec, execBlkEnc, cipherStep]; split
    · exact ⟨_, _, rfl, (keep.bufWrite _ _ _).bufWrite _ _ _⟩
    · exact ⟨_, _, rfl, keep⟩
  case blkDec n =>
    simp only [exec, execBlkDec, cipherStep]; split
    · exact ⟨_, _, rfl, (keep.bufWrite _ _ _).bufWrite _ _ _⟩
    · exact ⟨_, _, rfl, keep⟩
  case fieldGet f b =>
    simp only [exec, execFieldGet]; split
    · exact ⟨_, _, rfl, keep⟩
    · exact ⟨_, _, rfl, rfl⟩
  case fieldPut f b =>
    simp only [exec, execFieldPut]; split
    · exact ⟨_, _, rfl, keep⟩
    · split
      · exact ⟨_, _, rfl, rfl⟩
      · exact ⟨_, _, rfl, keep⟩
  case bitGet f b =>
    simp only [exec, execBitGet]; split
    · exact ⟨_, _, rfl, keep⟩
    · exact ⟨_, _, rfl, rfl⟩
  case bitSet f b =>
    simp only [exec, execBitSet, bitPut]; split
    · exact ⟨_, _, rfl, keep⟩
    · exact ⟨_, _, rfl, rfl⟩
  case bitClr f b =>
    simp only [exec, execBitClr, bitPut]; split
    · exact ⟨_, _, rfl, keep⟩
    · exact ⟨_, _, rfl, rfl⟩
  case nickPack =>
    simp only [exec, execNickPack]; split
    · exact ⟨_, _, rfl, keep⟩
    · exact ⟨_, _, rfl, (keep.bufWrite _ _ _).withRes0 _⟩
  case blockMap i r =>
    simp only [exec, execBlockMap]; split
    · exact ⟨_, _, rfl, rfl⟩
    · exact ⟨_, _, rfl, keep⟩
  case hdrSeal => exact ⟨_, _, rfl, (keep.bufWrite _ _ _).withRes0 _⟩
  case p1Seal => exact ⟨_, _, rfl, ((keep.bufWrite _ _ _).withRes0 _).withRes1 _⟩
  case p2Seal => exact ⟨_, _, rfl, (keep.bufWrite _ _ _).withRes0 _⟩
  case nickUnpack => exact ⟨_, _, rfl, ((keep.bufWrite _ _ _).withRes0 _).withRes1 _⟩
  all_goals exact ⟨_, _, rfl, rfl⟩

end Sys2Proof.Machine
end

