-- ==== Sys2Proof/Laws/Port.lean ====
section
/-! SUPPORT. The laws of the block map and of the block port: what a configuration's bases satisfy,
what `issue` and `onAnswer` can do. -/

namespace Sys2Proof.Machine

/-- R9 of the configured bases. -/
theorem regionBase_bounds (r : Region) :
    regionBase r % 4 = 0 ∧ 4 ≤ regionBase r ∧ regionBase r ≤ 48 := by
  have h := Config.regionBases.admitted
  simp only [admitsBases, Bool.and_eq_true, beq_iff_eq, decide_eq_true_eq] at h
  cases r <;> simp only [regionBase] <;> omega

/-- R9: the regions are 16 blocks apart. -/
theorem regionBase_apart :
    regionBase .a + 16 ≤ regionBase .b ∨ regionBase .b + 16 ≤ regionBase .a := by
  have h := Config.regionBases.admitted
  simp only [admitsBases, Bool.and_eq_true, Bool.or_eq_true, decide_eq_true_eq] at h
  exact h.2

/-- A mapped block lies in its region's 14 blocks, and is no trailer. -/
theorem regionBlock_bounds (r : Region) (i : Nat) (h : i ≤ 10) :
    regionBase r ≤ regionBlock r i ∧ regionBlock r i ≤ regionBase r + 13 ∧
      regionBlock r i % 4 ≠ 3 := by
  have hb := (regionBase_bounds r).1
  simp only [regionBlock, mapBlock]
  omega

theorem regionBlock_lt (r : Region) (i : Nat) (h : i ≤ 10) : regionBlock r i < 64 := by
  have := regionBlock_bounds r i h
  have := regionBase_bounds r
  omega

theorem regionBlock_ge (r : Region) (i : Nat) : 4 ≤ regionBlock r i := by
  have := regionBase_bounds r
  simp only [regionBlock, mapBlock]
  omega

/-- The block map of a region is strictly increasing. -/
theorem regionBlock_lt_of_lt (r : Region) (i j : Nat) (h : i < j) :
    regionBlock r i < regionBlock r j := by
  simp only [regionBlock, mapBlock]
  omega

theorem regionBlock_inj (r : Region) (i j : Nat) (h : regionBlock r i = regionBlock r j) :
    i = j := by
  rcases Nat.lt_trichotomy i j with hl | he | hl
  · exact absurd h (Nat.ne_of_lt (regionBlock_lt_of_lt r i j hl))
  · exact he
  · exact absurd h.symm (Nat.ne_of_lt (regionBlock_lt_of_lt r j i hl))

/-- Blocks of different regions differ. -/
theorem regionBlock_disjoint (r t : Region) (i j : Nat) (h : r ≠ t) (hi : i ≤ 10) (hj : j ≤ 10) :
    regionBlock r i ≠ regionBlock t j := by
  have h1 := regionBlock_bounds r i hi
  have h2 := regionBlock_bounds t j hj
  have h3 := regionBase_apart
  cases r <;> cases t <;> simp only [ne_eq, not_true_eq_false] at h <;> omega

/-- A mapped block passes the block-port guard. -/
theorem portGuard_regionBlock (r : Region) (i : Nat) (h : i ≤ 10) (op : PortOp) :
    portGuard (regionBlock r i) op = true := by
  have h1 := regionBlock_bounds r i h
  have h2 := regionBlock_lt r i h
  have h3 := regionBlock_ge r i
  cases op <;> simp [portGuard] <;> omega

/-- The request that a port command issues for block n. -/
def State.request (s : State) (n : Nat) (op : PortOp) : PortRequest :=
  ⟨n, op, toVec 6 (s.sectorKey (n / 4))⟩

/-- A request that passes the guard is issued. -/
theorem issue_of_guard (w : Word) (n : Nat) (op : PortOp) (pos : Position) (s : State)
    (h : portGuard n op = true) :
    issue w n op pos s = { s with phase := .busy w pos (some (s.request n op)) } := by
  simp only [issue, h, if_true, State.request]

/-- A request that breaks the guard is not issued. -/
theorem issue_of_not_guard (w : Word) (n : Nat) (op : PortOp) (pos : Position) (s : State)
    (h : portGuard n op = false) :
    issue w n op pos s = raise .blockGuard n pos.stage .none s := by
  simp only [issue, h, Bool.false_eq_true, if_false]

theorem issue_region (w : Word) (r : Region) (i : Nat) (hi : i ≤ 10) (op : PortOp)
    (pos : Position) (s : State) :
    issue w (regionBlock r i) op pos s =
      { s with phase := .busy w pos (some (s.request (regionBlock r i) op)) } :=
  issue_of_guard w _ op pos s (portGuard_regionBlock r i hi op)

/-- A write of a record block is issued. -/
theorem writeRecordBlock_eq (w : Word) (r : Region) (i : Nat) (hi : i ≤ 10) (pos : Position)
    (s : State) :
    writeRecordBlock w r i pos s =
      { s with phase := .busy w pos (some (s.request (regionBlock r i)
        (.write (s.encBlock (regionBlock r i) (s.recordBlock i))))) } :=
  issue_region w r i hi _ pos s

/-- The phase after `issue`: the request is outstanding, or the command has ended. -/
theorem issue_phase (w : Word) (n : Nat) (op : PortOp) (pos : Position) (s : State) :
    (issue w n op pos s).phase = .idle ∨
      (portGuard n op = true ∧
        (issue w n op pos s).phase = .busy w pos (some (s.request n op))) := by
  rcases h : portGuard n op with _ | _
  · rw [issue_of_not_guard w n op pos s h]
    exact .inl rfl
  · rw [issue_of_guard w n op pos s h]
    exact .inr ⟨rfl, rfl⟩

/-- What `nextIndex` answers. -/
theorem nextIndex_eq_some {n : Nat} {i j : Fin n} (h : nextIndex i = some j) :
    j.val = i.val + 1 := by
  simp only [nextIndex] at h
  split at h
  · cases h; rfl
  · cases h

theorem nextIndex_eq_none {n : Nat} {i : Fin n} (h : nextIndex i = none) : i.val + 1 = n := by
  simp only [nextIndex] at h
  split at h
  · cases h
  · have := i.isLt; omega

/-- Everything an answer can do: nothing, when no request is outstanding; else what the position says
of the answer. -/
theorem onAnswer_cases (a : Answer) (s : State) :
    (onAnswer a s = s ∧ ∀ w pos req, s.phase ≠ .busy w pos (some req)) ∨
      ∃ w pos req, s.phase = .busy w pos (some req) ∧
        ((∃ d, a = .ok d ∧ onAnswer a s = onOk w pos req.block d s) ∨
          (a = .authFail ∧ onAnswer a s = onAuthFail w pos req.block s) ∨
          (a = .lost ∧ onAnswer a s = raise .transportLost req.block pos.stage .lost s)) := by
  rcases hp : s.phase with _ | ⟨w, pos, _ | req⟩
  · exact .inl ⟨by simp only [onAnswer, hp], by simp⟩
  · exact .inl ⟨by simp only [onAnswer, hp], by simp⟩
  · refine .inr ⟨w, pos, req, rfl, ?_⟩
    cases a with
    | ok d => exact .inl ⟨d, rfl, by simp only [onAnswer, hp]⟩
    | authFail => exact .inr (.inl ⟨rfl, by simp only [onAnswer, hp]⟩)
    | lost => exact .inr (.inr ⟨rfl, by simp only [onAnswer, hp]⟩)

/-- An ideal answer is an OK answer, after the tag has taken a write (R99). -/
theorem onIdealAnswer_read (s : State) (w : Word) (pos : Position) (req : PortRequest)
    (hp : s.phase = .busy w pos (some req)) (ho : req.op = .read) :
    onIdealAnswer s = onOk w pos req.block (tagBlock s.tag req.block) s := by
  simp only [onIdealAnswer, hp, ho, onAnswer]

theorem onIdealAnswer_write (s : State) (w : Word) (pos : Position) (req : PortRequest)
    (d : Block) (hp : s.phase = .busy w pos (some req)) (ho : req.op = .write d) :
    onIdealAnswer s =
      onOk w pos req.block d (s.withTag (setTagBlock s.tag req.block d)) := by
  simp only [onIdealAnswer, hp, ho, onAnswer, withTag_phase]

theorem onIdealAnswer_none (s : State) (h : ∀ w pos req, s.phase ≠ .busy w pos (some req)) :
    onIdealAnswer s = s := by
  rcases hp : s.phase with _ | ⟨w, pos, _ | req⟩
  · simp only [onIdealAnswer, hp]
  · simp only [onIdealAnswer, hp]
  · exact absurd hp (h w pos req)

/-- The stage code of a position is R334's number for it. -/
theorem stage_code_toNat (pos : Position) : pos.stage.code.toNat = pos.stageNumber := by
  cases pos
  case readRegion r _ _ _ _ => cases r <;> rfl
  all_goals rfl

/-- The end of a region takes no move of the environment. -/
@[simp] theorem endRegion_inputs (w : Word) (r : Region) (okR hok okA authFail : Bool)
    (s : State) : (endRegion w r okR hok okA authFail s).inputs = s.inputs := by
  cases r <;> simp [endRegion, beginRegion, finishRead, State.loadRecord]

/-- An OK answer takes no move but its own. -/
@[simp] theorem onOk_inputs (w : Word) (pos : Position) (n : Nat) (d : Block) (s : State) :
    (onOk w pos n d s).inputs = s.inputs := by
  cases pos <;> simp only [onOk]
  case readHdr0 => simp
  case readHdr1 => simp [headerRead, beginRegion]
  case readRegion => simp only [regionBlockRead]; split <;> simp
  case wrRefresh0 => simp
  case wrRefresh1 => simp only [refreshed]; split <;> (try split) <;> simp [beginRekey]
  case wrSeq slot _ _ _ _ =>
    cases slot <;> simp only [sequenceRead] <;> (try split) <;> simp [beginStaleWrite]
  case wrPart1 => simp only [part1Written]; split <;> (try split) <;> simp
  case wrPart2 => simp only [part2Written]; split <;> simp
  case wrIdent => simp [identityWritten]
  case wrRekey1 _ r _ =>
    simp only [rekey1Written]; split <;> (try split) <;> cases r <;> simp [rekeyNext]
  case wrRekey2 r _ => simp only [rekey2Written]; split <;> cases r <;> simp [rekeyNext]

/-- An answer takes no move but its own. -/
@[simp] theorem onAnswer_inputs (a : Answer) (s : State) :
    (onAnswer a s).inputs = s.inputs := by
  rcases onAnswer_cases a s with
    ⟨h, _⟩ | ⟨w, pos, req, _, ⟨d, _, h⟩ | ⟨_, h⟩ | ⟨_, h⟩⟩ <;> rw [h]
  · exact onOk_inputs _ _ _ _ _
  · cases pos <;> simp only [onAuthFail]
    case readRegion => simp only [regionAuthFail, endRegion_inputs]; split <;> rfl
    all_goals rfl
  · rfl

end Sys2Proof.Machine
end

