-- ==== Sys2Proof/Laws/Step.lean ====
section
/-! SUPPORT. The laws of the step and of the host bus: one lemma for what each can do. -/

namespace Sys2Proof.Machine

/-- A state has a command word to begin exactly when its phase holds an accepted one. -/
theorem fetch_eq_some {s : State} {w : Word} :
    s.fetch = some w ↔ s.phase = .busy w .accepted none := by
  constructor
  · intro h
    rcases hp : s.phase with _ | ⟨w', pos, req⟩
    · simp [State.fetch, hp] at h
    · cases pos <;> cases req <;> simp [State.fetch, hp] at h
      simp [h]
  · intro h
    simp [State.fetch, h]

/-- A step that begins a command. -/
theorem step_of_fetch {s : State} {w : Word} (h : s.fetch = some w) :
    step s = startCommand w s := by
  simp only [step, stepOnce, h]

/-- A step of the environment. -/
theorem step_of_input {s : State} {e : Event} {rest : List Event} (h : s.fetch = none)
    (hi : s.inputs = e :: rest) : step s = perform e { s with inputs := rest } := by
  simp only [step, stepOnce, h, environmentStep, hi]

/-- A step with nothing to do. -/
theorem step_of_no_input {s : State} (h : s.fetch = none) (hi : s.inputs = []) :
    step s = .next s := by
  simp only [step, stepOnce, h, environmentStep, hi]

/-- Everything a step can be. -/
theorem step_cases (s : State) :
    (∃ w, s.fetch = some w ∧ step s = startCommand w s) ∨
      (∃ e rest, s.fetch = none ∧ s.inputs = e :: rest ∧
        step s = perform e { s with inputs := rest }) ∨
      (s.fetch = none ∧ s.inputs = [] ∧ step s = .next s) := by
  rcases hf : s.fetch with _ | w
  · rcases hi : s.inputs with _ | ⟨e, rest⟩
    · exact .inr (.inr ⟨rfl, rfl, step_of_no_input hf hi⟩)
    · exact .inr (.inl ⟨e, rest, rfl, rfl, step_of_input hf hi⟩)
  · exact .inl ⟨w, rfl, step_of_fetch hf⟩

/-- A decoded command word is executed. -/
theorem startCommand_of_decode {w : Word} {i : Instr} (h : decode w = .ok i) (s : State) :
    startCommand w s = exec i s := by
  simp only [startCommand, h]

/-- A word that does not decode ends in ILLEGAL (R114). -/
theorem startCommand_of_error {w : Word} {e : DecodeError} (h : decode w = .error e)
    (s : State) : startCommand w s = .next (finish .illegal s) := by
  simp only [startCommand, h]

/-- The two computing bus operations (R113). -/
theorem busOperation_eq_some {x : BusWrite} {i : Instr} (h : busOperation x = some i) :
    (x.addr = crc16DataAddr ∧ i = .crc16DataWrite x.word) ∨
      (x.addr = crc48DataAddr ∧ i = .crc48DataWrite x.word) := by
  simp only [busOperation] at h
  split at h
  · next ha => exact .inl ⟨ha, (Option.some.inj h).symm⟩
  · split at h
    · next ha => exact .inr ⟨ha, (Option.some.inj h).symm⟩
    · cases h

/-- What a register target says of the access (R83). -/
theorem target_reg {addr : BitVec 12} {n : Width} {r : Register}
    (h : target addr n = some (.reg r)) :
    addr.toNat < 0x040 ∧ n = .w4 ∧ addr.toNat % 4 = 0 ∧ allRegisters[addr.toNat / 4]? = some r := by
  simp only [target] at h
  split at h
  · next ha =>
    split at h
    · next hn =>
      refine ⟨ha, hn.1, hn.2, ?_⟩
      rcases hr : allRegisters[addr.toNat / 4]? with _ | r'
      · simp [hr] at h
      · simp [hr] at h; rw [h]
    · cases h
  · split at h
    · split at h <;> simp at h
    · cases h

theorem bufferAt_holds {a : Nat} {b : Buffer} (h : bufferAt a = some b) : b.holds a = true := by
  simpa using List.find?_some h

/-- What a buffer target says of the access (R83). -/
theorem target_buf {addr : BitVec 12} {n : Width} {b : Buffer}
    (h : target addr n = some (.buf b)) :
    addr.toNat % n.bytes = 0 ∧ b.base ≤ addr.toNat ∧
      addr.toNat + n.bytes ≤ b.base + b.size := by
  simp only [target] at h
  split at h
  · split at h
    · rcases hr : allRegisters[addr.toNat / 4]? with _ | r' <;> simp [hr] at h
    · cases h
  · split at h
    · next b' hb =>
      split at h
      · next hc =>
        simp only [Option.some.injEq, Target.buf.injEq] at h
        subst h
        have h1 := bufferAt_holds hb
        have h2 := hc.2
        simp only [Buffer.holds, Bool.and_eq_true, decide_eq_true_eq] at h1 h2
        refine ⟨hc.1, h1.1, ?_⟩
        have : 0 < n.bytes := by cases n <;> decide
        omega
      · cases h
    · cases h

/-- Everything a host read can do (R85 to R87): it changes BUSERR, the value the host got, and the
count of draws, and nothing else. -/
theorem hostRead_eq (addr : BitVec 12) (n : Width) (s : State) :
    hostRead addr n s =
      { s with
        busErr := s.busErr || (target addr n).isNone
        readData := (hostRead addr n s).readData
        freeReads := (hostRead addr n s).freeReads } := by
  simp only [hostRead]
  split
  · next h => simp [refuseAccess, h]
  · next r h => split <;> simp [arbitraryRead, h]
  · next b h => split <;> simp [arbitraryRead, h]

/-- A malformed host read (R85). -/
theorem hostRead_none {addr : BitVec 12} {n : Width} {s : State} (h : target addr n = none) :
    hostRead addr n s = { s with busErr := true, readData := 0 } := by
  simp only [hostRead, h, refuseAccess]

/-- A malformed host write (R85). -/
theorem hostWrite_none {addr : BitVec 12} {n : Width} {s : State} {v : Word}
    (h : target addr n = none) : hostWrite addr n v s = { s with busErr := true } := by
  simp only [hostWrite, h, refuseAccess]

/-- A host write to a register. -/
theorem hostWrite_reg {addr : BitVec 12} {n : Width} {s : State} {v : Word} {r : Register}
    (h : target addr n = some (.reg r)) : hostWrite addr n v s = hostWriteReg r v s := by
  simp only [hostWrite, h]

/-- A host write to a buffer: refused, or stored (R84 to R86). -/
theorem hostWrite_buf {addr : BitVec 12} {n : Width} {s : State} {v : Word} {b : Buffer}
    (h : target addr n = some (.buf b)) :
    (s.busy || !b.hostWritable) = true ∧ hostWrite addr n v s = { s with busErr := true } ∨
      s.busy = false ∧ b.hostWritable = true ∧
        hostWrite addr n v s = s.memWrite addr.toNat (leBytes n.bytes v.toNat) := by
  simp only [hostWrite, h]
  split
  · next hb => exact .inl ⟨hb, rfl⟩
  · next hb =>
    simp only [Bool.or_eq_true, Bool.not_eq_true', not_or, Bool.not_eq_true,
      Bool.not_eq_false] at hb
    exact .inr ⟨hb.1, hb.2, rfl⟩

/-- A host read of a register (R86). -/
theorem hostRead_reg {addr : BitVec 12} {n : Width} {s : State} {r : Register}
    (h : target addr n = some (.reg r)) :
    hostRead addr n s =
      if s.busy && !r.readableBusy then arbitraryRead n s
      else { s with readData := s.readReg r } := by
  simp only [hostRead, h]

/-- A host read of a buffer (R84, R86). -/
theorem hostRead_buf {addr : BitVec 12} {n : Width} {s : State} {b : Buffer}
    (h : target addr n = some (.buf b)) :
    hostRead addr n s =
      if s.busy then arbitraryRead n s
      else { s with readData := BitVec.ofNat 32 (leNat (s.memRead addr.toNat n.bytes)) } := by
  simp only [hostRead, h]

/-- Which targets are computing bus operations (R113). -/
theorem busOperation_of_target {addr : BitVec 12} {n : Width} {x : Target} (v : Word)
    (h : target addr n = some x) (h1 : x ≠ .reg .crc16Data) (h2 : x ≠ .reg .crc48Data) :
    busOperation ⟨addr, v⟩ = none := by
  have ha : addr ≠ crc16DataAddr := by
    rintro rfl
    cases n
    · exact absurd h (by rw [show target crc16DataAddr .w1 = none by decide]; simp)
    · exact absurd h (by rw [show target crc16DataAddr .w2 = none by decide]; simp)
    · rw [show target crc16DataAddr .w4 = some (.reg .crc16Data) by decide] at h
      exact h1 (Option.some.inj h).symm
  have hb : addr ≠ crc48DataAddr := by
    rintro rfl
    cases n
    · exact absurd h (by rw [show target crc48DataAddr .w1 = none by decide]; simp)
    · exact absurd h (by rw [show target crc48DataAddr .w2 = none by decide]; simp)
    · rw [show target crc48DataAddr .w4 = some (.reg .crc48Data) by decide] at h
      exact h2 (Option.some.inj h).symm
  simp only [busOperation, if_neg ha, if_neg hb]

/-- A host write that is no computing bus operation is the bus's. -/
theorem performWrite_of_none {addr : BitVec 12} {n : Width} {v : Word} (s : State)
    (h : n = .w4 → busOperation ⟨addr, v⟩ = none) :
    performWrite addr n v s = .next (hostWrite addr n v s) := by
  cases n
  · rfl
  · rfl
  · simp only [performWrite, h rfl]

/-- A malformed host write. -/
theorem performWrite_malformed {addr : BitVec 12} {n : Width} {v : Word} (s : State)
    (h : target addr n = none) :
    performWrite addr n v s = .next { s with busErr := true } := by
  rw [performWrite_of_none s, hostWrite_none h]
  rintro rfl
  have ha : addr ≠ crc16DataAddr := by rintro rfl; exact absurd h (by decide)
  have hb : addr ≠ crc48DataAddr := by rintro rfl; exact absurd h (by decide)
  simp only [busOperation, if_neg ha, if_neg hb]

/-- A host write with a target that is no data register. -/
theorem performWrite_target {addr : BitVec 12} {n : Width} {x : Target} (v : Word) (s : State)
    (h : target addr n = some x) (h1 : x ≠ .reg .crc16Data) (h2 : x ≠ .reg .crc48Data) :
    performWrite addr n v s = .next (hostWrite addr n v s) :=
  performWrite_of_none s fun _ => busOperation_of_target v h h1 h2

/-- The addresses of the two data registers. -/
theorem target_crcData {addr : BitVec 12} {n : Width} :
    (target addr n = some (.reg .crc16Data) → addr = crc16DataAddr ∧ n = .w4) ∧
      (target addr n = some (.reg .crc48Data) → addr = crc48DataAddr ∧ n = .w4) := by
  constructor <;> intro h <;> obtain ⟨ha, hn, hm, hr⟩ := target_reg h <;>
    refine ⟨BitVec.eq_of_toNat_eq ?_, hn⟩ <;>
    revert ha hm hr <;> generalize addr.toNat = a <;> intro ha hm hr <;>
    interval_cases a <;> first | rfl | simp [allRegisters] at hr hm

/-- Everything a host write to a register can leave of the memory, the tag and the phase. -/
theorem hostWriteReg_frame (r : Register) (w : Word) (s : State) :
    (hostWriteReg r w s).mem = s.mem ∧ (hostWriteReg r w s).tag = s.tag ∧
      (hostWriteReg r w s).inputs = s.inputs ∧
      ((hostWriteReg r w s).phase = s.phase ∨
        (r = .cmd ∧ s.phase = .idle ∧ hostWriteReg r w s = accept w s)) := by
  have hb : s.busy = false → s.phase = .idle := by
    intro h
    rcases hp : s.phase with _ | ⟨w', pos, req⟩
    · rfl
    · simp [State.busy, hp] at h
  cases r <;> simp only [hostWriteReg, Register.readOnly, Bool.or_true, Bool.or_false] <;>
    first
      | exact ⟨rfl, rfl, rfl, .inl rfl⟩
      | (rcases hbu : s.busy with _ | _ <;>
          simp only [Bool.false_eq_true, if_true, if_false] <;>
          first
            | exact ⟨rfl, rfl, rfl, .inl rfl⟩
            | exact ⟨rfl, rfl, rfl, .inr ⟨trivial, hb hbu, trivial⟩⟩)

/-- The bytes of a RAM buffer that a host may write (R40). -/
theorem hostWritable_not_rom (b : Buffer) (h : b.hostWritable = true) : b.rom = false := by
  cases b <;> first | rfl | cases h

/-- A run of one step more. -/
theorem run_succ {s t : State} (k : Nat) (h : step s = .next t) : run (k + 1) s = run k t := by
  have h' : core.step s = .next t := h
  simp only [run, Host.Core.run]
  rw [h']

theorem run_zero (s : State) : run 0 s = .next s := rfl

/-- While a request is outstanding, no command word waits to be executed. -/
theorem fetch_of_request {s : State} {w : Word} {pos : Position} {req : PortRequest}
    (h : s.phase = .busy w pos (some req)) : s.fetch = none := by
  rcases hh : s.fetch with _ | w'
  · rfl
  · have := fetch_eq_some.1 hh
    rw [h] at this
    simp at this

/-- A step in which IDEAL_TAG answers a read (R99). -/
theorem step_ideal_read {s : State} {w : Word} {pos : Position} {req : PortRequest}
    {rest : List Event} (h : s.phase = .busy w pos (some req)) (ho : req.op = .read)
    (hi : s.inputs = .idealAnswer :: rest) :
    step s =
      .next (onOk w pos req.block (tagBlock s.tag req.block) { s with inputs := rest }) := by
  rw [step_of_input (fetch_of_request h) hi]
  have := onIdealAnswer_read { s with inputs := rest } w pos req h ho
  simp only [perform]
  rw [this]

/-- A step in which IDEAL_TAG answers a write (R99). -/
theorem step_ideal_write {s : State} {w : Word} {pos : Position} {req : PortRequest} {d : Block}
    {rest : List Event} (h : s.phase = .busy w pos (some req)) (ho : req.op = .write d)
    (hi : s.inputs = .idealAnswer :: rest) :
    step s =
      .next (onOk w pos req.block d
        { s with tag := setTagBlock s.tag req.block d, inputs := rest }) := by
  rw [step_of_input (fetch_of_request h) hi]
  have := onIdealAnswer_write { s with inputs := rest } w pos req d h ho
  simp only [perform]
  rw [this]
  rfl

end Sys2Proof.Machine
end

