-- ==== Sys2Proof/Laws/Invariant.lean ====
section
/-! SUPPORT. What keeps the invariant of Safety.lean, operation by operation. -/

namespace Sys2Proof.Machine

/-- What a buffer holds depends on the local memory alone. -/
theorem buf_congr {s t : State} (h : t.mem = s.mem) (b : Buffer) : t.buf b = s.buf b := by
  simp only [State.buf, State.memRead, State.byte, h]

/-- A change of registers alone keeps the invariant, whether or not the command ends with it, as long
as a command that goes on has neither DONE nor an ERR. -/
theorem State.Inv.congr {s t : State} (h : s.Inv) (hm : t.mem = s.mem) (ht : t.tag = s.tag)
    (hp : (t.phase = s.phase ∧ (s.done = false → t.done = false) ∧ t.err = s.err) ∨
      t.phase = .idle) : t.Inv where
  memWf := hm ▸ h.memWf
  tagWf := ht ▸ h.tagWf
  memInRam := hm ▸ h.memInRam
  tagInDump := ht ▸ h.tagInDump
  phaseLegal := by
    rcases hp with ⟨hp, _⟩ | hp
    · exact hp ▸ h.phaseLegal
    · rw [hp]; trivial
  requestKeyed := by
    intro w pos req hq
    rcases hp with ⟨hp, _⟩ | hp
    · rw [buf_congr hm]
      exact h.requestKeyed w pos req (hp ▸ hq)
    · rw [hp] at hq; cases hq
  busyQuiet := by
    intro hb
    rcases hp with ⟨hp, hd, he⟩ | hp
    · simp only [State.busy, hp] at hb
      have := h.busyQuiet hb
      exact ⟨hd this.1, he.trans this.2⟩
    · simp [State.busy, hp] at hb

theorem State.Inv.finish {s : State} (h : s.Inv) (c : ErrCode) : (Machine.finish c s).Inv :=
  h.congr rfl rfl (.inr rfl)

theorem State.Inv.raise {s : State} (h : s.Inv) (c : ErrCode) (n : Nat) (st : Stage)
    (p : PortCause) : (Machine.raise c n st p s).Inv :=
  h.congr rfl rfl (.inr rfl)

theorem State.Inv.accept {s : State} (h : s.Inv) (w : Word) : (Machine.accept w s).Inv where
  memWf := h.memWf
  tagWf := h.tagWf
  memInRam := h.memInRam
  tagInDump := h.tagInDump
  phaseLegal := rfl
  requestKeyed := by intro _ _ _ hq; cases hq
  busyQuiet := fun _ => ⟨rfl, rfl⟩

theorem State.Inv.withRes0 {s : State} (h : s.Inv) (v : Word) : (s.withRes0 v).Inv :=
  h.congr rfl rfl (.inl ⟨rfl, id, rfl⟩)

theorem State.Inv.withRes1 {s : State} (h : s.Inv) (v : Word) : (s.withRes1 v).Inv :=
  h.congr rfl rfl (.inl ⟨rfl, id, rfl⟩)

theorem State.Inv.withFval {s : State} (h : s.Inv) (v : BitVec 64) : (s.withFval v).Inv :=
  h.congr rfl rfl (.inl ⟨rfl, id, rfl⟩)

theorem State.Inv.withRecon {s : State} (h : s.Inv) (v : Word) : (s.withRecon v).Inv :=
  h.congr rfl rfl (.inl ⟨rfl, id, rfl⟩)

theorem State.Inv.withSeq {s : State} (h : s.Inv) (v : Word) : (s.withSeq v).Inv :=
  h.congr rfl rfl (.inl ⟨rfl, id, rfl⟩)

theorem State.Inv.withXstat {s : State} (h : s.Inv) (v : Word) : (s.withXstat v).Inv :=
  h.congr rfl rfl (.inl ⟨rfl, id, rfl⟩)

theorem State.Inv.orRes0 {s : State} (h : s.Inv) (v : Word) : (s.orRes0 v).Inv :=
  h.congr rfl rfl (.inl ⟨rfl, id, rfl⟩)

theorem inRam_of_holds (b : Buffer) (hb : b.rom = false) (a : Nat) (h : b.holds a = true) :
    inRam a = true := by
  simp only [inRam, bufferAt_eq b a h, hb, Bool.not_false]

/-- A string written inside a RAM buffer other than UID keeps the invariant; inside UID, too, while no
request is outstanding. -/
theorem State.Inv.bufWrite {s : State} (h : s.Inv) (b : Buffer) (hb : b.rom = false)
    (hu : b ≠ .uid ∨ s.phase = .idle) (o : Nat)
    (bs : List Byte) (hs : o + bs.length ≤ b.size) : (s.bufWrite b o bs).Inv where
  memWf := write_wf _ _ _ h.memWf
  tagWf := h.tagWf
  memInRam := by
    intro c hc
    rcases mem_bufWrite s b o bs hs c hc with hh | hh
    · exact inRam_of_holds b hb _ hh
    · exact h.memInRam c hh
  tagInDump := h.tagInDump
  phaseLegal := h.phaseLegal
  requestKeyed := by
    intro w pos req hq
    rcases hu with hu | hu
    · rw [buf_bufWrite_other s b .uid hu.symm o bs hs]
      exact h.requestKeyed w pos req hq
    · exact absurd (hu.symm.trans hq) (by simp)
  busyQuiet := h.busyQuiet

/-- A host write inside a buffer of an idle machine keeps the invariant. -/
theorem State.Inv.memWrite {s : State} (h : s.Inv) (b : Buffer) (hb : b.rom = false)
    (hi : s.phase = .idle) (a : Nat)
    (bs : List Byte) (h1 : b.base ≤ a) (h2 : a + bs.length ≤ b.base + b.size) :
    (s.memWrite a bs).Inv := by
  have := h.bufWrite b hb (.inr hi) (a - b.base) bs (by omega)
  rwa [State.bufWrite, show b.base + (a - b.base) = a by omega] at this

/-- A tag block written keeps the invariant. -/
theorem State.Inv.setTag {s : State} (h : s.Inv) (n : Nat) (hn : n < 64) (d : Block) :
    (s.withTag (setTagBlock s.tag n d)).Inv where
  memWf := h.memWf
  tagWf := write_wf _ _ _ h.tagWf
  memInRam := h.memInRam
  tagInDump := by
    intro c hc
    rcases mem_write s.tag (16 * n) d.toList c hc with hh | hh
    · simp only [Vector.length_toList] at hh
      omega
    · exact h.tagInDump c hh
  phaseLegal := h.phaseLegal
  requestKeyed := h.requestKeyed
  busyQuiet := h.busyQuiet

/-- The key of an issued request is its sector's (R95, R180). -/
theorem request_keyed (s : State) (n : Nat) (op : PortOp) :
    (s.request n op).keyed (s.buf .uid) := by
  constructor
  · intro h0
    simp only [State.request, State.sectorKey, sectorKeyOf] at *
    rw [h0, if_pos rfl, buf_k0, toVec_toList]
  · intro h0
    simp only [State.request, State.sectorKey, sectorKeyOf] at *
    rw [if_neg h0, toList_toVec _ _ (by simp), leNat_leBytes]
    exact Nat.mod_eq_of_lt (BitVec.isLt _)

/-- A request issued by a running command at the position that waits for it keeps the invariant. -/
theorem State.Inv.issue {s : State} (h : s.Inv) (w : Word) (n : Nat) (op : PortOp)
    (pos : Position) (hp : pos ≠ .accepted) (hn : n = pos.block)
    (ho : op.isWrite = pos.writes) (hb : s.busy = true) : (Machine.issue w n op pos s).Inv := by
  rcases hg : portGuard n op with _ | _
  · rw [issue_of_not_guard w n op pos s hg]
    exact h.raise _ _ _ _
  · rw [issue_of_guard w n op pos s hg]
    exact
      { memWf := h.memWf
        tagWf := h.tagWf
        memInRam := h.memInRam
        tagInDump := h.tagInDump
        phaseLegal := ⟨hp, hn, ho, hg⟩
        requestKeyed := by
          intro w' pos' req hq
          cases hq
          exact request_keyed s n op
        busyQuiet := fun _ => h.busyQuiet hb }

end Sys2Proof.Machine
end

