-- ==== Sys2Proof/Laws/PerInstr.lean ====
section
/-! SUPPORT. A law made per instruction: where its encoded host write goes, and the fixed bits of its
word, from the rows of spec/opcode_table.json (spec/30_encoding.md R110, R113). -/

namespace Sys2Proof.Laws

/-- The mask and the match of an instruction's row; none for a bus operation, whose row has none. -/
def tableRow : Instr → Option (Nat × Nat)
  | .nop => some (0xFFFFFFFF, 0x00000000)
  | .crc16Init => some (0xFFFFFFFF, 0x00000001)
  | .crc16Run _ _ => some (0x000000FF, 0x00000002)
  | .crc16Zero _ => some (0x000FFFFF, 0x00000003)
  | .crc16Const _ => some (0xFFFF00FF, 0x00000004)
  | .crc48Init => some (0xFFFFFFFF, 0x00000005)
  | .crc48Run _ _ => some (0x000000FF, 0x00000006)
  | .crc48Const _ => some (0xFFFF00FF, 0x00000007)
  | .sectorKey _ => some (0xFFFF00FF, 0x00000010)
  | .blockKey _ => some (0xFFFF00FF, 0x00000011)
  | .blkEnc _ => some (0xFFFF00FF, 0x00000012)
  | .blkDec _ => some (0xFFFF00FF, 0x00000013)
  | .hdrCheck => some (0xFFFFFFFF, 0x00000020)
  | .hdrSeal => some (0xFFFFFFFF, 0x00000021)
  | .p1Check => some (0xFFFFFFFF, 0x00000022)
  | .p1Seal => some (0xFFFFFFFF, 0x00000023)
  | .p2Check => some (0xFFFFFFFF, 0x00000024)
  | .p2Seal => some (0xFFFFFFFF, 0x00000025)
  | .fieldGet _ _ => some (0xFF0000FF, 0x00000026)
  | .fieldPut _ _ => some (0xFF0000FF, 0x00000027)
  | .bitGet _ _ => some (0xFF0000FF, 0x00000028)
  | .bitSet _ _ => some (0xFF0000FF, 0x00000029)
  | .bitClr _ _ => some (0xFF0000FF, 0x0000002A)
  | .nickUnpack => some (0xFFFFFFFF, 0x0000002B)
  | .nickPack => some (0xFFFFFFFF, 0x0000002C)
  | .blockMap _ _ => some (0xFFFFE0FF, 0x00000030)
  | .seqReconcile => some (0xFFFFFFFF, 0x00000031)
  | .readRecord => some (0xFFFFFFFF, 0x00000032)
  | .writeRecord _ => some (0xFFFFFEFF, 0x00000033)
  | .crc16DataWrite _ | .crc48DataWrite _ => none

/-- The local address of an instruction's host write (R110, R113). -/
def busAddress : Instr → Nat
  | .nop | .crc16Init | .crc16Run _ _ | .crc16Zero _ | .crc16Const _ | .crc48Init | .crc48Run _ _
  | .crc48Const _ | .sectorKey _ | .blockKey _ | .blkEnc _ | .blkDec _ | .hdrCheck | .hdrSeal
  | .p1Check | .p1Seal | .p2Check | .p2Seal | .fieldGet _ _ | .fieldPut _ _ | .bitGet _ _
  | .bitSet _ _ | .bitClr _ _ | .nickUnpack | .nickPack | .blockMap _ _ | .seqReconcile
  | .readRecord | .writeRecord _ => 0x00C
  | .crc16DataWrite _ => 0x01C
  | .crc48DataWrite _ => 0x028

/-- The encoded host write goes to its address, and its word matches the row. -/
def EncodedOpcode.Statement (i : Instr) : Prop :=
  (encode i).addr.toNat = busAddress i ∧
    ∀ mask value, tableRow i = some (mask, value) → (encode i).word.toNat &&& mask = value

/-- A word with the fixed bits of a row, said of the bit vectors. -/
theorem and_toNat (w m v : Word) (h : w &&& m = v) : w.toNat &&& m.toNat = v.toNat := by
  rw [← h, BitVec.toNat_and]

/-- Two masks of one word. -/
theorem and_or_of (w a b v : Word) (ha : w &&& a = 0) (hb : w &&& b = v) :
    w &&& (a ||| b) = v := by
  rw [← hb]
  apply BitVec.eq_of_getLsbD_eq
  intro i hi
  have := congrArg (fun x : Word => x.getLsbD i) ha
  simp only [BitVec.getLsbD_and, BitVec.getLsbD_or] at this ⊢
  cases h1 : w.getLsbD i <;> simp_all

/-- The opcode byte as a mask. -/
theorem and_low_byte (w : Word) (c : Byte) (h : w.extractLsb' 0 8 = c) :
    w &&& 0xFF = c.setWidth 32 := by
  rw [← h]
  apply BitVec.eq_of_getLsbD_eq
  intro i hi
  have hm : (0xFF : Word).getLsbD i = decide (i < 8) := by
    have : ∀ k : Fin 32, (0xFF : Word).getLsbD k.val = decide (k.val < 8) := by decide
    exact this ⟨i, hi⟩
  simp only [BitVec.getLsbD_and, hm, BitVec.getLsbD_setWidth, BitVec.getLsbD_extractLsb']
  by_cases h8 : i < 8 <;> simp [h8, hi]

/-- A word of a format with reserved bits. -/
theorem row_of (w reserved : Word) (c : Byte) (mask value : Nat) (h : w.extractLsb' 0 8 = c)
    (hr : w &&& reserved = 0) (hm : (reserved ||| 0xFF : Word).toNat = mask)
    (hv : c.toNat = value) : w.toNat &&& mask = value := by
  rw [← hm, ← hv]
  have := and_toNat w _ _ (and_or_of w reserved 0xFF _ hr (and_low_byte w c h))
  rw [this]
  simp only [BitVec.toNat_setWidth]
  have := c.isLt
  omega

theorem EncodedOpcode.nop : Statement (.nop) := by
  refine ⟨rfl, fun mask value h => ?_⟩
  cases h
  decide

theorem EncodedOpcode.crc16Init : Statement (.crc16Init) := by
  refine ⟨rfl, fun mask value h => ?_⟩
  cases h
  decide

theorem EncodedOpcode.crc16Run : ∀ (addr len : BitVec 12), Statement (.crc16Run addr len) := by
  refine fun addr len => ⟨rfl, fun mask value h => ?_⟩
  cases h
  exact row_of _ 0 _ _ _ (wordR_op _ _ _) (by simp) rfl rfl

theorem EncodedOpcode.crc16Zero : ∀ (len : BitVec 12), Statement (.crc16Zero len) := by
  refine fun len => ⟨rfl, fun mask value h => ?_⟩
  cases h
  exact row_of _ _ _ _ _ (wordZ_op _ _) (wordZ_reserved _ _) rfl rfl

theorem EncodedOpcode.crc16Const : ∀ (arg : Byte), Statement (.crc16Const arg) := by
  refine fun arg => ⟨rfl, fun mask value h => ?_⟩
  cases h
  exact row_of _ _ _ _ _ (wordA_op _ _) (wordA_reserved _ _) rfl rfl

theorem EncodedOpcode.crc48Init : Statement (.crc48Init) := by
  refine ⟨rfl, fun mask value h => ?_⟩
  cases h
  decide

theorem EncodedOpcode.crc48Run : ∀ (addr len : BitVec 12), Statement (.crc48Run addr len) := by
  refine fun addr len => ⟨rfl, fun mask value h => ?_⟩
  cases h
  exact row_of _ 0 _ _ _ (wordR_op _ _ _) (by simp) rfl rfl

theorem EncodedOpcode.crc48Const : ∀ (arg : Byte), Statement (.crc48Const arg) := by
  refine fun arg => ⟨rfl, fun mask value h => ?_⟩
  cases h
  exact row_of _ _ _ _ _ (wordA_op _ _) (wordA_reserved _ _) rfl rfl

theorem EncodedOpcode.sectorKey : ∀ (arg : Byte), Statement (.sectorKey arg) := by
  refine fun arg => ⟨rfl, fun mask value h => ?_⟩
  cases h
  exact row_of _ _ _ _ _ (wordA_op _ _) (wordA_reserved _ _) rfl rfl

theorem EncodedOpcode.blockKey : ∀ (arg : Byte), Statement (.blockKey arg) := by
  refine fun arg => ⟨rfl, fun mask value h => ?_⟩
  cases h
  exact row_of _ _ _ _ _ (wordA_op _ _) (wordA_reserved _ _) rfl rfl

theorem EncodedOpcode.blkEnc : ∀ (arg : Byte), Statement (.blkEnc arg) := by
  refine fun arg => ⟨rfl, fun mask value h => ?_⟩
  cases h
  exact row_of _ _ _ _ _ (wordA_op _ _) (wordA_reserved _ _) rfl rfl

theorem EncodedOpcode.blkDec : ∀ (arg : Byte), Statement (.blkDec arg) := by
  refine fun arg => ⟨rfl, fun mask value h => ?_⟩
  cases h
  exact row_of _ _ _ _ _ (wordA_op _ _) (wordA_reserved _ _) rfl rfl

theorem EncodedOpcode.hdrCheck : Statement (.hdrCheck) := by
  refine ⟨rfl, fun mask value h => ?_⟩
  cases h
  decide

theorem EncodedOpcode.hdrSeal : Statement (.hdrSeal) := by
  refine ⟨rfl, fun mask value h => ?_⟩
  cases h
  decide

theorem EncodedOpcode.p1Check : Statement (.p1Check) := by
  refine ⟨rfl, fun mask value h => ?_⟩
  cases h
  decide

theorem EncodedOpcode.p1Seal : Statement (.p1Seal) := by
  refine ⟨rfl, fun mask value h => ?_⟩
  cases h
  decide

theorem EncodedOpcode.p2Check : Statement (.p2Check) := by
  refine ⟨rfl, fun mask value h => ?_⟩
  cases h
  decide

theorem EncodedOpcode.p2Seal : Statement (.p2Seal) := by
  refine ⟨rfl, fun mask value h => ?_⟩
  cases h
  decide

theorem EncodedOpcode.fieldGet : ∀ (fid bit : Byte), Statement (.fieldGet fid bit) := by
  refine fun fid bit => ⟨rfl, fun mask value h => ?_⟩
  cases h
  exact row_of _ _ _ _ _ (wordF_op _ _ _) (wordF_reserved _ _ _) rfl rfl

theorem EncodedOpcode.fieldPut : ∀ (fid bit : Byte), Statement (.fieldPut fid bit) := by
  refine fun fid bit => ⟨rfl, fun mask value h => ?_⟩
  cases h
  exact row_of _ _ _ _ _ (wordF_op _ _ _) (wordF_reserved _ _ _) rfl rfl

theorem EncodedOpcode.bitGet : ∀ (fid bit : Byte), Statement (.bitGet fid bit) := by
  refine fun fid bit => ⟨rfl, fun mask value h => ?_⟩
  cases h
  exact row_of _ _ _ _ _ (wordF_op _ _ _) (wordF_reserved _ _ _) rfl rfl

theorem EncodedOpcode.bitSet : ∀ (fid bit : Byte), Statement (.bitSet fid bit) := by
  refine fun fid bit => ⟨rfl, fun mask value h => ?_⟩
  cases h
  exact row_of _ _ _ _ _ (wordF_op _ _ _) (wordF_reserved _ _ _) rfl rfl

theorem EncodedOpcode.bitClr : ∀ (fid bit : Byte), Statement (.bitClr fid bit) := by
  refine fun fid bit => ⟨rfl, fun mask value h => ?_⟩
  cases h
  exact row_of _ _ _ _ _ (wordF_op _ _ _) (wordF_reserved _ _ _) rfl rfl

theorem EncodedOpcode.nickUnpack : Statement (.nickUnpack) := by
  refine ⟨rfl, fun mask value h => ?_⟩
  cases h
  decide

theorem EncodedOpcode.nickPack : Statement (.nickPack) := by
  refine ⟨rfl, fun mask value h => ?_⟩
  cases h
  decide

theorem EncodedOpcode.blockMap : ∀ (index : BitVec 4) (region : Region), Statement (.blockMap index region) := by
  refine fun index region => ⟨rfl, fun mask value h => ?_⟩
  cases h
  exact row_of _ _ _ _ _ (wordM_op _ _ _) (wordM_reserved _ _ _) rfl rfl

theorem EncodedOpcode.seqReconcile : Statement (.seqReconcile) := by
  refine ⟨rfl, fun mask value h => ?_⟩
  cases h
  decide

theorem EncodedOpcode.readRecord : Statement (.readRecord) := by
  refine ⟨rfl, fun mask value h => ?_⟩
  cases h
  decide

theorem EncodedOpcode.writeRecord : ∀ (rw : Bool), Statement (.writeRecord rw) := by
  refine fun rw => ⟨rfl, fun mask value h => ?_⟩
  cases h
  exact row_of _ _ _ _ _ (wordW_op _ _) (wordW_reserved _ _) rfl rfl

theorem EncodedOpcode.crc16DataWrite : ∀ word : Word, Statement (.crc16DataWrite word) :=
  fun _ => ⟨rfl, fun _ _ h => nomatch h⟩

theorem EncodedOpcode.crc48DataWrite : ∀ word : Word, Statement (.crc48DataWrite word) :=
  fun _ => ⟨rfl, fun _ _ h => nomatch h⟩

end Sys2Proof.Laws
end

