-- ==== Sys2Proof/Laws/Seal.lean ====
section
/-! SUPPORT. The laws of the seals (spec/42_codec.md R214, R229, R231): what each leaves in its buffer and
outside the checksum bytes. -/

namespace Sys2Proof.Machine

theorem getElem?_store16_other (p : List Byte) (i k : Nat) (v : BitVec 16)
    (h : i + 2 ≤ p.length) (hk : k < i ∨ i + 2 ≤ k) : (store16 p i v)[k]? = p[k]? := by
  rw [store16, getElem?_splice _ _ _ _ (by simpa using h), if_neg (by simp; omega)]

theorem getElem?_buf (s : State) (b : Buffer) (k : Nat) (h : k < b.size) :
    (s.buf b)[k]? = some (s.byte (b.base + k)) := by
  rw [State.buf, getElem?_memRead, if_pos h]

/-- A write of a whole RAM buffer whose new contents differ only in [lo, lo + n). -/
theorem sameBytesBut_bufWrite (s : State) (b : Buffer) (hb : b.rom = false) (bs : List Byte)
    (hl : bs.length = b.size) (lo n : Nat)
    (h : ∀ k, k < lo ∨ lo + n ≤ k → bs[k]? = (s.buf b)[k]?) :
    SameBytesBut s (s.bufWrite b 0 bs) (b.base + lo) n := by
  intro a ha
  by_cases hin : b.base ≤ a ∧ a < b.base + b.size
  · have h1 := buf_bufWrite_whole s b hb bs hl
    have h2 := getElem?_buf (s.bufWrite b 0 bs) b (a - b.base) (by omega)
    have h3 := getElem?_buf s b (a - b.base) (by omega)
    rw [h1, h (a - b.base) (by omega), h3, show b.base + (a - b.base) = a by omega] at h2
    exact (Option.some.inj h2).symm
  · exact byte_bufWrite_outside _ _ _ _ _ (by omega)

/-- A seal of part 1 stores its three checksums and leaves the other bytes. -/
theorem getElem?_p1Sealed_other (p : List Byte) (hl : p.length = 112) (k : Nat)
    (hk : k < 0x0A ∨ 0x10 ≤ k) : (p1Sealed p)[k]? = p[k]? := by
  simp only [p1Sealed]
  have a1 := length_store16 p 0x0A (c3Of p) (by omega)
  have a2 := length_store16 (store16 p 0x0A (c3Of p)) 0x0C (c2Of (store16 p 0x0A (c3Of p)))
    (by omega)
  rw [getElem?_store16_other _ _ _ _ (by omega) (by omega),
    getElem?_store16_other _ _ _ _ (by omega) (by omega),
    getElem?_store16_other _ _ _ _ (by omega) (by omega)]

theorem stored16_p1Sealed_csum3 (p : List Byte) (hl : p.length = 112) :
    stored16 (p1Sealed p) 0x0A = c3Of p := by
  have a1 := length_store16 p 0x0A (c3Of p) (by omega)
  have a2 := length_store16 (store16 p 0x0A (c3Of p)) 0x0C (c2Of (store16 p 0x0A (c3Of p)))
    (by omega)
  simp only [p1Sealed]
  rw [stored16_store16_other _ _ _ _ (by omega) (by omega),
    stored16_store16_other _ _ _ _ (by omega) (by omega), stored16_store16_same _ _ _ (by omega)]

theorem stored16_p1Sealed_csum2 (p : List Byte) (hl : p.length = 112) :
    stored16 (p1Sealed p) 0x0C = c2Of p := by
  have a1 := length_store16 p 0x0A (c3Of p) (by omega)
  have a2 := length_store16 (store16 p 0x0A (c3Of p)) 0x0C (c2Of (store16 p 0x0A (c3Of p)))
    (by omega)
  simp only [p1Sealed]
  rw [stored16_store16_other _ _ _ _ (by omega) (by omega), stored16_store16_same _ _ _ (by omega)]
  simp only [c2Of]
  rw [slice_store16_other _ _ _ _ _ (by omega) (by omega)]

/-- checksum1 covers the checksum2 and checksum3 just stored (R229). -/
theorem stored16_p1Sealed_csum1 (p : List Byte) (hl : p.length = 112) :
    stored16 (p1Sealed p) 0x0E = c1Of (p1Sealed p) := by
  have a1 := length_store16 p 0x0A (c3Of p) (by omega)
  have a2 := length_store16 (store16 p 0x0A (c3Of p)) 0x0C (c2Of (store16 p 0x0A (c3Of p)))
    (by omega)
  simp only [p1Sealed]
  rw [stored16_store16_same _ _ _ (by omega)]
  conv_rhs => rw [c1Of, slice_store16_other _ _ _ _ _ (by omega) (by omega)]
  rfl

theorem c3Of_p1Sealed (p : List Byte) (hl : p.length = 112) : c3Of (p1Sealed p) = c3Of p := by
  have h : slice (p1Sealed p) 0x40 0x70 = slice p 0x40 0x70 := by
    apply List.ext_getElem?
    intro k
    simp only [slice, List.getElem?_take, List.getElem?_drop]
    rw [getElem?_p1Sealed_other p hl _ (by omega)]
  simp only [c3Of, h]

theorem c2Of_p1Sealed (p : List Byte) (hl : p.length = 112) : c2Of (p1Sealed p) = c2Of p := by
  have h : slice (p1Sealed p) 0x10 0x40 = slice p 0x10 0x40 := by
    apply List.ext_getElem?
    intro k
    simp only [slice, List.getElem?_take, List.getElem?_drop]
    rw [getElem?_p1Sealed_other p hl _ (by omega)]
  simp only [c2Of, h]

/-- A sealed part 1 is valid. -/
theorem p1Valid_p1Sealed (p : List Byte) (hl : p.length = 112) : p1Valid (p1Sealed p) = true := by
  simp [p1Valid, p1Mask, stored16_p1Sealed_csum3 p hl, stored16_p1Sealed_csum2 p hl,
    stored16_p1Sealed_csum1 p hl, c3Of_p1Sealed p hl, c2Of_p1Sealed p hl]

theorem stored16_hdrSealed (h : List Byte) (hl : h.length = 32) :
    stored16 (hdrSealed h) 0x1E = hdrCrc h := stored16_store16_same _ _ _ (by omega)

theorem stored16_p2Sealed (q : List Byte) (hl : q.length = 64) :
    stored16 (p2Sealed q) 0 = c4Of q := stored16_store16_same _ _ _ (by omega)

theorem hdrCrc_hdrSealed (h : List Byte) (hl : h.length = 32) : hdrCrc (hdrSealed h) = hdrCrc h := by
  simp only [hdrCrc, hdrSealed]
  rw [slice_store16_other _ _ _ _ _ (by omega) (by omega)]

theorem c4Of_p2Sealed (q : List Byte) (hl : q.length = 64) : c4Of (p2Sealed q) = c4Of q := by
  simp only [c4Of, p2Sealed]
  rw [slice_store16_other _ _ _ _ _ (by omega) (by omega)]

/-- A sealed header is valid. -/
theorem hdrValid_hdrSealed (h : List Byte) (hl : h.length = 32) : hdrValid (hdrSealed h) = true := by
  simp [hdrValid, stored16_hdrSealed h hl, hdrCrc_hdrSealed h hl]

/-- A sealed part 2 is valid. -/
theorem p2Valid_p2Sealed (q : List Byte) (hl : q.length = 64) : p2Valid (p2Sealed q) = true := by
  simp [p2Valid, stored16_p2Sealed q hl, c4Of_p2Sealed q hl]

/-! The buffers after a seal. -/

theorem sealHdr_buf (s : State) : s.sealHdr.buf .hdr = hdrSealed (s.buf .hdr) :=
  buf_bufWrite_whole s .hdr rfl _ (length_hdrSealed _ (by simp [Buffer.size]))

theorem sealP1_buf (s : State) : s.sealP1.buf .p1 = p1Sealed (s.buf .p1) :=
  buf_bufWrite_whole s .p1 rfl _ (length_p1Sealed _ (by simp [Buffer.size]))

theorem sealP2_buf (s : State) : s.sealP2.buf .p2 = p2Sealed (s.buf .p2) :=
  buf_bufWrite_whole s .p2 rfl _ (length_p2Sealed _ (by simp [Buffer.size]))

theorem sealHdr_sameBytesBut (s : State) : SameBytesBut s s.sealHdr 0x11E 2 := by
  apply sameBytesBut_bufWrite s .hdr rfl _ (length_hdrSealed _ (by simp [Buffer.size])) 0x1E 2
  intro k hk
  exact getElem?_store16_other _ _ _ _ (by simp [Buffer.size]) (by omega)

theorem sealP1_sameBytesBut (s : State) : SameBytesBut s s.sealP1 0x18A 6 := by
  apply sameBytesBut_bufWrite s .p1 rfl _ (length_p1Sealed _ (by simp [Buffer.size])) 0x0A 6
  intro k hk
  exact getElem?_p1Sealed_other _ (by simp [Buffer.size]) _ (by omega)

theorem sealP2_sameBytesBut (s : State) : SameBytesBut s s.sealP2 0x200 2 := by
  apply sameBytesBut_bufWrite s .p2 rfl _ (length_p2Sealed _ (by simp [Buffer.size])) 0 2
  intro k hk
  exact getElem?_store16_other _ _ _ _ (by simp [Buffer.size]) (by omega)

end Sys2Proof.Machine
end

