-- ==== Sys2Proof/Laws/TagImage.lean ====
section
/-! SUPPORT. A tag built from a header and two plaintext images, for any configuration: what it reads as
through the block port (spec/41_keys.md R185, R186, spec/43_arbiter.md R274). The tests' witnesses
use it, since a tag's ciphertext depends on the opaque parameters. -/

namespace Sys2Proof.Machine

/-- D undoes E (R10). -/
theorem cipherD_cipherE (k x : Block) : cipherD k (cipherE k x) = x := by
  simp [cipherD, cipherE]

/-- E undoes D (log 4). -/
theorem cipherE_cipherD (k x : Block) : cipherE k (cipherD k x) = x := by
  simp [cipherD, cipherE]

/-- The ciphertext of logical block i of an image. -/
def sealedBlock (h img : List Byte) (r : Region) (i : Nat) : Block :=
  cipherE (blockKeyOf Config.keySuffix.toList h (regionBlock r i))
    (toVec 16 (slice img (16 * i) (16 * i + 16)))

/-- The tag with the first k blocks of region r holding an image, enciphered under a header. -/
def putImage (tag : Memory) (h img : List Byte) (r : Region) : Nat → Memory
  | 0 => tag
  | k + 1 => setTagBlock (putImage tag h img r k) (regionBlock r k) (sealedBlock h img r k)

theorem tagBlock_putImage_other (tag : Memory) (h img : List Byte) (r : Region) (k n : Nat)
    (hn : ∀ i < k, n ≠ regionBlock r i) :
    tagBlock (putImage tag h img r k) n = tagBlock tag n := by
  induction k with
  | zero => rfl
  | succ k ih =>
    rw [putImage, tagBlock_setTagBlock_other _ _ _ _ (hn k (by omega)),
      ih fun i hi => hn i (by omega)]

theorem tagBlock_putImage_same (tag : Memory) (h img : List Byte) (r : Region) (k i : Nat)
    (hi : i < k) :
    tagBlock (putImage tag h img r k) (regionBlock r i) = sealedBlock h img r i := by
  induction k with
  | zero => omega
  | succ k ih =>
    rw [putImage]
    by_cases he : i = k
    · rw [he, tagBlock_setTagBlock_same]
    · rw [tagBlock_setTagBlock_other _ _ _ _ fun hh => he (regionBlock_inj r i k hh),
        ih (by omega)]

/-- A slice cut at a point. -/
theorem slice_append (s : List Byte) (i j k : Nat) (hij : i ≤ j) (hjk : j ≤ k) :
    slice s i j ++ slice s j k = slice s i k := by
  apply List.ext_getElem?
  intro n
  rw [List.getElem?_append, length_slice]
  simp only [slice, List.getElem?_take, List.getElem?_drop]
  by_cases h1 : n < j - i
  · by_cases h2 : i + n < s.length
    · rw [if_pos (by omega), if_pos h1, if_pos (by omega)]
    · rw [if_neg (by omega), List.getElem?_eq_none (by omega)]
      rw [List.getElem?_eq_none (by omega)]
      split <;> split <;> rfl
  · rw [if_neg (by omega)]
    by_cases h2 : j ≤ s.length
    · rw [show min (j - i) (s.length - i) = j - i by omega,
        show j + (n - (j - i)) = i + n by omega]
      by_cases h3 : n < k - i
      · rw [if_pos (by omega), if_pos h3]
      · rw [if_neg (by omega), if_neg h3]
    · rw [List.getElem?_eq_none (by omega), List.getElem?_eq_none (by omega)]
      split <;> split <;> rfl

theorem flatMap_slices (img : List Byte) (k : Nat) (hk : 16 * k ≤ img.length) :
    ((List.range k).flatMap fun i =>
      (toVec 16 (slice img (16 * i) (16 * i + 16))).toList) = slice img 0 (16 * k) := by
  induction k with
  | zero => simp [slice]
  | succ k ih =>
    rw [List.range_succ, List.flatMap_append, ih (by omega)]
    simp only [List.flatMap_cons, List.flatMap_nil, List.append_nil]
    rw [toList_toVec _ _ (by rw [length_slice]; omega),
      slice_append _ _ _ _ (by omega) (by omega), Nat.mul_add, Nat.mul_one]

/-- A tag whose region r holds an image reads as that image. -/
theorem plainRegion_of_blocks (tag : Memory) (h img : List Byte) (r : Region)
    (hl : img.length = 176)
    (hb : ∀ i, i ≤ 10 → tagBlock tag (regionBlock r i) = sealedBlock h img r i) :
    plainRegion tag h r = img := by
  have hf : plainRegion tag h r = (List.range 11).flatMap fun i =>
      (toVec 16 (slice img (16 * i) (16 * i + 16))).toList := by
    simp only [plainRegion]
    rw [List.flatMap_def, List.flatMap_def]
    congr 1
    apply List.map_congr_left
    intro i hi
    rw [plainBlock, hb i (by have := List.mem_range.1 hi; omega), sealedBlock, cipherD_cipherE]
  rw [hf, flatMap_slices img 11 (by omega)]
  simp [slice, hl]

/-- A tag with header h and the images imgA and imgB. -/
def builtTag (h imgA imgB : List Byte) : Memory :=
  putImage (putImage (setTagBlock (setTagBlock [] 0 (toVec 16 (slice h 0 16))) 1
    (toVec 16 (slice h 16 32))) h imgA .a 11) h imgB .b 11

theorem tagHeader_builtTag (h imgA imgB : List Byte) (hl : h.length = 32) :
    tagHeader (builtTag h imgA imgB) = h := by
  have hn : ∀ (r : Region) (n : Nat), n ≤ 1 → ∀ i < 11, n ≠ regionBlock r i := by
    intro r n hn i _
    have := regionBlock_ge r i
    omega
  have h0 : tagBlock (builtTag h imgA imgB) 0 = toVec 16 (slice h 0 16) := by
    rw [builtTag, tagBlock_putImage_other _ _ _ _ _ _ (hn .b 0 (by omega)),
      tagBlock_putImage_other _ _ _ _ _ _ (hn .a 0 (by omega)),
      tagBlock_setTagBlock_other _ _ _ _ (by omega), tagBlock_setTagBlock_same]
  have h1 : tagBlock (builtTag h imgA imgB) 1 = toVec 16 (slice h 16 32) := by
    rw [builtTag, tagBlock_putImage_other _ _ _ _ _ _ (hn .b 1 (by omega)),
      tagBlock_putImage_other _ _ _ _ _ _ (hn .a 1 (by omega)), tagBlock_setTagBlock_same]
  rw [tagHeader, h0, h1, toList_toVec _ _ (by rw [length_slice]; omega),
    toList_toVec _ _ (by rw [length_slice]; omega), slice_append _ _ _ _ (by omega) (by omega)]
  simp [slice, hl]

theorem plainRegion_builtTag (h imgA imgB : List Byte) (ha : imgA.length = 176)
    (hb : imgB.length = 176) :
    plainRegion (builtTag h imgA imgB) h .a = imgA ∧
      plainRegion (builtTag h imgA imgB) h .b = imgB := by
  constructor
  · apply plainRegion_of_blocks _ _ _ _ ha
    intro i hi
    rw [builtTag, tagBlock_putImage_other _ _ _ _ _ _ fun j hj =>
        regionBlock_disjoint .a .b i j (by decide) hi (by omega),
      tagBlock_putImage_same _ _ _ _ _ _ (by omega)]
  · apply plainRegion_of_blocks _ _ _ _ hb
    intro i hi
    rw [builtTag, tagBlock_putImage_same _ _ _ _ _ _ (by omega)]

end Sys2Proof.Machine
end

