-- ==== Sys2Proof/Tests/Slice0.lean ====
section
/-! SUPPORT. The tests: ill-formed terms, decoded words written out from the formats, steps on small
states with expected values from spec/95_test_vectors.md, and for every statement with hypotheses
a witness that meets them. -/

namespace Sys2Proof.Machine.Tests

set_option Elab.async false

/-! WellFormed: an ill-formed term for each check (R160, R190, R191, R240 to R242, R271). -/

theorem test_ill_formed_ranges :
    (Instr.crc16Run 0x03C 8).wellFormed = false ∧ (Instr.crc16Run 0xFFF 2).wellFormed = false ∧
    (Instr.crc48Run 0x044 4).wellFormed = false ∧ (Instr.crc16Run 0x000 0).wellFormed = true := by
  decide +kernel

theorem test_ill_formed_operands :
    (Instr.sectorKey 16).wellFormed = false ∧ (Instr.blockKey 0x40).wellFormed = false ∧
    (Instr.blkEnc 0x40).wellFormed = false ∧ (Instr.blkDec 0xFF).wellFormed = false ∧
    (Instr.blockMap 11 .a).wellFormed = false := by
  decide +kernel

theorem test_ill_formed_fields :
    (Instr.fieldGet 0x06 0).wellFormed = false ∧ (Instr.fieldGet 0x11 1).wellFormed = false ∧
    (Instr.fieldPut 0x2C 0).wellFormed = false ∧ (Instr.bitGet 0x18 8).wellFormed = false ∧
    (Instr.bitSet 0x4C 0).wellFormed = false ∧ (Instr.bitClr 0x4B 24).wellFormed = false := by
  decide +kernel

/-! Decoding: one word for each constructor, its fields written high to low as R111 lays the format
out: LEN ADDR OP, LEN 0 OP, 0 ARG OP, 0 BIT FID OP, 0 REGION INDEX OP, 0 RW OP. -/

theorem test_decode_nop_crc :
    decodeWrite ⟨0x00C, 0b00000000000000000000000000000000⟩ = .ok .nop ∧
    decodeWrite ⟨0x00C, 0b00000000000000000000000000000001⟩ = .ok .crc16Init ∧
    decodeWrite ⟨0x00C, 0b00001100000000011000000000000010⟩ = .ok (.crc16Run 0x180 0x0C0) ∧
    decodeWrite ⟨0x00C, 0b00001110000000000000000000000011⟩ = .ok (.crc16Zero 0x0E0) ∧
    decodeWrite ⟨0x00C, 0b00000000000000000000010100000100⟩ = .ok (.crc16Const 5) ∧
    decodeWrite ⟨0x00C, 0b00000000000000000000000000000101⟩ = .ok .crc48Init ∧
    decodeWrite ⟨0x00C, 0b00000000010000000100000000000110⟩ = .ok (.crc48Run 0x040 4) ∧
    decodeWrite ⟨0x00C, 0b00000000000000000000001000000111⟩ = .ok (.crc48Const 2) := by
  decide +kernel

theorem test_decode_keys :
    decodeWrite ⟨0x00C, 0b00000000000000000000111100010000⟩ = .ok (.sectorKey 15) ∧
    decodeWrite ⟨0x00C, 0b00000000000000000011111100010001⟩ = .ok (.blockKey 0x3F) ∧
    decodeWrite ⟨0x00C, 0b00000000000000000010010000010010⟩ = .ok (.blkEnc 0x24) ∧
    decodeWrite ⟨0x00C, 0b00000000000000000000100000010011⟩ = .ok (.blkDec 0x08) := by
  decide +kernel

theorem test_decode_codec :
    decodeWrite ⟨0x00C, 0b00000000000000000000000000100000⟩ = .ok .hdrCheck ∧
    decodeWrite ⟨0x00C, 0b00000000000000000000000000100001⟩ = .ok .hdrSeal ∧
    decodeWrite ⟨0x00C, 0b00000000000000000000000000100010⟩ = .ok .p1Check ∧
    decodeWrite ⟨0x00C, 0b00000000000000000000000000100011⟩ = .ok .p1Seal ∧
    decodeWrite ⟨0x00C, 0b00000000000000000000000000100100⟩ = .ok .p2Check ∧
    decodeWrite ⟨0x00C, 0b00000000000000000000000000100101⟩ = .ok .p2Seal ∧
    decodeWrite ⟨0x00C, 0b00000000000000000000000000101011⟩ = .ok .nickUnpack ∧
    decodeWrite ⟨0x00C, 0b00000000000000000000000000101100⟩ = .ok .nickPack := by
  decide +kernel

theorem test_decode_fields :
    decodeWrite ⟨0x00C, 0b00000000000000000001000100100110⟩ = .ok (.fieldGet 0x11 0) ∧
    decodeWrite ⟨0x00C, 0b00000000000000010001000100100111⟩ = .ok (.fieldPut 0x11 1) ∧
    decodeWrite ⟨0x00C, 0b00000000000000100001100000101000⟩ = .ok (.bitGet 0x18 2) ∧
    decodeWrite ⟨0x00C, 0b00000000000010010001011100101001⟩ = .ok (.bitSet 0x17 9) ∧
    decodeWrite ⟨0x00C, 0b00000000000101110100101100101010⟩ = .ok (.bitClr 0x4B 23) := by
  decide +kernel

theorem test_decode_arbiter :
    decodeWrite ⟨0x00C, 0b00000000000000000000011100110000⟩ = .ok (.blockMap 7 .a) ∧
    decodeWrite ⟨0x00C, 0b00000000000000000001101000110000⟩ = .ok (.blockMap 10 .b) ∧
    decodeWrite ⟨0x00C, 0b00000000000000000000000000110001⟩ = .ok .seqReconcile ∧
    decodeWrite ⟨0x00C, 0b00000000000000000000000000110010⟩ = .ok .readRecord ∧
    decodeWrite ⟨0x00C, 0b00000000000000000000000000110011⟩ = .ok (.writeRecord false) ∧
    decodeWrite ⟨0x00C, 0b00000000000000000000000100110011⟩ = .ok (.writeRecord true) := by
  decide +kernel

theorem test_decode_bus_operations :
    decodeWrite ⟨0x01C, 0xFFFFFF00⟩ = .ok (.crc16DataWrite 0xFFFFFF00) ∧
    decodeWrite ⟨0x028, 0x00000001⟩ = .ok (.crc48DataWrite 1) ∧
    decodeWrite ⟨0x018, 0x00000001⟩ = .error .notAnInstruction := by
  decide +kernel

/-- V-ENC-2 to V-ENC-8, V-ENC-10, V-ENC-11, V-CRC16-21, V-FLD-17, V-MAP-5. -/
theorem test_decode_rejects :
    ([0x00000100, 0x00000008, 0x000000FF, 0x0000002D, 0x00000034, 0x00010001, 0x00011010] ++
      [0x00000233, 0x00000132, 0x0E000103, 0x01001126, 0x00002030]).all
        (fun w => (decodeTableWord 32 w).isNone) = true := by
  decide +kernel

/-- The host's numbering and the placed word: NOP runs as the first instruction after reset. -/
theorem test_fetch_word_runs_first :
    decodeTableWord 32 0x01E10002 = some (.crc16Run 0x100 0x1E) ∧
    step (State.reset.withFetchWord 32 0) = .next { State.reset with done := true } := by
  exact ⟨by decide +kernel, rfl⟩

/-! Single steps. -/

/-- Whether an instruction's next state has a property. -/
def after (i : Instr) (s : State) (p : State → Bool) : Bool :=
  match exec i s with
  | .next t => p t
  | .fault _ => false
  | .refused _ => false

/-- A state with bytes placed in a buffer. -/
def placed (b : Buffer) (o : Nat) (bs : List Byte) (s : State) : State := s.bufWrite b o bs

/-- V-HDR-2: the header X. -/
def headerX : List Byte :=
  [1, 2, 3, 4, 0, 0, 0, 0, 0, 0, 0, 0, 0, 0, 0, 0] ++
  [0x1C, 0, 0, 0, 0x88, 0x77, 0x66, 0x55, 0x44, 0x33, 0x22, 0x11, 0, 0, 0x1E, 0x30]

/-- V-P1-3: the record Y, part 1. -/
def recordY1 : List Byte :=
  [0xE8, 3, 0, 0xF4, 1, 0, 0, 0, 0, 3, 0x46, 0xE0, 0, 0x1F, 0x4B, 0x1C] ++
  [0, 0, 0, 0, 0, 0, 1, 0, 0, 0, 0, 0, 0, 0, 0, 0] ++
  [0x53, 0, 0x70, 0, 0x79, 0, 0x72, 0, 0x6F, 0, 0, 0, 0, 0, 0, 0] ++ zeros 64

/-- V-P2-2: the record Y, part 2. -/
def recordY2 : List Byte := [0x88, 0x70, 3, 0x4D] ++ zeros 60

def withY : State := placed .p2 0 recordY2 (placed .p1 0 recordY1 (placed .hdr 0 headerX State.reset))

/-- V-ENC-1. -/
theorem test_nop : after .nop State.reset (fun t => t.statusWord == 0x200) = true := by
  decide +kernel

/-- V-CRC16-27. -/
theorem test_crc16Init :
    after .crc16Init { State.reset with crc16 := 0x1234 } (fun t => t.crc16 == 0xFFFF) = true := by
  decide +kernel

/-- V-CRC16-27. -/
theorem test_crc16Run :
    after (.crc16Run 0x100 0x1E) State.reset (fun t => t.crc16 == 0x2A45) = true := by
  decide +kernel

/-- V-CRC16-19. -/
theorem test_crc16Run_illegal_range :
    after (.crc16Run 0x180 0xC0) State.reset
      (fun t => t.crc16 == 0xFFFF && t.statusWord == 0x202) = true := by
  decide +kernel

/-- V-CRC16-7. -/
theorem test_crc16Zero :
    after (.crc16Zero 2) State.reset (fun t => t.crc16 == 0x1D0F) = true := by
  decide +kernel

/-- V-CRC16-5. -/
theorem test_crc16Const :
    after (.crc16Const 0x41) State.reset (fun t => t.crc16 == 0xB915) = true := by
  decide +kernel

/-- V-CRC48-11. -/
theorem test_crc48Init :
    after .crc48Init { State.reset with crc48 := 0 }
      (fun t => t.crc48LoWord == 0x03260CC4 && t.crc48HiWord == 0x9AE9) = true := by
  decide +kernel

/-- V-CRC48-5. -/
theorem test_crc48Run :
    after (.crc48Run 0x070 9)
      (placed .name 0 [0x31, 0x32, 0x33, 0x34, 0x35, 0x36, 0x37, 0x38, 0x39] State.reset)
      (fun t => t.crc48 == 0xA3B83FBFAD0A) = true := by
  decide +kernel

/-- R166 with R160: 0x044 is reserved (V-CRC16-18 for CRC16_RUN). -/
theorem test_crc48Run_illegal_range :
    after (.crc48Run 0x044 4) State.reset
      (fun t => t.crc48 == 0x9AE903260CC4 && t.statusWord == 0x202) = true := by
  decide +kernel

/-- V-CRC48-12. -/
theorem test_crc48Const :
    after (.crc48Const 0) State.reset (fun t => t.crc48 == 0xB40D2BBC99CE) = true := by
  decide +kernel

/-- V-KEY-6. -/
theorem test_sectorKey :
    after (.sectorKey 1) (placed .uid 0 [1, 2, 3, 4] State.reset)
      (fun t => t.res0 == 0xC87C5AE2 && t.res1 == 0xA7BD &&
        t.buf .skey == [0xE2, 0x5A, 0x7C, 0xC8, 0xBD, 0xA7]) = true := by
  decide +kernel

/-- Section 2.3: `key.sector 16`. -/
theorem test_sectorKey_bad_argument :
    after (.sectorKey 16) { State.reset with res0 := 7 }
      (fun t => t.res0 == 7 && t.statusWord == 0x202) = true := by
  decide +kernel

/-- R184's check value of MD5("abc"), section 2.3. -/
theorem test_md5 :
    md5 [0x61, 0x62, 0x63] =
      [0x90, 0x01, 0x50, 0x98, 0x3C, 0xD2, 0x4F, 0xB0] ++
      [0xD6, 0x96, 0x3F, 0x7D, 0x28, 0xE1, 0x7F, 0x72] := by
  decide +kernel

/-- V-KEY-22. -/
theorem test_blockKey_bad_argument :
    after (.blockKey 0x40) State.reset
      (fun t => t.buf .bkey == zeros 16 && t.statusWord == 0x202) = true := by
  decide +kernel

/-- V-KEY-25: no block number below 64 is refused. -/
theorem test_blockKey_of_trailer :
    after (.blockKey 3) State.reset (fun t => t.statusWord == 0x200) = true := by
  decide +kernel

/-- R192: a block number above 63. -/
theorem test_blkEnc_bad_argument :
    after (.blkEnc 0x40) State.reset (fun t => t.statusWord == 0x202) = true := by
  decide +kernel

theorem test_blkEnc_completes :
    after (.blkEnc 0x3F) State.reset (fun t => t.statusWord == 0x200) = true := by
  decide +kernel

/-- R193: a block number above 63. -/
theorem test_blkDec_bad_argument :
    after (.blkDec 0x40) State.reset (fun t => t.statusWord == 0x202) = true := by
  decide +kernel

theorem test_blkDec_completes :
    after (.blkDec 0x24) State.reset (fun t => t.statusWord == 0x200) = true := by
  decide +kernel

/-- V-HDR-1. -/
theorem test_hdrCheck_zero_header :
    after .hdrCheck State.reset
      (fun t => t.res0 == 0x2A45 && t.res1 == 0 && t.statusWord == 0x210) = true := by
  decide +kernel

/-- V-HDR-2. -/
theorem test_hdrCheck :
    after .hdrCheck withY
      (fun t => t.res0 == 0x301E && t.res1 == 0x301E && t.statusWord == 0x200) = true := by
  decide +kernel

/-- V-HDR-3. -/
theorem test_hdrSeal :
    after .hdrSeal (placed .hdr 0x10 [0x1D] withY)
      (fun t => t.res0 == 0x4B7F && slice (t.buf .hdr) 0x1E 0x20 == [0x7F, 0x4B]) = true := by
  decide +kernel

set_option maxRecDepth 20000 in
/-- V-P1-4. -/
theorem test_p1Check_all_mismatch :
    after .p1Check (placed .p1 0x0A (zeros 6) withY)
      (fun t => t.res0 == 0x1F00AFE4 && t.res1 == 0x7E046 && t.statusWord == 0x211) = true := by
  decide +kernel

set_option maxRecDepth 20000 in
/-- V-P1-9. -/
theorem test_p1Check_wrong_order :
    after .p1Check (placed .p1 0x0E [0xE4, 0xAF] withY)
      (fun t => t.res0 == 0x1F001C4B && t.res1 == 0x1E046 && t.statusWord == 0x211) = true := by
  decide +kernel

set_option maxRecDepth 20000 in
/-- V-P1-2. -/
theorem test_p1Seal_zero_record :
    after .p1Seal State.reset
      (fun t => t.res0 == 0xDF9DFFBE && t.res1 == 0xE046 &&
        slice (t.buf .p1) 0x0A 0x10 == [0x46, 0xE0, 0x9D, 0xDF, 0xBE, 0xFF]) = true := by
  decide +kernel

set_option maxRecDepth 20000 in
/-- V-P1-6. -/
theorem test_p1Seal :
    after .p1Seal (placed .p1 0x6C [1] withY)
      (fun t => slice (t.buf .p1) 0x0A 0x10 == [0xE1, 0x5B, 0, 0x1F, 0xE3, 0xF7]) = true := by
  decide +kernel

/-- V-P2-1. -/
theorem test_p2Check_zero_record :
    after .p2Check State.reset
      (fun t => t.res0 == 0x2088 && t.res1 == 0 && t.statusWord == 0x212) = true := by
  decide +kernel

/-- V-P2-2. -/
theorem test_p2Check :
    after .p2Check withY
      (fun t => t.res0 == 0x7088 && t.res1 == 0x7088 && t.statusWord == 0x200) = true := by
  decide +kernel

/-- V-P2-3. -/
theorem test_p2Seal :
    after .p2Seal (placed .p2 2 [4] withY)
      (fun t => slice (t.buf .p2) 0 4 == [0xBD, 3, 4, 0x4D]) = true := by
  decide +kernel

/-- V-FLD-4. -/
theorem test_fieldGet :
    after (.fieldGet 0x02 0) withY
      (fun t => t.fvalLo == 0x55667788 && t.fvalHi == 0x11223344) = true := by
  decide +kernel

/-- V-FLD-7. -/
theorem test_fieldGet_bit_operand :
    after (.fieldGet 0x11 1) withY (fun t => t.statusWord == 0x202 && t.fval == 0) = true := by
  decide +kernel

/-- V-FLD-2. -/
theorem test_fieldPut :
    after (.fieldPut 0x11 0) { withY with fval := 600 }
      (fun t => slice (t.buf .p1) 2 6 == [0, 0x58, 2, 0]) = true := by
  decide +kernel

/-- V-FLD-5. -/
theorem test_fieldPut_too_large :
    after (.fieldPut 0x10 0) { withY with fval := 0x01000000 }
      (fun t => t.statusWord == 0x202 && t.buf .p1 == recordY1) = true := by
  decide +kernel

/-- V-FLD-8. -/
theorem test_bitGet :
    after (.bitGet 0x18 2) (placed .p1 0x13 [4] State.reset) (fun t => t.res0 == 1) = true := by
  decide +kernel

/-- V-FLD-9. -/
theorem test_bitGet_bad_index :
    after (.bitGet 0x18 8) (placed .p1 0x13 [4] State.reset)
      (fun t => t.statusWord == 0x202) = true := by
  decide +kernel

/-- V-FLD-10. -/
theorem test_bitSet :
    after (.bitSet 0x17 9) State.reset
      (fun t => slice (t.buf .p1) 0x0F 0x14 == [0, 0, 2, 0, 0]) = true := by
  decide +kernel

/-- V-FLD-11. -/
theorem test_bitClr :
    after (.bitClr 0x4B 23) (placed .p2 0x13 [0xFF, 0xFF, 0xFF, 0xFF, 0xFF] State.reset)
      (fun t => slice (t.buf .p2) 0x13 0x18 == [0xFF, 0xFF, 0xFF, 0x7F, 0xFF]) = true := by
  decide +kernel

/-- V-FLD-15. -/
theorem test_nickUnpack_broken_interleave :
    after .nickUnpack (placed .p1 0x21 [1] withY)
      (fun t => t.res0 == 5 && t.res1 == 1 &&
        t.buf .name == [0x53, 0x70, 0x79, 0x72, 0x6F] ++ zeros 11) = true := by
  decide +kernel

/-- V-FLD-16. -/
theorem test_nickUnpack_sixteen :
    after .nickUnpack (placed .p1 0x20 ((List.replicate 16 [0x41, 0]).flatten) State.reset)
      (fun t => t.res0 == 16 && t.res1 == 0 && t.statusWord == 0x200) = true := by
  decide +kernel

/-- V-FLD-13. -/
theorem test_nickPack :
    after .nickPack (placed .name 0 [0x53, 0x70, 0x79, 0x72, 0x6F] State.reset)
      (fun t => t.res0 == 5 && slice (t.buf .p1) 0x20 0x2C ==
        [0x53, 0, 0x70, 0, 0x79, 0, 0x72, 0, 0x6F, 0, 0, 0]) = true := by
  decide +kernel

/-- V-FLD-14. -/
theorem test_nickPack_too_long :
    after .nickPack (placed .name 0 (List.replicate 15 0x41) State.reset)
      (fun t => t.statusWord == 0x202 && t.buf .p1 == zeros 112) = true := by
  decide +kernel

/-- V-MAP-4. -/
theorem test_blockMap_bad_index :
    after (.blockMap 11 .a) { State.reset with res0 := 7 }
      (fun t => t.res0 == 7 && t.statusWord == 0x202) = true := by
  decide +kernel

/-- V-MAP-2 and V-MAP-3, for EX's bases. -/
theorem test_mapBlock : mapBlock 0x08 7 = 0x11 ∧ mapBlock 0x24 10 = 0x31 := by decide

/-- V-REC-2. -/
theorem test_seqReconcile :
    after .seqReconcile { State.reset with fval := 0x00030504 }
      (fun t => t.res0 == 2 && t.res1 == 0xFF && t.statusWord == 0x200) = true := by
  decide +kernel

/-- V-REC-5. -/
theorem test_seqReconcile_ambiguous :
    after .seqReconcile { State.reset with fval := 0x00030205, eqPolicy := true }
      (fun t => t.res0 == 3 && t.res1 == 3 && t.statusWord == 0x230) = true := by
  decide +kernel

/-- V-WC-3 and V-WC-8. -/
theorem test_writeCurrent :
    staleRegion 0 255 = .b ∧ nextSequence 0 255 = 1 ∧
    staleRegion 250 3 = .b ∧ nextSequence 250 3 = 251 := by
  decide +kernel

/-- The position waited at, with the block and whether the request writes. -/
def waitsFor (s : State) : Option (Position × Nat × Bool) :=
  match s.phase with
  | .busy _ pos (some req) => some (pos, req.block, req.op.isWrite)
  | .busy _ _ none => none
  | .idle => none

/-- P-1: the first transaction of `rec.read` is rd00. -/
theorem test_readRecord_begins :
    after .readRecord { State.reset with recon := 5, seq := 6 }
      (fun t => waitsFor t == some (.readHdr0, 0, false) && t.recon == 0 && t.seq == 0 &&
        t.statusWord == 0x100) = true := by
  decide +kernel

/-- V-PORT-4: rd01 answered LOST. -/
theorem test_readRecord_lost :
    (onAnswer .lost { State.reset with
      phase := .busy 0x32 (.readHdr1 (toVec 16 headerX))
        (some ⟨1, .read, Config.sector0Key⟩) }).xstat = 0x00021001 := by
  decide +kernel

/-- P-3: the first transaction of `rec.write 0` is rd00. -/
theorem test_writeRecord_begins :
    after (.writeRecord false) { State.reset with res0 := 5, res1 := 6, seq := 7 }
      (fun t => waitsFor t == some (.wrRefresh0 false, 0, false) && t.res0 == 0 && t.res1 == 0 &&
        t.seq == 0) = true := by
  decide +kernel

/-- V-PORT-13: rd01 answered with another identity block. -/
theorem test_writeRecord_mismatch :
    (onAnswer (.ok (toVec 16 (slice headerX 16 32))) { placed .hdr 0x10 [0x1D] withY with
      phase := .busy 0x33 (.wrRefresh1 false (toVec 16 (slice headerX 0 16)))
        (some ⟨1, .read, Config.sector0Key⟩) }).xstat = 0x00008001 := by
  decide +kernel

/-- V-CRC16-26. -/
theorem test_crc16DataWrite :
    after (.crc16DataWrite 0xFFFFFF00) State.reset
      (fun t => t.crc16 == 0xE1F0 && t.statusWord == 0) = true := by
  decide +kernel

/-- V-CRC48-13. -/
theorem test_crc48DataWrite :
    after (.crc48DataWrite 1) { State.reset with crc48 := 0 }
      (fun t => t.crc48 == 0xE1EBA9EA3693 && t.statusWord == 0) = true := by
  decide +kernel

/-! The host bus (V-BUS). -/

/-- The machine with one move to come. -/
def facing (e : Event) (s : State) : State := { s with inputs := [e] }

/-- What a host read returns and leaves in STATUS. -/
def reads (addr : BitVec 12) (n : Width) (s : State) : Option (Word × Word) :=
  match step (facing (.hostRead addr n) s) with
  | .next t => some (t.readData, t.statusWord)
  | .fault _ => none
  | .refused _ => none

/-- STATUS after a host write. -/
def writes (addr : BitVec 12) (n : Width) (v : Word) (s : State) : Option Word :=
  match step (facing (.hostWrite addr n v) s) with
  | .next t => some t.statusWord
  | .fault _ => none
  | .refused _ => none

/-- V-BUS-1, V-BUS-4 to V-BUS-9, V-BUS-14, V-BUS-15. -/
theorem test_bus_reads :
    reads 0x000 .w4 State.reset = some (0x00014E46, 0) ∧
    reads 0x002 .w4 State.reset = some (0, 0x400) ∧
    reads 0x008 .w1 State.reset = some (0, 0x400) ∧
    reads 0x041 .w2 State.reset = some (0, 0x400) ∧
    reads 0x044 .w4 State.reset = some (0, 0x400) ∧
    reads 0x040 .w1 (placed .uid 0 [1, 2, 3, 4] State.reset) = some (1, 0) ∧
    reads 0x00C .w4 State.reset = some (0, 0) ∧
    reads 0x018 .w4 State.reset = some (0xFFFF, 0) ∧
    reads 0x024 .w4 State.reset = some (0x9AE9, 0) := by
  decide +kernel

/-- V-BUS-2, V-BUS-3, V-BUS-10, V-BUS-11, V-BUS-17, and V-BUS-19, V-BUS-20 while BUSY. -/
theorem test_bus_writes :
    writes 0x000 .w4 0 State.reset = some 0x400 ∧
    writes 0x008 .w4 0x400 { State.reset with busErr := true } = some 0 ∧
    writes 0x010 .w4 5 State.reset = some 0x400 ∧
    writes 0x300 .w1 1 State.reset = some 0x400 ∧
    writes 0x008 .w4 0xFFFFFFFF { State.reset with done := true, err := .badArg } = some 2 ∧
    writes 0x00C .w4 0 { State.reset with
      phase := .busy 0x32 .readHdr0 (some ⟨0, .read, Config.sector0Key⟩) } = some 0x900 ∧
    writes 0x180 .w1 0 { State.reset with
      phase := .busy 0x32 .readHdr0 (some ⟨0, .read, Config.sector0Key⟩) } = some 0x500 := by
  decide +kernel

/-! Pseudo-instructions (R119): the words of P-5. -/

theorem test_expand_c4Calc :
    programEvents (expand .c4Calc) =
      [.hostWrite 0x00C .w4 0x00000001, .hostWrite 0x00C .w4 0x00000604,
       .hostWrite 0x00C .w4 0x00000104, .hostWrite 0x00C .w4 0x03E20202] := by
  decide +kernel

/-! Witnesses: for each statement with hypotheses, states and operands that meet them together, at the
boundaries of each clause. -/

/-- The machine with a command word accepted and not yet begun. -/
def begun (w : Word) : State := accept w State.reset

/-- The machine waiting for the answer to a request. -/
def waiting (w : Word) (pos : Position) (n : Nat) (op : PortOp) : State :=
  { State.reset with phase := .busy w pos (some ⟨n, op, Config.sector0Key⟩) }

/-- A state with these moves to come. -/
def facingAll (s : State) (es : List Event) : State := { s with inputs := es }

theorem test_witness_DecodedWordIsEncoded :
    decode 0x01E10002 = .ok (.crc16Run 0x100 0x1E) ∧ decode 0xFFFFFF02 = .ok (.crc16Run 0xFFF 0xFFF) := by
  decide +kernel

/-- The three steps at their boundaries: opcodes 0x08 and 0xFF, the lowest and the highest reserved bit,
SECTOR_KEY 16; and a command of each ending. -/
theorem test_witness_DecodingThreeSteps :
    ((begun 0x08).fetch = some 0x08 ∧ opOf ((0x08 : Word).extractLsb' 0 8) = none) ∧
    ((begun 0xFF).fetch = some 0xFF ∧ opOf ((0xFF : Word).extractLsb' 0 8) = none) ∧
    ((begun 0x00011010).fetch = some 0x00011010 ∧
      opOf ((0x00011010 : Word).extractLsb' 0 8) = some .sectorKey ∧
      (0x00011010 : Word) &&& Op.sectorKey.format.reserved ≠ 0) ∧
    ((begun 0x80000020).fetch = some 0x80000020 ∧
      opOf ((0x80000020 : Word).extractLsb' 0 8) = some .hdrCheck ∧
      (0x80000020 : Word) &&& Op.hdrCheck.format.reserved ≠ 0) ∧
    ((begun 0x1010).fetch = some 0x1010 ∧
      opOf ((0x1010 : Word).extractLsb' 0 8) = some .sectorKey ∧
      (0x1010 : Word) &&& Op.sectorKey.format.reserved = 0 ∧
      (assemble .sectorKey 0x1010).wellFormed = false) := by
  decide +kernel

theorem test_witness_DecodingThreeSteps_endings :
    (begun 0x1010).err = .ok ∧
    step (begun 0x1010) = .next (finish .badArg (begun 0x1010)) ∧
    (begun 0x08).err = .ok ∧ step (begun 0x08) = .next (finish .illegal (begun 0x08)) :=
  ⟨rfl, rfl, rfl, rfl⟩

theorem test_witness_IllegalOpcodesExactly :
    (begun 0x34).fetch = some 0x34 ∧ opOf ((0x34 : Word).extractLsb' 0 8) = none := by
  decide +kernel

theorem test_witness_OnlyTheZeroWordIsNop :
    (begun 0).fetch = some 0 ∧ (0 : Word).extractLsb' 0 8 = 0 ∧
    (begun 0x100).fetch = some 0x100 ∧ (0x100 : Word).extractLsb' 0 8 = 0 ∧ (0x100 : Word) ≠ 0 := by
  decide +kernel

theorem test_witness_StepRunsDecodedInstruction :
    ((begun 0x20).fetch = some 0x20 ∧ decode 0x20 = .ok .hdrCheck) ∧
    ((facingAll State.reset [.hostWrite 0x01C .w4 5]).fetch = none ∧
      busOperation ⟨0x01C, 5⟩ = some (.crc16DataWrite 5)) := by
  decide +kernel

theorem test_witness_AcceptanceAndOverrun :
    (facingAll State.reset [.hostWrite 0x00C .w4 0x32]).phase = .idle ∧
    (facingAll (waiting 0x32 .readHdr0 0 .read) [.hostWrite 0x00C .w4 0]).busy = true ∧
    (facingAll (waiting 0x32 .readHdr0 0 .read) [.hostWrite 0x00C .w4 0]).fetch = none :=
  ⟨rfl, rfl, rfl⟩

theorem test_witness_LocalCommandCompletesInOneStep :
    isPortCommand (.crc16Run 0x100 0x1E) = false ∧ isBusOperation (.crc16Run 0x100 0x1E) = false ∧
    (facingAll State.reset [.hostWrite 0x00C .w4 (encode (.crc16Run 0x100 0x1E)).word]).phase =
      .idle :=
  ⟨rfl, rfl, rfl⟩

/-- A read of block 1 outstanding, with bytes in UID and on the tag. -/
def waitingWith (es : List Event) : State :=
  { waiting 0x32 (.readHdr1 (toVec 16 headerX)) 1 .read with
    mem := [(0x040, 1), (0x1EF, 2)], tag := [(0, 1), (1023, 0xFF)], inputs := es }

theorem waitingWith_inv (es : List Event) : (waitingWith es).Inv where
  memWf := by simp only [waitingWith]; decide
  tagWf := by simp only [waitingWith]; decide
  memInRam := by simp only [waitingWith]; decide
  tagInDump := by simp only [waitingWith]; decide
  phaseLegal := ⟨by decide, rfl, rfl, by decide⟩
  requestKeyed := by
    intro w pos req h
    cases h
    exact ⟨fun _ => rfl, fun h => absurd (by decide) h⟩
  busyQuiet := fun _ => ⟨rfl, rfl⟩

/-- A state with the invariant that is not the reset state. -/
def waitingWithTag : State := waitingWith [.answer .lost]

theorem test_witness_invariant : waitingWithTag.Inv := waitingWith_inv _

/-- StepKeepsInvariant, GuardNeverTrips, Block0AndTrailersNeverWritten. -/
theorem test_witness_step_from_invariant :
    waitingWithTag.Inv ∧
    (∃ t, step waitingWithTag = .next t ∧ t.err = .transportLost) ∧
    (∀ b d, waitingWithTag.inputs.head? ≠ some (.tagChanges b d)) ∧
    portGuard 0 (.write (toVec 16 [])) = false ∧ portGuard 63 .read = false ∧
    portGuard 64 .read = false ∧ 63 < 64 :=
  ⟨test_witness_invariant, ⟨_, rfl, rfl⟩, by simp [waitingWithTag, waitingWith], by decide, by decide,
    by decide, by decide⟩

theorem test_witness_ResetEventFromEveryState :
    (facingAll (waiting 0x32 .readHdr0 0 .read) [.reset]).fetch = none ∧
    (facingAll State.reset [.staleAnswer .lost]).fetch = none ∧
    (facingAll (waiting 0x32 .readHdr0 0 .read) [.staleAnswer .lost]).fetch = none ∧
    (facingAll State.reset [.answer (.ok (toVec 16 []))]).phase = .idle :=
  ⟨rfl, rfl, rfl, rfl⟩

theorem test_witness_InterruptFollowsCompletion :
    isPortCommand .hdrCheck = false ∧ isBusOperation .hdrCheck = false ∧
    ({ State.reset with irqEn := true, done := true, inputs :=
      [.hostWrite 0x00C .w4 (encode .hdrCheck).word, .hostWrite 0x008 .w4 0x200] } : State).phase =
        .idle :=
  ⟨rfl, rfl, rfl⟩

/-- The later clauses: a port command that an answer completes, and a write to CTRL. -/
theorem test_witness_InterruptFollowsCompletion_clauses :
    (waitingWithTag.Inv ∧ waitingWithTag.busy = true) ∧
    (waitingWithTag.inputs.head? ≠ some .reset ∧
      ∃ t, step waitingWithTag = .next t ∧ t.busy = false) ∧
    (facingAll { State.reset with irqEn := true, done := true } [.hostWrite 0x004 .w4 1]).phase =
      .idle :=
  ⟨⟨test_witness_invariant, rfl⟩, ⟨by simp [waitingWithTag, waitingWith], _, rfl, rfl⟩, rfl⟩

theorem test_witness_StatusRegister :
    (facingAll State.reset [.hostWrite 0x008 .w4 0x200]).fetch = none ∧
    (facingAll (waiting 0x32 .readHdr0 0 .read) [.hostRead 0x008 .w4]).fetch = none :=
  ⟨rfl, rfl⟩

theorem not_wellFormed (addr : BitVec 12) (n : Width)
    (h1 : ¬ (addr.toNat < 0x040 ∧ n.bytes = 4 ∧ addr.toNat % 4 = 0))
    (h2 : ¬ (0x040 ≤ addr.toNat ∧ addr.toNat % n.bytes = 0 ∧
      ∃ b ∈ allBuffers, ∀ k < n.bytes, b.holds (addr.toNat + k) = true)) :
    ¬ AccessWellFormed addr n := by
  rintro (h | ⟨ha, hb, b, hc⟩)
  · exact h1 h
  · exact h2 ⟨ha, hb, b, by cases b <;> decide, hc⟩

/-- Each refusal: a misaligned and a narrow register access, a buffer's last byte passed, a reserved
address; and the targets of the other clauses. -/
theorem test_witness_RefusedAccessSetsBusErrOnly :
    ¬ AccessWellFormed 0x002 .w4 ∧ ¬ AccessWellFormed 0x008 .w1 ∧ ¬ AccessWellFormed 0x534 .w2 ∧
    ¬ AccessWellFormed 0x044 .w1 ∧
    (target 0x000 .w4 = some (.reg .id) ∧ target 0x03C .w4 = some (.reg .xstat)) ∧
    (target 0x3AC .w4 = some (.buf .ra) ∧ target 0x545 .w1 = some (.buf .k0)) ∧
    (target 0x1EF .w1 = some (.buf .p1) ∧ (waiting 0x32 .readHdr0 0 .read).busy = true ∧
      (waiting 0x32 .readHdr0 0 .read).fetch = none) ∧
    (target 0x00C .w4 = some (.reg .cmd) ∧ State.reset.busy = false ∧ State.reset.fetch = none) := by
  refine ⟨not_wellFormed _ _ (by decide) (by decide), not_wellFormed _ _ (by decide) (by decide),
    not_wellFormed _ _ (by decide) (by decide), not_wellFormed _ _ (by decide) (by decide),
    ⟨by decide, by decide⟩, ⟨by decide, by decide⟩, ⟨by decide, rfl, rfl⟩, ⟨by decide, rfl, rfl⟩⟩

/-- The tables' first and last rows, and an idle read of a register and of a read-only buffer's last
bytes. -/
theorem test_witness_AccessHasTargetWhenWellFormed :
    (0x03C, Register.xstat) ∈ registerTable ∧ (Buffer.k0, 0x540, 6) ∈ bufferTable ∧
    (facingAll State.reset [.hostRead 0x02C .w4]).phase = .idle ∧
    ((0x02C : BitVec 12), State.reset.recon) ∈ State.reset.registerValues ∧
    (0x544 : BitVec 12).toNat % Width.w2.bytes = 0 ∧ 0x540 ≤ (0x544 : BitVec 12).toNat ∧
    (0x544 : BitVec 12).toNat + Width.w2.bytes ≤ 0x540 + 6 :=
  ⟨by decide, by decide, rfl, by decide, by decide, by decide, by decide⟩

theorem test_witness_BusyAccesses :
    (waiting 0x32 .readHdr0 0 .read).busy = true ∧ (waiting 0x32 .readHdr0 0 .read).fetch = none ∧
    target 0x000 .w4 = some (.reg .id) ∧ target 0x010 .w4 = some (.reg .res0) ∧
    target 0x008 .w4 = some (.reg .status) ∧ target 0x00C .w4 = some (.reg .cmd) ∧
    target 0x23F .w1 = some (.buf .p2) :=
  ⟨rfl, rfl, by decide, by decide, by decide, by decide, by decide⟩

theorem test_witness_HostReadHasNoSideEffect :
    (facingAll State.reset [.hostRead 0x044 .w4]).fetch = none ∧
    (waiting 0x32 .readHdr0 0 .read).fetch = none :=
  ⟨rfl, rfl⟩

theorem test_witness_BufferWriteReadsBack :
    State.reset.phase = .idle ∧ target 0x1EE .w2 = some (.buf .p1) ∧
    target 0x040 .w4 = some (.buf .uid) ∧ target 0x23F .w1 = some (.buf .p2) :=
  ⟨rfl, by decide, by decide, by decide⟩

theorem test_witness_RegisterWriteReadsBack :
    (facingAll State.reset [.hostWrite 0x034 .w4 0xFFFFFFFF, .hostRead 0x034 .w4]).phase = .idle :=
  rfl

theorem readable_of (a n : Nat) (h : a + n ≤ 0x1000)
    (hb : ∀ k < n, (allBuffers.any fun b => b.holds (a + k)) = true) : RangeReadable a n := by
  refine .inr ⟨h, fun k hk => ?_⟩
  obtain ⟨b, _, hb'⟩ := List.any_eq_true.1 (hb k hk)
  exact ⟨b, hb'⟩

theorem not_readable_of (a n k : Nat) (hk : k < n)
    (hb : (allBuffers.any fun b => b.holds (a + k)) = false) : ¬ RangeReadable a n := by
  rintro (h | ⟨_, h⟩)
  · omega
  · obtain ⟨b, h⟩ := h k hk
    have hm : b ∈ allBuffers := by cases b <;> decide
    rw [List.any_eq_false] at hb
    exact hb b hm h

/-- The empty range anywhere, a whole buffer, two adjacent buffers; one byte past a buffer, a register
byte, the end of the space. -/
theorem test_witness_CrcRunResults :
    RangeReadable (0xFFF : BitVec 12).toNat (0 : BitVec 12).toNat ∧
    RangeReadable (0x180 : BitVec 12).toNat (0x70 : BitVec 12).toNat ∧
    RangeReadable (0x050 : BitVec 12).toNat (0x20 : BitVec 12).toNat ∧
    ¬ RangeReadable (0x180 : BitVec 12).toNat (0x71 : BitVec 12).toNat ∧
    ¬ RangeReadable (0x03C : BitVec 12).toNat (8 : BitVec 12).toNat ∧
    ¬ RangeReadable (0xFFF : BitVec 12).toNat (1 : BitVec 12).toNat := by
  refine ⟨.inl rfl, readable_of _ _ (by decide) (by decide +kernel),
    readable_of _ _ (by decide) (by decide +kernel),
    not_readable_of _ _ 0x70 (by decide) (by decide),
    not_readable_of _ _ 0 (by decide) (by decide), not_readable_of _ _ 0 (by decide) (by decide)⟩

/-- The third clause: an offset in the register block, and one at a reserved byte. -/
theorem test_witness_CrcRunResults_offsets :
    (3 < (8 : BitVec 12).toNat ∧ (0x03C : BitVec 12).toNat + 3 < 0x040) ∧
    (0x70 < (0x71 : BitVec 12).toNat ∧
      ∀ b : Buffer, b.holds ((0x180 : BitVec 12).toNat + 0x70) = false) :=
  ⟨by decide, by decide, fun b => by cases b <;> decide⟩

theorem test_witness_CrcDataWriteResults :
    State.reset.busy = false ∧ (waiting 0x32 .readHdr0 0 .read).busy = true ∧
    (facingAll State.reset [.hostWrite 0x01C .w1 5]).fetch = none ∧ Width.w1 ≠ .w4 :=
  ⟨rfl, rfl, rfl, by decide⟩

theorem test_witness_CrcRunsCompose :
    (0x180 : BitVec 12).toNat + (0x10 : BitVec 12).toNat < 4096 ∧
    (0x10 : BitVec 12).toNat + (0x60 : BitVec 12).toNat < 4096 ∧
    RangeReadable (0x180 : BitVec 12).toNat ((0x10 : BitVec 12) + 0x60).toNat :=
  ⟨by decide, by decide, readable_of _ _ (by decide) (by decide +kernel)⟩

theorem test_witness_CrcRegistersSurvive :
    writesCrc .p1Seal = false ∧ writesCrc (.sectorKey 1) = false ∧ writesCrc .readRecord = false :=
  ⟨rfl, rfl, rfl⟩

/-- SectorKeyResult, and BlockKeyResult and CipherCommandResults, on both sides of their bounds. -/
theorem test_witness_key_operands :
    (15 : Byte).toNat ≤ 15 ∧ (0 : Byte).toNat ≤ 15 ∧ 15 < (16 : Byte).toNat ∧
    (63 : Byte).toNat ≤ 63 ∧ 63 < (64 : Byte).toNat := by
  decide

theorem test_witness_EncryptThenDecryptRestoresBlk :
    ∃ t u : State, (63 : Byte).toNat ≤ 63 ∧ exec (.blkEnc 63) withY = .next t ∧
      t.buf .hdr = withY.buf .hdr ∧ exec (.blkDec 63) t = .next u := by
  refine ⟨_, _, by decide, rfl, ?_, rfl⟩
  have h : blockLegal 63 = true := by decide
  simp only [cipherStep, h, if_true]
  rw [finish_buf, buf_bufWrite_other _ .blk .hdr (by decide) _ _ (by simp [Buffer.size]),
    buf_bufWrite_other _ .bkey .hdr (by decide) _ _ (by simp [Buffer.size])]

/-- SealThenCheckPasses and SealIsIdempotent. -/
theorem test_witness_seals :
    (∃ t, exec .hdrSeal withY = .next t) ∧ (∃ t, exec .p1Seal withY = .next t) ∧
    ∃ t, exec .p2Seal withY = .next t :=
  ⟨⟨_, rfl⟩, ⟨_, rfl⟩, ⟨_, rfl⟩⟩

/-- FieldGetResult, FieldPutResult and FieldRoundTrip: a value of the full width, the first that does
not fit, an undefined id. -/
theorem test_witness_field_operands :
    fieldRow 0x11 = some ⟨0x11, "P1_MONEY", .p1, 0x03, 2⟩ ∧
    ({ State.reset with fval := 0xFFFF } : State).fval.toNat < 2 ^ (8 * 2) ∧
    2 ^ (8 * 2) ≤ ({ State.reset with fval := 0x10000 } : State).fval.toNat ∧
    fieldRow 0x06 = none ∧ fieldRow 0x2B = some ⟨0x2B, "P1_CHALLENGE_LEVEL", .p1, 0x6C, 4⟩ ∧
    fieldRow 0x2C = none := by
  decide +kernel

theorem test_witness_BitCommandResults :
    fieldRow 0x4B = some ⟨0x4B, "P2_HEROIC_HI", .p2, 0x14, 3⟩ ∧ (23 : Byte).toNat < 8 * 3 ∧
    (∀ r, fieldRow 0x4B = some r → 8 * r.width ≤ (24 : Byte).toNat) ∧
    (∀ r, fieldRow 0xFF = some r → 8 * r.width ≤ (0 : Byte).toNat) := by
  have h : fieldRow 0x4B = some ⟨0x4B, "P2_HEROIC_HI", .p2, 0x14, 3⟩ := by decide +kernel
  refine ⟨h, by decide, fun r hr => ?_, fun r hr => ?_⟩
  · rw [h] at hr
    cases hr
    decide
  · have h' : fieldRow 0xFF = none := by decide +kernel
    rw [h'] at hr
    cases hr

/-- A state whose NAME holds k characters 'A'. -/
def named (k : Nat) : State :=
  { State.reset with mem := (List.range k).map fun i => (0x070 + i, 0x41) }

/-- A state whose nickname field holds k characters 'A'. -/
def nicknamed (k : Nat) : State :=
  { State.reset with mem := (List.range k).map fun i => (0x1A0 + 2 * i, 0x41) }

theorem test_witness_NickUnpackResult :
    IsNameLength (fun k => (nicknamed 16).byte (0x1A0 + 2 * k)) 16 ∧
    IsNameLength (fun k => (nicknamed 0).byte (0x1A0 + 2 * k)) 0 := by
  constructor <;> exact ⟨by decide, by decide +kernel, by decide +kernel⟩

/-- NickPackResult and NickRoundTrip. -/
theorem test_witness_NickPackResult :
    (IsNameLength (fun k => (named 14).byte (0x070 + k)) 14 ∧ 14 ≤ 14) ∧
    (IsNameLength (fun k => (named 15).byte (0x070 + k)) 15 ∧ 14 < 15) ∧
    IsNameLength (fun k => (named 16).byte (0x070 + k)) 16 := by
  refine ⟨⟨⟨by decide, by decide +kernel, by decide +kernel⟩, by decide⟩,
    ⟨⟨by decide, by decide +kernel, by decide +kernel⟩, by decide⟩,
    ⟨by decide, by decide +kernel, by decide +kernel⟩⟩

/-- BlockMapResult, and the index bounds of BlockMapAvoidsTrailers. -/
theorem test_witness_block_map_operands :
    (10 : BitVec 4).toNat ≤ 10 ∧ 10 < (11 : BitVec 4).toNat ∧ 0 ≤ 10 := by
  decide

/-- The clauses of SeqReconcileResult: FVAL of V-REC-9, 7, 8, 1, 6, 4 and 5. -/
theorem test_witness_SeqReconcileResult :
    (((0x00000302 : BitVec 64).getLsbD 16 = false ∧ (0x00000302 : BitVec 64).getLsbD 17 = false) ∧
      ((0x00010507 : BitVec 64).getLsbD 16 = true ∧ (0x00010507 : BitVec 64).getLsbD 17 = false) ∧
      ((0x00020900 : BitVec 64).getLsbD 16 = false ∧ (0x00020900 : BitVec 64).getLsbD 17 = true)) ∧
    ((0x00030405 : BitVec 64).getLsbD 16 = true ∧ (0x00030405 : BitVec 64).getLsbD 17 = true ∧
      (5 : Byte) = 4 + 1 ∧ (0 : Byte) = 255 + 1 ∧ (5 : Byte) ≠ 2 ∧ (5 : Byte) ≠ 2 + 1 ∧
      (2 : Byte) ≠ 5 + 1 ∧ ({ State.reset with eqPolicy := true } : State).eqPolicy = true ∧
      State.reset.eqPolicy = false) := by
  decide

theorem test_witness_StaleWriteIsSelected :
    (0 : Byte) = 255 + 1 ∧ (5 : Byte) ≠ 2 + 1 ∧ (2 : Byte) ≠ 5 + 1 ∧
    (2 : Byte).toNat ≤ (5 : Byte).toNat ∧ (2 : Byte).toNat < (5 : Byte).toNat ∧
    staleRegion 4 5 = .a ∧ staleRegion 0 255 = .b ∧ staleRegion 2 5 = .a ∧ staleRegion 0 0 = .b := by
  decide +kernel

theorem test_witness_FailedTransactionEndsCommand :
    (facingAll (waiting 0x32 (.readRegion .b 10 true true false) 0x31 .read)
      [.answer .lost]).phase = .busy 0x32 (.readRegion .b 10 true true false)
        (some ⟨0x31, .read, Config.sector0Key⟩) ∧
    (waiting 0x33 (.wrPart1 true .a .b 6) 63 (.write (toVec 16 []))).phase =
      .busy 0x33 (.wrPart1 true .a .b 6) (some ⟨63, .write (toVec 16 []), Config.sector0Key⟩) ∧
    Position.abortsOnAuthFail (.wrPart1 true .a .b 6) = true ∧
    Position.abortsOnAuthFail .readHdr0 = true ∧ 63 < 64 :=
  ⟨rfl, rfl, rfl, rfl, by decide⟩

/-- Region A at its first block, and region B at its last with a failure recorded before. -/
theorem test_witness_AuthFailSkipsRegion :
    (facingAll (waiting 0x32 (.readRegion .a 0 true false false) 8 .read)
      [.answer .authFail]).phase = .busy 0x32 (.readRegion .a 0 true false false)
        (some ⟨8, .read, Config.sector0Key⟩) ∧
    (facingAll (waiting 0x32 (.readRegion .b 10 true false true) 0x31 .read)
      [.answer .authFail]).phase = .busy 0x32 (.readRegion .b 10 true false true)
        (some ⟨0x31, .read, Config.sector0Key⟩) ∧
    (facingAll (waiting 0x32 (.readRegion .a 10 true false false) 63 .read)
      (.answer .authFail :: (List.replicate 11 .idealAnswer ++ []))).phase =
        .busy 0x32 (.readRegion .a 10 true false false)
          (some ⟨63, .read, Config.sector0Key⟩) ∧ 63 < 64 :=
  ⟨rfl, rfl, rfl, by decide⟩

/-- The clauses from the command word on: the first and the last index of a region, and no skip. -/
theorem test_witness_AuthFailSkipsRegion_clauses :
    (facingAll (begun 0x32)
      (List.replicate (2 + 10) .idealAnswer ++ [.answer .lost])).fetch = some 0x32 ∧
    (facingAll (begun 0x32) (List.replicate 2 .idealAnswer ++ regionAnswers 0 ++
      List.replicate 10 .idealAnswer ++ [.answer .lost])).fetch = some 0x32 ∧
    (facingAll (begun 0x32) (List.replicate 2 .idealAnswer ++ regionAnswers 11 ++
      regionAnswers 7 ++ [])).fetch = some 0x32 ∧
    (regionAnswers 7).length = 8 ∧ (regionAnswers 11).length = 11 ∧
    10 < 11 ∧ 0 ≤ 11 ∧ 11 ≤ 11 ∧ 7 < 11 :=
  ⟨rfl, rfl, rfl, rfl, rfl, by decide, by decide, by decide, by decide⟩

/-- READ_RECORD begun before a tag, IDEAL_TAG answering. -/
def readingTag (tag : Memory) : State :=
  { begun 0x32 with tag := tag, inputs := List.replicate 24 .idealAnswer ++ [] }

theorem test_witness_ReadRecordResult :
    (readingTag []).fetch = some 0x32 ∧
    (readingTag []).inputs = List.replicate 24 .idealAnswer ++ [] :=
  ⟨rfl, rfl⟩

/-- V-P1-7: region B's broken part 1. -/
def brokenY1 : List Byte := splice recordY1 0 [0x17]

/-- V-P1-8: the record Y without its part 2. -/
def shortY1 : List Byte :=
  splice (splice recordY1 0x16 [0]) 0x0A [0x46, 0xE0, 0xD3, 0xD9, 0xC3, 0xBB]

set_option maxRecDepth 20000 in
/-- The record images of dump D-1 and V-PORT-10. -/
theorem images_valid :
    hdrValid headerX = true ∧ p1Valid recordY1 = true ∧ p1Valid brokenY1 = false ∧
    p1Valid shortY1 = true ∧ p2Valid recordY2 = true ∧ p2Valid (zeros 64) = false := by
  decide +kernel

theorem slice_parts (p q : List Byte) (hp : p.length = 112) (hq : q.length = 64) :
    slice (p ++ q) 0 112 = p ∧ slice (p ++ q) 112 176 = q := by
  constructor
  · simp [slice, ← hp]
  · simp only [slice, List.drop_append]
    rw [List.drop_eq_nil_of_le (by omega), hp, Nat.sub_self, List.nil_append, List.drop_zero,
      List.take_of_length_le (by omega)]

/-- R296's tag, for any configuration: X, Y in region A, a broken copy in region B. -/
theorem readable_tag (p : List Byte) (hp : p.length = 112) (hv : p1Valid p = true)
    (hs : byteAt p 0x09 = 3) (tag : Memory)
    (ht : tag = builtTag headerX (p ++ recordY2) (brokenY1 ++ zeros 64)) :
    let h := tagHeader tag
    let ra := plainRegion tag h .a
    let rb := plainRegion tag h .b
    hdrValid h = true ∧ p1Valid (slice ra 0 112) = true ∧ byteAt ra 0x09 = 3 ∧
    p1Valid (slice rb 0 112) = false ∧ p2Valid (slice ra 112 176) = true ∧
    byteAt ra 0x16 = byteAt p 0x16 ∧ p2Valid (slice rb 112 176) = false := by
  intro h ra rb
  have hb : brokenY1.length = 112 := by decide +kernel
  have hq : recordY2.length = 64 := by decide +kernel
  have hr := plainRegion_builtTag headerX (p ++ recordY2) (brokenY1 ++ zeros 64)
    (by simp [hp, hq]) (by simp [hb])
  have hh : h = headerX := by
    have := tagHeader_builtTag headerX (p ++ recordY2) (brokenY1 ++ zeros 64) (by decide +kernel)
    rw [← ht] at this
    exact this
  have hra : ra = p ++ recordY2 := by
    have := hr.1
    rw [← ht, ← hh] at this
    exact this
  have hrb : rb = brokenY1 ++ zeros 64 := by
    have := hr.2
    rw [← ht, ← hh] at this
    exact this
  have ha := slice_parts p recordY2 hp hq
  have hbz := slice_parts brokenY1 (zeros 64) hb (by simp)
  have hg : ∀ i, i < 112 → byteAt (p ++ recordY2) i = byteAt p i := by
    intro i hi
    simp only [byteAt_eq]
    rw [List.getElem?_append_left (by omega)]
  obtain ⟨v1, _, v3, _, v5, v6⟩ := images_valid
  rw [hh, hra, hrb, ha.1, ha.2, hbz.1, hbz.2, hg 0x09 (by omega), hg 0x16 (by omega)]
  exact ⟨v1, hv, hs, v3, v5, rfl, v6⟩

/-- The hypotheses of ReadRecordEndToEnd, with part 2 present and, in the second state, absent. -/
theorem test_witness_ReadRecordEndToEnd :
    (∃ tag, (readingTag tag).fetch = some 0x32 ∧ hdrValid (tagHeader tag) = true ∧
      p1Valid (slice (plainRegion tag (tagHeader tag) .a) 0 112) = true ∧
      byteAt (plainRegion tag (tagHeader tag) .a) 0x09 = 3 ∧
      p1Valid (slice (plainRegion tag (tagHeader tag) .b) 0 112) = false ∧
      p2Valid (slice (plainRegion tag (tagHeader tag) .a) 112 176) = true ∧
      byteAt (plainRegion tag (tagHeader tag) .a) 0x16 ≠ 0 ∧
      p2Valid (slice (plainRegion tag (tagHeader tag) .b) 112 176) = false) ∧
    (∃ tag, (readingTag tag).fetch = some 0x32 ∧ hdrValid (tagHeader tag) = true ∧
      p1Valid (slice (plainRegion tag (tagHeader tag) .a) 0 112) = true ∧
      byteAt (plainRegion tag (tagHeader tag) .a) 0x09 = 3 ∧
      p1Valid (slice (plainRegion tag (tagHeader tag) .b) 0 112) = false ∧
      p2Valid (slice (plainRegion tag (tagHeader tag) .a) 112 176) = true ∧
      byteAt (plainRegion tag (tagHeader tag) .a) 0x16 = 0) := by
  obtain ⟨_, v2, _, v4, _, _⟩ := images_valid
  constructor
  · obtain ⟨h1, h2, h3, h4, h5, h6, h7⟩ :=
      readable_tag recordY1 (by decide +kernel) v2 (by decide +kernel) _ rfl
    exact ⟨_, rfl, h1, h2, h3, h4, h5, by rw [h6]; decide +kernel, h7⟩
  · obtain ⟨h1, h2, h3, h4, h5, h6, _⟩ :=
      readable_tag shortY1 (by decide +kernel) v4 (by decide +kernel) _ rfl
    exact ⟨_, rfl, h1, h2, h3, h4, h5, by rw [h6]; decide +kernel⟩

/-- WRITE_RECORD begun with HDR all zero and P1[0x16] = b, before a tag, answered by IDEAL_TAG. -/
def writingTo (w : Word) (b : Byte) (tag : Memory) (es : List Event) : State :=
  { begun w with mem := if b = 0 then [] else [(0x196, b)], tag := tag, inputs := es }

/-- The moves to come are no part of the buffers. -/
theorem writingTo_buf (w : Word) (b : Byte) (tag : Memory) (es : List Event) :
    (writingTo w b tag es).buf = (writingTo w b tag []).buf :=
  buf_of_mem_eq rfl

/-- A tag whose block 1 is the identity block that the refresh of a zero HDR makes. -/
def matchingTag : Memory :=
  setTagBlock [] 1 (toVec 16 (slice (hdrSealed (zeros 32)) 16 32))

theorem test_witness_IdentityMismatchWritesNothing :
    (writingTo 0x33 0 [] []).fetch = some 0x33 ∧
    slice (hdrSealed ((toVec 16 []).toList ++ slice ((writingTo 0x33 0 [] []).buf .hdr) 16 32))
      16 32 ≠ (toVec 16 []).toList := by
  decide +kernel

theorem test_witness_RekeyWritesBothRegions :
    (writingTo 0x133 0 [] []).fetch = some 0x133 ∧
    part2Present ((writingTo 0x133 0 [] []).buf .p1) = false ∧
    part2Present ((writingTo 0x133 1 [] []).buf .p1) = true ∧
    slice (refreshedHeader [] ((writingTo 0x133 0 [] []).buf .hdr)) 16 32 ≠
      (tagBlock [] 1).toList ∧
    slice (refreshedHeader [] ((writingTo 0x133 1 [] []).buf .hdr)) 16 32 ≠
      (tagBlock [] 1).toList := by
  decide +kernel

/-- The prefixes of the re-key, whatever the moves to come, at k = 0 and at the last transaction, with and without part 2. -/
theorem test_witness_RekeyWritesBothRegions_clauses :
    (∀ (b : Byte) (es : List Event), b = 0 ∨ b = 1 →
      (writingTo 0x133 b [] es).fetch = some 0x133 ∧
      slice (refreshedHeader [] ((writingTo 0x133 b [] es).buf .hdr)) 16 32 ≠
        (tagBlock [] 1).toList) ∧
    (∀ h p q, 0 < (rekeyTransactions h p q false).length ∧
      16 < (rekeyTransactions h p q false).length ∧ 24 < (rekeyTransactions h p q true).length) := by
  obtain ⟨_, _, _, h0, h1⟩ := test_witness_RekeyWritesBothRegions
  refine ⟨?_, fun _ _ _ => ⟨Nat.zero_lt_succ _, Nat.lt_succ_self 16, Nat.lt_succ_self 24⟩⟩
  rintro b es (rfl | rfl)
  · exact ⟨rfl, by rw [writingTo_buf]; exact h0⟩
  · exact ⟨rfl, by rw [writingTo_buf]; exact h1⟩

/-- CurrentRegionUntouched, WriteRecordResult and WriteThenReadReturnsRecord. -/
theorem test_witness_matching_identity :
    (writingTo 0x33 0 matchingTag []).fetch = some 0x33 ∧
    (writingTo 0x133 1 matchingTag []).fetch = some 0x133 ∧
    part2Present ((writingTo 0x33 0 matchingTag []).buf .p1) = false ∧
    part2Present ((writingTo 0x133 1 matchingTag []).buf .p1) = true ∧
    slice (refreshedHeader matchingTag ((writingTo 0x33 0 matchingTag []).buf .hdr)) 16 32 =
      (tagBlock matchingTag 1).toList ∧
    slice (refreshedHeader matchingTag ((writingTo 0x133 1 matchingTag []).buf .hdr)) 16 32 =
      (tagBlock matchingTag 1).toList := by
  decide +kernel

/-- The prefixes of the matching-identity path, whatever the moves to come, at k = 0 and at the last
transaction, with and without part 2. -/
theorem test_witness_WriteRecordResult_clauses :
    (∀ es : List Event, (writingTo 0x33 0 matchingTag es).fetch = some 0x33 ∧
      slice (refreshedHeader matchingTag ((writingTo 0x33 0 matchingTag es).buf .hdr)) 16 32 =
        (tagBlock matchingTag 1).toList) ∧
    (∀ es : List Event, (writingTo 0x133 1 matchingTag es).fetch = some 0x133 ∧
      slice (refreshedHeader matchingTag ((writingTo 0x133 1 matchingTag es).buf .hdr)) 16 32 =
        (tagBlock matchingTag 1).toList) ∧
    (∀ h p q r1 r2, 0 < (matchingTransactions h p q false r1 r2).length ∧
      10 < (matchingTransactions h p q false r1 r2).length ∧
      16 < (matchingTransactions h p q true r1 r2).length) := by
  obtain ⟨_, _, _, _, h0, h1⟩ := test_witness_matching_identity
  exact ⟨fun es => ⟨rfl, by rw [writingTo_buf]; exact h0⟩,
    fun es => ⟨rfl, by rw [writingTo_buf]; exact h1⟩,
    fun _ _ _ _ _ => ⟨Nat.zero_lt_succ _, Nat.lt_succ_self 10, Nat.lt_succ_self 16⟩⟩

/-- The moves and the run of CurrentRegionUntouched: a loss of power after the refresh. -/
theorem test_witness_CurrentRegionUntouched :
    (∀ e ∈ (writingTo 0x33 1 matchingTag [.idealAnswer, .hostRead 0x008 .w4, .reset]).inputs,
      e.crashOnly = true) ∧
    ∃ t, run 2 (writingTo 0x33 1 matchingTag [.idealAnswer, .hostRead 0x008 .w4, .reset]) =
      .next t := by
  refine ⟨?_, ⟨_, rfl⟩⟩
  decide

theorem test_witness_PortCommandWaitsForAnswer :
    (waiting 0x32 .readHdr0 0 .read).phase =
      .busy 0x32 .readHdr0 (some ⟨0, .read, Config.sector0Key⟩) ∧
    (∀ e ∈ (facingAll (waiting 0x32 .readHdr0 0 .read)
      [.hostRead 0x010 .w4, .hostWrite 0x00C .w4 0]).inputs, e.endsWait = false) ∧
    ∃ t, run 3 (facingAll (waiting 0x32 .readHdr0 0 .read)
      [.hostRead 0x010 .w4, .hostWrite 0x00C .w4 0]) = .next t := by
  refine ⟨rfl, ?_, ⟨_, rfl⟩⟩
  decide

/-- A machine at rest with no move to come stays as it is. -/
theorem run_at_rest (s : State) (hf : s.fetch = none) (hi : s.inputs = []) (k : Nat) :
    run k s = .next s := by
  induction k with
  | zero => rfl
  | succ k ih => rw [run_succ k (step_of_no_input hf hi), ih]

/-- TRANSPORT_ANSWERS holds where the only request is answered, and 25 answers may come. -/
theorem test_witness_TransportAnswers :
    (waitingWithTag.Inv ∧ waitingWithTag.busy = true ∧ TransportAnswers waitingWithTag) ∧
    ((waitingWith (List.replicate 25 (.answer .lost))).Inv ∧
      (waitingWith (List.replicate 25 (.answer .lost))).busy = true ∧
      25 ≤ (waitingWith (List.replicate 25 (.answer .lost))).inputs.countP Event.answers) := by
  refine ⟨⟨test_witness_invariant, rfl, ?_⟩, ⟨waitingWith_inv _, rfl, by decide⟩⟩
  intro k t w pos req hr hp
  cases k with
  | zero =>
    cases hr
    exact ⟨.answer .lost, .head _, rfl⟩
  | succ k =>
    have h1 : step waitingWithTag =
        .next (raise .transportLost 1 .hdrRead .lost (waitingWith [])) := rfl
    rw [run_succ k h1, run_at_rest _ rfl rfl] at hr
    cases hr
    cases hp

end Sys2Proof.Machine.Tests
end

/-! The state after reset (spec/10_state.md R55). -/

namespace Sys2Proof.Machine

/-- R40: KSUF and K0 are the only read-only memories. -/
theorem Buffer.rom_eq_false_iff (b : Buffer) : b.rom = false ↔ b ≠ .ksuf ∧ b ≠ .k0 := by
  cases b <;> simp [Buffer.rom]

/-- R55: after reset every RAM buffer holds zeros, since reset lists no cell. -/
theorem buf_reset (b : Buffer) (hb : b.rom = false) : State.reset.buf b = zeros b.size :=
  buf_of_mem_nil State.reset rfl b hb

/-- Settles O10: each register's word is computed from the reset fields, a RAM buffer reads zeros
because no cell is listed, and the two read-only memories hold their parameters in every state. -/
theorem resetState : Obligations.ResetState := by
  have hram (b : Buffer) (h1 : b ≠ .ksuf) (h2 : b ≠ .k0) : State.reset.buf b = zeros b.size :=
    buf_reset b (b.rom_eq_false_iff.mpr ⟨h1, h2⟩)
  refine ⟨?id, ?ctrl, ?status, ?cmd, ?res0, ?res1, ?crc16, ?crc16Data, ?crc48Lo, ?crc48Hi,
    ?crc48Data, ?recon, ?fvalLo, ?fvalHi, ?seq, ?xstat, hram, buf_ksuf _, buf_k0 _, ?phase, ?irq⟩
  all_goals rfl

end Sys2Proof.Machine

/-! Decoding (spec/30_encoding.md R114 to R116, R120). -/

namespace Sys2Proof

/-- R114, first step: bits 7:0 are no opcode. -/
theorem decode_of_opOf_none {w : Word} (h : opOf (w.extractLsb' 0 8) = none) :
    decode w = .error .unknownOpcode := by
  simp only [decode, h]

/-- R114, second step: a reserved bit of the opcode's format is 1. -/
theorem decode_of_reserved {w : Word} {o : Op} (ho : opOf (w.extractLsb' 0 8) = some o)
    (hr : w &&& o.format.reserved ≠ 0) : decode w = .error .reservedBitSet := by
  simp only [decode, ho, if_neg hr]

/-- R110: a word that its opcode's format admits makes its instruction when it is written to CMD. -/
theorem decodeWrite_cmd_of {w : Word} (o : Op) (h : w.extractLsb' 0 8 = o.code)
    (hr : w &&& o.format.reserved = 0) : decodeWrite ⟨0x00C, w⟩ = .ok (assemble o w) :=
  decode_of w o h hr

/-- R115: a byte is illegal when it is none of the 29 codes of R113, and those are the bytes outside
four ranges. -/
theorem opOf_eq_none_iff {c : Byte} : opOf c = none ↔
    (0x08 ≤ c ∧ c ≤ 0x0F) ∨ (0x14 ≤ c ∧ c ≤ 0x1F) ∨ (0x2D ≤ c ∧ c ≤ 0x2F) ∨ 0x34 ≤ c := by
  simp only [opOf, allOps, Op.code, List.find?_eq_none, List.cons_append, List.nil_append,
    List.forall_mem_cons, List.not_mem_nil, false_implies, implies_true, and_true, beq_iff_eq]
  bv_omega

/-- A word is its low byte below its other 24 bits (R110). -/
theorem high_append_low (w : Word) : w.extractLsb' 8 24 ++ w.extractLsb' 0 8 = w :=
  (BitVec.extractLsb'_append_extractLsb'_eq_extractLsb' (x := w) rfl).trans (extract_all w)

/-- R111: format N leaves a word nothing but its opcode. -/
theorem eq_wordN_of_reserved {w : Word} {o : Op} (h : w.extractLsb' 0 8 = o.code)
    (hr : w &&& Format.n.reserved = 0) : w = wordN o := by
  have hand : w &&& Format.n.reserved =
      (w.extractLsb' 8 24 &&& 0xFFFFFF#24) ++ (w.extractLsb' 0 8 &&& 0#8) := by
    rw [← and_concat, high_append_low]; rfl
  have hhigh : w.extractLsb' 8 24 = 0#24 := calc
    w.extractLsb' 8 24 = w.extractLsb' 8 24 &&& 0xFFFFFF#24 := BitVec.and_allOnes.symm
    _ = (w &&& Format.n.reserved).extractLsb' 8 24 := by
      rw [hand]; exact ((extract_high _ _ 0 24).trans (extract_all _)).symm
    _ = 0#24 := by rw [hr]; rfl
  rw [wordN, ← hhigh, ← h, high_append_low]

end Sys2Proof

namespace Sys2Proof.Machine

/-! The step that begins a command word, by how its decoding ends. -/

/-- R114: a word that fails the first or the second step completes with ILLEGAL. -/
theorem step_of_decode_error {s : State} {w : Word} {e : DecodeError} (hf : s.fetch = some w)
    (hd : decode w = .error e) : step s = .next (finish .illegal s) :=
  (step_of_fetch hf).trans (startCommand_of_error hd s)

/-- R114: a word that passes the first two steps runs its instruction. -/
theorem step_of_decode_ok {s : State} {w : Word} {i : Instr} (hf : s.fetch = some w)
    (hd : decode w = .ok i) : step s = exec i s :=
  (step_of_fetch hf).trans (startCommand_of_decode hd s)

/-- R114, first step. -/
theorem step_of_illegal_opcode {s : State} {w : Word} (hf : s.fetch = some w)
    (ho : opOf (w.extractLsb' 0 8) = none) : step s = .next (finish .illegal s) :=
  step_of_decode_error hf (decode_of_opOf_none ho)

/-- R114, second step. -/
theorem step_of_reserved_bit {s : State} {w : Word} {o : Op} (hf : s.fetch = some w)
    (ho : opOf (w.extractLsb' 0 8) = some o) (hr : w &&& o.format.reserved ≠ 0) :
    step s = .next (finish .illegal s) :=
  step_of_decode_error hf (decode_of_reserved ho hr)

/-! The third step, in the instructions' meanings. -/

/-- R114, third step: an operand outside its command's range completes with BAD_ARG. -/
theorem exec_of_not_wellFormed {i : Instr} (hw : i.wellFormed = false) (s : State) :
    exec i s = .next (finish .badArg s) := by
  cases i <;> simp only [Instr.wellFormed, Option.isSome_eq_false_iff, Option.isNone_iff_eq_none,
    Bool.true_eq_false] at hw
  case crc16Run | crc48Run => simp [exec, execCrc16Run, execCrc48Run, hw]
  case sectorKey | blockKey => simp [exec, execSectorKey, execBlockKey, hw]
  case blkEnc | blkDec => simp [exec, execBlkEnc, execBlkDec, cipherStep, hw]
  case fieldGet | fieldPut => simp [exec, execFieldGet, execFieldPut, hw]
  case bitGet | bitSet | bitClr => simp [exec, execBitGet, execBitSet, execBitClr, bitPut, hw]
  case blockMap => simp [exec, execBlockMap, hw]

/-- The codes by which a command word is rejected (R114, R332): ILLEGAL and BAD_ARG. -/
def ErrCode.rejects : ErrCode → Bool
  | .illegal | .badArg => true
  | .ok | .hdrChecksum | .p1Checksum | .p2Checksum | .authFailure | .transportLost
  | .blockGuard | .ambiguousSequence | .identityMismatch => false

theorem ErrCode.rejects_iff {c : ErrCode} : c.rejects = true ↔ c = .illegal ∨ c = .badArg := by
  cases c <;> simp [ErrCode.rejects]

/-- A request leaves ERR as it is, or the guard sets BLOCK_GUARD (R97). -/
theorem issue_err_not_rejects (w : Word) (n : Nat) (op : PortOp) (pos : Position) {s : State}
    (hs : s.err.rejects = false) : (issue w n op pos s).err.rejects = false := by
  simp only [issue]
  split
  · exact hs
  · rfl

/-- Every instruction whose operands are in range runs without a rejection, but for the two whose
BAD_ARG depends on the state: FIELD_PUT of a value that does not fit (R241) and NICK_PACK of a long
name (R247). -/
theorem exec_of_wellFormed {i : Instr} {s : State} (hw : i.wellFormed = true)
    (hs : s.err.rejects = false) :
    exec i s = .next (finish .badArg s) ∨
      ∃ t, exec i s = .next t ∧ t.err.rejects = false := by
  cases i <;> simp only [Instr.wellFormed, Option.isSome_iff_exists] at hw
  case crc16Run | crc48Run | sectorKey | blockKey | blkEnc | blkDec | blockMap =>
    simp only [exec, execCrc16Run, execCrc48Run, execSectorKey, execBlockKey, execBlkEnc,
      execBlkDec, cipherStep, execBlockMap, hw, if_true]
    exact .inr ⟨_, rfl, rfl⟩
  case fieldGet | bitGet | bitSet | bitClr =>
    obtain ⟨r, hr⟩ := hw
    simp only [exec, execFieldGet, execBitGet, execBitSet, execBitClr, bitPut, hr]
    exact .inr ⟨_, rfl, rfl⟩
  case fieldPut =>
    obtain ⟨r, hr⟩ := hw
    simp only [exec, execFieldPut, hr]
    split
    · exact .inr ⟨_, rfl, rfl⟩
    · exact .inl rfl
  case nickPack =>
    simp only [exec, execNickPack]
    split
    · exact .inl rfl
    · exact .inr ⟨_, rfl, rfl⟩
  case hdrCheck | p1Check | p2Check | seqReconcile =>
    exact .inr ⟨_, rfl, by rw [finish_err]; split <;> rfl⟩
  case readRecord | writeRecord => exact .inr ⟨_, rfl, issue_err_not_rejects _ _ _ _ hs⟩
  case crc16DataWrite | crc48DataWrite =>
    simp only [exec, execCrc16DataWrite, execCrc48DataWrite]
    split <;> exact .inr ⟨_, rfl, hs⟩
  all_goals exact .inr ⟨_, rfl, rfl⟩

/-- R332: an instruction that ends in ILLEGAL or BAD_ARG does nothing but complete. -/
theorem exec_eq_finish_of_rejects {i : Instr} {s t : State} (hs : s.err.rejects = false)
    (hx : exec i s = .next t) (ht : t.err.rejects = true) : t = finish t.err s := by
  have hbad : exec i s = .next (finish .badArg s) := by
    cases hw : i.wellFormed
    · exact exec_of_not_wellFormed hw s
    · rcases exec_of_wellFormed hw hs with h | ⟨u, hu, hnot⟩
      · exact h
      · cases hx.symm.trans hu
        simp [hnot] at ht
  cases hx.symm.trans hbad
  rfl

/-- R332: a command word that ends in ILLEGAL or BAD_ARG does nothing but complete. -/
theorem step_eq_finish_of_rejects {s t : State} {w : Word} (hf : s.fetch = some w)
    (hs : s.err.rejects = false) (hx : step s = .next t) (ht : t.err.rejects = true) :
    t = finish t.err s := by
  cases hd : decode w with
  | error e =>
    cases hx.symm.trans (step_of_decode_error hf hd)
    rfl
  | ok i => exact exec_eq_finish_of_rejects hs ((step_of_decode_ok hf hd).symm.trans hx) ht

/-- Settles O3: the first two steps are the decoder's, the third is found in the meanings, and a
well-formed instruction that still ends in BAD_ARG has done nothing before it. -/
theorem decodingThreeSteps : Obligations.DecodingThreeSteps := by
  intro s w hf
  refine ⟨step_of_illegal_opcode hf, fun o => step_of_reserved_bit hf, ?_, ?_⟩
  · intro o ho hr hw
    have hd : decode w = .ok (assemble o w) := decode_of w o (code_of_opOf ho).symm hr
    exact (step_of_decode_ok hf hd).trans (exec_of_not_wellFormed hw s)
  · intro t hs hx ht
    have hnot : s.err.rejects = false := by rw [hs]; rfl
    exact step_eq_finish_of_rejects hf hnot hx (ErrCode.rejects_iff.mpr ht)

/-- Settles O4: the four ranges are the bytes that are the code of no opcode, and such a byte fails
the first decoding step. -/
theorem illegalOpcodesExactly : Obligations.IllegalOpcodesExactly :=
  ⟨fun _ => opOf_eq_none_iff, by decide +kernel, fun _ _ => step_of_illegal_opcode⟩

/-- Settles O5: 0x00 is the code of NOP, whose format N reserves every other bit. -/
theorem onlyTheZeroWordIsNop : Obligations.OnlyTheZeroWordIsNop := by
  intro s w hf hop
  refine ⟨?_, fun hne => ?_⟩
  · rintro rfl
    exact step_of_decode_ok hf (decode_of 0 .nop rfl rfl)
  · have hnop : opOf (w.extractLsb' 0 8) = some .nop := by rw [hop]; exact opOf_code .nop
    exact step_of_reserved_bit hf hnop fun hr => hne (eq_wordN_of_reserved (o := .nop) hop hr)

/-- Settles O6: each example's low byte is its opcode's code, no reserved bit is set, and the fields
are read off the word; the two field names are looked up in the table. -/
theorem encodingExamples : Obligations.EncodingExamples :=
  ⟨decodeWrite_cmd_of .nop rfl rfl, decodeWrite_cmd_of .crc16Run rfl rfl,
    decodeWrite_cmd_of .crc16Run rfl rfl, decodeWrite_cmd_of .crc16Zero rfl rfl,
    decodeWrite_cmd_of .crc16Const rfl rfl, decodeWrite_cmd_of .crc48Run rfl rfl,
    decodeWrite_cmd_of .crc48Const rfl rfl, decodeWrite_cmd_of .sectorKey rfl rfl,
    decodeWrite_cmd_of .blockKey rfl rfl, decodeWrite_cmd_of .blkDec rfl rfl,
    decodeWrite_cmd_of .fieldGet rfl rfl, decodeWrite_cmd_of .bitSet rfl rfl,
    decodeWrite_cmd_of .blockMap rfl rfl, decodeWrite_cmd_of .readRecord rfl rfl,
    decodeWrite_cmd_of .writeRecord rfl rfl, by decide +kernel, by decide +kernel⟩

end Sys2Proof.Machine

/-! The checksum generator (spec/40_crc.md R151 to R169). -/

namespace Sys2Proof.Machine

/-! Both folds over a concatenation (R156). -/

theorem crc16From_append (c : BitVec 16) (x y : List Byte) :
    crc16From c (x ++ y) = crc16From (crc16From c x) y :=
  List.foldl_append

theorem crc48From_append (c : BitVec 48) (x y : List Byte) :
    crc48From c (x ++ y) = crc48From (crc48From c x) y :=
  List.foldl_append

/-- A read of the local space is the read of its first part followed by that of its second. -/
theorem memRead_append (s : State) (a m n : Nat) :
    s.memRead a (m + n) = s.memRead a m ++ s.memRead (a + m) n := by
  simp only [State.memRead, List.range_add, List.map_append, List.map_map, Function.comp_def,
    Nat.add_assoc]

/-! The ranges that a run may read (R160). -/

theorem isSome_bufferAt_iff {a : Nat} :
    (bufferAt a).isSome = true ↔ ∃ b : Buffer, b.holds a = true := by
  constructor
  · intro h
    obtain ⟨b, hb⟩ := Option.isSome_iff_exists.mp h
    exact ⟨b, bufferAt_holds hb⟩
  · rintro ⟨b, hb⟩
    rw [bufferAt_eq b a hb]
    rfl

/-- R160 as the model tests it. -/
theorem rangeLegal_iff {a n : Nat} : rangeLegal a n = true ↔ RangeReadable a n := by
  simp only [rangeLegal, RangeReadable, Bool.or_eq_true, Bool.and_eq_true, beq_iff_eq,
    decide_eq_true_eq, List.all_eq_true, List.mem_range, isSome_bufferAt_iff]

theorem RangeReadable.left {a m n : Nat} (h : RangeReadable a (m + n)) : RangeReadable a m := by
  rcases h with h | ⟨hend, hbuf⟩
  · exact .inl (by omega)
  · exact .inr ⟨by omega, fun k hk => hbuf k (by omega)⟩

theorem RangeReadable.right {a m n : Nat} (h : RangeReadable a (m + n)) :
    RangeReadable (a + m) n := by
  rcases h with h | ⟨hend, hbuf⟩
  · exact .inl (by omega)
  · refine .inr ⟨by omega, fun k hk => ?_⟩
    rw [Nat.add_assoc]
    exact hbuf (m + k) (by omega)

/-- CRC16_RUN over a readable range (R162). -/
theorem exec_crc16Run_of_readable {addr len : BitVec 12} (s : State)
    (h : RangeReadable addr.toNat len.toNat) :
    exec (.crc16Run addr len) s =
      .next (finish .ok (s.foldCrc16 (s.memRead addr.toNat len.toNat))) := by
  simp only [exec, execCrc16Run, rangeLegal_iff.mpr h, if_true]

/-- CRC48_RUN over a readable range (R166). -/
theorem exec_crc48Run_of_readable {addr len : BitVec 12} (s : State)
    (h : RangeReadable addr.toNat len.toNat) :
    exec (.crc48Run addr len) s =
      .next (finish .ok (s.foldCrc48 (s.memRead addr.toNat len.toNat))) := by
  simp only [exec, execCrc48Run, rangeLegal_iff.mpr h, if_true]

/-- Two completed folds are one: the first completion touches neither the buffers nor the state that
the second fold goes on from. -/
theorem foldCrc16_finish_foldCrc16 (s : State) (x y : List Byte) :
    finish .ok ((finish .ok (s.foldCrc16 x)).foldCrc16 y) = finish .ok (s.foldCrc16 (x ++ y)) := by
  simp only [State.foldCrc16, crc16From_append]
  rfl

theorem foldCrc48_finish_foldCrc48 (s : State) (x y : List Byte) :
    finish .ok ((finish .ok (s.foldCrc48 x)).foldCrc48 y) = finish .ok (s.foldCrc48 (x ++ y)) := by
  simp only [State.foldCrc48, crc48From_append]
  rfl

/-- A readable range splits into two readable ranges, and its bytes are theirs. -/
theorem readable_split (s : State) {addr m n : BitVec 12}
    (ham : addr.toNat + m.toNat < 4096) (hmn : m.toNat + n.toNat < 4096)
    (h : RangeReadable addr.toNat (m + n).toNat) :
    RangeReadable addr.toNat m.toNat ∧ RangeReadable (addr + m).toNat n.toNat ∧
      s.memRead addr.toNat (m + n).toNat =
        s.memRead addr.toNat m.toNat ++ s.memRead (addr + m).toNat n.toNat := by
  have hstart : (addr + m).toNat = addr.toNat + m.toNat := BitVec.toNat_add_of_lt ham
  have hlen : (m + n).toNat = m.toNat + n.toNat := BitVec.toNat_add_of_lt hmn
  rw [hlen] at h
  rw [hstart, hlen]
  exact ⟨h.left, h.right, memRead_append s _ _ _⟩

/-- A CRC16 run over a range is the run over its first part and then over its second (R156). -/
theorem exec_crc16Run_split (s : State) {addr m n : BitVec 12}
    (ham : addr.toNat + m.toNat < 4096) (hmn : m.toNat + n.toNat < 4096)
    (h : RangeReadable addr.toNat (m + n).toNat) :
    ∃ t u, exec (.crc16Run addr m) s = .next t ∧ exec (.crc16Run (addr + m) n) t = .next u ∧
      exec (.crc16Run addr (m + n)) s = .next u := by
  obtain ⟨hfirst, hsecond, hbytes⟩ := readable_split s ham hmn h
  refine ⟨_, _, exec_crc16Run_of_readable s hfirst, exec_crc16Run_of_readable _ hsecond, ?_⟩
  rw [exec_crc16Run_of_readable s h, hbytes, ← foldCrc16_finish_foldCrc16]
  rfl

/-- A CRC48 run over a range is the run over its first part and then over its second (R156). -/
theorem exec_crc48Run_split (s : State) {addr m n : BitVec 12}
    (ham : addr.toNat + m.toNat < 4096) (hmn : m.toNat + n.toNat < 4096)
    (h : RangeReadable addr.toNat (m + n).toNat) :
    ∃ t u, exec (.crc48Run addr m) s = .next t ∧ exec (.crc48Run (addr + m) n) t = .next u ∧
      exec (.crc48Run addr (m + n)) s = .next u := by
  obtain ⟨hfirst, hsecond, hbytes⟩ := readable_split s ham hmn h
  refine ⟨_, _, exec_crc48Run_of_readable s hfirst, exec_crc48Run_of_readable _ hsecond, ?_⟩
  rw [exec_crc48Run_of_readable s h, hbytes, ← foldCrc48_finish_foldCrc48]
  rfl

/-! The computing bus operations (R168, R169). -/

/-- At rest, a data-register write folds its low byte. -/
theorem exec_dataWrite_idle {s : State} (w : Word) (h : s.busy = false) :
    exec (.crc16DataWrite w) s = .next (s.foldCrc16 [w.extractLsb' 0 8]) ∧
      exec (.crc48DataWrite w) s = .next (s.foldCrc48 [w.extractLsb' 0 8]) := by
  simp [exec, execCrc16DataWrite, execCrc48DataWrite, h]

/-- While BUSY, a data-register write is refused (R85). -/
theorem exec_dataWrite_busy {s : State} (w : Word) (h : s.busy = true) :
    exec (.crc16DataWrite w) s = .next (refuseAccess s) ∧
      exec (.crc48DataWrite w) s = .next (refuseAccess s) := by
  simp [exec, execCrc16DataWrite, execCrc48DataWrite, h]

/-- R83: a narrow access to the register block reaches nothing. -/
theorem target_narrow_register {addr : BitVec 12} {n : Width} (ha : addr.toNat < 0x040)
    (hn : n ≠ .w4) : target addr n = none := by
  simp [target, ha, hn]

/-- Settles O25: the folds are `List.foldl`, and a readable range splits into two readable ranges
whose bytes are those of the whole, which the first run leaves as they are. -/
theorem crcRunsCompose : Obligations.CrcRunsCompose :=
  ⟨crc16From_append, crc48From_append, fun s _ _ _ => exec_crc16Run_split s,
    fun s _ _ _ => exec_crc48Run_split s, fun _ w hs => exec_dataWrite_idle w hs⟩

/-- Settles O24: a data-register write is a fold over one byte at rest and a refusal while BUSY, and a
narrow one reaches no target. -/
theorem crcDataWriteResults : Obligations.CrcDataWriteResults := by
  refine ⟨fun _ w hs => exec_dataWrite_idle w hs, fun _ w hs => exec_dataWrite_busy w hs, ?_,
    by decide, by decide⟩
  intro s addr n w rest hf ha hn hi
  have hreg : addr.toNat < 0x040 := by rcases ha with rfl | rfl <;> decide
  rw [step_of_input hf hi]
  exact performWrite_malformed _ (target_narrow_register hreg hn)

end Sys2Proof.Machine

/-! The two CRC registers outside the CRC commands (spec/40_crc.md R170). -/

namespace Sys2Proof.Machine

/-- The state with other values in the two CRC registers: what neither reads nor writes them commutes
with it. -/
def State.withCrcs (s : State) (x : BitVec 16) (y : BitVec 48) : State :=
  { s with crc16 := x, crc48 := y }

section
variable (s : State) (x : BitVec 16) (y : BitVec 48)

/-- Putting back the values that stand in the registers changes nothing. -/
theorem withCrcs_self : s.withCrcs s.crc16 s.crc48 = s := rfl

@[simp] theorem ite_withCrcs (c : Prop) [Decidable c] (a b : State) :
    (if c then a else b).withCrcs x y = if c then a.withCrcs x y else b.withCrcs x y :=
  apply_ite (State.withCrcs · x y) c a b

/-! What is read of the state holds neither register. -/

@[simp] theorem withCrcs_phase : (s.withCrcs x y).phase = s.phase := rfl

@[simp] theorem withCrcs_eqPolicy : (s.withCrcs x y).eqPolicy = s.eqPolicy := rfl

@[simp] theorem withCrcs_fval : (s.withCrcs x y).fval = s.fval := rfl

@[simp] theorem withCrcs_buf (b : Buffer) : (s.withCrcs x y).buf b = s.buf b := rfl

@[simp] theorem withCrcs_bufByte (b : Buffer) (o : Nat) :
    (s.withCrcs x y).bufByte b o = s.bufByte b o := rfl

@[simp] theorem withCrcs_fieldBytes (r : FieldRow) :
    (s.withCrcs x y).fieldBytes r = s.fieldBytes r := rfl

@[simp] theorem withCrcs_nickChars : (s.withCrcs x y).nickChars = s.nickChars := rfl

@[simp] theorem withCrcs_nickGaps : (s.withCrcs x y).nickGaps = s.nickGaps := rfl

@[simp] theorem withCrcs_sectorKey (i : Nat) : (s.withCrcs x y).sectorKey i = s.sectorKey i := rfl

@[simp] theorem withCrcs_blockKey (n : Nat) : (s.withCrcs x y).blockKey n = s.blockKey n := rfl

@[simp] theorem withCrcs_encBlock (n : Nat) (p : Block) :
    (s.withCrcs x y).encBlock n p = s.encBlock n p := rfl

@[simp] theorem withCrcs_decBlock (n : Nat) (c : Block) :
    (s.withCrcs x y).decBlock n c = s.decBlock n c := rfl

@[simp] theorem withCrcs_recordBlock (i : Nat) :
    (s.withCrcs x y).recordBlock i = s.recordBlock i := rfl

@[simp] theorem withCrcs_selected (o : Choice) (i j : Nat) :
    (s.withCrcs x y).selected o i j = s.selected o i j := rfl

@[simp] theorem withCrcs_choice1 (okA okB : Bool) :
    (s.withCrcs x y).choice1 okA okB = s.choice1 okA okB := by
  simp [State.choice1]

@[simp] theorem withCrcs_choice2 (o : Choice) (okA okB : Bool) :
    (s.withCrcs x y).choice2 o okA okB = s.choice2 o okA okB := by
  simp [State.choice2]

@[simp] theorem withCrcs_reconValue (o1 o2 : Choice) (hok okA okB : Bool) :
    (s.withCrcs x y).reconValue o1 o2 hok okA okB = s.reconValue o1 o2 hok okA okB := by
  simp [State.reconValue]

@[simp] theorem withCrcs_seqValue : (s.withCrcs x y).seqValue = s.seqValue := by
  simp [State.seqValue]

/-! The state's operations. -/

@[simp] theorem finish_withCrcs (c : ErrCode) :
    finish c (s.withCrcs x y) = (finish c s).withCrcs x y := rfl

@[simp] theorem raise_withCrcs (c : ErrCode) (n : Nat) (st : Stage) (p : PortCause) :
    raise c n st p (s.withCrcs x y) = (raise c n st p s).withCrcs x y := rfl

@[simp] theorem bufWrite_withCrcs (b : Buffer) (o : Nat) (bs : List Byte) :
    (s.withCrcs x y).bufWrite b o bs = (s.bufWrite b o bs).withCrcs x y := rfl

@[simp] theorem withRes0_withCrcs (v : Word) :
    (s.withCrcs x y).withRes0 v = (s.withRes0 v).withCrcs x y := rfl

@[simp] theorem withRes1_withCrcs (v : Word) :
    (s.withCrcs x y).withRes1 v = (s.withRes1 v).withCrcs x y := rfl

@[simp] theorem withFval_withCrcs (v : BitVec 64) :
    (s.withCrcs x y).withFval v = (s.withFval v).withCrcs x y := rfl

@[simp] theorem withRecon_withCrcs (v : Word) :
    (s.withCrcs x y).withRecon v = (s.withRecon v).withCrcs x y := rfl

@[simp] theorem withSeq_withCrcs (v : Word) :
    (s.withCrcs x y).withSeq v = (s.withSeq v).withCrcs x y := rfl

@[simp] theorem withXstat_withCrcs (v : Word) :
    (s.withCrcs x y).withXstat v = (s.withXstat v).withCrcs x y := rfl

@[simp] theorem orRes0_withCrcs (v : Word) :
    (s.withCrcs x y).orRes0 v = (s.orRes0 v).withCrcs x y := rfl

@[simp] theorem sealHdr_withCrcs : (s.withCrcs x y).sealHdr = s.sealHdr.withCrcs x y := by
  simp [State.sealHdr]

@[simp] theorem sealP1_withCrcs : (s.withCrcs x y).sealP1 = s.sealP1.withCrcs x y := by
  simp [State.sealP1]

@[simp] theorem sealP2_withCrcs : (s.withCrcs x y).sealP2 = s.sealP2.withCrcs x y := by
  simp [State.sealP2]

/-! The local commands. -/

@[simp] theorem cipherStep_withCrcs (f : Block → Block → Block) (n : Byte) :
    cipherStep f n (s.withCrcs x y) = (cipherStep f n s).withCrcs x y := by
  cases h : blockLegal n <;> simp [cipherStep, h]

@[simp] theorem bitPut_withCrcs (v : Bool) (fid bit : Byte) :
    bitPut v fid bit (s.withCrcs x y) = (bitPut v fid bit s).withCrcs x y := by
  cases h : bitOperand fid bit <;> simp [bitPut, h]

/-! The block port. -/

@[simp] theorem issue_withCrcs (w : Word) (n : Nat) (op : PortOp) (pos : Position) :
    issue w n op pos (s.withCrcs x y) = (issue w n op pos s).withCrcs x y := by
  simp only [issue]
  split <;> rfl

@[simp] theorem writeRecordBlock_withCrcs (w : Word) (r : Region) (i : Nat) (pos : Position) :
    writeRecordBlock w r i pos (s.withCrcs x y) = (writeRecordBlock w r i pos s).withCrcs x y := by
  simp [writeRecordBlock]

/-! READ_RECORD's steps. -/

/-- The validation reads the images, the policy and the header's check only (R280). -/
@[simp] theorem finishRead_withCrcs (hok okA okB authFail : Bool) :
    finishRead hok okA okB authFail (s.withCrcs x y) =
      (finishRead hok okA okB authFail s).withCrcs x y := by
  simp [finishRead, State.loadRecord]

@[simp] theorem beginRegion_withCrcs (w : Word) (r : Region) (hok okA authFail : Bool) :
    beginRegion w r hok okA authFail (s.withCrcs x y) =
      (beginRegion w r hok okA authFail s).withCrcs x y := by
  simp [beginRegion]

@[simp] theorem endRegion_withCrcs (w : Word) (r : Region) (okR hok okA authFail : Bool) :
    endRegion w r okR hok okA authFail (s.withCrcs x y) =
      (endRegion w r okR hok okA authFail s).withCrcs x y := by
  cases r <;> simp [endRegion]

@[simp] theorem headerRead_withCrcs (w : Word) (t0 t1 : Block) :
    headerRead w t0 t1 (s.withCrcs x y) = (headerRead w t0 t1 s).withCrcs x y := by
  simp [headerRead]

@[simp] theorem regionBlockRead_withCrcs (w : Word) (r : Region) (i : Fin 11)
    (hok okA authFail : Bool) (n : Nat) (d : Block) :
    regionBlockRead w r i hok okA authFail n d (s.withCrcs x y) =
      (regionBlockRead w r i hok okA authFail n d s).withCrcs x y := by
  cases h : nextIndex i <;> simp [regionBlockRead, h]

@[simp] theorem regionAuthFail_withCrcs (w : Word) (r : Region) (i : Fin 11)
    (hok okA authFail : Bool) (n : Nat) :
    regionAuthFail w r i hok okA authFail n (s.withCrcs x y) =
      (regionAuthFail w r i hok okA authFail n s).withCrcs x y := by
  cases authFail <;> simp [regionAuthFail]

/-! WRITE_RECORD's steps. -/

@[simp] theorem sealRecord_withCrcs (p2 : Bool) (n1 n2 : Byte) :
    (s.withCrcs x y).sealRecord p2 n1 n2 = (s.sealRecord p2 n1 n2).withCrcs x y := by
  cases p2 <;> simp [State.sealRecord, State.sealP1With, State.sealP2With]

@[simp] theorem beginStaleWrite_withCrcs (w : Word) (p2 : Bool) (s1A s1B s2A s2B : Byte) :
    beginStaleWrite w p2 s1A s1B s2A s2B (s.withCrcs x y) =
      (beginStaleWrite w p2 s1A s1B s2A s2B s).withCrcs x y := by
  simp [beginStaleWrite]

@[simp] theorem beginRekey_withCrcs (w : Word) (p2 : Bool) :
    beginRekey w p2 (s.withCrcs x y) = (beginRekey w p2 s).withCrcs x y := by
  simp [beginRekey]

@[simp] theorem identityWritten_withCrcs (w : Word) (p2 : Bool) :
    identityWritten w p2 (s.withCrcs x y) = (identityWritten w p2 s).withCrcs x y := by
  simp [identityWritten]

@[simp] theorem refreshed_withCrcs (w : Word) (rw : Bool) (t0 t1 : Block) :
    refreshed w rw t0 t1 (s.withCrcs x y) = (refreshed w rw t0 t1 s).withCrcs x y := by
  simp [refreshed]

@[simp] theorem sequenceRead_withCrcs (w : Word) (slot : SeqSlot) (p2 : Bool)
    (s1A s2A s1B : Byte) (n : Nat) (d : Block) :
    sequenceRead w slot p2 s1A s2A s1B n d (s.withCrcs x y) =
      (sequenceRead w slot p2 s1A s2A s1B n d s).withCrcs x y := by
  cases slot <;> cases p2 <;> simp [sequenceRead]

@[simp] theorem part1Written_withCrcs (w : Word) (p2 : Bool) (stale1 stale2 : Region) (i : Fin 7) :
    part1Written w p2 stale1 stale2 i (s.withCrcs x y) =
      (part1Written w p2 stale1 stale2 i s).withCrcs x y := by
  cases h : nextIndex i
  · cases p2 <;> simp [part1Written, h]
  · simp [part1Written, h]

@[simp] theorem part2Written_withCrcs (w : Word) (stale2 : Region) (j : Fin 4) :
    part2Written w stale2 j (s.withCrcs x y) = (part2Written w stale2 j s).withCrcs x y := by
  cases h : nextIndex j <;> simp [part2Written, h]

@[simp] theorem rekeyNext_withCrcs (w : Word) (p2 : Bool) (r : Region) :
    rekeyNext w p2 r (s.withCrcs x y) = (rekeyNext w p2 r s).withCrcs x y := by
  cases r <;> simp [rekeyNext]

@[simp] theorem rekey1Written_withCrcs (w : Word) (p2 : Bool) (r : Region) (i : Fin 7) :
    rekey1Written w p2 r i (s.withCrcs x y) = (rekey1Written w p2 r i s).withCrcs x y := by
  cases h : nextIndex i
  · cases p2 <;> simp [rekey1Written, h]
  · simp [rekey1Written, h]

@[simp] theorem rekey2Written_withCrcs (w : Word) (r : Region) (j : Fin 4) :
    rekey2Written w r j (s.withCrcs x y) = (rekey2Written w r j s).withCrcs x y := by
  cases h : nextIndex j <;> simp [rekey2Written, h]

/-! Answers. -/

@[simp] theorem onOk_withCrcs (w : Word) (pos : Position) (n : Nat) (d : Block) :
    onOk w pos n d (s.withCrcs x y) = (onOk w pos n d s).withCrcs x y := by
  cases pos <;> simp [onOk]

@[simp] theorem onAuthFail_withCrcs (w : Word) (pos : Position) (n : Nat) :
    onAuthFail w pos n (s.withCrcs x y) = (onAuthFail w pos n s).withCrcs x y := by
  cases pos <;> simp [onAuthFail]

/-- A later step of a port command neither reads nor writes the CRC registers (R170). -/
theorem onAnswer_withCrcs (a : Answer) :
    onAnswer a (s.withCrcs x y) = (onAnswer a s).withCrcs x y := by
  rcases hp : s.phase with _ | ⟨w, pos, _ | req⟩
  · simp [onAnswer, hp]
  · simp [onAnswer, hp]
  · cases a <;> simp [onAnswer, hp]

/-- The first step of a command other than a CRC command neither reads nor writes the CRC registers:
the condition an instruction tests is the same in both states (R170). -/
theorem exec_withCrcs {i : Instr} (hi : writesCrc i = false) :
    ∃ t, exec i s = .next t ∧ exec i (s.withCrcs x y) = .next (t.withCrcs x y) := by
  cases i <;> simp only [writesCrc, Bool.true_eq_false] at hi
  case sectorKey n => cases h : sectorLegal n <;> simp [exec, execSectorKey, h]
  case blockKey n => cases h : blockLegal n <;> simp [exec, execBlockKey, h]
  case blkEnc | blkDec => simp [exec, execBlkEnc, execBlkDec]
  case fieldGet fid bit => cases h : fieldOperand fid bit <;> simp [exec, execFieldGet, h]
  case fieldPut fid bit =>
    rcases h : fieldOperand fid bit with _ | r
    · simp [exec, execFieldPut, h]
    · by_cases hfits : s.fval.toNat < 256 ^ r.width <;> simp [exec, execFieldPut, h, hfits]
  case bitGet fid bit => cases h : bitOperand fid bit <;> simp [exec, execBitGet, h]
  case bitSet | bitClr => simp [exec, execBitSet, execBitClr]
  case nickPack =>
    by_cases hlong : 14 < nameLength (s.buf .name) <;> simp [exec, execNickPack, hlong]
  case blockMap index _ => cases h : indexLegal index <;> simp [exec, execBlockMap, h]
  case hdrCheck => cases hv : hdrValid (s.buf .hdr) <;> simp [exec, execHdrCheck, hv]
  case p1Check => cases hv : p1Valid (s.buf .p1) <;> simp [exec, execP1Check, hv]
  case p2Check => cases hv : p2Valid (s.buf .p2) <;> simp [exec, execP2Check, hv]
  case hdrSeal | p1Seal | p2Seal => simp [exec, execHdrSeal, execP1Seal, execP2Seal]
  case readRecord | writeRecord => simp [exec, execReadRecord, execWriteRecord]
  case nop | nickUnpack | seqReconcile => simp [exec, execNop, execNickUnpack, execSeqReconcile]

end

/-- What keeps whatever is put in the two registers keeps what stands in them. -/
theorem crcs_eq_of_withCrcs {s t : State} (h : t = t.withCrcs s.crc16 s.crc48) :
    t.crc16 = s.crc16 ∧ t.crc48 = s.crc48 :=
  ⟨by rw [h]; rfl, by rw [h]; rfl⟩

/-- Settles O26: every step outside the CRC commands commutes with putting other values in the two
registers; with the values that stand in them already, this says that they stay. -/
theorem crcRegistersSurvive : Obligations.CrcRegistersSurvive := by
  constructor
  · intro i s x y hi
    obtain ⟨t, ht, hxy⟩ := exec_withCrcs s x y hi
    obtain ⟨t', ht', hkeep⟩ := exec_withCrcs s s.crc16 s.crc48 hi
    cases ht.symm.trans ht'
    rw [withCrcs_self, ht] at hkeep
    obtain ⟨h16, h48⟩ := crcs_eq_of_withCrcs (Host.Outcome.next.inj hkeep)
    exact ⟨t, ht, h16, h48, hxy⟩
  · intro a s x y
    obtain ⟨h16, h48⟩ := crcs_eq_of_withCrcs (onAnswer_withCrcs s s.crc16 s.crc48 a)
    exact ⟨h16, h48, onAnswer_withCrcs s x y a⟩

end Sys2Proof.Machine

/-! The block map (spec/43_arbiter.md R270). -/

namespace Sys2Proof.Machine

/-- R270: in its sector a mapped block stands at i mod 3, since the base is the first block of a
sector and i + i div 3 passes over one trailer for every three data blocks. -/
theorem regionBlock_mod_four (r : Region) (i : Nat) : regionBlock r i % 4 = i % 3 := by
  have hbase := (regionBase_bounds r).1
  simp only [regionBlock, mapBlock]
  omega

/-- R270: the eleven blocks of a region lie in four sectors, the first of which starts at the base. -/
theorem regionBlock_sector (r : Region) {i : Nat} (hi : i ≤ 10) :
    regionBase r / 4 ≤ regionBlock r i / 4 ∧ regionBlock r i / 4 ≤ regionBase r / 4 + 3 := by
  have hbase := (regionBase_bounds r).1
  obtain ⟨hlow, hhigh, _⟩ := regionBlock_bounds r i hi
  omega

/-- R9: no mapped block is shared, in one region or between the two. -/
theorem eq_of_regionBlock_eq {r q : Region} {i j : Nat} (hi : i ≤ 10) (hj : j ≤ 10)
    (h : regionBlock r i = regionBlock q j) : r = q ∧ i = j := by
  by_cases hrq : r = q
  · subst hrq
    exact ⟨rfl, regionBlock_inj r i j h⟩
  · exact absurd h (regionBlock_disjoint r q i j hrq hi hj)

/-- Settles O44: the map's own clauses compute; the others follow from the bounds that R9 puts on the
two bases. -/
theorem blockMapAvoidsTrailers : Obligations.BlockMapAvoidsTrailers := by
  refine ⟨fun _ _ => rfl, rfl, rfl, fun _ => rfl, fun _ => rfl, ?_⟩
  intro r q i j hi hj
  obtain ⟨_, hbase4, hbase48⟩ := regionBase_bounds r
  obtain ⟨hlow, hhigh, htrailer⟩ := regionBlock_bounds r i hi
  obtain ⟨hfirst, hlast⟩ := regionBlock_sector r hi
  exact ⟨regionBlock_mod_four r i, htrailer, hfirst, hlast, hhigh, rfl,
    hbase4.trans hlow, by omega, eq_of_regionBlock_eq hi hj⟩

/-! Reconciliation (spec/43_arbiter.md R272 to R276). -/

/-- R272: A is ahead by 1 when the difference mod 256 is 1. -/
theorem byte_sub_eq_one_iff {x y : Byte} : x - y = 1 ↔ x = y + 1 := by bv_omega

/-- R272: B is ahead by 1 when the difference mod 256 is 255. -/
theorem byte_sub_eq_255_iff {x y : Byte} : x - y = 255 ↔ y = x + 1 := by bv_omega

/-- R272: the two copies are not each ahead of the other by 1. -/
theorem ahead_asymm {x y : Byte} (h : x = y + 1) : y ≠ x + 1 := by bv_omega

/-- R272: a copy ahead by 1 does not tie. -/
theorem ne_of_ahead {x y : Byte} (h : x = y + 1) : x ≠ y := by bv_omega

/-- R272, both copies valid, in terms of which byte is ahead by 1. -/
theorem reconcile_both (sA sB : Byte) (eq : Bool) :
    reconcile true sA true sB eq =
      if sA = sB + 1 then .fromA
      else if sB = sA + 1 then .fromB
      else if sA = sB ∧ eq = true then .fromA
      else .ambiguous := by
  simp only [reconcile, Bool.and_self, if_true, byte_sub_eq_one_iff, byte_sub_eq_255_iff,
    show sA - sB = 0 ↔ sA = sB from sub_eq_zero]

theorem reconcile_both_eq_fromA {sA sB : Byte} {eq : Bool} :
    reconcile true sA true sB eq = .fromA ↔ sA = sB + 1 ∨ (sA = sB ∧ eq = true) := by
  rw [reconcile_both]
  split_ifs with hA hB htie
  · exact iff_of_true rfl (.inl hA)
  · exact iff_of_false nofun (not_or.mpr ⟨hA, fun htie => ne_of_ahead hB htie.1.symm⟩)
  · exact iff_of_true rfl (.inr htie)
  · exact iff_of_false nofun (not_or.mpr ⟨hA, htie⟩)

theorem reconcile_both_eq_fromB {sA sB : Byte} {eq : Bool} :
    reconcile true sA true sB eq = .fromB ↔ sB = sA + 1 := by
  rw [reconcile_both]
  split_ifs with hA hB
  · exact iff_of_false nofun (ahead_asymm hA)
  · exact iff_of_true rfl hB
  · exact iff_of_false nofun hB
  · exact iff_of_false nofun hB

theorem reconcile_both_eq_ambiguous {sA sB : Byte} {eq : Bool} :
    reconcile true sA true sB eq = .ambiguous ↔
      sA ≠ sB + 1 ∧ sB ≠ sA + 1 ∧ ¬(sA = sB ∧ eq = true) := by
  rw [reconcile_both]
  split_ifs with hA hB htie
  · exact iff_of_false nofun fun h => h.1 hA
  · exact iff_of_false nofun fun h => h.2.1 hB
  · exact iff_of_false nofun fun h => h.2.2 htie
  · exact iff_of_true rfl ⟨hA, hB, htie⟩

/-- R273: RES0 names the outcome, and it is 3 exactly when the outcome is AMBIGUOUS. -/
theorem Choice.code_eq_three_iff (o : Choice) :
    (o.code.setWidth 32 : Word) = 3 ↔ o = .ambiguous := by
  cases o <;> decide

/-- R273: RES1 is the difference of the two bytes mod 256. -/
theorem setWidth_sub_eq (x y : Byte) :
    ((x - y).setWidth 32 : Word) = BitVec.ofNat 32 ((x.toNat + 256 - y.toNat) % 256) := by
  bv_omega

/-- R273: SEQ_RECONCILE reports the outcome and the difference, and completes by the outcome. -/
theorem exec_seqReconcile (s : State) :
    let sA := s.fval.extractLsb' 0 8
    let sB := s.fval.extractLsb' 8 8
    let o := reconcile (s.fval.getLsbD 16) sA (s.fval.getLsbD 17) sB s.eqPolicy
    exec .seqReconcile s = .next { s with
      res0 := o.code.setWidth 32
      res1 := BitVec.ofNat 32 ((sA.toNat + 256 - sB.toNat) % 256)
      err := if o = .ambiguous then .ambiguousSequence else .ok
      done := true, phase := .idle } := by
  simp only [exec, execSeqReconcile, setWidth_sub_eq]
  rfl

/-- Settles O45: with at most one copy valid the outcome computes; with both, each case of the two bytes
is one of the three outcomes that `reconcile_both` can have. -/
theorem seqReconcileResult : Obligations.SeqReconcileResult := by
  intro s sA sB vA vB
  have hres0 {vA' vB' : Bool} {o : Choice} (hA : vA = vA') (hB : vB = vB')
      (ho : reconcile vA' sA vB' sB s.eqPolicy = o) :
      ((reconcile vA sA vB sB s.eqPolicy).code.setWidth 32 : Word) = o.code.setWidth 32 := by
    rw [hA, hB, ho]
  refine ⟨_, exec_seqReconcile s, ?frame, fun hA hB => hres0 hA hB rfl,
    fun hA hB => hres0 hA hB rfl, fun hA hB => hres0 hA hB rfl, fun hA hB => ⟨?aheadA, ?aheadB,
      ?tieA, ?tie, ?far⟩⟩
  case frame =>
    simp only [Choice.code_eq_three_iff]
    rfl
  case aheadA => exact fun h => hres0 hA hB (reconcile_both_eq_fromA.mpr (.inl h))
  case aheadB => exact fun h => hres0 hA hB (reconcile_both_eq_fromB.mpr h)
  case tieA => exact fun h heq => hres0 hA hB (reconcile_both_eq_fromA.mpr (.inr ⟨h, heq⟩))
  case tie =>
    intro h heq
    refine hres0 hA hB (reconcile_both_eq_ambiguous.mpr ⟨fun hA => ne_of_ahead hA h,
      fun hB => ne_of_ahead hB h.symm, by simp [heq]⟩)
  case far =>
    exact fun hne hA' hB' => hres0 hA hB
      (reconcile_both_eq_ambiguous.mpr ⟨hA', hB', fun htie => hne htie.1⟩)

/-- A choice selects region A exactly when it is FROM_A. -/
theorem Choice.selects_eq_a_iff {o : Choice} : o.selects = some .a ↔ o = .fromA := by
  cases o <;> simp [Choice.selects]

/-- A choice selects region B exactly when it is FROM_B. -/
theorem Choice.selects_eq_b_iff {o : Choice} : o.selects = some .b ↔ o = .fromB := by
  cases o <;> simp [Choice.selects]

theorem Choice.isSome_selects_iff {o : Choice} :
    o.selects.isSome = true ↔ o = .fromA ∨ o = .fromB := by
  cases o <;> simp [Choice.selects]

/-- Settles O46: without EQ_POLICY the tie selects nothing, which leaves the two cases in which one
copy is ahead by 1. -/
theorem healthyPairSelectsTheNewer : Obligations.HealthyPairSelectsTheNewer := by
  intro sA sB
  have hA : reconcile true sA true sB false = .fromA ↔ sA = sB + 1 := by
    simp [reconcile_both_eq_fromA]
  have hB : reconcile true sA true sB false = .fromB ↔ sB = sA + 1 := reconcile_both_eq_fromB
  exact ⟨by rw [Choice.isSome_selects_iff, hA, hB], Choice.selects_eq_a_iff.trans hA,
    Choice.selects_eq_b_iff.trans hB⟩

/-! WRITE_RECORD's refresh (spec/43_arbiter.md R287, R293). -/

/-- R110, R111: the word of WRITE_RECORD decodes to it. -/
theorem decode_encode_writeRecord (rw : Bool) :
    decode (encode (.writeRecord rw)).word = .ok (.writeRecord rw) := by
  have h := decode_of (wordW .writeRecord rw) .writeRecord (wordW_op _ _) (wordW_reserved _ _)
  rw [assemble, wordW_rw] at h
  exact h

/-- R180: the key of sector 0 is the parameter that K0 holds. -/
theorem toVec_sectorKey_zero (s : State) : toVec 6 (s.sectorKey 0) = Config.sector0Key := by
  rw [State.sectorKey, sectorKeyOf, if_pos rfl, buf_k0, toVec_toList]

/-- R95: a request for a block of sector 0, read or written, carries that key. -/
theorem request_of_sector_zero (s : State) {n : Nat} (op : PortOp) (hn : n / 4 = 0) :
    s.request n op = ⟨n, op, Config.sector0Key⟩ := by
  rw [State.request, hn, toVec_sectorKey_zero]

/-- R286: the step that begins WRITE_RECORD clears its results and asks for block 0. -/
theorem step_writeRecord {s : State} {rw : Bool}
    (hf : s.fetch = some (encode (.writeRecord rw)).word) :
    step s = .next { s with
      res0 := 0, res1 := 0, seq := 0
      phase := .busy (encode (.writeRecord rw)).word (.wrRefresh0 rw)
        (some ⟨0, .read, Config.sector0Key⟩) } := by
  rw [step_of_decode_ok hf (decode_encode_writeRecord rw), exec, execWriteRecord,
    issue_of_guard _ _ _ _ _ rfl, request_of_sector_zero _ _ rfl]
  rfl

/-- R95: a step in which the transport answers OK, whatever it knows of the tag. -/
theorem step_answer_ok {s : State} {w : Word} {pos : Position} {req : PortRequest} {d : Block}
    {rest : List Event} (h : s.phase = .busy w pos (some req))
    (hi : s.inputs = .answer (.ok d) :: rest) :
    step s = .next (onOk w pos req.block d { s with inputs := rest }) := by
  rw [step_of_input (fetch_of_request h) hi]
  simp only [perform, onAnswer, h]

/-- R287: block 0 answered, the refresh asks for block 1. -/
theorem step_wrRefresh0 {s : State} {w : Word} {rw : Bool} {req : PortRequest} {d : Block}
    {rest : List Event} (h : s.phase = .busy w (.wrRefresh0 rw) (some req))
    (hi : s.inputs = .answer (.ok d) :: rest) :
    step s = .next { s with
      inputs := rest
      phase := .busy w (.wrRefresh1 rw d) (some ⟨1, .read, Config.sector0Key⟩) } := by
  rw [step_answer_ok h hi, onOk, issue_of_guard _ _ _ _ _ rfl, request_of_sector_zero _ _ rfl]

/-- R287: HDR refreshed by block 0 as read, and sealed. -/
def State.refreshHdr (s : State) (t0 : Block) : State := (s.bufWrite .hdr 0 t0.toList).sealHdr

/-- R287: the refresh keeps the upper half of HDR, which holds the identity, up to its checksum. -/
theorem refreshHdr_buf_hdr (s : State) (t0 : Block) :
    (s.refreshHdr t0).buf .hdr = hdrSealed (t0.toList ++ slice (s.buf .hdr) 16 32) := by
  have hsize : (0 : Nat) + t0.toList.length ≤ Buffer.hdr.size := by simp [Buffer.size]
  have htail : (s.buf .hdr).drop 16 = slice (s.buf .hdr) 16 32 :=
    (List.take_of_length_le (by simp [Buffer.size])).symm
  rw [State.refreshHdr, sealHdr_buf, buf_bufWrite_same s .hdr rfl 0 _ hsize, ← htail]
  simp [splice]

/-- R287: the refresh writes no byte outside HDR. -/
theorem refreshHdr_sameBytesBut (s : State) (t0 : Block) :
    SameBytesBut s (s.refreshHdr t0) 0x100 32 := by
  intro a ha
  rw [State.refreshHdr, sealHdr_sameBytesBut _ a (by omega)]
  exact byte_bufWrite_outside s .hdr 0 a _ (by simp [Buffer.base]; omega)

/-- R287: the refresh rewrites HDR and changes no register. -/
theorem refreshHdr_eq (s : State) (t0 : Block) :
    s.refreshHdr t0 = { s with mem := (s.refreshHdr t0).mem } := rfl

/-- R214: the buffers after the header's seal depend on the buffers before it alone. -/
theorem sealHdr_mem_congr {s t : State} (h : t.mem = s.mem) : t.sealHdr.mem = s.sealHdr.mem := by
  rw [State.sealHdr, State.sealHdr, bufWrite_mem, bufWrite_mem, h, buf_of_mem_eq h]

/-- R287: the buffers after the refresh depend on the buffers before it alone. -/
theorem refreshHdr_mem_congr {s t : State} (t0 : Block) (h : t.mem = s.mem) :
    (t.refreshHdr t0).mem = (s.refreshHdr t0).mem :=
  sealHdr_mem_congr (by rw [bufWrite_mem, bufWrite_mem, h])

/-- R333, R293: the identity mismatch reports block 1 at stage COMPARE. -/
theorem raise_identityMismatch (s : State) :
    raise .identityMismatch 1 .compare .none s =
      { s with xstat := 0x00008001, err := .identityMismatch, done := true, phase := .idle } := rfl

/-- R287: with RW = 0 a refreshed identity other than block 1 ends the command. -/
theorem refreshed_of_mismatch {s : State} {t0 t1 : Block} (w : Word)
    (h : slice ((s.refreshHdr t0).buf .hdr) 16 32 ≠ t1.toList) :
    refreshed w false t0 t1 s = raise .identityMismatch 1 .compare .none (s.refreshHdr t0) := by
  rw [State.refreshHdr] at h
  simp only [refreshed, if_neg h, Bool.false_eq_true, if_false, State.refreshHdr]

/-- R287: block 1 answered, with RW = 0 a refreshed identity other than it ends the command. -/
theorem step_wrRefresh1_of_mismatch {s : State} {w : Word} {req : PortRequest} {t0 t1 : Block}
    {rest : List Event} (h : s.phase = .busy w (.wrRefresh1 false t0) (some req))
    (hi : s.inputs = .answer (.ok t1) :: rest)
    (hne : slice ((s.refreshHdr t0).buf .hdr) 16 32 ≠ t1.toList) :
    step s = .next { s with
      xstat := 0x00008001, mem := (s.refreshHdr t0).mem
      err := .identityMismatch, done := true, phase := .idle, inputs := rest } := by
  have hmem := refreshHdr_mem_congr (s := s) (t := { s with inputs := rest }) t0 rfl
  have hne' : slice (({ s with inputs := rest }.refreshHdr t0).buf .hdr) 16 32 ≠ t1.toList := by
    rwa [buf_of_mem_eq hmem]
  rw [step_answer_ok h hi, onOk, refreshed_of_mismatch w hne', raise_identityMismatch,
    refreshHdr_eq, hmem]

/-- R34: STATUS.ERR stands in bits 7:0. -/
theorem statusWord_err (s : State) : s.statusWord.extractLsb' 0 8 = s.err.code := extract_low _ _

/-- Settles O53: the run asks for block 0, then for block 1, and the comparison then ends it, so no
request is a write and no later answer is taken. -/
theorem identityMismatchWritesNothing : Obligations.IdentityMismatchWritesNothing := by
  intro s d0 d1 rest hf hi hne
  obtain ⟨t1, hstep1, ht1⟩ : ∃ t1, step s = .next t1 ∧ t1 = { s with
      res0 := 0, res1 := 0, seq := 0
      phase := .busy 0x33 (.wrRefresh0 false) (some ⟨0, .read, Config.sector0Key⟩) } :=
    ⟨_, step_writeRecord (rw := false) hf, rfl⟩
  have hphase1 : t1.phase = .busy 0x33 (.wrRefresh0 false) (some ⟨0, .read, Config.sector0Key⟩) := by
    rw [ht1]
  obtain ⟨t2, hstep2, ht2⟩ : ∃ t2, step t1 = .next t2 ∧ t2 = { t1 with
      inputs := .answer (.ok d1) :: rest
      phase := .busy 0x33 (.wrRefresh1 false d0) (some ⟨1, .read, Config.sector0Key⟩) } :=
    ⟨_, step_wrRefresh0 hphase1 (by rw [ht1]; exact hi), rfl⟩
  have hphase2 :
      t2.phase = .busy 0x33 (.wrRefresh1 false d0) (some ⟨1, .read, Config.sector0Key⟩) := by
    rw [ht2]
  have hmem2 : t2.mem = s.mem := by rw [ht2, ht1]
  have hhdr : (t2.refreshHdr d0).buf .hdr = hdrSealed (d0.toList ++ slice (s.buf .hdr) 16 32) := by
    rw [refreshHdr_buf_hdr, buf_of_mem_eq hmem2]
  obtain ⟨t3, hstep3, ht3⟩ : ∃ t3, step t2 = .next t3 ∧ t3 = { t2 with
      xstat := 0x00008001, mem := (t2.refreshHdr d0).mem
      err := .identityMismatch, done := true, phase := .idle, inputs := rest } :=
    ⟨_, step_wrRefresh1_of_mismatch hphase2 (by rw [ht2]) (hhdr ▸ hne), rfl⟩
  have hmem3 : t3.mem = (t2.refreshHdr d0).mem := by rw [ht3]
  refine ⟨t1, t2, t3, run_succ 0 hstep1, hphase1, (run_succ 1 hstep1).trans (run_succ 0 hstep2),
    hphase2, (run_succ 2 hstep1).trans ((run_succ 1 hstep2).trans (run_succ 0 hstep3)),
    ?whole, ?status, ?tag, ?bytes, ?hdr⟩
  case whole => rw [ht3, ht2, ht1]
  case status => rw [statusWord_err, ht3]; rfl
  case tag => rw [ht3, ht2, ht1]
  case bytes =>
    intro a ha
    rw [byte_of_mem_eq hmem3, refreshHdr_sameBytesBut t2 d0 a ha, byte_of_mem_eq hmem2]
  case hdr => rw [buf_of_mem_eq hmem3, hhdr]

end Sys2Proof.Machine

/-! The encoding, in both directions (spec/30_encoding.md R110 to R114). -/

namespace Sys2Proof

/-! An encoded word decodes, format by format (R111). -/

theorem decodeWrite_commandWrite (w : Word) : decodeWrite (commandWrite w) = decode w := rfl

theorem decode_wordN (o : Op) (ho : o.format = .n) :
    decode (wordN o) = .ok (assemble o (wordN o)) :=
  decode_of _ o (wordN_op o) (by rw [ho, wordN_reserved])

theorem decode_wordR (o : Op) (ho : o.format = .r) (addr len : BitVec 12) :
    decode (wordR o addr len) = .ok (assemble o (wordR o addr len)) :=
  decode_of _ o (wordR_op o addr len) (by rw [ho]; exact BitVec.and_zero)

theorem decode_wordZ (o : Op) (ho : o.format = .z) (len : BitVec 12) :
    decode (wordZ o len) = .ok (assemble o (wordZ o len)) :=
  decode_of _ o (wordZ_op o len) (by rw [ho, wordZ_reserved])

theorem decode_wordA (o : Op) (ho : o.format = .a) (arg : Byte) :
    decode (wordA o arg) = .ok (assemble o (wordA o arg)) :=
  decode_of _ o (wordA_op o arg) (by rw [ho, wordA_reserved])

theorem decode_wordF (o : Op) (ho : o.format = .f) (fid bit : Byte) :
    decode (wordF o fid bit) = .ok (assemble o (wordF o fid bit)) :=
  decode_of _ o (wordF_op o fid bit) (by rw [ho, wordF_reserved])

theorem decode_wordM (o : Op) (ho : o.format = .m) (index : BitVec 4) (r : Region) :
    decode (wordM o index r) = .ok (assemble o (wordM o index r)) :=
  decode_of _ o (wordM_op o index r) (by rw [ho, wordM_reserved])

/-- Settles O1: per format, an encoded word has its opcode below, no reserved bit set, and its operands
in its fields; a bus operation is told by its address alone. -/
theorem decodeEncodeAgree : Obligations.DecodeEncodeAgree := by
  intro i
  cases i <;> simp only [encode, decodeWrite_commandWrite]
  case crc16Run | crc48Run => rw [decode_wordR _ rfl, assemble, wordR_addr, wordR_len]
  case crc16Zero => rw [decode_wordZ _ rfl, assemble, wordZ_len]
  case crc16Const | crc48Const | sectorKey | blockKey | blkEnc | blkDec =>
    rw [decode_wordA _ rfl, assemble, wordA_arg]
  case fieldGet | fieldPut | bitGet | bitSet | bitClr =>
    rw [decode_wordF _ rfl, assemble, wordF_fid, wordF_bit]
  case blockMap => rw [decode_wordM _ rfl, assemble, wordM_index, wordM_region]
  case writeRecord rw => exact Machine.decode_encode_writeRecord rw
  case crc16DataWrite | crc48DataWrite => rfl
  all_goals exact decode_wordN _ rfl

/-! A word is rebuilt from its fields, format by format (R111, R112). -/

/-- The bits of a word that its format reserves are 0 when it passes the second decoding step. -/
theorem extract_eq_zero_of_reserved {w mask : Word} (h : w &&& mask = 0) (k n : Nat)
    (hmask : mask.extractLsb' k n = BitVec.allOnes n) : w.extractLsb' k n = 0 := by
  have hand := congrArg (BitVec.extractLsb' k n) h
  rw [BitVec.extractLsb'_and, hmask, BitVec.and_allOnes] at hand
  simpa using hand

/-- Two neighbouring fields of a word are one. -/
theorem extract_append (w : Word) (low m n : Nat) :
    w.extractLsb' (low + m) n ++ w.extractLsb' low m = w.extractLsb' low (n + m) :=
  BitVec.extractLsb'_append_extractLsb'_eq_extractLsb' rfl

theorem eq_wordR {w : Word} {o : Op} (h : w.extractLsb' 0 8 = o.code) :
    w = wordR o (wordAddr w) (wordLen w) := by
  have hhigh : wordLen w ++ wordAddr w = w.extractLsb' 8 24 := extract_append w 8 12 12
  rw [wordR, hhigh, ← h, high_append_low]

theorem eq_wordZ {w : Word} {o : Op} (h : w.extractLsb' 0 8 = o.code)
    (hr : w &&& Format.z.reserved = 0) : w = wordZ o (wordLen w) := by
  have hzero : w.extractLsb' 8 12 = 0#12 := extract_eq_zero_of_reserved hr 8 12 rfl
  have hhigh : wordLen w ++ w.extractLsb' 8 12 = w.extractLsb' 8 24 := extract_append w 8 12 12
  rw [wordZ, ← hzero, hhigh, ← h, high_append_low]

theorem eq_wordA {w : Word} {o : Op} (h : w.extractLsb' 0 8 = o.code)
    (hr : w &&& Format.a.reserved = 0) : w = wordA o (wordArg w) := by
  have hzero : w.extractLsb' 16 16 = 0#16 := extract_eq_zero_of_reserved hr 16 16 rfl
  have hhigh : w.extractLsb' 16 16 ++ wordArg w = w.extractLsb' 8 24 := extract_append w 8 8 16
  rw [wordA, ← hzero, hhigh, ← h, high_append_low]

theorem eq_wordF {w : Word} {o : Op} (h : w.extractLsb' 0 8 = o.code)
    (hr : w &&& Format.f.reserved = 0) : w = wordF o (wordFid w) (wordBit w) := by
  have hzero : w.extractLsb' 24 8 = 0#8 := extract_eq_zero_of_reserved hr 24 8 rfl
  have htop : w.extractLsb' 24 8 ++ wordBit w = w.extractLsb' 16 16 := extract_append w 16 8 8
  have hhigh : w.extractLsb' 16 16 ++ wordFid w = w.extractLsb' 8 24 := extract_append w 8 8 16
  rw [wordF, ← hzero, htop, hhigh, ← h, high_append_low]

/-- A field of one bit. -/
theorem extract_bit (w : Word) (k : Nat) : w.extractLsb' k 1 = BitVec.ofBool (w.getLsbD k) := by
  ext j hj
  obtain rfl : j = 0 := by omega
  simp

/-- R112: REGION is bit 12. -/
theorem regionBit_wordRegion (w : Word) : regionBit (wordRegion w) = w.extractLsb' 12 1 := by
  rw [extract_bit, wordRegion]
  cases w.getLsbD 12 <;> rfl

theorem eq_wordM {w : Word} {o : Op} (h : w.extractLsb' 0 8 = o.code)
    (hr : w &&& Format.m.reserved = 0) : w = wordM o (wordIndex w) (wordRegion w) := by
  have hzero : w.extractLsb' 13 19 = 0#19 := extract_eq_zero_of_reserved hr 13 19 rfl
  have htop : w.extractLsb' 13 19 ++ w.extractLsb' 12 1 = w.extractLsb' 12 20 :=
    extract_append w 12 1 19
  have hhigh : w.extractLsb' 12 20 ++ wordIndex w = w.extractLsb' 8 24 := extract_append w 8 4 20
  rw [wordM, regionBit_wordRegion, ← hzero, htop, hhigh, ← h, high_append_low]

theorem eq_wordW {w : Word} {o : Op} (h : w.extractLsb' 0 8 = o.code)
    (hr : w &&& Format.w.reserved = 0) : w = wordW o (wordRw w) := by
  have hzero : w.extractLsb' 9 23 = 0#23 := extract_eq_zero_of_reserved hr 9 23 rfl
  have hrw : BitVec.ofBool (wordRw w) = w.extractLsb' 8 1 := (extract_bit w 8).symm
  have hhigh : w.extractLsb' 9 23 ++ w.extractLsb' 8 1 = w.extractLsb' 8 24 :=
    extract_append w 8 1 23
  rw [wordW, hrw, ← hzero, hhigh, ← h, high_append_low]

/-- Settles O2: a word that passes the first two steps is, per format, its opcode, its fields and
zeros. -/
theorem decodedWordIsEncoded : Obligations.DecodedWordIsEncoded := by
  intro w i hd
  obtain ⟨o, h, hr, rfl⟩ := decode_eq_ok hd
  cases o <;> refine congrArg commandWrite (Eq.symm ?_)
  case crc16Run | crc48Run => exact eq_wordR h
  case crc16Zero => exact eq_wordZ h hr
  case crc16Const | crc48Const | sectorKey | blockKey | blkEnc | blkDec => exact eq_wordA h hr
  case fieldGet | fieldPut | bitGet | bitSet | bitClr => exact eq_wordF h hr
  case blockMap => exact eq_wordM h hr
  case writeRecord => exact eq_wordW h hr
  all_goals exact eq_wordN_of_reserved h hr

end Sys2Proof

/-! Steps and acceptance (spec/10_state.md R50 to R52). -/

namespace Sys2Proof.Machine

/-- R52: at rest no command word waits to begin. -/
theorem fetch_of_idle {s : State} (h : s.phase = .idle) : s.fetch = none := by
  simp only [State.fetch, h]

theorem busy_of_idle {s : State} (h : s.phase = .idle) : s.busy = false := busy_eq_false.mpr h

/-- A host read's move. -/
theorem step_hostRead {s : State} {addr : BitVec 12} {n : Width} {rest : List Event}
    (hf : s.fetch = none) (hi : s.inputs = .hostRead addr n :: rest) :
    step s = .next (hostRead addr n { s with inputs := rest }) :=
  step_of_input hf hi

/-- A malformed host write's move (R85). -/
theorem step_hostWrite_malformed {s : State} {addr : BitVec 12} {n : Width} {v : Word}
    {rest : List Event} (hf : s.fetch = none) (hi : s.inputs = .hostWrite addr n v :: rest)
    (h : target addr n = none) : step s = .next { s with busErr := true, inputs := rest } :=
  (step_of_input hf hi).trans (performWrite_malformed _ h)

/-- The move of a host write that is no computing bus operation. -/
theorem step_hostWrite {s : State} {addr : BitVec 12} {n : Width} {x : Target} {v : Word}
    {rest : List Event} (hf : s.fetch = none) (hi : s.inputs = .hostWrite addr n v :: rest)
    (h : target addr n = some x) (h16 : x ≠ .reg .crc16Data) (h48 : x ≠ .reg .crc48Data) :
    step s = .next (hostWrite addr n v { s with inputs := rest }) :=
  (step_of_input hf hi).trans (performWrite_target v _ h h16 h48)

/-- The move of a host write to a register that computes nothing. -/
theorem step_hostWrite_reg {s : State} {addr : BitVec 12} {n : Width} {r : Register} {v : Word}
    {rest : List Event} (hf : s.fetch = none) (hi : s.inputs = .hostWrite addr n v :: rest)
    (h : target addr n = some (.reg r)) (h16 : r ≠ .crc16Data) (h48 : r ≠ .crc48Data) :
    step s = .next (hostWriteReg r v { s with inputs := rest }) := by
  rw [step_hostWrite hf hi h (by simpa using h16) (by simpa using h48), hostWrite_reg h]

/-- A write to one of the two data registers is executed as its bus operation (R113). -/
theorem performWrite_busOperation {addr : BitVec 12} {v : Word} {i : Instr}
    (h : busOperation ⟨addr, v⟩ = some i) (s : State) : performWrite addr .w4 v s = exec i s := by
  simp only [performWrite, h]

/-- R51: the host write that issues a command word. -/
theorem step_accept {s : State} {w : Word} {rest : List Event} (hp : s.phase = .idle)
    (hi : s.inputs = .hostWrite 0x00C .w4 w :: rest) :
    step s = .next (accept w { s with inputs := rest }) := by
  have hidle : ({ s with inputs := rest } : State).busy = false := busy_of_idle hp
  rw [step_hostWrite_reg (r := .cmd) (fetch_of_idle hp) hi (by decide) nofun nofun]
  simp only [hostWriteReg, hidle, Bool.false_eq_true, if_false]

/-- R51: a write to CMD while BUSY. -/
theorem step_overrun {s : State} {addr : BitVec 12} {n : Width} {v : Word} {rest : List Event}
    (hb : s.busy = true) (hf : s.fetch = none) (h : target addr n = some (.reg .cmd))
    (hi : s.inputs = .hostWrite addr n v :: rest) :
    step s = .next { s with ovr := true, inputs := rest } := by
  have hbusy : ({ s with inputs := rest } : State).busy = true := hb
  rw [step_hostWrite_reg hf hi h nofun nofun]
  simp only [hostWriteReg, hbusy, if_true, overrun]

/-- An accepted word is what the next step begins. -/
theorem fetch_accept (w : Word) (s : State) : (accept w s).fetch = some w := rfl

/-- The word that `withFetchWord` places is the word itself. -/
theorem fetch_withFetchWord (s : State) (w : Word) : (s.withFetchWord 32 w.toNat).fetch = some w := by
  rw [fetch_eq_some, State.withFetchWord, Nat.mod_eq_of_lt w.isLt, BitVec.ofNat_toNat,
    BitVec.setWidth_eq]

/-- Settles O7: a decoded word is what the sequencer begins, and a computing bus operation is what the
bus does with its move. -/
theorem stepRunsDecodedInstruction : Obligations.StepRunsDecodedInstruction :=
  ⟨fun _ _ _ hf hd => step_of_decode_ok hf hd,
    fun s w _ hd => step_of_decode_ok (fetch_withFetchWord s w) hd,
    fun _ _ _ _ _ hf hi hop => (step_of_input hf hi).trans (performWrite_busOperation hop _)⟩

/-- Settles O8: the write to CMD is accepted at rest and overrun while BUSY. -/
theorem acceptanceAndOverrun : Obligations.AcceptanceAndOverrun := by
  intro s w rest hi
  refine ⟨fun hp => ⟨_, step_accept hp hi, rfl, rfl, step_of_fetch (fetch_accept _ _),
    fun i hd => startCommand_of_decode hd _⟩, fun hb hf => step_overrun hb hf (by decide) hi⟩

/-- R110: the word of a command decodes to it. -/
theorem decode_encode_word {i : Instr} (h : isBusOperation i = false) :
    decode (encode i).word = .ok i := by
  have haddr : (encode i).addr = cmdAddr := by cases i <;> first | rfl | cases h
  have hd := decodeEncodeAgree i
  rwa [decodeWrite, if_pos haddr] at hd

/-- R52: a local command is accepted by one step and completed by the next. -/
theorem run_local {i : Instr} {s : State} {rest : List Event} (hport : isPortCommand i = false)
    (hbus : isBusOperation i = false) (hp : s.phase = .idle)
    (hi : s.inputs = .hostWrite 0x00C .w4 (encode i).word :: rest) :
    ∃ c s', exec i (accept (encode i).word { s with inputs := rest }) = .next (finish c s') ∧
      OnlyResults (accept (encode i).word { s with inputs := rest }) s' ∧
      run 2 s = .next (finish c s') := by
  obtain ⟨c, s', hx, hframe⟩ :=
    exec_local i (accept (encode i).word { s with inputs := rest }) hport hbus
  refine ⟨c, s', hx, hframe, ?_⟩
  rw [run_succ 1 (step_accept hp hi), run_succ 0
    ((step_of_decode_ok (fetch_accept _ _) (decode_encode_word hbus)).trans hx), run_zero]

theorem OnlyResults.inputs {s s' : State} (h : OnlyResults s s') : s'.inputs = s.inputs := by rw [h]

theorem OnlyResults.irqEn {s s' : State} (h : OnlyResults s s') : s'.irqEn = s.irqEn := by rw [h]

/-- Settles O9: acceptance takes the write's move, and a local command ends in a completion, which
takes none. -/
theorem localCommandCompletesInOneStep : Obligations.LocalCommandCompletesInOneStep := by
  intro i s rest hport hbus hp hi
  obtain ⟨c, s', hx, hframe, hrun⟩ := run_local hport hbus hp hi
  exact ⟨_, hrun, hx, rfl, rfl, hframe.inputs⟩

/-! The reset event (spec/70_reset_and_hazards.md R370). -/

/-- R370: what the event leaves in STATUS and CTRL is what reset does. -/
theorem resetEvent_words (s : State) :
    (resetEvent s).statusWord = State.reset.statusWord ∧
      (resetEvent s).ctrlWord = State.reset.ctrlWord := ⟨rfl, rfl⟩

/-- Settles O13: the reset event's fields are those of reset, a RAM buffer reads zeros because no cell
is listed, and the other clauses are the moves as they are performed. -/
theorem resetEventFromEveryState : Obligations.ResetEventFromEveryState := by
  refine ⟨fun s => ⟨resetEvent s, rfl, (resetEvent_words s).1, (resetEvent_words s).2, rfl, rfl, fun b h1 h2 => ?_, rfl, rfl, rfl, rfl, rfl,
    rfl, rfl, rfl, ?_, ?_, rfl, rfl⟩, fun s rest hf hi => step_of_input hf hi,
    fun s a rest hf hi => step_of_input hf hi, fun s a rest hp hi => ?_⟩
  · exact buf_of_mem_nil _ rfl b (b.rom_eq_false_iff.mpr ⟨h1, h2⟩)
  · rw [buf_ksuf, buf_ksuf]
  · rw [buf_k0, buf_k0]
  · rw [step_of_input (fetch_of_idle hp) hi]
    simp only [perform, onAnswer, hp]

/-! STATUS (spec/10_state.md R34). -/

theorem bit_zero_append_ofBool {n : Nat} (x : BitVec n) (b : Bool) :
    (x ++ BitVec.ofBool b).getLsbD 0 = b := by
  rw [BitVec.getLsbD_append]
  simp

/-- Bits 31:8 of STATUS. -/
theorem statusWord_bits (s : State) :
    s.statusWord.getLsbD 8 = s.busy ∧ s.statusWord.getLsbD 9 = s.done ∧
      s.statusWord.getLsbD 10 = s.busErr ∧ s.statusWord.getLsbD 11 = s.ovr ∧
      s.statusWord.extractLsb' 12 20 = 0 := by
  refine ⟨(bit_high _ _ 0).trans (bit_zero_append_ofBool _ _),
    (bit_high _ _ 1).trans ((bit_high _ _ 0).trans (bit_zero_append_ofBool _ _)),
    (bit_high _ _ 2).trans ((bit_high _ _ 1).trans ((bit_high _ _ 0).trans
      (bit_zero_append_ofBool _ _))),
    (bit_high _ _ 3).trans ((bit_high _ _ 2).trans ((bit_high _ _ 1).trans ((bit_high _ _ 0).trans
      (bit_zero_append_ofBool _ _)))), ?_⟩
  exact (extract_high _ _ 4 20).trans
    ((extract_high _ _ 3 20).trans
      ((extract_high _ _ 2 20).trans ((extract_high _ _ 1 20).trans (extract_high _ _ 0 20))))

/-- R34: the host's write to STATUS, at rest and while BUSY. -/
theorem step_writeStatus {s : State} {addr : BitVec 12} {n : Width} {v : Word} {rest : List Event}
    (hf : s.fetch = none) (h : target addr n = some (.reg .status))
    (hi : s.inputs = .hostWrite addr n v :: rest) :
    step s = .next (({ s with inputs := rest } : State).writeStatus v) :=
  step_hostWrite_reg hf hi h nofun nofun

/-- R86: a read of a register that is readable in this phase. -/
theorem step_hostRead_reg {s : State} {addr : BitVec 12} {n : Width} {r : Register}
    {rest : List Event} (hf : s.fetch = none) (h : target addr n = some (.reg r))
    (hr : (s.busy && !r.readableBusy) = false) (hi : s.inputs = .hostRead addr n :: rest) :
    step s = .next { s with readData := s.readReg r, inputs := rest } := by
  have hr' : (({ s with inputs := rest } : State).busy && !r.readableBusy) = false := hr
  rw [step_hostRead hf hi, hostRead_reg h, hr']
  cases r <;> rfl

/-- Settles O15: STATUS is the concatenation of its fields, and the bus writes and reads it in every
phase. -/
theorem statusRegister : Obligations.StatusRegister := by
  refine ⟨⟨rfl, rfl, rfl, rfl, rfl, rfl, rfl, rfl, rfl, rfl, rfl⟩,
    fun s => ⟨statusWord_err s, statusWord_bits s⟩, rfl,
    fun s w rest hf hi => step_writeStatus hf (by decide) hi,
    fun s rest hf hi => step_hostRead_reg (r := .status) hf (by decide) (by simp [Register.readableBusy]) hi⟩

end Sys2Proof.Machine

/-! The host bus (spec/20_memory.md R80 to R88). -/

namespace Sys2Proof.Machine

theorem Width.bytes_pos (n : Width) : 0 < n.bytes := by cases n <;> decide

theorem Width.bytes_eq_four {n : Width} : n.bytes = 4 ↔ n = .w4 := by cases n <;> decide

theorem Buffer.base_ge (b : Buffer) : 0x040 ≤ b.base := by cases b <;> decide

/-- R40: a buffer holds the addresses from its base on, its size of them. -/
theorem holds_iff {b : Buffer} {a : Nat} : b.holds a = true ↔ b.base ≤ a ∧ a < b.base + b.size := by
  simp [Buffer.holds]

/-- R83: the accesses that reach a buffer are the aligned ones that lie in it. -/
theorem target_eq_buf_iff {addr : BitVec 12} {n : Width} {b : Buffer} :
    target addr n = some (.buf b) ↔
      addr.toNat % n.bytes = 0 ∧ b.base ≤ addr.toNat ∧
        addr.toNat + n.bytes ≤ b.base + b.size := by
  refine ⟨target_buf, fun ⟨halign, hlow, hhigh⟩ => ?_⟩
  have hpos := n.bytes_pos
  have hbase := b.base_ge
  have hfirst : bufferAt addr.toNat = some b := bufferAt_eq b _ (holds_iff.mpr ⟨hlow, by omega⟩)
  have hlast : b.holds (addr.toNat + n.bytes - 1) = true := holds_iff.mpr ⟨by omega, by omega⟩
  simp only [target, if_neg (show ¬ addr.toNat < 0x040 by omega), hfirst, halign, hlast, and_self,
    if_true]

/-- R33: register k stands at 4k. -/
theorem registerTable_of_index :
    ∀ k < 16, ∃ r, allRegisters[k]? = some r ∧ (BitVec.ofNat 12 (4 * k), r) ∈ registerTable := by
  decide

/-- R33: each row of the table is what an aligned word access reaches. -/
theorem target_of_registerTable :
    ∀ x ∈ registerTable, target x.1 .w4 = some (.reg x.2) := by
  decide

/-- R33, R81: the accesses that reach a register are the word accesses at its address. -/
theorem target_eq_reg_iff {addr : BitVec 12} {n : Width} {r : Register} :
    target addr n = some (.reg r) ↔ n = .w4 ∧ (addr, r) ∈ registerTable := by
  constructor
  · intro h
    obtain ⟨hlow, hn, halign, hr⟩ := target_reg h
    obtain ⟨r', hr', hmem⟩ := registerTable_of_index (addr.toNat / 4) (by omega)
    obtain rfl : r' = r := Option.some.inj (hr'.symm.trans hr)
    rw [show 4 * (addr.toNat / 4) = addr.toNat by omega, BitVec.ofNat_toNat,
      BitVec.setWidth_eq] at hmem
    exact ⟨hn, hmem⟩
  · rintro ⟨rfl, hmem⟩
    exact target_of_registerTable _ hmem

/-- R81 to R83: an access reaches something exactly when it is well formed. -/
theorem isSome_target_iff {addr : BitVec 12} {n : Width} :
    (target addr n).isSome = true ↔ AccessWellFormed addr n := by
  have hpos := n.bytes_pos
  constructor
  · intro h
    obtain ⟨x, hx⟩ := Option.isSome_iff_exists.mp h
    cases x with
    | reg r =>
      obtain ⟨hlow, hn, halign, _⟩ := target_reg hx
      exact .inl ⟨hlow, Width.bytes_eq_four.mpr hn, halign⟩
    | buf b =>
      obtain ⟨halign, hlow, hhigh⟩ := target_buf hx
      exact .inr ⟨b.base_ge.trans hlow, halign, b,
        fun k hk => holds_iff.mpr ⟨by omega, by omega⟩⟩
  · rintro (⟨hlow, hn, halign⟩ | ⟨_, halign, b, hb⟩)
    · obtain ⟨r, hr, _⟩ := registerTable_of_index (addr.toNat / 4) (by omega)
      simp [target, hlow, halign, hr, Width.bytes_eq_four.mp hn]
    · obtain ⟨hlow, _⟩ := holds_iff.mp (hb 0 hpos)
      obtain ⟨_, hhigh⟩ := holds_iff.mp (hb (n.bytes - 1) (by omega))
      rw [target_eq_buf_iff.mpr ⟨halign, hlow, by omega⟩]
      rfl

theorem target_eq_none_iff {addr : BitVec 12} {n : Width} :
    target addr n = none ↔ ¬ AccessWellFormed addr n := by
  rw [← isSome_target_iff, Bool.not_eq_true, Option.isSome_eq_false_iff, Option.isNone_iff_eq_none]

/-- R40's table is the buffers with their bases and sizes. -/
theorem mem_bufferTable_iff {b : Buffer} {base size : Nat} :
    (b, base, size) ∈ bufferTable ↔ base = b.base ∧ size = b.size := by
  have hrow : ∀ x ∈ bufferTable, x.2.1 = x.1.base ∧ x.2.2 = x.1.size := by decide
  refine ⟨hrow _, ?_⟩
  rintro ⟨rfl, rfl⟩
  cases b <;> decide

/-- What the registers hold is what a host read sees of them. -/
theorem registerValues_eq (s : State) :
    s.registerValues = registerTable.map fun x => (x.1, s.readReg x.2) := by
  have h16 : (0#16 ++ s.crc16 : Word) = s.crc16Word := by
    simp [State.crc16Word, BitVec.setWidth_eq_append]
  have h48 : (0#16 ++ s.crc48.extractLsb' 32 16 : Word) = s.crc48HiWord := by
    simp [State.crc48HiWord, BitVec.setWidth_eq_append]
  simp only [State.registerValues, h16, h48]
  rfl

/-- R84: a host read of a buffer of an idle machine. -/
theorem step_hostRead_buf {s : State} {addr : BitVec 12} {n : Width} {b : Buffer}
    {rest : List Event} (hp : s.phase = .idle) (h : target addr n = some (.buf b))
    (hi : s.inputs = .hostRead addr n :: rest) :
    step s = .next { s with
      readData := BitVec.ofNat 32 (leNat (s.memRead addr.toNat n.bytes)), inputs := rest } := by
  have hidle : ({ s with inputs := rest } : State).busy = false := busy_of_idle hp
  rw [step_hostRead (fetch_of_idle hp) hi, hostRead_buf h, hidle]
  rfl

/-- Settles O16: the tables are what `target` looks up, and a read of an idle machine takes its value
from the register or from the buffer's bytes. -/
theorem accessHasTargetWhenWellFormed : Obligations.AccessHasTargetWhenWellFormed := by
  refine ⟨fun _ _ => isSome_target_iff, fun _ _ _ => target_eq_reg_iff, ?table,
    fun b => ⟨_, _, mem_bufferTable_iff.mpr ⟨rfl, rfl⟩⟩, ?reads, fun s => ⟨buf_ksuf s, buf_k0 s⟩⟩
  case table =>
    intro b base size hrow
    obtain ⟨rfl, rfl⟩ := mem_bufferTable_iff.mp hrow
    exact ⟨rfl, rfl, fun _ => holds_iff, fun _ _ => target_eq_buf_iff⟩
  case reads =>
    intro s addr n rest hp hi
    constructor
    · rintro v rfl hv
      rw [registerValues_eq] at hv
      obtain ⟨⟨a, r⟩, hmem, hx⟩ := List.mem_map.mp hv
      cases hx
      exact step_hostRead_reg (fetch_of_idle hp) (target_of_registerTable _ hmem)
        (by rw [busy_of_idle hp, Bool.false_and]) hi
    · intro b base size hrow halign hlow hhigh
      obtain ⟨rfl, rfl⟩ := mem_bufferTable_iff.mp hrow
      rw [step_hostRead_buf hp (target_eq_buf_iff.mpr ⟨halign, hlow, hhigh⟩) hi,
        slice_buf s b _ _ (by omega), Nat.add_sub_cancel' hlow, Nat.add_sub_cancel_left]

/-! Refused accesses (R85, R86). -/

/-- R85: a write to a register that refuses it, in this phase or in every one. -/
theorem hostWriteReg_refused {r : Register} {s : State} (v : Word) (hs : r ≠ .status)
    (hc : r ≠ .cmd) (h : (s.busy || r.readOnly) = true) :
    hostWriteReg r v s = { s with busErr := true } := by
  cases r <;> simp_all [hostWriteReg, refuseAccess]

theorem busOperation_crc16 (v : Word) :
    busOperation ⟨crc16DataAddr, v⟩ = some (.crc16DataWrite v) := if_pos rfl

theorem busOperation_crc48 (v : Word) :
    busOperation ⟨crc48DataAddr, v⟩ = some (.crc48DataWrite v) :=
  (if_neg (show crc48DataAddr ≠ crc16DataAddr by decide)).trans (if_pos rfl)

/-- R85: a write to a register that refuses it. -/
theorem performWrite_reg_refused {s : State} {addr : BitVec 12} {n : Width} {r : Register}
    (v : Word) (h : target addr n = some (.reg r)) (hs : r ≠ .status) (hc : r ≠ .cmd)
    (hr : (s.busy || r.readOnly) = true) :
    performWrite addr n v s = .next { s with busErr := true } := by
  by_cases hdata : r = .crc16Data ∨ r = .crc48Data
  · have hbusy : s.busy = true := by
      rcases hdata with rfl | rfl <;> simpa [Register.readOnly] using hr
    rcases hdata with rfl | rfl
    · obtain ⟨rfl, rfl⟩ := target_crcData.1 h
      exact (performWrite_busOperation (busOperation_crc16 v) _).trans (exec_dataWrite_busy v hbusy).1
    · obtain ⟨rfl, rfl⟩ := target_crcData.2 h
      exact (performWrite_busOperation (busOperation_crc48 v) _).trans (exec_dataWrite_busy v hbusy).2
  · rw [not_or] at hdata
    rw [performWrite_target v _ h (by simpa using hdata.1) (by simpa using hdata.2),
      hostWrite_reg h, hostWriteReg_refused v hs hc hr]

/-- R85: a write to a buffer that refuses it. -/
theorem performWrite_buf_refused {s : State} {addr : BitVec 12} {n : Width} {b : Buffer}
    (v : Word) (h : target addr n = some (.buf b)) (hr : (s.busy || !b.hostWritable) = true) :
    performWrite addr n v s = .next { s with busErr := true } := by
  rw [performWrite_target v _ h nofun nofun]
  simp only [hostWrite, h, hr, if_true, refuseAccess]

/-- R86: while BUSY a write to anything but STATUS and CMD is refused. -/
theorem performWrite_busy_refused {s : State} {addr : BitVec 12} {n : Width} {x : Target}
    (v : Word) (hb : s.busy = true) (h : target addr n = some x) (hs : x ≠ .reg .status)
    (hc : x ≠ .reg .cmd) : performWrite addr n v s = .next { s with busErr := true } := by
  cases x with
  | reg r =>
    exact performWrite_reg_refused v h (by simpa using hs) (by simpa using hc) (by simp [hb])
  | buf b => exact performWrite_buf_refused v h (by simp [hb])

/-- R85: a malformed read. -/
theorem step_hostRead_malformed {s : State} {addr : BitVec 12} {n : Width} {rest : List Event}
    (hf : s.fetch = none) (h : target addr n = none) (hi : s.inputs = .hostRead addr n :: rest) :
    step s = .next { s with busErr := true, readData := 0, inputs := rest } := by
  rw [step_hostRead hf hi, hostRead_none h]

/-- Settles O17: a malformed access reaches nothing, and the other refusals are the bus's, by register,
by buffer and while BUSY. -/
theorem refusedAccessSetsBusErrOnly : Obligations.RefusedAccessSetsBusErrOnly := by
  intro s addr n v rest hf
  refine ⟨fun hbad => ⟨fun hi => step_hostWrite_malformed hf hi (target_eq_none_iff.mpr hbad),
    step_hostRead_malformed hf (target_eq_none_iff.mpr hbad)⟩, ?registers, ?buffers,
    fun x hx hb hs hc hi => (step_of_input hf hi).trans (performWrite_busy_refused v hb hx hs hc),
    ?writeOnly⟩
  case registers =>
    rintro r hr (rfl | rfl | rfl | rfl | rfl | rfl) hi <;>
      exact (step_of_input hf hi).trans
        (performWrite_reg_refused v hr nofun nofun (by simp [Register.readOnly]))
  case buffers =>
    rintro b hb (rfl | rfl | rfl | rfl | rfl | rfl) hi <;>
      exact (step_of_input hf hi).trans
        (performWrite_buf_refused v hb (by simp [Buffer.hostWritable]))
  case writeOnly =>
    rintro r hr (rfl | rfl | rfl) hidle hi <;>
      exact step_hostRead_reg hf hr (by rw [hidle, Bool.false_and]) hi

/-- R86: a guarded read. -/
theorem step_hostRead_guarded {s : State} {addr : BitVec 12} {n : Width} {x : Target}
    {rest : List Event} (hf : s.fetch = none) (hb : s.busy = true) (h : target addr n = some x)
    (hid : x ≠ .reg .id) (hctrl : x ≠ .reg .ctrl) (hstatus : x ≠ .reg .status)
    (hi : s.inputs = .hostRead addr n :: rest) :
    step s = .next { s with
      readData := truncate n (Config.busyRead s.freeReads), freeReads := s.freeReads + 1,
      inputs := rest } := by
  have hbusy : ({ s with inputs := rest } : State).busy = true := hb
  rw [step_hostRead hf hi]
  cases x with
  | reg r =>
    have hr : r.readableBusy = false := by cases r <;> simp_all [Register.readableBusy]
    rw [hostRead_reg h, hbusy, hr]
    rfl
  | buf b =>
    rw [hostRead_buf h, hbusy]
    rfl

/-- Settles O18: while BUSY an access is readable, guarded, taken by STATUS, an overrun of CMD, or
refused, by its target. -/
theorem busyAccesses : Obligations.BusyAccesses := by
  intro s addr n v rest hb hf
  refine ⟨?_, fun x hx hid hctrl hstatus hi => step_hostRead_guarded hf hb hx hid hctrl hstatus hi,
    fun hx hi => step_writeStatus hf hx hi, fun hx hi => step_overrun hb hf hx hi,
    fun x hx hs hc hi => (step_of_input hf hi).trans (performWrite_busy_refused v hb hx hs hc)⟩
  rintro r hr (rfl | rfl | rfl) hi <;>
    exact step_hostRead_reg hf hr (by simp [Register.readableBusy]) hi

/-- R87: a read of an idle machine draws no arbitrary value. -/
theorem hostRead_freeReads {s : State} (addr : BitVec 12) (n : Width) (h : s.busy = false) :
    (hostRead addr n s).freeReads = s.freeReads := by
  simp only [hostRead, h, Bool.false_and, Bool.false_eq_true, if_false]
  split <;> rfl

/-- Settles O19: `hostRead_eq` says all that a read can change, and BUSERR is set exactly where the
access reaches nothing. -/
theorem hostReadHasNoSideEffect : Obligations.HostReadHasNoSideEffect := by
  intro s addr n rest hf hi
  have hframe := hostRead_eq addr n { s with inputs := rest }
  refine ⟨_, step_hostRead hf hi, by rw [hframe], ?_, fun hb => hostRead_freeReads addr n hb⟩
  rw [hframe, ← target_eq_none_iff]
  simp

/-! Writes that read back (R84, R37 to R43). -/

/-- R14: what is written inside a RAM buffer is read back. -/
theorem memRead_memWrite_same (s : State) {b : Buffer} (hb : b.rom = false) {a : Nat}
    {bs : List Byte} (hlow : b.base ≤ a) (hhigh : a + bs.length ≤ b.base + b.size) :
    (s.memWrite a bs).memRead a bs.length = bs := by
  apply List.ext_getElem?
  intro k
  rw [getElem?_memRead]
  split
  · next hk =>
    obtain ⟨h1, h2⟩ := not_rom_of_holds b hb (a + k) (holds_iff.mpr ⟨by omega, by omega⟩)
    rw [byte_memWrite_inside s a k bs hk h1 h2, List.getElem?_eq_getElem hk]
  · next hk => rw [List.getElem?_eq_none (by omega)]

/-- R84: an accepted write to a buffer. -/
theorem step_hostWrite_buf {s : State} {addr : BitVec 12} {n : Width} {b : Buffer} {v : Word}
    {rest : List Event} (hp : s.phase = .idle) (h : target addr n = some (.buf b))
    (hb : b.hostWritable = true) (hi : s.inputs = .hostWrite addr n v :: rest) :
    step s = .next
      (({ s with inputs := rest } : State).memWrite addr.toNat (leBytes n.bytes v.toNat)) := by
  have hidle : ({ s with inputs := rest } : State).busy = false := busy_of_idle hp
  rw [step_hostWrite (fetch_of_idle hp) hi h nofun nofun]
  simp [hostWrite, h, hidle, hb]

/-- Settles O20: the write stores the value's low bytes at the access's address, which the read then
finds. -/
theorem bufferWriteReadsBack : Obligations.BufferWriteReadsBack := by
  intro s addr n v b rest hp h hb hi
  have hwritable : b.hostWritable = true := by rcases hb with rfl | rfl | rfl | rfl | rfl | rfl <;> rfl
  obtain ⟨_, hlow, hhigh⟩ := target_buf h
  obtain ⟨t, hstep, ht⟩ : ∃ t, step s = .next t ∧
      t = ({ s with inputs := .hostRead addr n :: rest } : State).memWrite addr.toNat
        (leBytes n.bytes v.toNat) := ⟨_, step_hostWrite_buf hp h hwritable hi, rfl⟩
  have hread : t.memRead addr.toNat n.bytes = leBytes n.bytes v.toNat := by
    have := memRead_memWrite_same { s with inputs := .hostRead addr n :: rest }
      (hostWritable_not_rom b hwritable) (bs := leBytes n.bytes v.toNat) hlow
      (by rwa [length_leBytes])
    rwa [length_leBytes, ← ht] at this
  have hval : leNat (t.memRead addr.toNat n.bytes) = v.toNat % 256 ^ n.bytes := by
    rw [hread, leNat_leBytes]
  have hstep2 := step_hostRead_buf (s := t) (by rw [ht]; exact hp) h (by rw [ht]; rfl)
  refine ⟨t, _, run_succ 0 hstep, (run_succ 1 hstep).trans (run_succ 0 hstep2), by rw [ht]; rfl, ?_,
    hval, by rw [hval]⟩
  intro a ha
  rw [ht]
  exact byte_memWrite_outside _ _ _ _ (by rwa [length_leBytes])

/-- A host write to a register of an idle machine, and the read of the same register. -/
theorem run_register_write_read {s u : State} {addr : BitVec 12} {r : Register} {v : Word}
    {rest : List Event} (hp : s.phase = .idle) (h : target addr .w4 = some (.reg r))
    (hi : s.inputs = .hostWrite addr .w4 v :: .hostRead addr .w4 :: rest)
    (h16 : r ≠ .crc16Data) (h48 : r ≠ .crc48Data)
    (hu : hostWriteReg r v { s with inputs := .hostRead addr .w4 :: rest } = u)
    (hup : u.phase = .idle) (hui : u.inputs = .hostRead addr .w4 :: rest) :
    run 2 s = .next { u with readData := u.readReg r, inputs := rest } := by
  have hwrite := step_hostWrite_reg (fetch_of_idle hp) hi h h16 h48
  rw [hu] at hwrite
  exact (run_succ 1 hwrite).trans
    (run_succ 0 (step_hostRead_reg (fetch_of_idle hup) h (by rw [busy_of_idle hup]; rfl) hui))

/-- At rest, a host write to a register that keeps what is written (R37 to R43). -/
theorem hostWriteReg_idle {s : State} {r : Register} (v : Word) (hb : s.busy = false)
    (hr : r.readOnly = false) (hs : r ≠ .status) (hc : r ≠ .cmd) :
    hostWriteReg r v s = s.writeReg r v := by
  cases r <;> simp_all [hostWriteReg]

/-- R37: CTRL keeps bits 1:0. -/
theorem readReg_ctrl_writeCtrl (s : State) (v : Word) :
    (s.writeCtrl v).readReg .ctrl = v &&& 0x3 := by
  have hv : v = v.extractLsb' 2 30 ++ v.extractLsb' 1 1 ++ v.extractLsb' 0 1 := by
    rw [show v.extractLsb' 2 30 ++ v.extractLsb' 1 1 = v.extractLsb' 1 31 from extract_append v 1 1 30]
    exact ((extract_append v 0 1 31).trans (extract_all v)).symm
  have hmask : (0x3 : Word) = 0#30 ++ 1#1 ++ 1#1 := rfl
  conv_rhs => rw [hv, hmask, and_concat, and_concat, extract_bit, extract_bit]
  simp only [State.readReg, State.ctrlWord, State.writeCtrl, BitVec.and_zero]
  cases v.getLsbD 0 <;> cases v.getLsbD 1 <;> rfl

/-- The low half of a word. -/
theorem setWidth_low_half (v : Word) : (v.extractLsb' 0 16).setWidth 32 = v &&& 0xFFFF := by
  apply BitVec.eq_of_toNat_eq
  have hmod := Nat.and_two_pow_sub_one_eq_mod v.toNat 16
  have hlt : v.toNat % 65536 % 4294967296 = v.toNat % 65536 := Nat.mod_eq_of_lt (by omega)
  simpa [hlt] using hmod.symm

theorem readReg_crc16_writeCrc16 (s : State) (v : Word) :
    (s.writeCrc16 v).readReg .crc16 = v &&& 0xFFFF := setWidth_low_half v

theorem readReg_crc48Lo_writeCrc48Lo (s : State) (v : Word) :
    (s.writeCrc48Lo v).readReg .crc48Lo = v ∧
      (s.writeCrc48Lo v).readReg .crc48Hi = s.readReg .crc48Hi := by
  simp only [State.readReg, State.writeCrc48Lo, State.crc48LoWord, State.crc48HiWord]
  exact ⟨extract_low _ _, congrArg _ ((extract_high _ _ 0 16).trans (extract_all _))⟩

theorem readReg_crc48Hi_writeCrc48Hi (s : State) (v : Word) :
    (s.writeCrc48Hi v).readReg .crc48Hi = v &&& 0xFFFF ∧
      (s.writeCrc48Hi v).readReg .crc48Lo = s.readReg .crc48Lo := by
  simp only [State.readReg, State.writeCrc48Hi, State.crc48LoWord, State.crc48HiWord]
  refine ⟨?_, extract_low _ _⟩
  have hhigh := (extract_high (v.extractLsb' 0 16) (s.crc48.extractLsb' 0 32) 0 16).trans
    (extract_all _)
  exact (congrArg (BitVec.setWidth 32) hhigh).trans (setWidth_low_half v)

theorem readReg_fvalLo_writeFvalLo (s : State) (v : Word) :
    (s.writeFvalLo v).readReg .fvalLo = v ∧
      (s.writeFvalLo v).readReg .fvalHi = s.readReg .fvalHi := by
  simp only [State.readReg, State.writeFvalLo, State.fvalLo, State.fvalHi]
  exact ⟨extract_low _ _, (extract_high _ _ 0 32).trans (extract_all _)⟩

theorem readReg_fvalHi_writeFvalHi (s : State) (v : Word) :
    (s.writeFvalHi v).readReg .fvalHi = v ∧
      (s.writeFvalHi v).readReg .fvalLo = s.readReg .fvalLo := by
  simp only [State.readReg, State.writeFvalHi, State.fvalLo, State.fvalHi]
  exact ⟨(extract_high _ _ 0 32).trans (extract_all _), extract_low _ _⟩

/-- Settles O21: each register's write and read, composed, keep the bits that the register has. -/
theorem registerWriteReadsBack : Obligations.RegisterWriteReadsBack := by
  intro s addr v rest hp hi
  have hrun (r : Register) (u : State) (h : target addr .w4 = some (.reg r))
      (hr : r.readOnly = false) (hne : r ≠ .status ∧ r ≠ .cmd ∧ r ≠ .crc16Data ∧ r ≠ .crc48Data)
      (hu : ({ s with inputs := .hostRead addr .w4 :: rest } : State).writeReg r v = u)
      (hup : u.phase = .idle) (hui : u.inputs = .hostRead addr .w4 :: rest) :
      run 2 s = .next { u with readData := u.readReg r, inputs := rest } := by
    obtain ⟨hs, hc, h16, h48⟩ := hne
    have hidle : ({ s with inputs := .hostRead addr .w4 :: rest } : State).busy = false :=
      busy_of_idle hp
    exact run_register_write_read hp h hi h16 h48
      ((hostWriteReg_idle v hidle hr hs hc).trans hu) hup hui
  refine ⟨?ctrl, ?crc16, ?crc48Lo, ?crc48Hi, ?fvalLo, ?fvalHi⟩ <;> rintro rfl
  case ctrl =>
    exact ⟨_, hrun .ctrl _ (by decide) rfl (by decide) rfl hp rfl, readReg_ctrl_writeCtrl _ v, rfl⟩
  case crc16 =>
    exact ⟨_, hrun .crc16 _ (by decide) rfl (by decide) rfl hp rfl, readReg_crc16_writeCrc16 _ v, rfl⟩
  case crc48Lo =>
    obtain ⟨hread, hother⟩ :=
      readReg_crc48Lo_writeCrc48Lo { s with inputs := .hostRead 0x020 .w4 :: rest } v
    exact ⟨_, hrun .crc48Lo _ (by decide) rfl (by decide) rfl hp rfl, hread, hother, rfl⟩
  case crc48Hi =>
    obtain ⟨hread, hother⟩ :=
      readReg_crc48Hi_writeCrc48Hi { s with inputs := .hostRead 0x024 .w4 :: rest } v
    exact ⟨_, hrun .crc48Hi _ (by decide) rfl (by decide) rfl hp rfl, hread, hother, rfl⟩
  case fvalLo =>
    obtain ⟨hread, hother⟩ :=
      readReg_fvalLo_writeFvalLo { s with inputs := .hostRead 0x030 .w4 :: rest } v
    exact ⟨_, hrun .fvalLo _ (by decide) rfl (by decide) rfl hp rfl, hread, hother, rfl⟩
  case fvalHi =>
    obtain ⟨hread, hother⟩ :=
      readReg_fvalHi_writeFvalHi { s with inputs := .hostRead 0x034 .w4 :: rest } v
    exact ⟨_, hrun .fvalHi _ (by decide) rfl (by decide) rfl hp rfl, hread, hother, rfl⟩

end Sys2Proof.Machine

/-! What a step of a port command can do, said once for all of its positions (spec/10_state.md R52,
spec/43_arbiter.md R280, R286). -/

namespace Sys2Proof.Machine

/-! Writes that stay in the RAM buffers (R40, R82). -/

/-- Memory m' is m after writes to RAM buffers: it stays canonical and lists no other byte. -/
def KeepsRam (m m' : Memory) : Prop :=
  (m.wf → m'.wf) ∧ ∀ c ∈ m', c ∈ m ∨ inRam c.1 = true

theorem KeepsRam.refl (m : Memory) : KeepsRam m m := ⟨id, fun _ hc => .inl hc⟩

theorem KeepsRam.trans {m m' m'' : Memory} (h : KeepsRam m m') (h' : KeepsRam m' m'') :
    KeepsRam m m'' :=
  ⟨h'.1 ∘ h.1, fun c hc => (h'.2 c hc).elim (h.2 c) .inr⟩

/-- A string written inside a RAM buffer. -/
theorem KeepsRam.bufWrite {m : Memory} {s : State} (h : KeepsRam m s.mem) (b : Buffer) (o : Nat)
    (bs : List Byte) (hb : b.rom = false) (hs : o + bs.length ≤ b.size) :
    KeepsRam m (s.bufWrite b o bs).mem :=
  h.trans ⟨write_wf _ _ _, fun c hc =>
    (mem_bufWrite s b o bs hs c hc).elim (fun hh => .inr (inRam_of_holds b hb _ hh)) .inl⟩

/-- State t is s after what a port command does between an answer and its next request: buffers, result
registers and XSTAT written. -/
structure Prepares (s t : State) : Prop where
  frame : t = { s with
    mem := t.mem, res0 := t.res0, res1 := t.res1, recon := t.recon, seq := t.seq, xstat := t.xstat }
  ram : KeepsRam s.mem t.mem

section
variable {s t : State}

theorem Prepares.refl (s : State) : Prepares s s := ⟨rfl, .refl _⟩

theorem Prepares.bufWrite (h : Prepares s t) (b : Buffer) (o : Nat) (bs : List Byte)
    (hb : b.rom = false) (hs : o + bs.length ≤ b.size) : Prepares s (t.bufWrite b o bs) :=
  ⟨by rw [h.frame]; rfl, h.ram.bufWrite b o bs hb hs⟩

theorem Prepares.withRes0 (h : Prepares s t) (v : Word) : Prepares s (t.withRes0 v) :=
  ⟨by rw [h.frame]; rfl, h.ram⟩

theorem Prepares.withRes1 (h : Prepares s t) (v : Word) : Prepares s (t.withRes1 v) :=
  ⟨by rw [h.frame]; rfl, h.ram⟩

theorem Prepares.withRecon (h : Prepares s t) (v : Word) : Prepares s (t.withRecon v) :=
  ⟨by rw [h.frame]; rfl, h.ram⟩

theorem Prepares.withSeq (h : Prepares s t) (v : Word) : Prepares s (t.withSeq v) :=
  ⟨by rw [h.frame]; rfl, h.ram⟩

theorem Prepares.withXstat (h : Prepares s t) (v : Word) : Prepares s (t.withXstat v) :=
  ⟨by rw [h.frame]; rfl, h.ram⟩

theorem Prepares.orRes0 (h : Prepares s t) (v : Word) : Prepares s (t.orRes0 v) := h.withRes0 _

theorem Prepares.sealHdr (h : Prepares s t) : Prepares s t.sealHdr :=
  h.bufWrite .hdr 0 _ rfl (by rw [length_hdrSealed _ (length_buf _ _)]; decide)

theorem Prepares.sealP1 (h : Prepares s t) : Prepares s t.sealP1 :=
  h.bufWrite .p1 0 _ rfl (by rw [length_p1Sealed _ (length_buf _ _)]; decide)

theorem Prepares.sealP2 (h : Prepares s t) : Prepares s t.sealP2 :=
  h.bufWrite .p2 0 _ rfl (by rw [length_p2Sealed _ (length_buf _ _)]; decide)

theorem Prepares.sealP1With (h : Prepares s t) (n : Byte) : Prepares s (t.sealP1With n) :=
  (h.bufWrite .p1 9 [n] rfl (by simp [Buffer.size])).sealP1

theorem Prepares.sealP2With (h : Prepares s t) (n : Byte) : Prepares s (t.sealP2With n) :=
  (h.bufWrite .p2 2 [n] rfl (by simp [Buffer.size])).sealP2

theorem Prepares.sealRecord (h : Prepares s t) (p2 : Bool) (n1 n2 : Byte) :
    Prepares s (t.sealRecord p2 n1 n2) := by
  cases p2
  · exact (h.sealP1With n1).withRes1 _
  · exact ((h.sealP1With n1).sealP2With n2).withRes1 _

theorem Prepares.loadRecord (h : Prepares s t) (o1 o2 : Choice) : Prepares s (t.loadRecord o1 o2) :=
  (h.bufWrite .p1 0 _ rfl (by rw [length_selected _ _ _ _ (by omega)]; decide)).bufWrite .p2 0 _ rfl
    (by rw [length_selected _ _ _ _ (by omega)]; decide)

end

/-! The positions. -/

/-- A bound on the answers that a command at a position still takes (R280, R286). -/
def Position.remaining : Position → Nat
  | .accepted => 26
  | .readHdr0 => 24
  | .readHdr1 _ => 23
  | .readRegion .a i _ _ _ => 22 - i.val
  | .readRegion .b i _ _ _ => 11 - i.val
  | .wrRefresh0 _ => 25
  | .wrRefresh1 _ _ => 24
  | .wrIdent _ => 23
  | .wrRekey1 _ .a i => 22 - i.val
  | .wrRekey2 .a j => 15 - j.val
  | .wrSeq .a0 _ _ _ _ => 15
  | .wrSeq .a7 _ _ _ _ => 14
  | .wrSeq .b0 _ _ _ _ => 13
  | .wrSeq .b7 _ _ _ _ => 12
  | .wrPart1 _ _ _ i | .wrRekey1 _ .b i => 11 - i.val
  | .wrPart2 _ j | .wrRekey2 .b j => 4 - j.val

theorem Position.remaining_pos (pos : Position) : 0 < pos.remaining := by
  cases pos
  case readRegion r _ _ _ _ => cases r <;> simp only [Position.remaining] <;> omega
  case wrRekey1 _ r _ => cases r <;> simp only [Position.remaining] <;> omega
  case wrRekey2 r _ => cases r <;> simp only [Position.remaining] <;> omega
  case wrSeq slot _ _ _ _ => cases slot <;> simp [Position.remaining]
  all_goals simp only [Position.remaining]; omega

/-- R9, R97: the request that a position waits for passes the block-port guard. -/
theorem portGuard_block {pos : Position} {op : PortOp} (hp : pos ≠ .accepted)
    (ho : op.isWrite = pos.writes) : portGuard pos.block op = true := by
  have hlow {n : Nat} (h0 : n < 2) (h1 : n = 0 → op.isWrite = false) : portGuard n op = true := by
    obtain rfl | rfl : n = 0 ∨ n = 1 := by omega
    · cases op
      · rfl
      · cases h1 rfl
    · cases op <;> rfl
  cases pos
  case accepted => exact absurd rfl hp
  case wrSeq slot _ _ _ _ => cases slot <;> exact portGuard_regionBlock _ _ (by omega) _
  case readHdr0 | readHdr1 | wrRefresh0 | wrRefresh1 => exact hlow (by simp [Position.block]) fun _ => ho
  case wrIdent => exact hlow (by simp [Position.block]) nofun
  all_goals exact portGuard_regionBlock _ _ (by omega) _

/-- In t the command w waits at a position that has fewer than `limit` answers to come, as quiet as s
was. -/
def Waits (w : Word) (limit : Nat) (s t : State) : Prop :=
  ∃ pos op, t.phase = .busy w pos (some (t.request pos.block op)) ∧ pos ≠ .accepted ∧
    op.isWrite = pos.writes ∧ pos.remaining < limit ∧ t.done = s.done ∧ t.err = s.err

/-- In t the command has ended, and not in BLOCK_GUARD. -/
def Ended (t : State) : Prop := t.phase = .idle ∧ t.done = true ∧ t.err ≠ .blockGuard

/-- Everything a step of the port command w can do to s: write buffers, result registers and XSTAT, and
then wait again or end. -/
structure Advances (w : Word) (limit : Nat) (s t : State) : Prop where
  frame : t = { s with
    mem := t.mem, res0 := t.res0, res1 := t.res1, recon := t.recon, seq := t.seq, xstat := t.xstat,
    err := t.err, done := t.done, phase := t.phase }
  ram : KeepsRam s.mem t.mem
  outcome : Waits w limit s t ∨ Ended t

section
variable {s t : State} {w : Word} {limit : Nat}

theorem Prepares.issue (h : Prepares s t) (pos : Position) (op : PortOp) (hp : pos ≠ .accepted)
    (ho : op.isWrite = pos.writes) (hl : pos.remaining < limit) :
    Advances w limit s (issue w pos.block op pos t) := by
  rw [issue_of_guard _ _ _ _ _ (portGuard_block hp ho)]
  refine ⟨by rw [h.frame], h.ram, .inl ⟨pos, op, rfl, hp, ho, hl, ?_, ?_⟩⟩
  · rw [h.frame]
  · rw [h.frame]

theorem Prepares.writeRecordBlock (h : Prepares s t) (r : Region) (i : Nat) (pos : Position)
    (hb : pos.block = regionBlock r i) (hp : pos ≠ .accepted) (hw : pos.writes = true)
    (hl : pos.remaining < limit) :
    Advances w limit s (writeRecordBlock w r i pos t) := by
  rw [Machine.writeRecordBlock, ← hb]
  exact h.issue pos _ hp (by rw [hw]; rfl) hl

theorem Prepares.finish (h : Prepares s t) {c : ErrCode} (hc : c ≠ .blockGuard) :
    Advances w limit s (finish c t) :=
  ⟨by rw [h.frame]; rfl, h.ram, .inr ⟨rfl, rfl, hc⟩⟩

theorem Prepares.raise (h : Prepares s t) {c : ErrCode} (hc : c ≠ .blockGuard) (n : Nat)
    (st : Stage) (p : PortCause) : Advances w limit s (raise c n st p t) :=
  (h.withXstat _).finish hc

end

/-! READ_RECORD, position by position (R280 to R282). -/

section
variable {s t : State} {w : Word} {limit : Nat}

theorem readCode_ne_blockGuard (authFail hok : Bool) (o1 o2 : Choice) :
    readCode authFail o1 o2 hok ≠ .blockGuard := by
  simp only [readCode]
  split_ifs <;> nofun

theorem Prepares.beginRegion (h : Prepares s t) (r : Region) (hok okA authFail : Bool)
    (hl : (Position.readRegion r 0 hok okA authFail).remaining < limit) :
    Advances w limit s (beginRegion w r hok okA authFail t) :=
  (h.bufWrite (imageBuf r) 0 (zeros 176) (by cases r <;> rfl)
    (by cases r <;> simp [imageBuf, Buffer.size])).issue (.readRegion r 0 hok okA authFail) .read nofun
    rfl hl

theorem Prepares.finishRead (h : Prepares s t) (hok okA okB authFail : Bool) :
    Advances w limit s (finishRead hok okA okB authFail t) :=
  (((h.loadRecord _ _).withRecon _).withSeq _).finish (readCode_ne_blockGuard _ _ _ _)

theorem Prepares.endRegion (h : Prepares s t) (r : Region) (okR hok okA authFail : Bool)
    (hl : r = .a → 11 < limit) : Advances w limit s (endRegion w r okR hok okA authFail t) := by
  cases r with
  | a => exact h.beginRegion .b _ _ _ (hl rfl)
  | b => exact h.finishRead _ _ _ _

theorem headerRead_advances (w : Word) (t0 t1 : Block) (s : State) :
    Advances w 23 s (headerRead w t0 t1 s) :=
  (((Prepares.refl s).bufWrite .hdr 0 _ rfl (by simp [Buffer.size])).bufWrite .hdr 16 _ rfl
    (by simp [Buffer.size])).beginRegion .a _ _ _ (by simp [Position.remaining])

theorem readRegion_remaining (r : Region) (i : Fin 11) (hok okA authFail : Bool) :
    (r = .a → 11 < (Position.readRegion r i hok okA authFail).remaining) ∧
      ∀ j, nextIndex i = some j → (Position.readRegion r j hok okA authFail).remaining <
        (Position.readRegion r i hok okA authFail).remaining := by
  constructor
  · rintro rfl
    simp only [Position.remaining]
    omega
  · intro j hj
    have := nextIndex_eq_some hj
    cases r <;> simp only [Position.remaining] <;> omega

theorem regionBlockRead_advances (w : Word) (r : Region) (i : Fin 11) (hok okA authFail : Bool)
    (n : Nat) (d : Block) (s : State) :
    Advances w (Position.readRegion r i hok okA authFail).remaining s
      (regionBlockRead w r i hok okA authFail n d s) := by
  obtain ⟨hend, hnext⟩ := readRegion_remaining r i hok okA authFail
  have hs1 : Prepares s (s.bufWrite (imageBuf r) (16 * i.val) (s.decBlock n d).toList) :=
    (Prepares.refl s).bufWrite _ _ _ (by cases r <;> rfl)
      (by cases r <;> simp [imageBuf, Buffer.size] <;> omega)
  simp only [regionBlockRead]
  split
  · next j hj => exact hs1.issue (.readRegion r j hok okA authFail) .read nofun rfl (hnext j hj)
  · exact hs1.endRegion r _ _ _ _ hend

theorem regionAuthFail_advances (w : Word) (r : Region) (i : Fin 11) (hok okA authFail : Bool)
    (n : Nat) (s : State) :
    Advances w (Position.readRegion r i hok okA authFail).remaining s
      (regionAuthFail w r i hok okA authFail n s) := by
  have hs1 : Prepares s (if authFail then s
      else s.withXstat (xstatWord n (Position.readRegion r i hok okA authFail).stage .authFail)) := by
    split
    · exact .refl s
    · exact (Prepares.refl s).withXstat _
  exact hs1.endRegion r _ _ _ _ (readRegion_remaining r i hok okA authFail).1

/-! WRITE_RECORD, position by position (R286 to R293). -/

theorem refreshed_advances (w : Word) (rw : Bool) (t0 t1 : Block) (s : State) :
    Advances w 24 s (refreshed w rw t0 t1 s) := by
  have hs1 : Prepares s ((s.bufWrite .hdr 0 t0.toList).sealHdr) :=
    ((Prepares.refl s).bufWrite .hdr 0 _ rfl (by simp [Buffer.size])).sealHdr
  simp only [refreshed]
  split_ifs
  · exact hs1.issue (.wrSeq .a0 _ 0 0 0) .read nofun rfl (by simp [Position.remaining])
  · exact hs1.issue (.wrIdent _) (.write _) nofun rfl (by simp [Position.remaining])
  · exact hs1.raise (c := .identityMismatch) nofun _ _ _

theorem beginStaleWrite_advances (w : Word) (p2 : Bool) (s1A s1B s2A s2B : Byte) (s : State) :
    Advances w 12 s (beginStaleWrite w p2 s1A s1B s2A s2B s) :=
  (((Prepares.refl s).withSeq _).sealRecord _ _ _).writeRecordBlock _ 0 _ rfl nofun rfl (by simp [Position.remaining])

theorem Advances.mono {limit' : Nat} (h : Advances w limit s t) (hl : limit ≤ limit') :
    Advances w limit' s t := by
  refine ⟨h.frame, h.ram, h.outcome.imp_left ?_⟩
  rintro ⟨pos, op, hphase, hp, ho, hrem, hquiet⟩
  exact ⟨pos, op, hphase, hp, ho, hrem.trans_le hl, hquiet⟩

theorem sequenceRead_advances (w : Word) (slot : SeqSlot) (p2 : Bool) (s1A s2A s1B : Byte) (n : Nat)
    (d : Block) (s : State) :
    Advances w (Position.wrSeq slot p2 s1A s2A s1B).remaining s
      (sequenceRead w slot p2 s1A s2A s1B n d s) := by
  have hs := Prepares.refl s
  cases slot <;> simp only [sequenceRead]
  case a0 =>
    split_ifs
    · exact hs.issue (.wrSeq .a7 _ _ _ _) .read nofun rfl (by simp [Position.remaining])
    · exact hs.issue (.wrSeq .b0 _ _ _ _) .read nofun rfl (by simp [Position.remaining])
  case a7 => exact hs.issue (.wrSeq .b0 _ _ _ _) .read nofun rfl (by simp [Position.remaining])
  case b0 =>
    split_ifs
    · exact hs.issue (.wrSeq .b7 _ _ _ _) .read nofun rfl (by simp [Position.remaining])
    · exact (beginStaleWrite_advances _ _ _ _ _ _ _).mono (by simp [Position.remaining])
  case b7 => exact beginStaleWrite_advances _ _ _ _ _ _ _

theorem part1Written_advances (w : Word) (p2 : Bool) (stale1 stale2 : Region) (i : Fin 7)
    (s : State) :
    Advances w (Position.wrPart1 p2 stale1 stale2 i).remaining s
      (part1Written w p2 stale1 stale2 i s) := by
  have hs := Prepares.refl s
  simp only [part1Written, Position.remaining]
  split
  · next j hj =>
    have := nextIndex_eq_some hj
    exact hs.writeRecordBlock _ _ _ rfl nofun rfl (by simp only [Position.remaining]; omega)
  · split_ifs
    · exact (hs.orRes0 _).writeRecordBlock _ _ _ rfl nofun rfl
        (by simp only [Position.remaining]; simp; omega)
    · exact (hs.orRes0 _).finish nofun

theorem part2Written_advances (w : Word) (stale2 : Region) (j : Fin 4) (s : State) :
    Advances w (Position.wrPart2 stale2 j).remaining s (part2Written w stale2 j s) := by
  have hs := Prepares.refl s
  simp only [part2Written]
  split
  · next k hk =>
    have := nextIndex_eq_some hk
    exact hs.writeRecordBlock _ _ _ rfl nofun rfl (by simp only [Position.remaining]; omega)
  · exact (hs.orRes0 _).finish nofun

theorem Prepares.rekeyNext (h : Prepares s t) (p2 : Bool) (r : Region) (hl : r = .a → 11 < limit) :
    Advances w limit s (rekeyNext w p2 r t) := by
  cases r with
  | a => exact h.writeRecordBlock _ _ _ rfl nofun rfl (hl rfl)
  | b => exact h.finish nofun

theorem rekey1Written_advances (w : Word) (p2 : Bool) (r : Region) (i : Fin 7) (s : State) :
    Advances w (Position.wrRekey1 p2 r i).remaining s (rekey1Written w p2 r i s) := by
  have hs := Prepares.refl s
  simp only [rekey1Written]
  split
  · next j hj =>
    have := nextIndex_eq_some hj
    exact hs.writeRecordBlock _ _ _ rfl nofun rfl
      (by cases r <;> simp only [Position.remaining] <;> omega)
  · split_ifs
    · exact (hs.orRes0 _).writeRecordBlock _ _ _ rfl nofun rfl
        (by cases r <;> simp only [Position.remaining] <;> simp <;> omega)
    · exact (hs.orRes0 _).rekeyNext _ _ (by rintro rfl; simp only [Position.remaining]; omega)

theorem rekey2Written_advances (w : Word) (r : Region) (j : Fin 4) (s : State) :
    Advances w (Position.wrRekey2 r j).remaining s (rekey2Written w r j s) := by
  have hs := Prepares.refl s
  simp only [rekey2Written]
  split
  · next k hk =>
    have := nextIndex_eq_some hk
    exact hs.writeRecordBlock _ _ _ rfl nofun rfl
      (by cases r <;> simp only [Position.remaining] <;> omega)
  · exact (hs.orRes0 _).rekeyNext _ _ (by rintro rfl; simp only [Position.remaining]; omega)

/-! Every position (R52). -/

theorem onOk_advances (w : Word) {pos : Position} (hp : pos ≠ .accepted) (n : Nat) (d : Block)
    (s : State) : Advances w pos.remaining s (onOk w pos n d s) := by
  have hs := Prepares.refl s
  cases pos <;> simp only [onOk]
  case accepted => exact absurd rfl hp
  case readHdr0 => exact hs.issue (.readHdr1 d) .read nofun rfl (by simp [Position.remaining])
  case readHdr1 t0 => exact headerRead_advances w t0 d s
  case readRegion => exact regionBlockRead_advances _ _ _ _ _ _ _ _ _
  case wrRefresh0 rw => exact hs.issue (.wrRefresh1 rw d) .read nofun rfl (by simp [Position.remaining])
  case wrRefresh1 => exact refreshed_advances _ _ _ _ _
  case wrSeq => exact sequenceRead_advances _ _ _ _ _ _ _ _ _
  case wrPart1 => exact part1Written_advances _ _ _ _ _ _
  case wrPart2 => exact part2Written_advances _ _ _ _
  case wrIdent p2 =>
    exact ((hs.withRes0 _).sealRecord _ _ _).writeRecordBlock .a 0 (.wrRekey1 p2 .a 0) rfl nofun rfl
      (by simp [Position.remaining])
  case wrRekey1 => exact rekey1Written_advances _ _ _ _ _
  case wrRekey2 => exact rekey2Written_advances _ _ _ _

theorem onAuthFail_advances (w : Word) (pos : Position) (n : Nat) (s : State) :
    Advances w pos.remaining s (onAuthFail w pos n s) := by
  cases pos <;> simp only [onAuthFail]
  case readRegion => exact regionAuthFail_advances _ _ _ _ _ _ _ _
  all_goals exact (Prepares.refl s).raise (c := .authFailure) nofun _ _ _

/-- Whatever the answer, a command that waits at a position goes on or ends (R52, R280, R286). -/
theorem onAnswer_advances {s : State} {w : Word} {pos : Position} {req : PortRequest} (a : Answer)
    (hphase : s.phase = .busy w pos (some req)) (hp : pos ≠ .accepted) :
    Advances w pos.remaining s (onAnswer a s) := by
  simp only [onAnswer, hphase]
  cases a with
  | ok d => exact onOk_advances w hp _ _ _
  | authFail => exact onAuthFail_advances _ _ _ _
  | lost => exact (Prepares.refl s).raise (c := .transportLost) nofun _ _ _

/-- The first step of a port command (R280, R286). -/
theorem exec_port_advances {i : Instr} (h : isPortCommand i = true) (s : State) :
    ∃ t, exec i s = .next t ∧ Advances (encode i).word 26 s t := by
  have hs := Prepares.refl s
  cases i <;> simp only [isPortCommand, Bool.false_eq_true] at h
  case readRecord =>
    exact ⟨_, rfl, ((hs.withRecon 0).withSeq 0).issue .readHdr0 .read nofun rfl (by simp [Position.remaining])⟩
  case writeRecord rw =>
    exact ⟨_, rfl, (((hs.withRes0 0).withRes1 0).withSeq 0).issue (.wrRefresh0 rw) .read nofun rfl
      (by simp [Position.remaining])⟩

end

end Sys2Proof.Machine

/-! What every step keeps (spec/10_state.md R50 to R52, spec/20_memory.md R96, R97). -/

namespace Sys2Proof.Machine

/-! The local commands: their memory and their codes. -/

/-- The bits of a command word make a command, not a bus operation (R113). -/
theorem isBusOperation_of_decode {w : Word} {i : Instr} (h : decode w = .ok i) :
    isBusOperation i = false := by
  obtain ⟨o, _, _, rfl⟩ := decode_eq_ok h
  cases o <;> rfl

theorem exec_p1Check (s : State) :
    exec .p1Check s = .next (finish (if p1Valid (s.buf .p1) then .ok else .p1Checksum)
      ((s.withRes0 (c2Of (s.buf .p1) ++ c1Of (s.buf .p1))).withRes1
        (0#13 ++ p1Mask (s.buf .p1) ++ c3Of (s.buf .p1)))) := rfl

/-- R340: a local command ends in a completion with any code but BLOCK_GUARD, and writes no byte
outside the RAM buffers. -/
theorem exec_local_ends {i : Instr} {s t : State} (hport : isPortCommand i = false)
    (hbus : isBusOperation i = false) (h : exec i s = .next t) :
    KeepsRam s.mem t.mem ∧ t.err ≠ .blockGuard := by
  have keep := KeepsRam.refl s.mem
  cases i <;> simp only [isPortCommand, isBusOperation, Bool.true_eq_false] at hport hbus
  case crc16Run | crc48Run | blockMap =>
    simp only [exec, execCrc16Run, execCrc48Run, execBlockMap] at h
    split at h <;> cases h <;> exact ⟨keep, nofun⟩
  case fieldGet | bitGet =>
    simp only [exec, execFieldGet, execBitGet] at h
    split at h <;> cases h <;> exact ⟨keep, nofun⟩
  case hdrCheck | p2Check | seqReconcile =>
    cases h
    rw [finish_mem, finish_err]
    exact ⟨keep, by split <;> nofun⟩
  case p1Check =>
    rw [exec_p1Check] at h
    obtain rfl := Host.Outcome.next.inj h
    rw [finish_mem, finish_err]
    exact ⟨keep, by split <;> nofun⟩
  case sectorKey n =>
    simp only [exec, execSectorKey] at h
    split at h <;> cases h <;> simp only [finish_mem, finish_err, withRes0_mem, withRes1_mem]
    · exact ⟨keep.bufWrite .skey 0 _ rfl (by rw [length_sectorKey]; decide), nofun⟩
    · exact ⟨keep, nofun⟩
  case blockKey n =>
    simp only [exec, execBlockKey] at h
    split at h <;> cases h <;> simp only [finish_mem, finish_err]
    · exact ⟨keep.bufWrite .bkey 0 _ rfl (by simp [Buffer.size]), nofun⟩
    · exact ⟨keep, nofun⟩
  case blkEnc | blkDec =>
    simp only [exec, execBlkEnc, execBlkDec, cipherStep] at h
    split at h <;> cases h <;> simp only [finish_mem, finish_err]
    · exact ⟨(keep.bufWrite .bkey 0 _ rfl (by simp [Buffer.size])).bufWrite .blk 0 _ rfl
        (by simp [Buffer.size]), nofun⟩
    · exact ⟨keep, nofun⟩
  case fieldPut fid bit =>
    simp only [exec, execFieldPut] at h
    split at h
    · cases h; exact ⟨keep, nofun⟩
    · next r hr =>
      obtain ⟨hrom, _, _, hsize⟩ := fieldRow_bounds fid r (fieldOperand_eq_some.mp hr).1
      split at h <;> cases h
      · exact ⟨keep.bufWrite _ _ _ hrom (by rwa [length_leBytes]), nofun⟩
      · exact ⟨keep, nofun⟩
  case bitSet fid bit | bitClr fid bit =>
    simp only [exec, execBitSet, execBitClr, bitPut] at h
    split at h
    · cases h; exact ⟨keep, nofun⟩
    · next r hr =>
      obtain ⟨hfid, hbit⟩ := bitOperand_eq_some.mp hr
      obtain ⟨hrom, _, _, hsize⟩ := fieldRow_bounds fid r hfid
      cases h
      exact ⟨keep.bufWrite _ _ _ hrom (by rw [List.length_singleton]; omega), nofun⟩
  case nickUnpack =>
    cases h
    exact ⟨keep.bufWrite .name 0 s.nickChars rfl (by simp [State.nickChars, Buffer.size]), nofun⟩
  case nickPack =>
    simp only [exec, execNickPack] at h
    split at h <;> cases h
    · exact ⟨keep, nofun⟩
    · exact ⟨keep.bufWrite .p1 0x20 _ rfl (by simp [nickField, Buffer.size]), nofun⟩
  case hdrSeal =>
    cases h
    rw [finish_mem, withRes0_mem]
    exact ⟨(Prepares.refl s).sealHdr.ram, nofun⟩
  case p1Seal =>
    simp only [exec, execP1Seal] at h
    cases h
    rw [finish_mem, withRes1_mem, withRes0_mem]
    exact ⟨(Prepares.refl s).sealP1.ram, nofun⟩
  case p2Seal =>
    cases h
    rw [finish_mem, withRes0_mem]
    exact ⟨(Prepares.refl s).sealP2.ram, nofun⟩
  all_goals cases h; exact ⟨keep, nofun⟩

/-! The invariant, move by move. -/

/-- A step that ends at rest keeps the invariant when it keeps the tag and writes RAM buffers only. -/
theorem State.Inv.of_idle {s t : State} (h : s.Inv) (htag : t.tag = s.tag)
    (hram : KeepsRam s.mem t.mem) (hp : t.phase = .idle) : t.Inv where
  memWf := hram.1 h.memWf
  tagWf := htag ▸ h.tagWf
  memInRam c hc := (hram.2 c hc).elim (h.memInRam c) id
  tagInDump := htag ▸ h.tagInDump
  phaseLegal := by rw [hp]; trivial
  requestKeyed _ _ _ hq := by rw [hp] at hq; cases hq
  busyQuiet hb := by rw [busy_of_idle hp] at hb; cases hb

/-- What a busy command goes on to keeps the invariant: its next request is the one that its position
waits for. -/
theorem Advances.inv {w : Word} {limit : Nat} {s t : State} (h : Advances w limit s t) (hs : s.Inv)
    (hb : s.busy = true) : t.Inv := by
  have htag : t.tag = s.tag := by rw [h.frame]
  rcases h.outcome with ⟨pos, op, hphase, hp, ho, _, hdone, herr⟩ | ⟨hphase, _, _⟩
  · exact
      { memWf := h.ram.1 hs.memWf
        tagWf := htag ▸ hs.tagWf
        memInRam := fun c hc => (h.ram.2 c hc).elim (hs.memInRam c) id
        tagInDump := htag ▸ hs.tagInDump
        phaseLegal := by rw [hphase]; exact ⟨hp, rfl, ho, portGuard_block hp ho⟩
        requestKeyed := by
          intro w' pos' req hq
          rw [hphase] at hq
          cases hq
          exact request_keyed t _ op
        busyQuiet := fun _ => by rw [hdone, herr]; exact hs.busyQuiet hb }
  · exact hs.of_idle htag h.ram hphase

/-- The moves to come are no part of the invariant. -/
theorem State.Inv.withInputs {s : State} (h : s.Inv) (rest : List Event) :
    ({ s with inputs := rest } : State).Inv :=
  h.congr rfl rfl (.inl ⟨rfl, id, rfl⟩)

/-- An accepted word has the machine busy. -/
theorem busy_of_fetch {s : State} {w : Word} (h : s.fetch = some w) : s.busy = true := by
  rw [State.busy, fetch_eq_some.mp h]

/-- A command word that is begun completes, or goes on as a port command (R52, R114). -/
theorem startCommand_cases {s t : State} {w : Word} (h : startCommand w s = .next t) :
    (∃ c s', t = finish c s' ∧ c ≠ .blockGuard ∧ KeepsRam s.mem s'.mem ∧ OnlyResults s s') ∨
      ∃ w', Advances w' 26 s t := by
  cases hd : decode w with
  | error e =>
    rw [startCommand_of_error hd] at h
    cases h
    exact .inl ⟨_, s, rfl, nofun, .refl _, .refl s⟩
  | ok i =>
    rw [startCommand_of_decode hd] at h
    cases hport : isPortCommand i with
    | false =>
      obtain ⟨c, s', hx, hframe⟩ := exec_local i s hport (isBusOperation_of_decode hd)
      obtain ⟨hram, hcode⟩ := exec_local_ends hport (isBusOperation_of_decode hd) h
      cases h.symm.trans hx
      exact .inl ⟨c, s', rfl, hcode, hram, hframe⟩
    | true =>
      obtain ⟨t', hx, hadv⟩ := exec_port_advances hport s
      cases h.symm.trans hx
      exact .inr ⟨_, hadv⟩

theorem startCommand_inv {s t : State} {w : Word} (hs : s.Inv) (hf : s.fetch = some w)
    (h : startCommand w s = .next t) : t.Inv := by
  rcases startCommand_cases h with ⟨c, s', rfl, _, hram, hframe⟩ | ⟨_, hadv⟩
  · exact hs.of_idle (by rw [finish_tag, hframe]) hram rfl
  · exact hadv.inv hs (busy_of_fetch hf)

/-- R85, R86, R51: while BUSY a host write changes no more than three bits of STATUS, and sets DONE in
no case. -/
theorem performWrite_busy {s t : State} {addr : BitVec 12} {n : Width} {v : Word}
    (hb : s.busy = true) (h : performWrite addr n v s = .next t) :
    t = { s with done := t.done, busErr := t.busErr, ovr := t.ovr } ∧
      (s.done = false → t.done = false) := by
  cases hx : target addr n with
  | none =>
    cases h.symm.trans (performWrite_malformed s hx)
    exact ⟨rfl, id⟩
  | some x =>
    by_cases hs : x = .reg .status
    · subst hs
      rw [performWrite_target v s hx nofun nofun, hostWrite_reg hx] at h
      cases h
      exact ⟨rfl, fun hd => by simp [hostWriteReg, hd]⟩
    · by_cases hc : x = .reg .cmd
      · subst hc
        rw [performWrite_target v s hx nofun nofun, hostWrite_reg hx] at h
        simp only [hostWriteReg, hb, if_true] at h
        cases h
        exact ⟨rfl, id⟩
      · cases h.symm.trans (performWrite_busy_refused v hb hx hs hc)
        exact ⟨rfl, id⟩

/-- R347: of the host's register writes only the acceptance of a word touches ERR. -/
theorem hostWriteReg_err (r : Register) (v : Word) (s : State)
    (hp : (hostWriteReg r v s).phase = .idle) : (hostWriteReg r v s).err = s.err := by
  cases hb : s.busy <;> cases r <;> simp only [hostWriteReg, hb] at hp ⊢ <;> try rfl
  cases hp

/-- R80 to R86: everything a host write can do at rest: registers, bytes of a RAM buffer, or the accepted
word. -/
theorem performWrite_idle {s t : State} {addr : BitVec 12} {n : Width} {v : Word}
    (hp : s.phase = .idle) (h : performWrite addr n v s = .next t) :
    t.tag = s.tag ∧ KeepsRam s.mem t.mem ∧
      ((t.phase = .idle ∧ t.err = s.err) ∨ t = accept v s) := by
  cases hx : target addr n with
  | none =>
    cases h.symm.trans (performWrite_malformed s hx)
    exact ⟨rfl, .refl _, .inl ⟨hp, rfl⟩⟩
  | some x =>
    by_cases hdata : x = .reg .crc16Data ∨ x = .reg .crc48Data
    · have hidle := exec_dataWrite_idle v (busy_of_idle hp)
      rcases hdata with rfl | rfl
      · obtain ⟨rfl, rfl⟩ := target_crcData.1 hx
        cases h.symm.trans ((performWrite_busOperation (busOperation_crc16 v) s).trans hidle.1)
        exact ⟨rfl, .refl _, .inl ⟨hp, rfl⟩⟩
      · obtain ⟨rfl, rfl⟩ := target_crcData.2 hx
        cases h.symm.trans ((performWrite_busOperation (busOperation_crc48 v) s).trans hidle.2)
        exact ⟨rfl, .refl _, .inl ⟨hp, rfl⟩⟩
    · rw [not_or] at hdata
      cases h.symm.trans (performWrite_target v s hx hdata.1 hdata.2)
      cases x with
      | reg r =>
        rw [hostWrite_reg hx]
        obtain ⟨hmem, htag, _, hphase⟩ := hostWriteReg_frame r v s
        refine ⟨htag, by rw [hmem]; exact .refl _, hphase.imp (fun hphase => ?_) fun ha => ha.2.2⟩
        exact ⟨hphase.trans hp, hostWriteReg_err r v s (hphase.trans hp)⟩
      | buf b =>
        obtain ⟨_, hlow, hhigh⟩ := target_buf hx
        rcases hostWrite_buf (s := s) (v := v) hx with ⟨_, hw⟩ | ⟨_, hwritable, hw⟩ <;> rw [hw]
        · exact ⟨rfl, .refl _, .inl ⟨hp, rfl⟩⟩
        · have hram := (KeepsRam.refl s.mem).bufWrite b (addr.toNat - b.base)
            (leBytes n.bytes v.toNat) (hostWritable_not_rom b hwritable)
            (by rw [length_leBytes]; omega)
          rw [State.bufWrite, Nat.add_sub_cancel' hlow] at hram
          exact ⟨rfl, hram, .inl ⟨hp, rfl⟩⟩

theorem performWrite_tag {s t : State} {addr : BitVec 12} {n : Width} {v : Word}
    (h : performWrite addr n v s = .next t) : t.tag = s.tag := by
  cases hp : s.phase with
  | idle => exact (performWrite_idle hp h).1
  | busy w pos req => rw [(performWrite_busy (by rw [State.busy, hp]) h).1]

/-- R347: a host write leaves ERR, or makes it OK. -/
theorem performWrite_err {s t : State} {addr : BitVec 12} {n : Width} {v : Word}
    (h : performWrite addr n v s = .next t) (ht : t.err = .blockGuard) : s.err = .blockGuard := by
  cases hp : s.phase with
  | idle =>
    rcases (performWrite_idle hp h).2.2 with ⟨_, herr⟩ | rfl
    · exact herr ▸ ht
    · cases ht
  | busy w pos req =>
    rw [(performWrite_busy (by rw [State.busy, hp]) h).1] at ht
    exact ht

theorem performWrite_inv {s t : State} {addr : BitVec 12} {n : Width} {v : Word} (hs : s.Inv)
    (h : performWrite addr n v s = .next t) : t.Inv := by
  cases hp : s.phase with
  | idle =>
    obtain ⟨htag, hram, ⟨hphase, _⟩ | rfl⟩ := performWrite_idle hp h
    · exact hs.of_idle htag hram hphase
    · exact hs.accept v
  | busy w pos req =>
    obtain ⟨hframe, hdone⟩ := performWrite_busy (by rw [State.busy, hp]) h
    exact hs.congr (by rw [hframe]) (by rw [hframe])
      (.inl ⟨by rw [hframe], hdone, by rw [hframe]⟩)

theorem hostRead_inv {s : State} (hs : s.Inv) (addr : BitVec 12) (n : Width) :
    (hostRead addr n s).Inv := by
  have hframe := hostRead_eq addr n s
  exact hs.congr (by rw [hframe]) (by rw [hframe])
    (.inl ⟨by rw [hframe], fun hd => by rw [hframe]; exact hd, by rw [hframe]⟩)

/-- A request under the invariant: its position, block, operation and guard (R50, R95, R97). -/
theorem State.Inv.request {s : State} (hs : s.Inv) {w : Word} {pos : Position} {req : PortRequest}
    (h : s.phase = .busy w pos (some req)) :
    pos ≠ .accepted ∧ req.block = pos.block ∧ req.op.isWrite = pos.writes ∧
      portGuard req.block req.op = true := by
  have hlegal := hs.phaseLegal
  rw [h] at hlegal
  exact hlegal

theorem onAnswer_inv {s : State} (hs : s.Inv) (a : Answer) : (onAnswer a s).Inv := by
  rcases onAnswer_cases a s with ⟨h, _⟩ | ⟨w, pos, req, hp, _⟩
  · rwa [h]
  · exact (onAnswer_advances a hp (hs.request hp).1).inv hs (by rw [State.busy, hp])

/-- R97: a block that passes the guard is one of the tag's 64. -/
theorem lt_of_portGuard {n : Nat} {op : PortOp} (h : portGuard n op = true) : n < 64 := by
  simp only [portGuard, Bool.and_eq_true, decide_eq_true_eq] at h
  exact h.1.1

/-- R99: an ideal answer is an OK answer, before a write of which the tag has taken the block. -/
theorem onIdealAnswer_cases (s : State) :
    (onIdealAnswer s = s ∧ ∀ w pos req, s.phase ≠ .busy w pos (some req)) ∨
      ∃ w pos req, s.phase = .busy w pos (some req) ∧
        ((req.op = .read ∧ onIdealAnswer s = onAnswer (.ok (tagBlock s.tag req.block)) s) ∨
          ∃ d, req.op = .write d ∧ onIdealAnswer s =
            onAnswer (.ok d) (s.withTag (setTagBlock s.tag req.block d))) := by
  rcases hp : s.phase with _ | ⟨w, pos, _ | req⟩
  · exact .inl ⟨onIdealAnswer_none s (by simp [hp]), nofun⟩
  · exact .inl ⟨onIdealAnswer_none s (by simp [hp]), nofun⟩
  · refine .inr ⟨w, pos, req, rfl, ?_⟩
    cases ho : req.op with
    | read => exact .inl ⟨rfl, by simp only [onIdealAnswer, hp, ho]⟩
    | write d => exact .inr ⟨d, rfl, by simp only [onIdealAnswer, hp, ho]⟩

theorem onIdealAnswer_inv {s : State} (hs : s.Inv) : (onIdealAnswer s).Inv := by
  rcases onIdealAnswer_cases s with ⟨h, _⟩ | ⟨w, pos, req, hp, ⟨_, h⟩ | ⟨d, _, h⟩⟩ <;> rw [h]
  · exact hs
  · exact onAnswer_inv hs _
  · exact onAnswer_inv (hs.setTag _ (lt_of_portGuard (hs.request hp).2.2.2) d) _

/-- Settles O11: reset lists no cell, and rests. -/
theorem resetKeepsInvariant : Obligations.ResetKeepsInvariant where
  memWf := nil_wf
  tagWf := nil_wf
  memInRam := nofun
  tagInDump := nofun
  phaseLegal := trivial
  requestKeyed := nofun
  busyQuiet := nofun

theorem perform_inv {s t : State} {e : Event} (hs : s.Inv) (h : perform e s = .next t) : t.Inv := by
  cases e with
  | hostRead addr n => cases h; exact hostRead_inv hs addr n
  | hostWrite addr n v => exact performWrite_inv hs h
  | answer a => cases h; exact onAnswer_inv hs a
  | idealAnswer => cases h; exact onIdealAnswer_inv hs
  | staleAnswer a => cases h; exact hs
  | tagChanges b d => cases h; exact hs.setTag _ b.isLt d
  | reset =>
    cases h
    exact hs.of_idle rfl ⟨fun _ => nil_wf, nofun⟩ rfl

/-- Settles O12: the word that is begun, the move that is performed, or nothing at all. -/
theorem stepKeepsInvariant : Obligations.StepKeepsInvariant := by
  intro s t hs h
  rcases step_cases s with ⟨w, hf, hx⟩ | ⟨e, rest, _, _, hx⟩ | ⟨_, _, hx⟩ <;> rw [hx] at h
  · exact startCommand_inv hs hf h
  · exact perform_inv (hs.withInputs rest) h
  · cases h
    exact hs

end Sys2Proof.Machine

/-! Completion, the guard, the tag and the waiting of port commands (spec/20_memory.md R91, R96, R97,
spec/60_exceptions.md R340 to R345). -/

namespace Sys2Proof.Machine

/-- A run cut at a point. -/
theorem run_add {k j : Nat} {s t : State} (h : run k s = .next t) : run (k + j) s = run j t := by
  induction k generalizing s with
  | zero =>
    cases (run_zero s).symm.trans h
    rw [Nat.zero_add]
  | succ k ih =>
    cases hs : step s with
    | next s' =>
      rw [run_succ k hs] at h
      rw [Nat.succ_add_eq_add_succ k j, Nat.add_succ, run_succ _ hs, ih h]
    | fault f => cases f
    | refused r =>
      simp only [run, Host.Core.run, show core.step s = .refused r from hs] at h
      cases h

/-! The interrupt output (R343). -/

theorem busy_of_waits {w : Word} {limit : Nat} {s t : State} (h : Waits w limit s t) :
    t.busy = true := by
  obtain ⟨pos, op, hphase, _⟩ := h
  rw [State.busy, hphase]

theorem Advances.irqEn {w : Word} {limit : Nat} {s t : State} (h : Advances w limit s t) :
    t.irqEn = s.irqEn := by rw [h.frame]

theorem Advances.done_of_not_busy {w : Word} {limit : Nat} {s t : State} (h : Advances w limit s t)
    (hb : t.busy = false) : t.done = true := by
  rcases h.outcome with hw | ⟨_, hd, _⟩
  · rw [busy_of_waits hw] at hb
    cases hb
  · exact hd

/-- An answer that ends a command completes it. -/
theorem onAnswer_completes {s : State} (a : Answer) (hb : s.busy = true)
    (ht : (onAnswer a s).busy = false) :
    (onAnswer a s).done = true ∧ (onAnswer a s).irqEn = s.irqEn := by
  rcases onAnswer_cases a s with ⟨h, _⟩ | ⟨w, pos, req, hp, hcase⟩
  · rw [h, hb] at ht
    cases ht
  · by_cases hpos : pos = .accepted
    · subst hpos
      rcases hcase with ⟨d, _, h⟩ | ⟨_, h⟩ | ⟨_, h⟩ <;> rw [h] at ht ⊢
      · rw [onOk, hb] at ht
        cases ht
      · exact ⟨rfl, rfl⟩
      · exact ⟨rfl, rfl⟩
    · have hadv := onAnswer_advances a hp hpos
      exact ⟨hadv.done_of_not_busy ht, hadv.irqEn⟩

theorem onIdealAnswer_completes {s : State} (hb : s.busy = true)
    (ht : (onIdealAnswer s).busy = false) :
    (onIdealAnswer s).done = true ∧ (onIdealAnswer s).irqEn = s.irqEn := by
  rcases onIdealAnswer_cases s with ⟨h, _⟩ | ⟨w, pos, req, hp, ⟨_, h⟩ | ⟨d, _, h⟩⟩ <;> rw [h] at ht ⊢
  · rw [hb] at ht
    cases ht
  · exact onAnswer_completes _ hb ht
  · exact onAnswer_completes _ (s := s.withTag _) hb ht

/-- R341: but for the reset, what takes the machine out of BUSY is a completion. -/
theorem step_completes {s t : State} (hb : s.busy = true)
    (hr : s.fetch = none → s.inputs.head? ≠ some .reset) (h : step s = .next t)
    (ht : t.busy = false) : t.done = true ∧ t.irqEn = s.irqEn := by
  have hstay (hphase : t.phase = s.phase) : t.done = true ∧ t.irqEn = s.irqEn := by
    rw [busy_congr hphase, hb] at ht
    cases ht
  rcases step_cases s with ⟨w, _, hx⟩ | ⟨e, rest, hf, hi, hx⟩ | ⟨_, _, hx⟩ <;> rw [hx] at h
  · rcases startCommand_cases h with ⟨c, s', rfl, _, _, hframe⟩ | ⟨_, hadv⟩
    · exact ⟨rfl, hframe.irqEn⟩
    · exact ⟨hadv.done_of_not_busy ht, hadv.irqEn⟩
  · have hb' : ({ s with inputs := rest } : State).busy = true := hb
    cases e with
    | hostRead addr n => cases h; exact hstay (by rw [hostRead_eq])
    | hostWrite addr n v => exact hstay (by rw [(performWrite_busy hb' h).1])
    | answer a => cases h; exact onAnswer_completes a hb' ht
    | idealAnswer => cases h; exact onIdealAnswer_completes hb' ht
    | staleAnswer a => cases h; exact hstay rfl
    | tagChanges b d => cases h; exact hstay rfl
    | reset => exact absurd (by rw [hi]; rfl) (hr hf)
  · cases h
    exact hstay rfl

/-- R37: a host write to CTRL. -/
theorem step_writeCtrl {s : State} {v : Word} {rest : List Event} (hp : s.phase = .idle)
    (hi : s.inputs = .hostWrite 0x004 .w4 v :: rest) :
    step s = .next (({ s with inputs := rest } : State).writeCtrl v) := by
  have hidle : ({ s with inputs := rest } : State).busy = false := busy_of_idle hp
  rw [step_hostWrite_reg (r := .ctrl) (fetch_of_idle hp) hi (by decide) nofun nofun,
    hostWriteReg_idle v hidle (r := .ctrl) rfl nofun nofun]
  rfl

/-- Settles O14: DONE is 0 from the acceptance on, the completion sets it, the write to STATUS clears it,
and IRQ is its conjunction with IRQ_EN throughout. -/
theorem interruptFollowsCompletion : Obligations.InterruptFollowsCompletion := by
  refine ⟨?_, fun s hs hb => ?_, fun s t hb hr h ht => ?_, fun s v rest hp hi => ?_⟩
  · intro i s rest hport hbus hp hi
    obtain ⟨c, s', _, hframe, hrun⟩ := run_local hport hbus hp hi
    have hrun1 := run_succ 0 (step_accept hp hi)
    have hinputs : (finish c s').inputs = .hostWrite 0x008 .w4 0x200 :: rest := hframe.inputs
    have hclear := step_writeStatus (fetch_of_idle rfl) (by decide) hinputs
    have hrun3 := run_add (j := 1) hrun
    refine ⟨_, _, _, hrun1, ?_, hrun, ?_, hrun3.trans (run_succ 0 hclear), ?_, ?_⟩
    · exact Bool.and_false _
    · rw [State.irq, finish_done, Bool.and_true, finish_irqEn]
      exact hframe.irqEn
    · simp [State.irq]
    · rfl
  · rw [State.irq, (hs.busyQuiet hb).1, Bool.and_false]
  · obtain ⟨hdone, hirq⟩ := step_completes hb hr h ht
    exact ⟨hdone, by rw [State.irq, hdone, hirq, Bool.and_true]⟩
  · exact ⟨_, step_writeCtrl hp hi, rfl, rfl⟩

/-! The block-port guard (R97) and what it reports (R333). -/

theorem portGuard_iff {n : Nat} {op : PortOp} :
    portGuard n op = true ↔ n < 64 ∧ n % 4 ≠ 3 ∧ (op.isWrite = true → n ≠ 0) := by
  cases op <;> simp [portGuard, PortOp.isWrite, and_assoc]

theorem toNat_append {n m : Nat} (x : BitVec n) (y : BitVec m) :
    (x ++ y).toNat = 2 ^ m * x.toNat + y.toNat := by
  rw [BitVec.toNat_append, ← Nat.shiftLeft_add_eq_or_of_lt y.isLt, Nat.shiftLeft_eq, Nat.mul_comm]

/-- R45: the fields of XSTAT, for a block of the tag. -/
theorem xstatWord_toNat {n : Nat} (hn : n < 64) (st : Stage) (p : PortCause) :
    (xstatWord n st p).toNat =
      n + 2 ^ 8 * (n / 4) + 2 ^ 12 * st.code.toNat + 2 ^ 16 * p.code.toNat := by
  have hlow : (BitVec.ofNat 6 n).toNat = n := by simp; omega
  have hsector : (BitVec.ofNat 4 (n / 4)).toNat = n / 4 := by simp; omega
  simp only [xstatWord, toNat_append, hlow, hsector, BitVec.toNat_ofNat]
  omega

/-- R97, R333: the one way into BLOCK_GUARD is a request that breaks the guard, which no position
makes. -/
theorem onAnswer_err {s : State} (hs : s.Inv) (a : Answer) (h : (onAnswer a s).err = .blockGuard) :
    s.err = .blockGuard := by
  rcases onAnswer_cases a s with ⟨heq, _⟩ | ⟨w, pos, req, hp, _⟩
  · rwa [heq] at h
  · rcases (onAnswer_advances a hp (hs.request hp).1).outcome with ⟨_, _, _, _, _, _, _, herr⟩ | ⟨_, _, herr⟩
    · exact herr ▸ h
    · exact absurd h herr

theorem onIdealAnswer_err {s : State} (hs : s.Inv) (h : (onIdealAnswer s).err = .blockGuard) :
    s.err = .blockGuard := by
  rcases onIdealAnswer_cases s with ⟨heq, _⟩ | ⟨w, pos, req, hp, ⟨_, heq⟩ | ⟨d, _, heq⟩⟩ <;>
    rw [heq] at h
  · exact h
  · exact onAnswer_err hs _ h
  · exact onAnswer_err (s := s.withTag (setTagBlock s.tag req.block d))
      (hs.setTag _ (lt_of_portGuard (hs.request hp).2.2.2) d) _ h

theorem perform_err {s t : State} {e : Event} (hs : s.Inv) (h : perform e s = .next t)
    (ht : t.err = .blockGuard) : s.err = .blockGuard := by
  cases e with
  | hostRead addr n =>
    cases h
    rwa [hostRead_eq] at ht
  | hostWrite addr n v => exact performWrite_err h ht
  | answer a => cases h; exact onAnswer_err hs a ht
  | idealAnswer => cases h; exact onIdealAnswer_err hs ht
  | staleAnswer a => cases h; exact ht
  | tagChanges b d => cases h; exact ht
  | reset => cases h; cases ht

theorem step_err {s t : State} (hs : s.Inv) (h : step s = .next t) (ht : t.err = .blockGuard) :
    s.err = .blockGuard := by
  rcases step_cases s with ⟨w, _, hx⟩ | ⟨e, rest, _, _, hx⟩ | ⟨_, _, hx⟩ <;> rw [hx] at h
  · rcases startCommand_cases h with ⟨c, s', rfl, hc, _, _⟩ | ⟨_, hadv⟩
    · exact absurd ht hc
    · rcases hadv.outcome with ⟨_, _, _, _, _, _, _, herr⟩ | ⟨_, _, herr⟩
      · exact herr ▸ ht
      · exact absurd ht herr
  · exact perform_err (s := { s with inputs := rest }) (hs.withInputs rest) h ht
  · cases h
    exact ht

/-- Settles O58: the guard is R97's three conditions, a request that breaks it is raised, and under the
invariant every request is its position's. -/
theorem guardNeverTrips : Obligations.GuardNeverTrips := by
  refine ⟨fun _ _ => portGuard_iff, fun w n op pos s hg => ⟨issue_of_not_guard w n op pos s hg, ?_⟩,
    fun s t hs h => ⟨step_err hs h, fun w pos req hp => ?_⟩⟩
  · intro hn
    rw [xstatWord_toNat hn, stage_code_toNat]
    rfl
  · obtain ⟨_, _, _, hguard⟩ := (stepKeepsInvariant s t hs h).request hp
    exact hguard

/-! The tag (R91, R345). -/

theorem onAnswer_tag {s : State} (hs : s.Inv) (a : Answer) : (onAnswer a s).tag = s.tag := by
  rcases onAnswer_cases a s with ⟨h, _⟩ | ⟨w, pos, req, hp, _⟩
  · rw [h]
  · rw [(onAnswer_advances a hp (hs.request hp).1).frame]

/-- R97: an ideal write changes the block it was asked for, which is neither block 0 nor a trailer. -/
theorem onIdealAnswer_tagBlock {s : State} (hs : s.Inv) {n : Nat} (hn : n = 0 ∨ n % 4 = 3) :
    tagBlock (onIdealAnswer s).tag n = tagBlock s.tag n := by
  rcases onIdealAnswer_cases s with ⟨h, _⟩ | ⟨w, pos, req, hp, ⟨_, h⟩ | ⟨d, ho, h⟩⟩ <;> rw [h]
  · rw [onAnswer_tag hs]
  · obtain ⟨_, _, _, hguard⟩ := hs.request hp
    obtain ⟨_, htrailer, hzero⟩ := portGuard_iff.mp hguard
    have hne : n ≠ req.block := by
      have := hzero (by rw [ho]; rfl)
      omega
    rw [onAnswer_tag (hs.setTag _ (lt_of_portGuard hguard) d)]
    exact tagBlock_setTagBlock_other _ _ _ _ hne

theorem perform_tagBlock {s t : State} {e : Event} (hs : s.Inv) (h : perform e s = .next t)
    (he : ∀ b d, e ≠ .tagChanges b d) {n : Nat} (hn : n = 0 ∨ n % 4 = 3) :
    tagBlock t.tag n = tagBlock s.tag n := by
  cases e with
  | hostRead addr n => cases h; rw [hostRead_eq]
  | hostWrite addr n v => rw [performWrite_tag h]
  | answer a => cases h; rw [onAnswer_tag hs]
  | idealAnswer => cases h; exact onIdealAnswer_tagBlock hs hn
  | staleAnswer a => cases h; rfl
  | tagChanges b d => exact absurd rfl (he b d)
  | reset => cases h; rfl

/-- Settles O59: of the machine's own moves only the ideal write touches the tag. -/
theorem block0AndTrailersNeverWritten : Obligations.Block0AndTrailersNeverWritten := by
  intro s t hs h htag n hn
  rcases step_cases s with ⟨w, _, hx⟩ | ⟨e, rest, _, hi, hx⟩ | ⟨_, _, hx⟩ <;> rw [hx] at h
  · rcases startCommand_cases h with ⟨c, s', rfl, _, _, hframe⟩ | ⟨_, hadv⟩
    · rw [finish_tag, hframe]
    · rw [hadv.frame]
  · exact perform_tagBlock (s := { s with inputs := rest }) (hs.withInputs rest) h
      (by rintro b d rfl; exact htag b d (by rw [hi]; rfl)) hn
  · cases h
    rfl

/-! Waiting and ending (R96). -/

/-- R96: a move that ends no wait leaves a command that waits where it is. -/
theorem perform_keeps_wait {s t : State} {e : Event} (hb : s.busy = true) (he : e.endsWait = false)
    (h : perform e s = .next t) :
    t.phase = s.phase ∧ t.mem = s.mem ∧ t.err = s.err ∧ t.inputs = s.inputs := by
  cases e with
  | hostRead addr n =>
    cases h
    rw [hostRead_eq]
    exact ⟨rfl, rfl, rfl, rfl⟩
  | hostWrite addr n v =>
    rw [(performWrite_busy hb h).1]
    exact ⟨rfl, rfl, rfl, rfl⟩
  | answer a => cases he
  | idealAnswer => cases he
  | staleAnswer a => cases h; exact ⟨rfl, rfl, rfl, rfl⟩
  | tagChanges b d => cases h; exact ⟨rfl, rfl, rfl, rfl⟩
  | reset => cases he

/-- R96: with a request outstanding, a step takes a move or finds none to take. -/
theorem step_of_request {s : State} {w : Word} {pos : Position} {req : PortRequest}
    (hp : s.phase = .busy w pos (some req)) :
    (s.inputs = [] ∧ step s = .next s) ∨
      ∃ e rest, s.inputs = e :: rest ∧ step s = perform e { s with inputs := rest } := by
  have hf := fetch_of_request hp
  rcases hi : s.inputs with _ | ⟨e, rest⟩
  · exact .inl ⟨rfl, step_of_no_input hf hi⟩
  · exact .inr ⟨e, rest, rfl, step_of_input hf hi⟩

/-- Nothing stops the machine (R347): every instruction leads to a next state. -/
theorem exec_next (i : Instr) (s : State) : ∃ t, exec i s = .next t := by
  cases hbus : isBusOperation i with
  | false =>
    cases hport : isPortCommand i with
    | false =>
      obtain ⟨c, s', hx, _⟩ := exec_local i s hport hbus
      exact ⟨_, hx⟩
    | true =>
      obtain ⟨t, hx, _⟩ := exec_port_advances hport s
      exact ⟨t, hx⟩
  | true =>
    cases i <;> simp only [isBusOperation, Bool.false_eq_true] at hbus
    case crc16DataWrite => simp only [exec, execCrc16DataWrite]; split <;> exact ⟨_, rfl⟩
    case crc48DataWrite => simp only [exec, execCrc48DataWrite]; split <;> exact ⟨_, rfl⟩

theorem perform_next (e : Event) (s : State) : ∃ t, perform e s = .next t := by
  cases e with
  | hostWrite addr n v =>
    cases hop : busOperation ⟨addr, v⟩ with
    | none => exact ⟨_, performWrite_of_none s fun _ => hop⟩
    | some i =>
      cases n with
      | w4 =>
        obtain ⟨t, ht⟩ := exec_next i s
        exact ⟨t, (performWrite_busOperation hop s).trans ht⟩
      | w1 => exact ⟨_, rfl⟩
      | w2 => exact ⟨_, rfl⟩
  | hostRead _ _ => exact ⟨_, rfl⟩
  | answer _ => exact ⟨_, rfl⟩
  | idealAnswer => exact ⟨_, rfl⟩
  | staleAnswer _ => exact ⟨_, rfl⟩
  | tagChanges _ _ => exact ⟨_, rfl⟩
  | reset => exact ⟨_, rfl⟩

theorem run_keeps_wait {s t : State} {w : Word} {pos : Position} {req : PortRequest} {k : Nat}
    (hp : s.phase = .busy w pos (some req)) (he : ∀ e ∈ s.inputs, e.endsWait = false)
    (h : run k s = .next t) : t.phase = s.phase ∧ t.mem = s.mem ∧ t.err = s.err := by
  induction k generalizing s with
  | zero =>
    cases (run_zero s).symm.trans h
    exact ⟨rfl, rfl, rfl⟩
  | succ k ih =>
    rcases step_of_request hp with ⟨_, hx⟩ | ⟨e, rest, hi, hx⟩
    · exact ih hp he ((run_succ k hx).symm.trans h)
    · rw [hi] at he
      have hb : ({ s with inputs := rest } : State).busy = true := by rw [State.busy, hp]
      obtain ⟨t1, ht1⟩ := perform_next e { s with inputs := rest }
      obtain ⟨hphase, hmem, herr, hinputs⟩ := perform_keeps_wait hb (he e (by simp)) ht1
      obtain ⟨h1, h2, h3⟩ := ih (s := t1) (hphase.trans hp)
        (by rw [hinputs]; exact fun x hx => he x (by simp [show x ∈ rest from hx]))
        ((run_succ k (hx.trans ht1)).symm.trans h)
      exact ⟨h1.trans hphase, h2.trans hmem, h3.trans herr⟩

/-- A command is at a position, its request outstanding. -/
def WaitsAt (pos : Position) (s : State) : Prop :=
  pos ≠ .accepted ∧ ∃ w req, s.phase = .busy w pos (some req)

/-- A command has ended, by a completion unless a reset came. -/
def EndedUnless (reset : Prop) (t : State) : Prop := t.busy = false ∧ (¬ reset → t.done = true)

theorem Advances.waitsAt_or_ended {w : Word} {limit : Nat} {s t : State} (h : Advances w limit s t)
    (reset : Prop) : (∃ pos, WaitsAt pos t ∧ pos.remaining < limit) ∨ EndedUnless reset t := by
  rcases h.outcome with ⟨pos, op, hphase, hp, _, hl, _⟩ | ⟨hphase, hdone, _⟩
  · exact .inl ⟨pos, ⟨hp, _, _, hphase⟩, hl⟩
  · exact .inr ⟨busy_of_idle hphase, fun _ => hdone⟩

theorem Advances.inputs {w : Word} {limit : Nat} {s t : State} (h : Advances w limit s t) :
    t.inputs = s.inputs := by rw [h.frame]

/-- A move before a command that waits takes it on, ends it, or leaves it where it is; an answer does
not leave it where it is. -/
theorem perform_waitsAt {s t : State} {e : Event} {pos : Position} (hs : WaitsAt pos s)
    (h : perform e s = .next t) :
    t.inputs = s.inputs ∧
      ((∃ pos', WaitsAt pos' t ∧ pos'.remaining + (if e.answers then 1 else 0) ≤ pos.remaining) ∨
        EndedUnless (e = .reset) t) := by
  obtain ⟨hp, w, req, hphase⟩ := hs
  have hanswer {s' : State} (a : Answer) (hphase' : s'.phase = .busy w pos (some req))
      (hinputs : s'.inputs = s.inputs) : (onAnswer a s').inputs = s.inputs ∧
      ((∃ pos', WaitsAt pos' (onAnswer a s') ∧ pos'.remaining + 1 ≤ pos.remaining) ∨
        EndedUnless (e = .reset) (onAnswer a s')) := by
    have hadv := onAnswer_advances a hphase' hp
    exact ⟨hadv.inputs.trans hinputs, hadv.waitsAt_or_ended _⟩
  have hwait (he : e.endsWait = false) : t.inputs = s.inputs ∧ WaitsAt pos t := by
    obtain ⟨hsame, _, _, hinputs⟩ := perform_keeps_wait (by rw [State.busy, hphase]) he h
    exact ⟨hinputs, hp, w, req, hsame.trans hphase⟩
  cases e with
  | hostRead _ _ | hostWrite _ _ _ | staleAnswer _ | tagChanges _ _ =>
    obtain ⟨hinputs, hw⟩ := hwait rfl
    exact ⟨hinputs, .inl ⟨pos, hw, le_rfl⟩⟩
  | answer a => cases h; exact hanswer a hphase rfl
  | idealAnswer =>
    cases h
    rcases onIdealAnswer_cases s with ⟨_, hno⟩ | ⟨_, _, _, _, ⟨_, heq⟩ | ⟨d, _, heq⟩⟩
    · exact absurd hphase (hno w pos req)
    · rw [heq]
      exact hanswer _ hphase rfl
    · rw [heq]
      exact hanswer _ hphase rfl
  | reset => cases h; exact ⟨rfl, .inr ⟨rfl, fun hr => absurd rfl hr⟩⟩

/-- R96: a command that waits ends when moves are to come as long as it waits. `More` is what says so:
it holds before the run, and every step keeps it. -/
theorem run_ends (More : Position → State → Prop)
    (hmore : ∀ pos s, WaitsAt pos s → More pos s → s.inputs ≠ [])
    (hstep : ∀ pos pos' s t e, WaitsAt pos s → More pos s → step s = .next t →
      s.inputs = e :: t.inputs → WaitsAt pos' t →
      pos'.remaining + (if e.answers then 1 else 0) ≤ pos.remaining → More pos' t)
    {pos : Position} {s : State} (hs : WaitsAt pos s) (hm : More pos s) :
    ∃ k t, k ≤ s.inputs.length ∧ run k s = .next t ∧ EndedUnless (.reset ∈ s.inputs) t := by
  generalize hn : s.inputs = l
  induction l generalizing pos s with
  | nil => exact absurd hn (hmore pos s hs hm)
  | cons e rest ih =>
    obtain ⟨hp, w, req, hphase⟩ := hs
    have hx := step_of_input (fetch_of_request hphase) hn
    obtain ⟨t, ht⟩ := perform_next e { s with inputs := rest }
    have hst := hx.trans ht
    obtain ⟨hinputs, ⟨pos', hw, hrem⟩ | ⟨hb, hdone⟩⟩ :=
      perform_waitsAt (s := { s with inputs := rest }) ⟨hp, w, req, hphase⟩ ht
    · have hti : t.inputs = rest := hinputs
      have hm' := hstep pos pos' s t e ⟨hp, w, req, hphase⟩ hm hst (by rw [hn, hti]) hw hrem
      obtain ⟨k, u, hk, hrun, hb, hdone⟩ := ih hw hm' hti
      exact ⟨k + 1, u, by simpa using hk, (run_succ k hst).trans hrun, hb,
        fun hno => hdone fun hmem => hno (List.mem_cons_of_mem _ hmem)⟩
    · exact ⟨1, t, by simp, run_succ 0 hst, hb,
        fun hno => hdone fun he => hno (he ▸ List.mem_cons_self)⟩

theorem Position.remaining_le {pos : Position} (hp : pos ≠ .accepted) : pos.remaining ≤ 25 := by
  cases pos
  case accepted => exact absurd rfl hp
  case readRegion r _ _ _ _ => cases r <;> simp only [Position.remaining] <;> omega
  case wrRekey1 _ r _ => cases r <;> simp only [Position.remaining] <;> omega
  case wrRekey2 r _ => cases r <;> simp only [Position.remaining] <;> omega
  case wrSeq slot _ _ _ _ => cases slot <;> simp [Position.remaining]
  all_goals simp only [Position.remaining]; omega

/-- Under the invariant a busy machine has a word to begin, or waits. -/
theorem State.Inv.busy_cases {s : State} (hs : s.Inv) (hb : s.busy = true) :
    (∃ w, s.fetch = some w) ∨ ∃ pos, WaitsAt pos s ∧ pos.remaining ≤ 25 := by
  rcases hp : s.phase with _ | ⟨w, pos, _ | req⟩
  · rw [busy_of_idle hp] at hb
    cases hb
  · have hlegal := hs.phaseLegal
    rw [hp] at hlegal
    obtain rfl : pos = .accepted := hlegal
    exact .inl ⟨w, fetch_eq_some.mpr hp⟩
  · obtain ⟨hpos, _⟩ := hs.request hp
    exact .inr ⟨pos, ⟨hpos, w, req, hp⟩, Position.remaining_le hpos⟩

/-- The step that begins a command word takes no move, and the command then waits or has ended. -/
theorem step_fetch_waitsAt {s : State} {w : Word} (hf : s.fetch = some w) :
    ∃ t, step s = .next t ∧ t.inputs = s.inputs ∧
      ((∃ pos, WaitsAt pos t ∧ pos.remaining ≤ 25) ∨ EndedUnless False t) := by
  obtain ⟨t, ht⟩ : ∃ t, startCommand w s = .next t := by
    simp only [startCommand]
    split
    · exact exec_next _ s
    · exact ⟨_, rfl⟩
  refine ⟨t, (step_of_fetch hf).trans ht, ?_⟩
  rcases startCommand_cases ht with ⟨c, s', rfl, _, _, hframe⟩ | ⟨_, hadv⟩
  · exact ⟨hframe.inputs, .inr ⟨rfl, fun _ => rfl⟩⟩
  · exact ⟨hadv.inputs, (hadv.waitsAt_or_ended False).imp_left
      fun ⟨pos, hw, hl⟩ => ⟨pos, hw, Nat.le_of_lt_succ hl⟩⟩

/-- `run_ends` from any busy state: `Enough` is what is known at the start, of the moves to come. -/
theorem run_ends_of_busy (More : Position → State → Prop)
    (hmore : ∀ pos s, WaitsAt pos s → More pos s → s.inputs ≠ [])
    (hstep : ∀ pos pos' s t e, WaitsAt pos s → More pos s → step s = .next t →
      s.inputs = e :: t.inputs → WaitsAt pos' t →
      pos'.remaining + (if e.answers then 1 else 0) ≤ pos.remaining → More pos' t)
    {s : State} (hs : s.Inv) (hb : s.busy = true)
    (hstart : ∀ k t pos, run k s = .next t → t.inputs = s.inputs → WaitsAt pos t →
      pos.remaining ≤ 25 → More pos t) :
    ∃ k t, k ≤ s.inputs.length + 1 ∧ run k s = .next t ∧ t.busy = false ∧
      ((∀ e ∈ s.inputs, e ≠ .reset) → t.done = true) := by
  rcases hs.busy_cases hb with ⟨w, hf⟩ | ⟨pos, hw, hle⟩
  · obtain ⟨t, hst, hinputs, ⟨pos, hw, hle⟩ | ⟨hidle, hdone⟩⟩ := step_fetch_waitsAt hf
    · obtain ⟨k, u, hk, hrun, hidle, hdone⟩ :=
        run_ends More hmore hstep hw (hstart 1 t pos (run_succ 0 hst) hinputs hw hle)
      rw [hinputs] at hk hdone
      exact ⟨k + 1, u, by omega, (run_succ k hst).trans hrun, hidle,
        fun hno => hdone fun hmem => hno _ hmem rfl⟩
    · exact ⟨1, t, by omega, run_succ 0 hst, hidle, fun _ => hdone id⟩
  · obtain ⟨k, u, hk, hrun, hidle, hdone⟩ :=
      run_ends More hmore hstep hw (hstart 0 s pos (run_zero s) rfl hw hle)
    exact ⟨k, u, by omega, hrun, hidle, fun hno => hdone fun hmem => hno _ hmem rfl⟩

/-- Settles O60: each move before a command that waits leaves it there or takes it on, so fairness, or 25
answers, brings it to its end. -/
theorem portCommandWaitsForAnswer : Obligations.PortCommandWaitsForAnswer := by
  refine ⟨fun s t w pos req k hp he h => ?wait, fun s hs hb hfair => ?fair,
    fun s hs hb hcount => ?count⟩
  case wait =>
    obtain ⟨hphase, hmem, herr⟩ := run_keeps_wait hp he h
    exact ⟨hphase, by rw [State.busy, hphase, hp], hmem, herr⟩
  case fair =>
    obtain ⟨k, t, _, h⟩ := run_ends_of_busy (fun _ => TransportAnswers) (hs := hs) (hb := hb)
      (fun pos s ⟨_, w, req, hphase⟩ hf hnil => by
        obtain ⟨e, he, _⟩ := hf 0 s w pos req (run_zero s) hphase
        rw [hnil] at he
        cases he)
      (fun pos pos' s t e _ hf hst _ _ _ k u w p req hrun =>
        hf (k + 1) u w p req ((run_succ k hst).trans hrun))
      (fun k t pos hrun _ _ _ j u w p req hrun' =>
        hfair (k + j) u w p req ((run_add hrun).trans hrun'))
    exact ⟨k, t, h⟩
  case count =>
    refine run_ends_of_busy (fun pos s => pos.remaining ≤ s.inputs.countP Event.answers) (hs := hs)
      (hb := hb) (fun pos s _ hc hnil => ?_) (fun pos pos' s t e _ hc _ hi _ hrem => ?_)
      (fun k t pos _ hinputs _ hle => hinputs ▸ hle.trans hcount)
    · have := pos.remaining_pos
      rw [hnil, List.countP_nil] at hc
      omega
    · rw [hi, List.countP_cons] at hc
      omega

end Sys2Proof.Machine

/-! The CRC commands (spec/40_crc.md R150 to R167). -/

namespace Sys2Proof.Machine

/-- R152: the CRC48 initial value. -/
theorem crc48Start_eq : crc48Start = 0x9AE903260CC4 := by decide

/-- Settles O22: a string of one byte folds by one step of the byte function, and the check values are
computed. -/
theorem nopAndCrcConstantResults : Obligations.NopAndCrcConstantResults := by
  refine ⟨by decide +kernel, by decide +kernel, fun s b len => ⟨rfl, rfl, rfl, rfl, ?_, rfl⟩⟩
  rw [← crc48Start_eq]
  rfl

/-- R160: a range with a byte outside every buffer is not readable. -/
theorem not_rangeReadable_of_not_held {a n k : Nat} (hk : k < n)
    (h : ∀ b : Buffer, b.holds (a + k) = false) : ¬ RangeReadable a n := by
  rintro (rfl | ⟨_, hbuf⟩)
  · omega
  · obtain ⟨b, hb⟩ := hbuf k hk
    rw [h b] at hb
    cases hb

/-- R33, R40: no buffer reaches into the register block. -/
theorem not_held_of_lt {a : Nat} (h : a < 0x040) (b : Buffer) : b.holds a = false := by
  have hbase := b.base_ge
  rw [Bool.eq_false_iff, ne_eq, holds_iff]
  omega

/-- Settles O23: the model's test of a range is R160's, and a range that fails it is an operand out of
range. -/
theorem crcRunResults : Obligations.CrcRunResults := by
  intro s addr len
  refine ⟨fun h => ⟨exec_crc16Run_of_readable s h, exec_crc48Run_of_readable s h⟩, fun h => ?_,
    fun k hk h => not_rangeReadable_of_not_held hk (h.elim not_held_of_lt id)⟩
  have hillegal : rangeLegal addr.toNat len.toNat = false :=
    Bool.eq_false_iff.mpr fun hlegal => h (rangeLegal_iff.mp hlegal)
  exact ⟨exec_of_not_wellFormed (i := .crc16Run addr len) hillegal s,
    exec_of_not_wellFormed (i := .crc48Run addr len) hillegal s⟩

end Sys2Proof.Machine

/-! The keys and the cipher step (spec/41_keys.md R180 to R193). -/

namespace Sys2Proof.Machine

/-- LE of a concatenation (R13). -/
theorem leNat_append (s t : List Byte) : leNat (s ++ t) = leNat s + 256 ^ s.length * leNat t := by
  induction s with
  | nil => simp [leNat]
  | cons b s ih =>
    rw [List.cons_append, leNat, leNat, ih, List.length_cons, pow_succ]
    ring

/-- R180: the sector key of a sector other than 0 is the little-endian CRC48. -/
theorem leNat_sectorKey (s : State) {i : Nat} (hi : i ≠ 0) :
    leNat (s.sectorKey i) = (crc48Of (s.buf .uid ++ [BitVec.ofNat 8 i])).toNat := by
  rw [State.sectorKey, sectorKeyOf, if_neg hi, leNat_leBytes]
  exact Nat.mod_eq_of_lt (BitVec.isLt _)

/-- R190: RES0 and RES1 are the low four and the high two bytes of a key. -/
theorem leNat_key_halves {k : List Byte} (hk : k.length = 6) :
    (BitVec.ofNat 32 (leNat (slice k 0 4))).toNat +
      2 ^ 32 * (BitVec.ofNat 32 (leNat (slice k 4 6))).toNat = leNat k := by
  have hlow : (slice k 0 4).length = 4 := by rw [length_slice]; omega
  have hhigh : (slice k 4 6).length = 2 := by rw [length_slice]; omega
  have hlt0 := leNat_lt (slice k 0 4)
  have hlt1 := leNat_lt (slice k 4 6)
  have hk' : slice k 0 4 ++ slice k 4 6 = k := by
    rw [slice_append _ _ _ _ (by omega) (by omega)]
    simp [slice, hk]
  rw [hlow] at hlt0
  rw [hhigh] at hlt1
  conv_rhs => rw [← hk', leNat_append, hlow]
  rw [BitVec.toNat_ofNat, BitVec.toNat_ofNat, Nat.mod_eq_of_lt (by omega),
    Nat.mod_eq_of_lt (by omega), show (2 : Nat) ^ 32 = 256 ^ 4 by decide]

/-- SECTOR_KEY for a sector of the tag (R190). -/
theorem exec_sectorKey_of_le {sector : Byte} (h : sector.toNat ≤ 15) (s : State) :
    exec (.sectorKey sector) s = .next (finish .ok
      (((s.bufWrite .skey 0 (s.sectorKey sector.toNat)).withRes0
        (BitVec.ofNat 32 (leNat (slice (s.sectorKey sector.toNat) 0 4)))).withRes1
          (BitVec.ofNat 32 (leNat (slice (s.sectorKey sector.toNat) 4 6))))) := by
  simp [exec, execSectorKey, sectorLegal, h]

/-- Settles O27: SKEY is written with the key, whose halves RES0 and RES1 report. -/
theorem sectorKeyResult : Obligations.SectorKeyResult := by
  intro s sector
  have hlen := length_sectorKey s sector.toNat
  refine ⟨fun h => ⟨_, exec_sectorKey_of_le h s, rfl, fun a ha => ?_, ?_⟩, fun h => ?_⟩
  · exact byte_bufWrite_outside s .skey 0 a _ (by rw [hlen]; exact ha)
  · have hskey : (s.bufWrite .skey 0 (s.sectorKey sector.toNat)).buf .skey =
        s.sectorKey sector.toNat := buf_bufWrite_whole s .skey rfl _ hlen
    rw [finish_buf, withRes1_buf, withRes0_buf, hskey]
    refine ⟨?_, fun hne => ?_, leNat_key_halves hlen⟩
    · rintro rfl
      rw [← buf_k0 s]
      rfl
    · have hne' : sector.toNat ≠ 0 := fun h0 => hne (BitVec.eq_of_toNat_eq h0)
      rw [leNat_sectorKey s hne', BitVec.ofNat_toNat, BitVec.setWidth_eq]
  · exact exec_of_not_wellFormed (i := .sectorKey sector) (by simp [Instr.wellFormed, sectorLegal, h]) s

theorem length_md5 (m : List Byte) : (md5 m).length = 16 := by
  simp [md5]

/-- R182: the block key as the digest it is. -/
theorem blockKey_toList (s : State) (n : Byte) :
    (s.blockKey n.toNat).toList = md5 (s.buf .hdr ++ [n] ++ Config.keySuffix.toList) := by
  rw [State.blockKey, blockKeyOf, toList_toVec _ _ (length_md5 _), buf_ksuf, BitVec.ofNat_toNat,
    BitVec.setWidth_eq]

/-- A command that writes a buffer and completes. -/
theorem completedWithMem_bufWrite (c : ErrCode) (s : State) (b : Buffer) (o : Nat) (bs : List Byte) :
    CompletedWithMem c s (finish c (s.bufWrite b o bs)) := rfl

theorem CompletedWithMem.bufWrite {c : ErrCode} {s t : State} (h : CompletedWithMem c s (finish c t))
    (b : Buffer) (o : Nat) (bs : List Byte) : CompletedWithMem c s (finish c (t.bufWrite b o bs)) := by
  rw [CompletedWithMem] at h ⊢
  calc finish c (t.bufWrite b o bs) = { finish c t with mem := (t.bufWrite b o bs).mem } := rfl
    _ = { s with err := c, done := true, phase := .idle, mem := (t.bufWrite b o bs).mem } := by rw [h]

/-- A buffer of 16 bytes written with a block. -/
theorem buf_bufWrite_block (s : State) (b : Buffer) (hb : b.rom = false) (hsize : b.size = 16)
    (x : Block) : (s.bufWrite b 0 x.toList).buf b = x.toList :=
  buf_bufWrite_whole s b hb _ (by rw [Vector.length_toList, hsize])

/-- BLOCK_KEY for a block of the tag (R191). -/
theorem exec_blockKey_of_le {n : Byte} (h : n.toNat ≤ 63) (s : State) :
    exec (.blockKey n) s =
      .next (finish .ok (s.bufWrite .bkey 0 (s.blockKey n.toNat).toList)) := by
  simp [exec, execBlockKey, blockLegal, h]

theorem not_wellFormed_of_block {n : Byte} (h : 63 < n.toNat) : blockLegal n = false := by
  simp [blockLegal, h]

/-- BLOCK_KEY writes BKEY and completes (R191). -/
theorem exec_blockKey_result {n : Byte} (h : n.toNat ≤ 63) (s : State) :
    ∃ t, exec (.blockKey n) s = .next t ∧ CompletedWithMem .ok s t ∧ SameBytesBut s t 0x050 16 ∧
      t.buf .bkey = (s.blockKey n.toNat).toList := by
  refine ⟨_, exec_blockKey_of_le h s, completedWithMem_bufWrite _ _ _ _ _, fun a ha => ?_, ?_⟩
  · rw [finish_byte]
    exact byte_bufWrite_outside s .bkey 0 a _ (by rw [Vector.length_toList]; exact ha)
  · rw [finish_buf, buf_bufWrite_block s .bkey rfl rfl]

/-- Settles O28: BKEY is written with the block key, and the check values are computed. -/
theorem blockKeyResult : Obligations.BlockKeyResult := by
  refine ⟨by decide +kernel, by decide +kernel, fun s n => ⟨fun h => ?_, fun h => ?_⟩⟩
  · rw [← blockKey_toList]
    exact exec_blockKey_result h s
  · exact exec_of_not_wellFormed (i := .blockKey n) (not_wellFormed_of_block h) s

/-- The cipher step of a block of the tag: BKEY is the block key, and BLK goes through f under it (R192,
R193). -/
theorem cipherStep_of_le (f : Block → Block → Block) {n : Byte} (h : n.toNat ≤ 63) (s : State) :
    CompletedWithMem .ok s (cipherStep f n s) ∧ SameBytesBut s (cipherStep f n s) 0x050 32 ∧
      (cipherStep f n s).buf .bkey = (s.blockKey n.toNat).toList ∧
      (cipherStep f n s).buf .blk =
        (f (s.blockKey n.toNat) (toVec 16 (s.buf .blk))).toList := by
  have hstep : cipherStep f n s = finish .ok ((s.bufWrite .bkey 0 (s.blockKey n.toNat).toList).bufWrite
      .blk 0 (f (s.blockKey n.toNat) (toVec 16 (s.buf .blk))).toList) := by
    simp [cipherStep, blockLegal, h]
  rw [hstep]
  refine ⟨(completedWithMem_bufWrite _ _ _ _ _).bufWrite _ _ _, fun a ha => ?_, ?_, ?_⟩
  · rw [finish_byte, byte_bufWrite_outside, byte_bufWrite_outside]
    · simp [Buffer.base]; omega
    · simp [Buffer.base]; omega
  · rw [finish_buf, buf_bufWrite_other _ .blk .bkey nofun 0 _ (by simp [Buffer.size]),
      buf_bufWrite_block _ .bkey rfl rfl]
  · rw [finish_buf, buf_bufWrite_block _ .blk rfl rfl]

/-- Settles O29: both commands are the cipher step, with E and with D. -/
theorem cipherCommandResults : Obligations.CipherCommandResults := by
  intro s n
  refine ⟨fun h => ?_, fun h => ?_⟩
  · obtain ⟨henc, hframe, hkey, hblk⟩ := cipherStep_of_le cipherE h s
    obtain ⟨hdec, hframe', hkey', hblk'⟩ := cipherStep_of_le cipherD h s
    refine ⟨_, _, rfl, rfl, henc, hdec, hframe, hframe', ?_, hkey'.trans hkey.symm, ?_, ?_⟩
    · rw [hkey, blockKey_toList]
    · rw [hblk, hkey, toVec_toList]
    · rw [hblk', hkey', toVec_toList]
  · exact ⟨exec_of_not_wellFormed (i := .blkEnc n) (not_wellFormed_of_block h) s,
      exec_of_not_wellFormed (i := .blkDec n) (not_wellFormed_of_block h) s⟩

/-- Settles O30: with HDR as it was the block key is the same, under which D undoes E. -/
theorem encryptThenDecryptRestoresBlk : Obligations.EncryptThenDecryptRestoresBlk := by
  intro s t t' u n hn henc hhdr hblk hdec
  cases henc
  cases hdec
  obtain ⟨_, _, _, hencBlk⟩ := cipherStep_of_le cipherE hn s
  obtain ⟨_, _, _, hdecBlk⟩ := cipherStep_of_le cipherD hn t'
  have hkey : t'.blockKey n.toNat = s.blockKey n.toNat := by
    rw [State.blockKey, State.blockKey, hhdr, buf_ksuf, buf_ksuf]
  rw [hdecBlk, hblk, hencBlk, toVec_toList, hkey, cipherD_cipherE,
    toList_toVec _ 16 (length_buf s .blk)]

end Sys2Proof.Machine

/-! The checksum commands (spec/42_codec.md R210 to R231, R250 to R255). -/

namespace Sys2Proof.Machine

/-! The checks. -/

theorem setWidth_eq_ofNat (x : BitVec 16) : (x.setWidth 32 : Word) = BitVec.ofNat 32 x.toNat :=
  BitVec.eq_of_toNat_eq (by simp)

/-- A stored checksum is the computed one exactly when its LE value is. -/
theorem stored16_eq_iff {p : List Byte} {i : Nat} (h : i + 2 ≤ p.length) (c : BitVec 16) :
    stored16 p i = c ↔ leNat (slice p i (i + 2)) = c.toNat := by
  rw [← toNat_stored16 p i h, BitVec.toNat_inj]

theorem stored16_beq {p : List Byte} {i : Nat} (h : i + 2 ≤ p.length) (c : BitVec 16) :
    (stored16 p i == c) = decide (leNat (slice p i (i + 2)) = c.toNat) := by
  rw [Bool.eq_iff_iff, beq_iff_eq, decide_eq_true_eq, stored16_eq_iff h]

theorem stored16_bne {p : List Byte} {i : Nat} (h : i + 2 ≤ p.length) (c : BitVec 16) :
    (stored16 p i != c) = decide (leNat (slice p i (i + 2)) ≠ c.toNat) := by
  rw [bne, stored16_beq h, decide_not]

theorem hdrValid_eq {h : List Byte} (hl : h.length = 32) :
    hdrValid h = decide (leNat (slice h 0x1E 0x20) = (hdrCrc h).toNat) :=
  stored16_beq (by omega) _

theorem p2Valid_eq {q : List Byte} (hl : q.length = 64) :
    p2Valid q = decide (leNat (slice q 0 2) = (c4Of q).toNat) :=
  stored16_beq (by omega) _

/-- R228: the mask holds the mismatch of checksum 1, 2 and 3 from the low bit up. -/
theorem p1Mask_eq {p : List Byte} (hl : p.length = 112) :
    p1Mask p = BitVec.ofBool (decide (leNat (slice p 0x0A 0x0C) ≠ (c3Of p).toNat)) ++
      BitVec.ofBool (decide (leNat (slice p 0x0C 0x0E) ≠ (c2Of p).toNat)) ++
      BitVec.ofBool (decide (leNat (slice p 0x0E 0x10) ≠ (c1Of p).toNat)) := by
  rw [p1Mask, stored16_bne (by omega), stored16_bne (by omega), stored16_bne (by omega)]

/-- A mask of three bits is 0 when each of them is. -/
theorem mask_beq_zero (a b c : Bool) :
    ((BitVec.ofBool a ++ BitVec.ofBool b ++ BitVec.ofBool c : BitVec 3) == 0) = (!c && !b && !a) := by
  cases a <;> cases b <;> cases c <;> rfl

theorem p1Valid_eq {p : List Byte} (hl : p.length = 112) :
    p1Valid p = (!decide (leNat (slice p 0x0E 0x10) ≠ (c1Of p).toNat) &&
      !decide (leNat (slice p 0x0C 0x0E) ≠ (c2Of p).toNat) &&
      !decide (leNat (slice p 0x0A 0x0C) ≠ (c3Of p).toNat)) := by
  rw [p1Valid, p1Mask_eq hl]
  exact mask_beq_zero _ _ _

/-- R252: RES1 of P1_CHECK. -/
theorem mask_append_toNat (a b c : Bool) (x : BitVec 16) :
    0#13 ++ (BitVec.ofBool a ++ BitVec.ofBool b ++ BitVec.ofBool c) ++ x =
      (BitVec.ofNat 32 (x.toNat + 2 ^ 16 * (c.toNat + 2 * b.toNat + 4 * a.toNat)) : Word) := by
  apply BitVec.eq_of_toNat_eq
  have hx := x.isLt
  simp only [toNat_append, BitVec.toNat_ofNat, BitVec.toNat_ofBool]
  cases a <;> cases b <;> cases c <;> simp only [Bool.toNat_true, Bool.toNat_false] <;> omega

theorem append_eq_ofNat (x y : BitVec 16) :
    (x ++ y : Word) = BitVec.ofNat 32 (y.toNat + 2 ^ 16 * x.toNat) := by
  apply BitVec.eq_of_toNat_eq
  have hx := x.isLt
  have hy := y.isLt
  rw [toNat_append, BitVec.toNat_ofNat]
  omega

theorem exec_hdrCheck (s : State) :
    exec .hdrCheck s = .next { s with
      res0 := BitVec.ofNat 32 (hdrCrc (s.buf .hdr)).toNat
      res1 := BitVec.ofNat 32 (leNat (slice (s.buf .hdr) 0x1E 0x20))
      err := if leNat (slice (s.buf .hdr) 0x1E 0x20) = (hdrCrc (s.buf .hdr)).toNat then .ok
        else .hdrChecksum
      done := true, phase := .idle } := by
  have hl : (s.buf .hdr).length = 32 := length_buf s .hdr
  simp only [exec, execHdrCheck, hdrValid_eq hl, setWidth_eq_ofNat, toNat_stored16 _ 0x1E hl.ge,
    decide_eq_true_eq]
  rfl

theorem exec_p2Check (s : State) :
    exec .p2Check s = .next { s with
      res0 := BitVec.ofNat 32 (c4Of (s.buf .p2)).toNat
      res1 := BitVec.ofNat 32 (leNat (slice (s.buf .p2) 0 2))
      err := if leNat (slice (s.buf .p2) 0 2) = (c4Of (s.buf .p2)).toNat then .ok else .p2Checksum
      done := true, phase := .idle } := by
  have hl : (s.buf .p2).length = 64 := length_buf s .p2
  simp only [exec, execP2Check, p2Valid_eq hl, setWidth_eq_ofNat,
    toNat_stored16 (s.buf .p2) 0 (by omega), decide_eq_true_eq]
  rfl

/-- The code by which a check of three mismatches ends. -/
theorem code_of_mismatches (a b c : Bool) (e e' : ErrCode) :
    (if (!a && !b && !c) = true then e else e') = if (a || b || c) = true then e' else e := by
  cases a <;> cases b <;> cases c <;> rfl

/-- Settles O31: a stored checksum compares as its LE value, and the reports are the concatenations read
as numbers. -/
theorem checksumCheckResults : Obligations.ChecksumCheckResults := by
  intro s h p q hc c1 c2 c3 c4 bad1 bad2 bad3
  have hp : p.length = 112 := length_buf s .p1
  refine ⟨hdrValid_eq (length_buf s .hdr), p1Valid_eq hp, p2Valid_eq (length_buf s .p2),
    exec_hdrCheck s, ?_, exec_p2Check s⟩
  have hvalid : p1Valid p = (!bad1 && !bad2 && !bad3) := p1Valid_eq hp
  have hmask : 0#13 ++ p1Mask p ++ c3Of p =
      BitVec.ofNat 32 (c3.toNat + 2 ^ 16 * (bad1.toNat + 2 * bad2.toNat + 4 * bad3.toNat)) := by
    rw [p1Mask_eq hp]
    exact mask_append_toNat _ _ _ _
  have hpair : (c2Of p ++ c1Of p : Word) = BitVec.ofNat 32 (c1.toNat + 2 ^ 16 * c2.toNat) :=
    append_eq_ofNat _ _
  rw [exec_p1Check, hmask, hpair, hvalid, code_of_mismatches]
  rfl

/-! The seals. -/

/-- R251. -/
theorem exec_hdrSeal (s : State) : exec .hdrSeal s =
    .next (finish .ok (s.sealHdr.withRes0 ((hdrCrc (s.buf .hdr)).setWidth 32))) := rfl

/-- R253: the values reported are those stored. -/
theorem exec_p1Seal (s : State) : exec .p1Seal s = .next (finish .ok
    ((s.sealP1.withRes0 (stored16 (p1Sealed (s.buf .p1)) 0x0C ++
      stored16 (p1Sealed (s.buf .p1)) 0x0E)).withRes1
      ((stored16 (p1Sealed (s.buf .p1)) 0x0A).setWidth 32))) := rfl

/-- R255. -/
theorem exec_p2Seal (s : State) : exec .p2Seal s =
    .next (finish .ok (s.sealP2.withRes0 ((c4Of (s.buf .p2)).setWidth 32))) := rfl

theorem toNat_setWidth_word (x : BitVec 16) : (x.setWidth 32 : Word).toNat = x.toNat :=
  BitVec.toNat_setWidth_of_le (by decide)

theorem SameBytesBut.congr {s t u : State} {lo n : Nat} (h : SameBytesBut s t lo n)
    (hm : u.mem = t.mem) : SameBytesBut s u lo n := by
  rw [SameBytesBut, byte_of_mem_eq hm]
  exact h

/-- What a command leaves that writes a buffer and RES0. -/
theorem frame_of_write_res0 {s t : State} {b : Buffer} {bs : List Byte} {v : Word}
    (ht : t = finish .ok ((s.bufWrite b 0 bs).withRes0 v)) :
    t = { s with mem := t.mem, res0 := t.res0, err := .ok, done := true, phase := .idle } := by
  rw [ht]
  rfl

/-- What a command leaves that writes a buffer, RES0 and RES1. -/
theorem frame_of_write_res {s t : State} {b : Buffer} {bs : List Byte} {v0 v1 : Word}
    (ht : t = finish .ok (((s.bufWrite b 0 bs).withRes0 v0).withRes1 v1)) :
    t = { s with
      mem := t.mem, res0 := t.res0, res1 := t.res1, err := .ok, done := true, phase := .idle } := by
  rw [ht]
  rfl

/-- Settles O32: each seal's buffer is known from the laws of the seals, and a stored checksum's LE value
is that of the 16 bits stored. -/
theorem sealResults : Obligations.SealResults := by
  intro s
  have hh : (s.buf .hdr).length = 32 := length_buf s .hdr
  have hp : (s.buf .p1).length = 112 := length_buf s .p1
  have hq : (s.buf .p2).length = 64 := length_buf s .p2
  have hh' := length_hdrSealed _ hh
  have hp' := length_p1Sealed _ hp
  have hq' := length_p2Sealed _ hq
  refine ⟨?hdr, ?p1, ?p2⟩
  case hdr =>
    refine ⟨_, exec_hdrSeal s, frame_of_write_res0 rfl,
      (sealHdr_sameBytesBut s).congr (by rw [finish_mem, withRes0_mem]), ?_⟩
    simp only [finish_buf, withRes0_buf, sealHdr_buf, finish_res0, withRes0_res0,
      ← toNat_stored16 _ 0x1E hh'.ge, stored16_hdrSealed _ hh, toNat_setWidth_word]
    exact ⟨rfl, trivial⟩
  case p1 =>
    refine ⟨_, exec_p1Seal s, frame_of_write_res rfl,
      (sealP1_sameBytesBut s).congr (by rw [finish_mem, withRes1_mem, withRes0_mem]), ?_⟩
    simp only [finish_buf, withRes1_buf, withRes0_buf, sealP1_buf, finish_res0, withRes1_res0,
      withRes0_res0, finish_res1, withRes1_res1, toNat_append, toNat_setWidth_word,
      ← toNat_stored16 _ 0x0A (show 0x0A + 2 ≤ (p1Sealed (s.buf .p1)).length by omega),
      ← toNat_stored16 _ 0x0C (show 0x0C + 2 ≤ (p1Sealed (s.buf .p1)).length by omega),
      ← toNat_stored16 _ 0x0E (show 0x0E + 2 ≤ (p1Sealed (s.buf .p1)).length by omega)]
    refine ⟨?_, ?_, ?_, Nat.add_comm _ _, trivial⟩
    · rw [stored16_p1Sealed_csum3 _ hp, c3Of]
    · rw [stored16_p1Sealed_csum2 _ hp, c2Of]
    · rw [stored16_p1Sealed_csum1 _ hp, c1Of]
  case p2 =>
    refine ⟨_, exec_p2Seal s, frame_of_write_res0 rfl,
      (sealP2_sameBytesBut s).congr (by rw [finish_mem, withRes0_mem]), ?_⟩
    simp only [finish_buf, withRes0_buf, sealP2_buf, finish_res0, withRes0_res0,
      ← toNat_stored16 (p2Sealed (s.buf .p2)) 0 (by omega), stored16_p2Sealed _ hq,
      toNat_setWidth_word]
    exact ⟨rfl, trivial⟩

/-- The three checksums stored in a sealed part 1 are those of its bytes. -/
theorem stored16_p1Sealed {p : List Byte} (hl : p.length = 112) :
    stored16 (p1Sealed p) 0x0A = c3Of (p1Sealed p) ∧
      stored16 (p1Sealed p) 0x0C = c2Of (p1Sealed p) ∧
      stored16 (p1Sealed p) 0x0E = c1Of (p1Sealed p) :=
  ⟨(stored16_p1Sealed_csum3 p hl).trans (c3Of_p1Sealed p hl).symm,
    (stored16_p1Sealed_csum2 p hl).trans (c2Of_p1Sealed p hl).symm, stored16_p1Sealed_csum1 p hl⟩

/-- R252: RES1 of P1_CHECK without a mismatch. -/
theorem zero_mask_append (x : BitVec 16) : (0#13 ++ 0#3 ++ x : Word) = x.setWidth 32 :=
  BitVec.eq_of_toNat_eq (by rw [toNat_append, toNat_setWidth_word]; simp)

/-- Settles O33: what a seal leaves is valid, and the check computes the values that it stored. -/
theorem sealThenCheckPasses : Obligations.SealThenCheckPasses := by
  refine ⟨fun s t h => ?_, fun s t h => ?_, fun s t h => ?_⟩
  · have hl : (s.buf .hdr).length = 32 := length_buf s .hdr
    obtain rfl := Host.Outcome.next.inj ((exec_hdrSeal s).symm.trans h)
    refine ⟨_, rfl, ?_⟩
    simp only [finish_err, finish_res0, finish_res1, withRes1_res1, withRes1_res0, withRes0_res0,
      finish_buf, withRes0_buf, sealHdr_buf, hdrValid_hdrSealed _ hl, hdrCrc_hdrSealed _ hl,
      stored16_hdrSealed _ hl, if_true, and_self]
  · have hl : (s.buf .p1).length = 112 := length_buf s .p1
    obtain rfl := Host.Outcome.next.inj ((exec_p1Seal s).symm.trans h)
    refine ⟨_, exec_p1Check _, ?_⟩
    simp only [finish_err, finish_res0, finish_res1, withRes1_res1, withRes1_res0, withRes0_res0,
      finish_buf, withRes1_buf, withRes0_buf, sealP1_buf, p1Valid_p1Sealed _ hl, if_true, true_and]
    have hmask : p1Mask (p1Sealed (s.buf .p1)) = 0#3 := by
      simpa [p1Valid] using p1Valid_p1Sealed _ hl
    obtain ⟨h3, h2, h1⟩ := stored16_p1Sealed hl
    rw [hmask, h3, h2, h1, zero_mask_append]
    exact ⟨rfl, rfl⟩
  · have hl : (s.buf .p2).length = 64 := length_buf s .p2
    obtain rfl := Host.Outcome.next.inj ((exec_p2Seal s).symm.trans h)
    refine ⟨_, rfl, ?_⟩
    simp only [finish_err, finish_res0, finish_res1, withRes1_res1, withRes1_res0, withRes0_res0,
      finish_buf, withRes0_buf, sealP2_buf, p2Valid_p2Sealed _ hl, c4Of_p2Sealed _ hl,
      stored16_p2Sealed _ hl, if_true, and_self]

end Sys2Proof.Machine

/-! A seal of what is sealed (spec/42_codec.md R251, R253, R255). -/

namespace Sys2Proof.Machine

/-- A string put where it already stands. -/
theorem splice_self {s t : List Byte} {i : Nat} (h : i + t.length ≤ s.length)
    (ht : slice s i (i + t.length) = t) : splice s i t = s := by
  apply List.ext_getElem?
  intro k
  rw [getElem?_splice s t i k h]
  split
  · next hk =>
    conv_lhs => rw [← ht]
    rw [slice, List.getElem?_take, List.getElem?_drop, if_pos (by omega), Nat.add_sub_cancel' hk.1]
  · rfl

/-- A stored value stored again. -/
theorem store16_self {p : List Byte} {i : Nat} {v : BitVec 16} (h : i + 2 ≤ p.length)
    (hv : stored16 p i = v) : store16 p i v = p := by
  refine splice_self (by rwa [length_leBytes]) ?_
  have hlen : (slice p i (i + 2)).length = 2 := by rw [length_slice]; omega
  have hbytes := leBytes_leNat (slice p i (i + 2))
  rw [hlen] at hbytes
  rw [length_leBytes, ← hv, toNat_stored16 p i h, hbytes]

theorem hdrSealed_hdrSealed {h : List Byte} (hl : h.length = 32) :
    hdrSealed (hdrSealed h) = hdrSealed h :=
  store16_self (by rw [length_hdrSealed h hl])
    ((stored16_hdrSealed h hl).trans (hdrCrc_hdrSealed h hl).symm)

theorem p2Sealed_p2Sealed {q : List Byte} (hl : q.length = 64) :
    p2Sealed (p2Sealed q) = p2Sealed q :=
  store16_self (by rw [length_p2Sealed q hl]; decide)
    ((stored16_p2Sealed q hl).trans (c4Of_p2Sealed q hl).symm)

theorem p1Sealed_p1Sealed {p : List Byte} (hl : p.length = 112) :
    p1Sealed (p1Sealed p) = p1Sealed p := by
  have hl' := length_p1Sealed p hl
  obtain ⟨h3, h2, h1⟩ := stored16_p1Sealed hl
  conv_lhs => rw [p1Sealed]
  rw [store16_self (by omega) h3, store16_self (by omega) h2, store16_self (by omega) h1]

/-- A buffer written with what it holds. -/
theorem sameBytes_bufWrite_self (s : State) (b : Buffer) (hb : b.rom = false) {bs : List Byte}
    (h : bs = s.buf b) : SameBytes s (s.bufWrite b 0 bs) := by
  intro a
  have hsame := sameBytesBut_bufWrite s b hb bs (by rw [h, length_buf]) 0 0 (fun k _ => by rw [h])
  exact hsame a (by omega)

theorem SameBytes.congr {s t u : State} (h : SameBytes s t) (hm : u.mem = t.mem) : SameBytes s u := by
  rw [SameBytes, byte_of_mem_eq hm]
  exact h

/-- A seal of a sealed header that reports its stored checksum already. -/
theorem exec_hdrSeal_again {t : State} (hsealed : hdrSealed (t.buf .hdr) = t.buf .hdr)
    (hres0 : t.res0 = (hdrCrc (t.buf .hdr)).setWidth 32) :
    ∃ u, exec .hdrSeal t = .next u ∧ SameBytes t u ∧ u.res0 = t.res0 ∧ u.res1 = t.res1 ∧
      u.err = .ok := by
  refine ⟨_, exec_hdrSeal t, ?_, ?_, ?_, finish_err _ _⟩
  · exact (sameBytes_bufWrite_self t .hdr rfl hsealed).congr
      (by rw [finish_mem, withRes0_mem, State.sealHdr])
  · rw [finish_res0, withRes0_res0, hres0]
  · rw [finish_res1, withRes0_res1, sealHdr_res1]

theorem exec_p1Seal_again {t : State} (hsealed : p1Sealed (t.buf .p1) = t.buf .p1)
    (hres0 : t.res0 = stored16 (t.buf .p1) 0x0C ++ stored16 (t.buf .p1) 0x0E)
    (hres1 : t.res1 = (stored16 (t.buf .p1) 0x0A).setWidth 32) :
    ∃ u, exec .p1Seal t = .next u ∧ SameBytes t u ∧ u.res0 = t.res0 ∧ u.res1 = t.res1 ∧
      u.err = .ok := by
  refine ⟨_, exec_p1Seal t, ?_, ?_, ?_, finish_err _ _⟩
  · exact (sameBytes_bufWrite_self t .p1 rfl hsealed).congr
      (by rw [finish_mem, withRes1_mem, withRes0_mem, State.sealP1])
  · rw [finish_res0, withRes1_res0, withRes0_res0, hsealed, hres0]
  · rw [finish_res1, withRes1_res1, hsealed, hres1]

theorem exec_p2Seal_again {t : State} (hsealed : p2Sealed (t.buf .p2) = t.buf .p2)
    (hres0 : t.res0 = (c4Of (t.buf .p2)).setWidth 32) :
    ∃ u, exec .p2Seal t = .next u ∧ SameBytes t u ∧ u.res0 = t.res0 ∧ u.res1 = t.res1 ∧
      u.err = .ok := by
  refine ⟨_, exec_p2Seal t, ?_, ?_, ?_, finish_err _ _⟩
  · exact (sameBytes_bufWrite_self t .p2 rfl hsealed).congr
      (by rw [finish_mem, withRes0_mem, State.sealP2])
  · rw [finish_res0, withRes0_res0, hres0]
  · rw [finish_res1, withRes0_res1, sealP2_res1]

/-- Settles O34: the second seal stores the checksums that stand there. -/
theorem sealIsIdempotent : Obligations.SealIsIdempotent := by
  rintro i s t (rfl | rfl | rfl) h
  · have hl : (s.buf .hdr).length = 32 := length_buf s .hdr
    have ht := Host.Outcome.next.inj (h.symm.trans (exec_hdrSeal s))
    have hbuf : t.buf .hdr = hdrSealed (s.buf .hdr) := by
      rw [ht, finish_buf, withRes0_buf, sealHdr_buf]
    have hres0 : t.res0 = (hdrCrc (s.buf .hdr)).setWidth 32 := by rw [ht, finish_res0, withRes0_res0]
    exact exec_hdrSeal_again (by rw [hbuf, hdrSealed_hdrSealed hl])
      (by rw [hbuf, hdrCrc_hdrSealed _ hl, hres0])
  · have hl : (s.buf .p1).length = 112 := length_buf s .p1
    have ht := Host.Outcome.next.inj (h.symm.trans (exec_p1Seal s))
    have hbuf : t.buf .p1 = p1Sealed (s.buf .p1) := by
      rw [ht, finish_buf, withRes1_buf, withRes0_buf, sealP1_buf]
    have hres0 : t.res0 = stored16 (p1Sealed (s.buf .p1)) 0x0C ++
        stored16 (p1Sealed (s.buf .p1)) 0x0E := by
      rw [ht, finish_res0, withRes1_res0, withRes0_res0]
    have hres1 : t.res1 = (stored16 (p1Sealed (s.buf .p1)) 0x0A).setWidth 32 := by
      rw [ht, finish_res1, withRes1_res1]
    exact exec_p1Seal_again (by rw [hbuf, p1Sealed_p1Sealed hl]) (by rw [hbuf, hres0])
      (by rw [hbuf, hres1])
  · have hl : (s.buf .p2).length = 64 := length_buf s .p2
    have ht := Host.Outcome.next.inj (h.symm.trans (exec_p2Seal s))
    have hbuf : t.buf .p2 = p2Sealed (s.buf .p2) := by
      rw [ht, finish_buf, withRes0_buf, sealP2_buf]
    have hres0 : t.res0 = (c4Of (s.buf .p2)).setWidth 32 := by rw [ht, finish_res0, withRes0_res0]
    exact exec_p2Seal_again (by rw [hbuf, p2Sealed_p2Sealed hl])
      (by rw [hbuf, c4Of_p2Sealed _ hl, hres0])

end Sys2Proof.Machine

/-! The field table and the field and bit commands (spec/42_codec.md R235 to R244). -/

namespace Sys2Proof.Machine

/-- Settles O35: the table is finite, and each clause is computed from its rows. -/
theorem fieldTableShape : Obligations.FieldTableShape := by
  refine ⟨by decide +kernel, by decide, by decide, by decide, by decide, ?_, by decide +kernel,
    by decide +kernel⟩
  intro fid
  rw [fieldRow, List.find?_eq_none]
  simp only [fieldTable, headerFields, part1FieldsLow, part1FieldsHigh, part2Fields,
    List.cons_append, List.nil_append, List.forall_mem_cons, List.not_mem_nil, false_implies,
    implies_true, and_true, beq_iff_eq]
  bv_omega

theorem fieldOperand_of_row {fid bit : Byte} {r : FieldRow} (h : fieldRow fid = some r)
    (hb : bit = 0) : fieldOperand fid bit = some r := fieldOperand_eq_some.mpr ⟨h, hb⟩

theorem fieldOperand_eq_none {fid bit : Byte} (h : fieldRow fid = none ∨ bit ≠ 0) :
    fieldOperand fid bit = none := by
  rw [Option.eq_none_iff_forall_ne_some]
  intro r hr
  obtain ⟨hfid, hbit⟩ := fieldOperand_eq_some.mp hr
  rcases h with h | h
  · rw [h] at hfid
    cases hfid
  · exact h hbit

/-- FIELD_GET of a defined field (R240). -/
theorem exec_fieldGet {fid bit : Byte} {r : FieldRow} (h : fieldRow fid = some r) (hb : bit = 0)
    (s : State) : exec (.fieldGet fid bit) s =
      .next (finish .ok (s.withFval (BitVec.ofNat 64 (leNat (s.fieldBytes r))))) := by
  simp only [exec, execFieldGet, fieldOperand_of_row h hb]

/-- R236: the bytes of a field as a slice of its buffer. -/
theorem fieldBytes_eq_slice (s : State) {r : FieldRow} (h : r.off + r.width ≤ r.buf.size) :
    s.fieldBytes r = slice (s.buf r.buf) r.off (r.off + r.width) := by
  rw [slice_buf s r.buf _ _ h, Nat.add_sub_cancel_left, State.fieldBytes]

theorem exec_field_badArg {fid bit : Byte} (h : fieldRow fid = none ∨ bit ≠ 0) (s : State) :
    exec (.fieldGet fid bit) s = .next (finish .badArg s) ∧
      exec (.fieldPut fid bit) s = .next (finish .badArg s) := by
  simp only [exec, execFieldGet, execFieldPut, fieldOperand_eq_none h, and_self]

/-- Settles O36: the operand is the row, or there is none. -/
theorem fieldGetResult : Obligations.FieldGetResult := by
  intro s fid bit
  refine ⟨fun r hr hb => ?_, fun h => (exec_field_badArg h s).1⟩
  obtain ⟨_, _, _, hsize⟩ := fieldRow_bounds fid r hr
  rw [exec_fieldGet hr hb, fieldBytes_eq_slice s hsize]
  rfl

/-- FIELD_PUT of a value that fits (R241). -/
theorem exec_fieldPut {fid bit : Byte} {r : FieldRow} {s : State} (h : fieldRow fid = some r)
    (hb : bit = 0) (hv : s.fval.toNat < 2 ^ (8 * r.width)) :
    exec (.fieldPut fid bit) s =
      .next (finish .ok (s.bufWrite r.buf r.off (leBytes r.width s.fval.toNat))) := by
  have hv' : s.fval.toNat < 256 ^ r.width := by rwa [show (256 : Nat) = 2 ^ 8 by rfl, ← pow_mul]
  simp only [exec, execFieldPut, fieldOperand_of_row h hb, if_pos hv']

theorem exec_fieldPut_badArg {fid bit : Byte} {r : FieldRow} {s : State} (h : fieldRow fid = some r)
    (hb : bit = 0) (hv : 2 ^ (8 * r.width) ≤ s.fval.toNat) :
    exec (.fieldPut fid bit) s = .next (finish .badArg s) := by
  have hv' : ¬ s.fval.toNat < 256 ^ r.width := by
    rwa [show (256 : Nat) = 2 ^ 8 by rfl, ← pow_mul, not_lt]
  simp only [exec, execFieldPut, fieldOperand_of_row h hb, if_neg hv']

/-- R241: FIELD_PUT stores the value in the field's bytes, and nothing elsewhere. -/
theorem fieldPut_stores {fid : Byte} {r : FieldRow} {s : State} (h : fieldRow fid = some r)
    (hv : s.fval.toNat < 2 ^ (8 * r.width)) :
    SameBytesBut s (s.bufWrite r.buf r.off (leBytes r.width s.fval.toNat)) (r.buf.base + r.off)
        r.width ∧
      (s.bufWrite r.buf r.off (leBytes r.width s.fval.toNat)).fieldValue r = s.fval.toNat := by
  obtain ⟨hrom, _, _, hsize⟩ := fieldRow_bounds fid r h
  constructor
  · intro a ha
    exact byte_bufWrite_outside _ _ _ _ _ (by rwa [length_leBytes])
  · have hread := memRead_memWrite_same s hrom (a := r.buf.base + r.off)
      (bs := leBytes r.width s.fval.toNat) (by omega) (by rw [length_leBytes]; omega)
    rw [length_leBytes] at hread
    rw [State.fieldValue, State.fieldBytes, State.bufWrite, hread, leNat_leBytes,
      show (256 : Nat) = 2 ^ 8 by rfl, ← pow_mul, Nat.mod_eq_of_lt hv]

/-- Settles O37: by what the operand is and whether the value fits. -/
theorem fieldPutResult : Obligations.FieldPutResult := by
  intro s fid bit
  refine ⟨fun r hr hb hv => ?_, fun r hr hb hv => exec_fieldPut_badArg hr hb hv,
    fun h => (exec_field_badArg h s).2⟩
  obtain ⟨hframe, hval⟩ := fieldPut_stores hr hv
  exact ⟨_, exec_fieldPut hr hb hv, completedWithMem_bufWrite _ _ _ _ _, hframe, hval⟩

/-- R260: three seals in a row touch their checksum bytes only. -/
theorem seals_frame (s : State) :
    ∃ t u v, exec .hdrSeal s = .next t ∧ exec .p1Seal t = .next u ∧ exec .p2Seal u = .next v ∧
      ∀ a, ¬ (0x11E ≤ a ∧ a < 0x120) → ¬ (0x18A ≤ a ∧ a < 0x190) → ¬ (0x200 ≤ a ∧ a < 0x202) →
        v.byte a = s.byte a := by
  obtain ⟨⟨t, ht, _, hframe, _⟩, _, _⟩ := sealResults s
  obtain ⟨_, ⟨u, hu, _, hframe', _⟩, _⟩ := sealResults t
  obtain ⟨_, _, ⟨v, hv, _, hframe'', _⟩⟩ := sealResults u
  refine ⟨t, u, v, ht, hu, hv, fun a h1 h2 h3 => ?_⟩
  rw [hframe'' a (by omega), hframe' a (by omega), hframe a (by omega)]

/-- Settles O38: the get reads the bytes that the put wrote, which FVAL is no part of. -/
theorem fieldRoundTrip : Obligations.FieldRoundTrip := by
  refine ⟨fun s fid r hr hv => ?_, seals_frame⟩
  obtain ⟨hframe, hval⟩ := fieldPut_stores hr hv
  refine ⟨_, exec_fieldPut hr rfl hv, hframe, fun x => ⟨_, exec_fieldGet hr rfl _, rfl, ?_⟩⟩
  rw [finish_fval, withFval_fval]
  exact (congrArg (BitVec.ofNat 64) hval).trans (by rw [BitVec.ofNat_toNat, BitVec.setWidth_eq])

end Sys2Proof.Machine

/-! The bit commands (spec/42_codec.md R234, R242 to R244). -/

namespace Sys2Proof.Machine

/-- R234: bit j of an LE value is bit j mod 8 of byte j div 8. -/
theorem testBit_leNat (s : List Byte) (j : Nat) :
    (leNat s).testBit j = (byteAt s (j / 8)).getLsbD (j % 8) := by
  induction s generalizing j with
  | nil => simp [leNat, byteAt]
  | cons b t ih =>
    rw [leNat, Nat.add_comm, show (256 : Nat) = 2 ^ 8 by rfl,
      Nat.testBit_two_pow_mul_add _ b.isLt]
    split
    · next hj => simp [byteAt, Nat.div_eq_of_lt hj, Nat.mod_eq_of_lt hj, BitVec.testBit_toNat]
    · next hj =>
      rw [ih, show j / 8 = (j - 8) / 8 + 1 by omega, show j % 8 = (j - 8) % 8 by omega]
      simp [byteAt]

/-- R243, R244: the bit put, and every other bit of the byte. -/
theorem getLsbD_putBit (b : Byte) {i j : Nat} (hi : i < 8) (hj : j < 8) (v : Bool) :
    (putBit b i v).getLsbD j = if j = i then v else b.getLsbD j := by
  have hone : (1#8 <<< i).getLsbD j = decide (j = i) := by
    simp only [BitVec.getLsbD_shiftLeft, BitVec.getLsbD_one]
    by_cases h : j = i
    · simp [h, hi]
    · simp [h]
      omega
  cases v <;>
    (simp only [putBit, if_true, Bool.false_eq_true, if_false, BitVec.getLsbD_or, BitVec.getLsbD_and,
      BitVec.getLsbD_not, hone, hj, decide_true, Bool.true_and]
     by_cases h : j = i <;> simp [h])

/-- Byte k of a field. -/
theorem byteAt_fieldBytes (s : State) (r : FieldRow) {k : Nat} (hk : k < r.width) :
    byteAt (s.fieldBytes r) k = s.byte (r.buf.base + r.off + k) := by
  rw [byteAt_eq, State.fieldBytes, getElem?_memRead, if_pos hk, Option.getD_some]

theorem byteAt_fieldBytes_of_le (s : State) (r : FieldRow) {k : Nat} (hk : r.width ≤ k) :
    byteAt (s.fieldBytes r) k = 0 := by
  rw [byteAt_eq, State.fieldBytes, getElem?_memRead, if_neg (by omega), Option.getD_none]

/-- The byte that holds bit `bit` of a field. -/
theorem bufByte_of_bit (s : State) (r : FieldRow) {bit : Nat} (h : bit < 8 * r.width) :
    s.bufByte r.buf (r.off + bit / 8) = byteAt (s.fieldBytes r) (bit / 8) := by
  rw [byteAt_fieldBytes s r (by omega), State.bufByte, Nat.add_assoc]

theorem bitOperand_of_row {fid bit : Byte} {r : FieldRow} (h : fieldRow fid = some r)
    (hb : bit.toNat < 8 * r.width) : bitOperand fid bit = some r := bitOperand_eq_some.mpr ⟨h, hb⟩

theorem bitOperand_eq_none {fid bit : Byte} (h : ∀ r, fieldRow fid = some r → 8 * r.width ≤ bit.toNat) :
    bitOperand fid bit = none := by
  rw [Option.eq_none_iff_forall_ne_some]
  intro r hr
  obtain ⟨hfid, hbit⟩ := bitOperand_eq_some.mp hr
  have := h r hfid
  omega

/-- BIT_GET of a bit of a field (R242). -/
theorem exec_bitGet_of_row {fid bit : Byte} {r : FieldRow} (h : fieldRow fid = some r)
    (hb : bit.toNat < 8 * r.width) (s : State) :
    exec (.bitGet fid bit) s = .next { s with
      res0 := if (s.fieldValue r).testBit bit.toNat then 1 else 0
      err := .ok, done := true, phase := .idle } := by
  simp only [exec, execBitGet, bitOperand_of_row h hb, bufByte_of_bit s r hb, State.fieldValue,
    testBit_leNat]
  cases (byteAt (s.fieldBytes r) (bit.toNat / 8)).getLsbD (bit.toNat % 8) <;> rfl

/-- BIT_SET and BIT_CLR of a bit of a field: its byte is written, with that bit put (R243, R244). -/
theorem bitPut_of_row {fid bit : Byte} {r : FieldRow} (h : fieldRow fid = some r)
    (hb : bit.toNat < 8 * r.width) (v : Bool) (s : State) :
    CompletedWithMem .ok s (bitPut v fid bit s) ∧
      SameBytesBut s (bitPut v fid bit s) (r.buf.base + r.off + bit.toNat / 8) 1 ∧
      ∀ j, ((bitPut v fid bit s).fieldValue r).testBit j =
        if j = bit.toNat then v else (s.fieldValue r).testBit j := by
  obtain ⟨hrom, _, _, hsize⟩ := fieldRow_bounds fid r h
  have hput : bitPut v fid bit s = finish .ok (s.bufWrite r.buf (r.off + bit.toNat / 8)
      [putBit (s.bufByte r.buf (r.off + bit.toNat / 8)) (bit.toNat % 8) v]) := by
    simp only [bitPut, bitOperand_of_row h hb]
  have hframe : SameBytesBut s (bitPut v fid bit s) (r.buf.base + r.off + bit.toNat / 8) 1 := by
    intro a ha
    rw [hput, finish_byte]
    exact byte_bufWrite_outside _ _ _ _ _ (by rw [List.length_singleton]; omega)
  have hbyte : (bitPut v fid bit s).byte (r.buf.base + r.off + bit.toNat / 8) =
      putBit (byteAt (s.fieldBytes r) (bit.toNat / 8)) (bit.toNat % 8) v := by
    have := byte_bufWrite_inside s r.buf hrom (r.off + bit.toNat / 8) 0
      [putBit (s.bufByte r.buf (r.off + bit.toNat / 8)) (bit.toNat % 8) v] (by simp)
      (by rw [List.length_singleton]; omega)
    rw [hput, finish_byte, ← bufByte_of_bit s r hb, Nat.add_assoc]
    exact this
  refine ⟨by rw [hput]; exact completedWithMem_bufWrite _ _ _ _ _, hframe, fun j => ?_⟩
  rw [State.fieldValue, State.fieldValue, testBit_leNat, testBit_leNat]
  by_cases hj : j / 8 < r.width
  · rw [byteAt_fieldBytes _ r hj]
    by_cases hsame : j / 8 = bit.toNat / 8
    · rw [hsame, hbyte, getLsbD_putBit _ (by omega) (by omega)]
      simp only [show (j % 8 = bit.toNat % 8) ↔ j = bit.toNat by omega]
    · rw [hframe _ (by omega), if_neg (by rintro rfl; exact hsame rfl), byteAt_fieldBytes s r hj]
  · rw [byteAt_fieldBytes_of_le _ r (by omega), byteAt_fieldBytes_of_le s r (by omega),
      if_neg (by rintro rfl; omega)]

/-- Settles O39: the three commands read and write one bit of the byte that holds it. -/
theorem bitCommandResults : Obligations.BitCommandResults := by
  intro s fid bit
  refine ⟨fun r hr hb => ⟨exec_bitGet_of_row hr hb s, ?set, ?clr⟩, fun h => ?none⟩
  case set =>
    obtain ⟨hdone, hframe, hbits⟩ := bitPut_of_row hr hb true s
    refine ⟨_, rfl, hdone, hframe, fun j => ?_⟩
    rw [hbits]
    by_cases hj : j = bit.toNat <;> simp [hj]
  case clr =>
    obtain ⟨hdone, hframe, hbits⟩ := bitPut_of_row hr hb false s
    refine ⟨_, rfl, hdone, hframe, fun j => ?_⟩
    rw [hbits]
    by_cases hj : j = bit.toNat <;> simp [hj]
  case none =>
    have hnone := bitOperand_eq_none h
    simp only [exec, execBitGet, execBitSet, execBitClr, bitPut, hnone]
    exact ⟨rfl, rfl, rfl⟩

end Sys2Proof.Machine

/-! The nickname commands (spec/42_codec.md R237, R246, R247). -/

namespace Sys2Proof.Machine

/-- R246: the length of a name as its defining property. -/
theorem nameLength_eq {l : List Byte} {n : Nat} (hn : n ≤ l.length) (hlow : ∀ k < n, byteAt l k ≠ 0)
    (hend : n < l.length → byteAt l n = 0) : nameLength l = n := by
  induction l generalizing n with
  | nil =>
    rw [nameLength]
    exact (Nat.le_zero.mp hn).symm
  | cons c t ih =>
    rw [nameLength]
    cases n with
    | zero => exact if_pos (hend (by simp))
    | succ n =>
      have hc : c ≠ 0 := hlow 0 (by omega)
      rw [if_neg hc, ih (Nat.le_of_succ_le_succ hn)
        (fun k hk => hlow (k + 1) (by omega)) (fun hlt => hend (by simpa using hlt))]

theorem byteAt_map_range (f : Nat → Byte) {m k : Nat} (hk : k < m) :
    byteAt ((List.range m).map f) k = f k := by
  rw [byteAt_eq, List.getElem?_map, List.getElem?_range hk, Option.map_some, Option.getD_some]

theorem nameLength_of_isNameLength {f : Nat → Byte} {n : Nat} (h : IsNameLength f n) {l : List Byte}
    (hl : l.length = 16) (hf : ∀ k < 16, byteAt l k = f k) : nameLength l = n := by
  obtain ⟨hle, hlow, hend⟩ := h
  refine nameLength_eq (by omega) (fun k hk => ?_) fun hlt => ?_
  · rw [hf k (by omega)]
    exact hlow k hk
  · rw [hf n (by omega)]
    exact hend (by omega)

theorem length_nickChars (s : State) : s.nickChars.length = 16 := by simp [State.nickChars]

/-- R237: character k of the nickname field. -/
theorem byteAt_nickChars (s : State) {k : Nat} (hk : k < 16) :
    byteAt s.nickChars k = s.byte (0x1A0 + 2 * k) := by
  rw [State.nickChars, byteAt_map_range _ hk, State.bufByte, ← Nat.add_assoc]
  rfl

/-- R237: the interleave is broken when an interleaved byte is not 0. -/
theorem nickGaps_any (s : State) :
    (s.nickGaps.any fun b => b != 0) = true ↔ ∃ k < 16, s.byte (0x1A1 + 2 * k) ≠ 0 := by
  have haddr (k : Nat) : s.bufByte .p1 (0x21 + 2 * k) = s.byte (0x1A1 + 2 * k) := by
    rw [State.bufByte, ← Nat.add_assoc]
    rfl
  simp [State.nickGaps, haddr]

/-- Byte k of NAME after it is written. -/
theorem byte_bufWrite_name (s : State) {bs : List Byte} (hl : bs.length = 16) {k : Nat} (hk : k < 16) :
    (s.bufWrite .name 0 bs).byte (0x070 + k) = byteAt bs k := by
  have hk' : k < bs.length := by omega
  rw [byteAt_eq, List.getElem?_eq_getElem hk', Option.getD_some]
  exact byte_bufWrite_inside s .name rfl 0 k bs hk' (by rw [hl]; decide)

/-- Settles O40: NAME is written with the sixteen characters, whose length and interleave are
reported. -/
theorem nickUnpackResult : Obligations.NickUnpackResult := by
  intro s n hn
  have hlen := length_nickChars s
  have hname : nameLength s.nickChars = n :=
    nameLength_of_isNameLength hn hlen fun k hk => byteAt_nickChars s hk
  refine ⟨_, rfl, ?_, fun a ha => ?_, fun k hk => ?_, fun h => ?_, fun h => ?_⟩
  · rw [hname]
    rfl
  · exact byte_bufWrite_outside s .name 0 a _ (by rw [hlen]; exact ha)
  · exact (byte_bufWrite_name s hlen hk).trans (byteAt_nickChars s hk)
  · rw [finish_res1, withRes1_res1, (nickGaps_any s).mpr h]
    rfl
  · have hclean : (s.nickGaps.any fun b => b != 0) = false := by
      rw [Bool.eq_false_iff, ne_eq, nickGaps_any]
      rintro ⟨k, hk, hne⟩
      exact hne (h k hk)
    rw [finish_res1, withRes1_res1, hclean]
    rfl

/-- Bytes laid out in pairs. -/
theorem getElem?_flatMap_pairs (f g : Nat → Byte) (m k : Nat) (hk : k < m) :
    ((List.range m).flatMap fun i => [f i, g i])[2 * k]? = some (f k) ∧
      ((List.range m).flatMap fun i => [f i, g i])[2 * k + 1]? = some (g k) := by
  induction m with
  | zero => omega
  | succ m ih =>
    have hlen : ((List.range m).flatMap fun i => [f i, g i]).length = 2 * m := by
      simp [Nat.mul_comm]
    rw [List.range_succ, List.flatMap_append, List.flatMap_singleton]
    by_cases hkm : k < m
    · rw [List.getElem?_append_left (by omega), List.getElem?_append_left (by omega)]
      exact ih hkm
    · obtain rfl : k = m := by omega
      rw [List.getElem?_append_right (by omega), List.getElem?_append_right (by omega), hlen,
        Nat.sub_self, Nat.add_sub_cancel_left]
      exact ⟨rfl, rfl⟩

theorem length_nickField (name : List Byte) (n : Nat) : (nickField name n).length = 32 := by
  simp [nickField]

/-- R247: the characters and the interleaved zeros of a packed name. -/
theorem byteAt_nickField (name : List Byte) (n : Nat) {k : Nat} (hk : k < 16) :
    byteAt (nickField name n) (2 * k) = (if k < n then byteAt name k else 0) ∧
      byteAt (nickField name n) (2 * k + 1) = 0 := by
  obtain ⟨hchar, hgap⟩ := getElem?_flatMap_pairs (fun k => if k < n then byteAt name k else 0)
    (fun _ => 0) 16 k hk
  constructor
  · rw [byteAt_eq (nickField name n), nickField, hchar]
    rfl
  · rw [byteAt_eq, nickField, hgap]
    rfl

/-- A byte of the nickname field after it is written. -/
theorem byte_bufWrite_nick (s : State) {bs : List Byte} (hl : bs.length = 32) {k : Nat} (hk : k < 32) :
    (s.bufWrite .p1 0x20 bs).byte (0x1A0 + k) = byteAt bs k := by
  have hk' : k < bs.length := by omega
  rw [byteAt_eq, List.getElem?_eq_getElem hk', Option.getD_some]
  exact byte_bufWrite_inside s .p1 rfl 0x20 k bs hk' (by rw [hl]; decide)

theorem byteAt_name (s : State) {k : Nat} (hk : k < 16) : byteAt (s.buf .name) k = s.byte (0x070 + k) :=
  byteAt_buf s .name k hk

/-- NICK_PACK, by the length of the name (R247). -/
theorem exec_nickPack {s : State} {n : Nat} (h : nameLength (s.buf .name) = n) :
    exec .nickPack s = if 14 < n then .next (finish .badArg s)
      else .next (finish .ok ((s.bufWrite .p1 0x20 (nickField (s.buf .name) n)).withRes0
        (BitVec.ofNat 32 n))) := by
  simp only [exec, execNickPack, h]

/-- Settles O41: the nickname field is written with the pairs of a character and a zero. -/
theorem nickPackResult : Obligations.NickPackResult := by
  intro s n hn
  have hname : nameLength (s.buf .name) = n :=
    nameLength_of_isNameLength hn (length_buf s .name) fun k hk => byteAt_name s hk
  have hlen := length_nickField (s.buf .name) n
  refine ⟨fun hle => ⟨_, (exec_nickPack hname).trans (if_neg (by omega)), rfl, fun a ha => ?_,
    fun k hk => ?_, fun k hk => ?_⟩, fun hgt => (exec_nickPack hname).trans (if_pos hgt)⟩
  · exact byte_bufWrite_outside s .p1 0x20 a _ (by rw [hlen]; exact ha)
  · rw [finish_byte, withRes0_byte, byte_bufWrite_nick s hlen (by omega),
      (byteAt_nickField _ n hk).1, byteAt_name s hk]
  · rw [finish_byte, withRes0_byte, show 0x1A1 + 2 * k = 0x1A0 + (2 * k + 1) by omega,
      byte_bufWrite_nick s hlen (by omega), (byteAt_nickField _ n hk).2]

/-- Settles O42: what the pack leaves in the field is a name of the same length with an unbroken
interleave, which the unpack copies. -/
theorem nickRoundTrip : Obligations.NickRoundTrip := by
  intro s n hn hle
  obtain ⟨t, ht, _, _, hchars, hgaps⟩ := (nickPackResult s n hn).1 hle
  have hn' : IsNameLength (fun k => t.byte (0x1A0 + 2 * k)) n := by
    obtain ⟨h16, hlow, hend⟩ := hn
    refine ⟨h16, fun k hk => ?_, fun hlt => ?_⟩
    · show t.byte (0x1A0 + 2 * k) ≠ 0
      rw [hchars k (by omega), if_pos hk]
      exact hlow k hk
    · show t.byte (0x1A0 + 2 * n) = 0
      rw [hchars n hlt, if_neg (by omega)]
  obtain ⟨u, hu, hframe, _, hcopy, _, hclean⟩ := nickUnpackResult t n hn'
  refine ⟨t, u, ht, hu, fun k hk => (hcopy k hk).trans (hchars k hk), ?_, hclean hgaps⟩
  rw [hframe, BitVec.toNat_ofNat]
  omega

end Sys2Proof.Machine

/-! The block map command, the stale region, and how the two port commands begin and fail
(spec/43_arbiter.md R271, R280, R285, R286, R292). -/

namespace Sys2Proof.Machine

/-- Settles O43: an index is in range when it is at most 10. -/
theorem blockMapResult : Obligations.BlockMapResult := by
  intro s index r
  constructor
  · intro h
    have hlegal : indexLegal index = true := decide_eq_true h
    simp only [exec, execBlockMap, hlegal, if_true]
    rfl
  · intro h
    exact exec_of_not_wellFormed (i := .blockMap index r) (decide_eq_false (by omega)) s

/-! The stale region (R285). -/

theorem writeCurrent_eq (sA sB : Byte) :
    writeCurrent sA sB =
      if sA = sB + 1 then .a else if sB = sA + 1 then .b else if sB ≤ sA then .a else .b := by
  simp only [writeCurrent, byte_sub_eq_one_iff, byte_sub_eq_255_iff]

theorem staleRegion_eq_a_iff {sA sB : Byte} : staleRegion sA sB = .a ↔ writeCurrent sA sB = .b := by
  rw [staleRegion]
  cases writeCurrent sA sB <;> simp [otherRegion]

theorem staleRegion_eq_b_iff {sA sB : Byte} : staleRegion sA sB = .b ↔ writeCurrent sA sB = .a := by
  rw [staleRegion]
  cases writeCurrent sA sB <;> simp [otherRegion]

/-- Region A stale: its new byte is one ahead of B's. -/
theorem nextSequence_of_stale_a {sA sB : Byte} (h : staleRegion sA sB = .a) :
    nextSequence sA sB = sB + 1 := by
  rw [nextSequence, staleRegion_eq_a_iff.mp h]

theorem nextSequence_of_stale_b {sA sB : Byte} (h : staleRegion sA sB = .b) :
    nextSequence sA sB = sA + 1 := by
  rw [nextSequence, staleRegion_eq_b_iff.mp h]

/-- A valid copy that is one ahead of the other is selected, whether the other is valid or not. -/
theorem reconcile_ahead_a (s : Byte) (v eq : Bool) : reconcile true (s + 1) v s eq = .fromA := by
  cases v with
  | false => rfl
  | true => exact reconcile_both_eq_fromA.mpr (.inl rfl)

theorem reconcile_ahead_b (s : Byte) (v eq : Bool) : reconcile v s true (s + 1) eq = .fromB := by
  cases v with
  | false => rfl
  | true => exact reconcile_both_eq_fromB.mpr rfl

/-- Settles O47: a copy ahead by 1 is current, and else the greater byte; the new byte of the stale one
is ahead by 1. -/
theorem staleWriteIsSelected : Obligations.StaleWriteIsSelected := by
  refine ⟨by decide, by decide, fun sA sB v eq => ⟨fun h => ?_, fun h => ?_, fun hA hB => ⟨fun h => ?_,
    fun h => ?_⟩, fun h => ?_, fun h => ?_⟩⟩
  · rw [staleRegion_eq_b_iff, writeCurrent_eq, if_pos h]
  · rw [staleRegion_eq_a_iff, writeCurrent_eq, if_neg (ahead_asymm h), if_pos h]
  · rw [staleRegion_eq_b_iff, writeCurrent_eq, if_neg hA, if_neg hB, if_pos (BitVec.le_def.mpr h)]
  · rw [staleRegion_eq_a_iff, writeCurrent_eq, if_neg hA, if_neg hB,
      if_neg (by rw [BitVec.le_def]; omega)]
  · rw [nextSequence_of_stale_a h]
    exact ⟨rfl, reconcile_ahead_a sB v eq⟩
  · rw [nextSequence_of_stale_b h]
    exact ⟨rfl, reconcile_ahead_b sA v eq⟩

/-! The first request (R95, R280, R286). -/

/-- A request for block 0 or 1, with the key of sector 0. -/
theorem issue_sector_zero (w : Word) {n : Nat} (op : PortOp) (pos : Position) (s : State)
    (hg : portGuard n op = true) (hn : n / 4 = 0) :
    issue w n op pos s = { s with phase := .busy w pos (some ⟨n, op, Config.sector0Key⟩) } := by
  rw [issue_of_guard _ _ _ _ _ hg, request_of_sector_zero _ _ hn]

theorem word_writeRecord (rw : Bool) :
    (encode (.writeRecord rw)).word = if rw then 0x00000133 else 0x00000033 := by
  cases rw <;> rfl

theorem exec_readRecord (s : State) :
    exec .readRecord s = .next { s with
      recon := 0, seq := 0
      phase := .busy 0x00000032 .readHdr0 (some ⟨0, .read, Config.sector0Key⟩) } := by
  rw [exec, execReadRecord, issue_sector_zero _ _ _ _ rfl rfl]
  rfl

theorem exec_writeRecord (rw : Bool) (s : State) :
    exec (.writeRecord rw) s = .next { s with
      res0 := 0, res1 := 0, seq := 0
      phase := .busy (if rw then 0x00000133 else 0x00000033) (.wrRefresh0 rw)
        (some ⟨0, .read, Config.sector0Key⟩) } := by
  rw [exec, execWriteRecord, issue_sector_zero _ _ _ _ rfl rfl, word_writeRecord]
  rfl

/-- Settles O48: the result registers are zeroed, and the key of block 0 is K0. -/
theorem portCommandsBegin : Obligations.PortCommandsBegin :=
  fun s rw => ⟨exec_readRecord s, exec_writeRecord rw s⟩

/-! The answers that end a command (R292, R333). -/

section
variable {s : State} {w : Word} {pos : Position} {req : PortRequest} {rest : List Event}

theorem step_lost (hp : s.phase = .busy w pos (some req)) (hi : s.inputs = .answer .lost :: rest) :
    step s = .next (raise .transportLost req.block pos.stage .lost { s with inputs := rest }) := by
  rw [step_of_input (fetch_of_request hp) hi]
  simp only [perform, onAnswer, hp]

theorem step_authFail (hp : s.phase = .busy w pos (some req))
    (hi : s.inputs = .answer .authFail :: rest) :
    step s = .next (onAuthFail w pos req.block { s with inputs := rest }) := by
  rw [step_of_input (fetch_of_request hp) hi]
  simp only [perform, onAnswer, hp]

end

theorem onAuthFail_aborts (w : Word) {pos : Position} (h : pos.abortsOnAuthFail = true) (n : Nat)
    (s : State) : onAuthFail w pos n s = raise .authFailure n pos.stage .authFail s := by
  cases pos
  case accepted | readRegion => cases h
  all_goals rfl

/-- What XSTAT names at a position (R333, R334). -/
theorem xstat_of_position {n : Nat} (hn : n < 64) (pos : Position) (p : PortCause) :
    (xstatWord n pos.stage p).toNat =
      n + 2 ^ 8 * (n / 4) + 2 ^ 12 * pos.stageNumber + 2 ^ 16 * p.code.toNat := by
  rw [xstatWord_toNat hn, stage_code_toNat]

/-- Settles O49: both answers are raised at the position. -/
theorem failedTransactionEndsCommand : Obligations.FailedTransactionEndsCommand := by
  intro s w pos req rest hp hn
  refine ⟨fun hi => ⟨_, step_lost hp hi, rfl, xstat_of_position hn pos .lost⟩, fun hi ha => ?_⟩
  have hstep := step_authFail hp hi
  rw [onAuthFail_aborts w ha] at hstep
  exact ⟨_, hstep, rfl, xstat_of_position hn pos .authFail⟩

end Sys2Proof.Machine

/-! The images of READ_RECORD and what its validation leaves (spec/43_arbiter.md R274, R280 to R282). -/

namespace Sys2Proof.Machine

/-! Images read in part. -/

/-- Blocks read one after the other make up the image up to there. -/
theorem length_flatMap_blocks (f : Nat → Block) (k : Nat) :
    ((List.range k).flatMap fun i => (f i).toList).length = 16 * k := by
  simp [Nat.mul_comm]

theorem length_plainRegion (tag : Memory) (h : List Byte) (r : Region) :
    (plainRegion tag h r).length = 176 := length_flatMap_blocks _ 11

theorem take_flatMap_blocks (f : Nat → Block) {i k : Nat} (h : i ≤ k) :
    ((List.range k).flatMap fun i => (f i).toList).take (16 * i) =
      (List.range i).flatMap fun i => (f i).toList := by
  obtain ⟨j, rfl⟩ := Nat.exists_eq_add_of_le h
  rw [List.range_add, List.flatMap_append]
  exact List.take_left' (length_flatMap_blocks f i)

theorem partialImage_eq (tag : Memory) (h : List Byte) (r : Region) {i : Nat} (hi : i ≤ 11) :
    partialImage tag h r i =
      ((List.range i).flatMap fun k => (plainBlock tag h (regionBlock r k)).toList) ++
        zeros (176 - 16 * i) := by
  rw [partialImage, plainRegion, take_flatMap_blocks (fun k => plainBlock tag h (regionBlock r k)) hi]

theorem partialImage_zero (tag : Memory) (h : List Byte) (r : Region) :
    partialImage tag h r 0 = zeros 176 := by
  rw [partialImage_eq _ _ _ (by omega)]
  rfl

/-- Every block read, the image is the region's. -/
theorem partialImage_full (tag : Memory) (h : List Byte) (r : Region) :
    partialImage tag h r 11 = plainRegion tag h r := by
  rw [partialImage, List.take_of_length_le (by rw [length_plainRegion])]
  exact List.append_nil _

/-- R280: the next block deciphered into the image. -/
theorem splice_partialImage (tag : Memory) (h : List Byte) (r : Region) {i : Nat} (hi : i < 11) :
    splice (partialImage tag h r i) (16 * i) (plainBlock tag h (regionBlock r i)).toList =
      partialImage tag h r (i + 1) := by
  have hlen := length_flatMap_blocks (fun k => plainBlock tag h (regionBlock r k)) i
  rw [partialImage_eq _ _ _ (by omega), partialImage_eq _ _ _ (by omega), splice,
    List.take_left' hlen, List.drop_append, hlen, List.drop_of_length_le (by simp [hlen]),
    List.nil_append, zeros, List.drop_replicate, Vector.length_toList, List.range_succ,
    List.flatMap_append, List.flatMap_singleton]
  congr 2
  omega

/-- A byte of a block that was not read is 00. -/
theorem byteAt_partialImage (tag : Memory) (h : List Byte) (r : Region) {i k : Nat} (hi : i ≤ 11)
    (hk : 16 * i ≤ k) : byteAt (partialImage tag h r i) k = 0 := by
  have hlen := length_flatMap_blocks (fun k => plainBlock tag h (regionBlock r k)) i
  rw [byteAt_eq, partialImage_eq _ _ _ hi, List.getElem?_append_right (by omega), zeros,
    List.getElem?_replicate]
  split <;> rfl

/-! The validation (R280 to R282). -/

theorem selected_eq (s : State) (o : Choice) (i j : Nat) :
    s.selected o i j = chosenBytes o (s.buf .ra) (s.buf .rb) i j := by
  cases o <;> rfl

/-- R280: P1 and P2 hold what the two choices select. -/
theorem loadRecord_buf (s : State) (o1 o2 : Choice) :
    (s.loadRecord o1 o2).buf .p1 = chosenBytes o1 (s.buf .ra) (s.buf .rb) 0 112 ∧
      (s.loadRecord o1 o2).buf .p2 = chosenBytes o2 (s.buf .ra) (s.buf .rb) 112 176 ∧
      ∀ b : Buffer, b ≠ .p1 → b ≠ .p2 → (s.loadRecord o1 o2).buf b = s.buf b := by
  have h1 : (s.selected o1 0 112).length = 112 := length_selected s o1 0 112 (by omega)
  have h2 : (s.selected o2 112 176).length = 64 := length_selected s o2 112 176 (by omega)
  refine ⟨?_, ?_, fun b hb1 hb2 => ?_⟩
  · rw [State.loadRecord, buf_bufWrite_other _ _ _ (by decide) _ _ (by rw [h2]; decide),
      buf_bufWrite_whole _ _ rfl _ h1, selected_eq]
  · rw [State.loadRecord, buf_bufWrite_whole _ _ rfl _ h2, selected_eq]
  · rw [State.loadRecord, buf_bufWrite_other _ _ _ hb2 _ _ (by rw [h2]; decide),
      buf_bufWrite_other _ _ _ hb1 _ _ (by rw [h1]; decide)]

theorem bit_succ_append_ofBool {n : Nat} (x : BitVec n) (b : Bool) (k : Nat) :
    (x ++ BitVec.ofBool b).getLsbD (k + 1) = x.getLsbD k := by
  exact (congrArg (x ++ BitVec.ofBool b).getLsbD (Nat.add_comm k 1)).trans (bit_high _ _ _)

theorem extract_succ_append_ofBool {n : Nat} (x : BitVec n) (b : Bool) (k j : Nat) :
    (x ++ BitVec.ofBool b).extractLsb' (k + 1) j = x.extractLsb' k j := by
  exact (congrArg (BitVec.extractLsb' · j (x ++ BitVec.ofBool b)) (Nat.add_comm k 1)).trans
    (extract_high _ _ _ _)

/-- Two three-bit fields, each below a zero, under the other bits of a word. -/
theorem two_fields {n : Nat} (f : BitVec n) (a b : BitVec 3) :
    (f ++ 0#1 ++ a ++ 0#1 ++ b).extractLsb' 0 4 = b.setWidth 4 ∧
      (f ++ 0#1 ++ a ++ 0#1 ++ b).extractLsb' 4 4 = a.setWidth 4 ∧
      (∀ k, (f ++ 0#1 ++ a ++ 0#1 ++ b).getLsbD (k + 8) = f.getLsbD k) ∧
      ∀ k j, (f ++ 0#1 ++ a ++ 0#1 ++ b).extractLsb' (k + 8) j = f.extractLsb' k j := by
  have hval : (f ++ 0#1 ++ a ++ 0#1 ++ b).toNat = 256 * f.toNat + 16 * a.toNat + b.toNat := by
    simp only [toNat_append, BitVec.toNat_ofNat]
    omega
  refine ⟨?_, ?_, fun k => ?_, fun k j => ?_⟩
  · apply BitVec.eq_of_toNat_eq
    rw [BitVec.extractLsb'_toNat, hval, BitVec.toNat_setWidth]
    omega
  · apply BitVec.eq_of_toNat_eq
    rw [BitVec.extractLsb'_toNat, hval, BitVec.toNat_setWidth, Nat.shiftRight_eq_div_pow]
    omega
  · rw [show k + 8 = 3 + (1 + (3 + (1 + k))) by omega, bit_high, bit_high, bit_high, bit_high]
  · rw [show k + 8 = 3 + (1 + (3 + (1 + k))) by omega, extract_high, extract_high, extract_high,
      extract_high]

/-- R42: the fields of RECON. -/
theorem reconWord_fields (o1 o2 : Choice) (hok v1A v1B v2A v2B okA okB : Bool) :
    let x := reconWord o1 o2 hok v1A v1B v2A v2B okA okB
    x.extractLsb' 0 4 = o1.code.setWidth 4 ∧ x.extractLsb' 4 4 = o2.code.setWidth 4 ∧
      x.getLsbD 8 = hok ∧ x.getLsbD 9 = v1A ∧ x.getLsbD 10 = v1B ∧ x.getLsbD 11 = v2A ∧
      x.getLsbD 12 = v2B ∧ x.getLsbD 13 = okA ∧ x.getLsbD 14 = okB ∧ x.extractLsb' 15 17 = 0 := by
  obtain ⟨hlow, hhigh, hbit, hrest⟩ := two_fields (0#17 ++ BitVec.ofBool okB ++ BitVec.ofBool okA ++
    BitVec.ofBool v2B ++ BitVec.ofBool v2A ++ BitVec.ofBool v1B ++ BitVec.ofBool v1A ++
    BitVec.ofBool hok) o2.code o1.code
  refine ⟨hlow, hhigh, (hbit 0).trans ?_, (hbit 1).trans ?_, (hbit 2).trans ?_, (hbit 3).trans ?_,
    (hbit 4).trans ?_, (hbit 5).trans ?_, (hbit 6).trans ?_, (hrest 7 17).trans ?_⟩
  all_goals
    simp only [bit_succ_append_ofBool, bit_zero_append_ofBool, extract_succ_append_ofBool, extract_all]
  all_goals rfl

/-- R280: the second choice, over the two images. -/
theorem choice2_eq (s : State) (o1 : Choice) (okA okB : Bool) :
    s.choice2 o1 okA okB =
      if o1.selects.isSome && byteAt (chosenBytes o1 (s.buf .ra) (s.buf .rb) 0 112) 0x16 != 0 then
        reconcile (okA && p2Valid (slice (s.buf .ra) 112 176)) (byteAt (s.buf .ra) 0x72)
          (okB && p2Valid (slice (s.buf .rb) 112 176)) (byteAt (s.buf .rb) 0x72) s.eqPolicy
      else .notAttempted := by
  rw [State.choice2, selected_eq]
  rfl

/-- R280 to R282 from the two choices on. -/
theorem readOutcome_of {hok okA okB authFail eq : Bool} {ra rb : List Byte} {o1 o2 : Choice}
    {t : State}
    (ho1 : reconcile (okA && p1Valid (slice ra 0 112)) (byteAt ra 0x09)
      (okB && p1Valid (slice rb 0 112)) (byteAt rb 0x09) eq = o1)
    (ho2 : (if o1.selects.isSome && byteAt (chosenBytes o1 ra rb 0 112) 0x16 != 0 then
        reconcile (okA && p2Valid (slice ra 112 176)) (byteAt ra 0x72)
          (okB && p2Valid (slice rb 112 176)) (byteAt rb 0x72) eq
      else .notAttempted) = o2)
    (hp1 : t.buf .p1 = chosenBytes o1 ra rb 0 112) (hp2 : t.buf .p2 = chosenBytes o2 ra rb 112 176)
    (hrecon : t.recon.extractLsb' 0 4 = o1.code.setWidth 4 ∧
      t.recon.extractLsb' 4 4 = o2.code.setWidth 4 ∧
      t.recon.getLsbD 8 = hok ∧ t.recon.getLsbD 9 = (okA && p1Valid (slice ra 0 112)) ∧
      t.recon.getLsbD 10 = (okB && p1Valid (slice rb 0 112)) ∧
      t.recon.getLsbD 11 = (okA && p2Valid (slice ra 112 176)) ∧
      t.recon.getLsbD 12 = (okB && p2Valid (slice rb 112 176)) ∧
      t.recon.getLsbD 13 = okA ∧ t.recon.getLsbD 14 = okB ∧ t.recon.extractLsb' 15 17 = 0)
    (hseq : t.seq = byteAt rb 0x72 ++ byteAt ra 0x72 ++ byteAt rb 0x09 ++ byteAt ra 0x09)
    (herr : t.err =
      if authFail then .authFailure
      else if o1 = .ambiguous ∨ o2 = .ambiguous then .ambiguousSequence
      else if hok then .ok else .hdrChecksum) :
    ReadOutcome hok okA okB authFail eq ra rb t := by
  obtain ⟨h1, h2, h3, h4, h5, h6, h7, h8, h9, h10⟩ := hrecon
  subst ho1 ho2
  exact ⟨hp1, hp2, h1, h2, h3, h4, h5, h6, h7, h8, h9, h10, hseq, herr⟩

/-- R280 to R282: what the validation writes. -/
theorem finishRead_outcome (hok okA okB authFail : Bool) (s : State) :
    ReadOutcome hok okA okB authFail s.eqPolicy (s.buf .ra) (s.buf .rb)
      (finishRead hok okA okB authFail s) := by
  have ho2 := choice2_eq s (s.choice1 okA okB) okA okB
  obtain ⟨hp1, hp2, _⟩ := loadRecord_buf s (s.choice1 okA okB) (s.choice2 (s.choice1 okA okB) okA okB)
  have hrecon := reconWord_fields (s.choice1 okA okB)
    (s.choice2 (s.choice1 okA okB) okA okB) hok (imageValid1 okA (s.buf .ra))
    (imageValid1 okB (s.buf .rb)) (imageValid2 okA (s.buf .ra)) (imageValid2 okB (s.buf .rb)) okA okB
  exact readOutcome_of rfl ho2.symm hp1 hp2 hrecon rfl rfl

/-- What the validation does to a state, whatever it loads and reports (R280). -/
theorem finish_loaded_frame (s : State) (c : ErrCode) (x y : List Byte) (z q : Word) :
    let t := finish c ((((s.bufWrite .p1 0 x).bufWrite .p2 0 y).withRecon z).withSeq q)
    t = { s with
      mem := t.mem, recon := t.recon, seq := t.seq, err := t.err, done := true, phase := .idle } := rfl

/-- R280: the validation writes P1, P2, RECON and SEQ, and completes. -/
theorem finishRead_frame (hok okA okB authFail : Bool) (s : State) :
    finishRead hok okA okB authFail s = { s with
        mem := (finishRead hok okA okB authFail s).mem
        recon := (finishRead hok okA okB authFail s).recon
        seq := (finishRead hok okA okB authFail s).seq
        err := (finishRead hok okA okB authFail s).err, done := true, phase := .idle } :=
  finish_loaded_frame s _ _ _ _ _

theorem finishRead_buf (hok okA okB authFail : Bool) (s : State) (b : Buffer) (h1 : b ≠ .p1)
    (h2 : b ≠ .p2) : (finishRead hok okA okB authFail s).buf b = s.buf b :=
  (loadRecord_buf s _ _).2.2 b h1 h2

end Sys2Proof.Machine

/-! READ_RECORD, stage by stage (spec/43_arbiter.md R280 to R284). -/

namespace Sys2Proof.Machine

theorem run_last {k : Nat} {s t u : State} (h : run k s = .next t) (hu : step t = .next u) :
    run (k + 1) s = .next u := (run_add h).trans (run_succ 0 hu)

theorem replicate_succ_append {α : Type} (k : Nat) (a : α) (l : List α) :
    List.replicate (k + 1) a ++ l = List.replicate k a ++ a :: l := by
  rw [List.replicate_succ', List.append_assoc]
  rfl

/-- R180: a sector key depends on UID alone. -/
theorem sectorKey_congr {s t : State} (h : t.buf .uid = s.buf .uid) (n : Nat) :
    t.sectorKey n = s.sectorKey n := by
  rw [State.sectorKey, State.sectorKey, h, buf_k0, buf_k0]

theorem request_congr {s t : State} (h : t.buf .uid = s.buf .uid) (n : Nat) (op : PortOp) :
    t.request n op = s.request n op := by
  rw [State.request, State.request, sectorKey_congr h]

theorem decBlock_tagBlock (s : State) (n : Nat) :
    s.decBlock n (tagBlock s.tag n) = plainBlock s.tag (s.buf .hdr) n := by
  rw [State.decBlock, State.blockKey, buf_ksuf, plainBlock]

theorem imageBuf_rom (r : Region) : (imageBuf r).rom = false := by cases r <;> rfl

theorem imageBuf_size (r : Region) : (imageBuf r).size = 176 := by cases r <;> rfl

theorem imageBuf_ne (r : Region) {b : Buffer} (ha : b ≠ .ra) (hb : b ≠ .rb) : b ≠ imageBuf r := by
  cases r <;> assumption

/-! A region's loop (R280). -/

/-- State t is s after the first k blocks of region r are read into its image. -/
structure RegionRead (s t : State) (r : Region) (k : Nat) : Prop where
  frame : t = { s with mem := t.mem, phase := t.phase, xstat := t.xstat, inputs := t.inputs }
  image : t.buf (imageBuf r) = partialImage s.tag (s.buf .hdr) r k
  others : ∀ b : Buffer, b ≠ imageBuf r → t.buf b = s.buf b

/-- State t is s with the loop of region r at index i, its request outstanding. -/
structure RegionAt (s t : State) (w : Word) (r : Region) (i : Fin 11) (hok okA authFail : Bool) : Prop
    extends RegionRead s t r i.val where
  phase : t.phase =
    .busy w (.readRegion r i hok okA authFail) (some (s.request (regionBlock r i.val) .read))
  xstat : t.xstat = s.xstat

section
variable {s t : State} {w : Word} {r : Region} {i : Fin 11} {hok okA authFail : Bool}

theorem RegionRead.tag {k : Nat} (h : RegionRead s t r k) : t.tag = s.tag := by rw [h.frame]

theorem RegionRead.hdr {k : Nat} (h : RegionRead s t r k) : t.buf .hdr = s.buf .hdr :=
  h.others _ (imageBuf_ne r (by decide) (by decide))

theorem RegionRead.request {k : Nat} (h : RegionRead s t r k) (n : Nat) (op : PortOp) :
    t.request n op = s.request n op :=
  request_congr (h.others _ (imageBuf_ne r (by decide) (by decide))) n op

theorem beginRegion_eq (w : Word) (r : Region) (hok okA authFail : Bool) (s : State) {z : List Byte}
    (hz : z = zeros 176) :
    beginRegion w r hok okA authFail s = { s.bufWrite (imageBuf r) 0 z with
      phase := .busy w (.readRegion r 0 hok okA authFail)
        (some (s.request (regionBlock r 0) .read)) } := by
  have huid : (s.bufWrite (imageBuf r) 0 z).buf .uid = s.buf .uid :=
    buf_bufWrite_other s _ _ (imageBuf_ne r (by decide) (by decide)) 0 _
      (by rw [imageBuf_size, hz, length_zeros])
  rw [beginRegion, issue_region _ _ _ (by omega), ← hz, request_congr huid]

theorem beginRegion_inputs (w : Word) (r : Region) (hok okA authFail : Bool) (s : State) :
    (beginRegion w r hok okA authFail s).inputs = s.inputs := by
  obtain ⟨z, hz⟩ : ∃ z, z = zeros 176 := ⟨_, rfl⟩
  rw [beginRegion_eq w r hok okA authFail s hz]
  rfl

/-- The loop begins with its image zeroed. -/
theorem beginRegion_at (w : Word) (r : Region) (hok okA authFail : Bool) (s : State) :
    RegionAt s (beginRegion w r hok okA authFail s) w r 0 hok okA authFail := by
  obtain ⟨z, hz⟩ : ∃ z, z = zeros 176 := ⟨_, rfl⟩
  have hlen : z.length = (imageBuf r).size := by rw [imageBuf_size, hz, length_zeros]
  have himage : (s.bufWrite (imageBuf r) 0 z).buf (imageBuf r) = z :=
    buf_bufWrite_whole s _ (imageBuf_rom r) z hlen
  have hothers (b : Buffer) (hb : b ≠ imageBuf r) : (s.bufWrite (imageBuf r) 0 z).buf b = s.buf b :=
    buf_bufWrite_other s _ b hb 0 z (by omega)
  rw [beginRegion_eq w r hok okA authFail s hz]
  exact {
    frame := rfl
    image := himage.trans (hz.trans (partialImage_zero _ _ _).symm)
    others := hothers
    phase := rfl
    xstat := rfl }

/-- A block deciphered into the image. -/
theorem RegionRead.write (h : RegionRead s t r i.val) (rest : List Event) :
    RegionRead s (State.bufWrite { t with inputs := rest } (imageBuf r) (16 * i.val)
      (State.decBlock { t with inputs := rest } (regionBlock r i.val)
        (tagBlock t.tag (regionBlock r i.val))).toList) r (i.val + 1) := by
  have hsize {d : Block} : 16 * i.val + d.toList.length ≤ (imageBuf r).size := by
    rw [imageBuf_size, Vector.length_toList]
    omega
  refine ⟨by rw [h.frame]; rfl, ?_, fun b hb => ?_⟩
  · rw [buf_bufWrite_same _ _ (imageBuf_rom r) _ _ hsize,
      show ({ t with inputs := rest } : State).buf (imageBuf r) = t.buf (imageBuf r) from rfl, h.image,
      show ({ t with inputs := rest } : State).decBlock (regionBlock r i.val)
        (tagBlock t.tag (regionBlock r i.val)) = plainBlock t.tag (t.buf .hdr) (regionBlock r i.val)
        from decBlock_tagBlock { t with inputs := rest } _, h.hdr, h.tag, splice_partialImage _ _ _ i.isLt]
  · rw [buf_bufWrite_other _ _ _ hb _ _ hsize]
    exact h.others b hb

/-- An ideal answer inside the loop. -/
theorem RegionAt.step_ideal {rest : List Event} (h : RegionAt s t w r i hok okA authFail)
    (hi : t.inputs = .idealAnswer :: rest) :
    (∀ j, nextIndex i = some j → ∃ t', step t = .next t' ∧ RegionAt s t' w r j hok okA authFail ∧
      t'.inputs = rest) ∧
    (nextIndex i = none → ∃ u, step t = .next (endRegion w r true hok okA authFail u) ∧
      RegionRead s u r 11 ∧ u.xstat = s.xstat ∧ u.inputs = rest) := by
  have hstep := step_ideal_read h.phase rfl hi
  have hread := h.toRegionRead.write rest
  rw [show (s.request (regionBlock r i.val) .read).block = regionBlock r i.val from rfl] at hstep
  simp only [onOk, regionBlockRead] at hstep
  refine ⟨fun j hj => ?_, fun hnone => ?_⟩
  · rw [hj] at hstep
    simp only [issue_region w r j.val (by omega)] at hstep
    rw [hread.request] at hstep
    rw [← nextIndex_eq_some hj] at hread
    exact ⟨_, hstep, {
      frame := by rw [hread.frame]
      image := hread.image
      others := hread.others
      phase := rfl
      xstat := h.xstat }, rfl⟩
  · rw [hnone] at hstep
    rw [show i.val + 1 = 11 from nextIndex_eq_none hnone] at hread
    exact ⟨_, hstep, hread, h.xstat, rfl⟩

/-- The first k blocks of a region, k at most 10, answered. -/
theorem RegionAt.run_ideal {k : Nat} (hk : k < 11) {rest : List Event}
    (h : RegionAt s t w r 0 hok okA authFail)
    (hi : t.inputs = List.replicate k .idealAnswer ++ rest) :
    ∃ t', run k t = .next t' ∧ RegionAt s t' w r ⟨k, hk⟩ hok okA authFail ∧ t'.inputs = rest := by
  induction k generalizing rest with
  | zero => exact ⟨t, run_zero t, h, hi⟩
  | succ k ih =>
    rw [replicate_succ_append] at hi
    obtain ⟨t', hrun, hat, hinputs⟩ := ih (by omega) hi
    obtain ⟨t'', hstep, hat', hrest⟩ := (hat.step_ideal hinputs).1 ⟨k + 1, hk⟩ (dif_pos hk)
    exact ⟨t'', run_last hrun hstep, hat', hrest⟩

/-- A region read to its end. -/
theorem RegionAt.run_whole {rest : List Event} (h : RegionAt s t w r 0 hok okA authFail)
    (hi : t.inputs = List.replicate 11 .idealAnswer ++ rest) :
    ∃ u, run 11 t = .next (endRegion w r true hok okA authFail u) ∧ RegionRead s u r 11 ∧
      u.xstat = s.xstat ∧ u.inputs = rest := by
  rw [replicate_succ_append] at hi
  obtain ⟨t', hrun, hat, hinputs⟩ := h.run_ideal (by omega) hi
  obtain ⟨u, hstep, hu⟩ := (hat.step_ideal hinputs).2 rfl
  exact ⟨u, run_last hrun hstep, hu⟩

/-- LOST inside a region ends the command, which leaves what was read. -/
theorem RegionAt.step_lost {rest : List Event} (h : RegionAt s t w r i hok okA authFail)
    (hi : t.inputs = .answer .lost :: rest) :
    ∃ u, step t = .next u ∧
      u = { t with
        xstat := u.xstat, err := .transportLost, done := true, phase := .idle, inputs := rest } ∧
      u.xstat.toNat = regionBlock r i.val + 2 ^ 8 * (regionBlock r i.val / 4) +
        2 ^ 12 * (if r = .a then 2 else 3) + 2 ^ 16 * 2 := by
  obtain ⟨u, hstep, hu, hx⟩ := (failedTransactionEndsCommand t w _ _ rest h.phase
    (regionBlock_lt r i.val (by omega))).1 hi
  refine ⟨u, hstep, hu, hx.trans ?_⟩
  cases r <;> rfl

end

/-! AUTH_FAIL inside a region (R281). -/

/-- R281: the first AUTH_FAIL of a command is recorded in XSTAT. -/
def recordAuthFail (r : Region) (authFail : Bool) (n : Nat) (s : State) : State :=
  if authFail then s
  else s.withXstat (xstatWord n (if r = .a then .regionARead else .regionBRead) .authFail)

theorem recordAuthFail_eq (r : Region) (authFail : Bool) (n : Nat) (s : State) :
    recordAuthFail r authFail n s = { s with xstat := (recordAuthFail r authFail n s).xstat } := by
  cases authFail <;> rfl

theorem recordAuthFail_buf (r : Region) (authFail : Bool) (n : Nat) (s : State) (b : Buffer) :
    (recordAuthFail r authFail n s).buf b = s.buf b := by
  cases authFail <;> rfl

theorem recordAuthFail_inputs (r : Region) (authFail : Bool) (n : Nat) (s : State) :
    (recordAuthFail r authFail n s).inputs = s.inputs := by
  cases authFail <;> rfl

/-- The stage of a region's reads (R334). -/
theorem xstatWord_region {n : Nat} (hn : n < 64) (r : Region) :
    (xstatWord n (if r = .a then .regionARead else .regionBRead) .authFail).toNat =
      n + 2 ^ 8 * (n / 4) + 2 ^ 12 * (if r = .a then 2 else 3) + 2 ^ 16 := by
  rw [xstatWord_toNat hn]
  cases r <;> rfl

theorem step_region_authFail {s : State} {w : Word} {r : Region} {i : Fin 11}
    {hok okA authFail : Bool} {req : PortRequest} {rest : List Event}
    (hp : s.phase = .busy w (.readRegion r i hok okA authFail) (some req))
    (hi : s.inputs = .answer .authFail :: rest) :
    step s = .next (endRegion w r false hok okA true
      (recordAuthFail r authFail req.block { s with inputs := rest })) := by
  rw [step_authFail hp hi, onAuthFail, regionAuthFail]
  cases r <;> rfl

/-- AUTH_FAIL at index k of a region ends its loop with what was read. -/
theorem RegionRead.recordAuthFail {s t : State} {r : Region} {k : Nat} (h : RegionRead s t r k)
    (authFail : Bool) (n : Nat) (rest : List Event) :
    RegionRead s (recordAuthFail r authFail n { t with inputs := rest }) r k := by
  refine ⟨?_, ?_, fun b hb => ?_⟩
  · rw [recordAuthFail_eq, h.frame]
  · rw [recordAuthFail_buf]
    exact h.image
  · rw [recordAuthFail_buf]
    exact h.others b hb

/-- What XSTAT holds after k blocks of a region: unchanged when all were read or an earlier AUTH_FAIL
is recorded, and else the AUTH_FAIL at block k. -/
def RegionXstat (s u : State) (r : Region) (k : Nat) (authFail : Bool) : Prop :=
  (k = 11 ∨ authFail = true → u.xstat = s.xstat) ∧
    (k < 11 → authFail = false → u.xstat.toNat = regionBlock r k + 2 ^ 8 * (regionBlock r k / 4) +
      2 ^ 12 * (if r = .a then 2 else 3) + 2 ^ 16)

section
variable {s t : State} {w : Word} {r : Region} {hok okA authFail : Bool}

/-- A region's loop stopped by an AUTH_FAIL at index k. -/
theorem RegionAt.run_authFail {k : Nat} (hk : k < 11) {rest : List Event}
    (h : RegionAt s t w r 0 hok okA authFail)
    (hi : t.inputs = List.replicate k .idealAnswer ++ .answer .authFail :: rest) :
    ∃ u, run (k + 1) t = .next (endRegion w r false hok okA true u) ∧ RegionRead s u r k ∧
      RegionXstat s u r k authFail ∧ u.inputs = rest := by
  obtain ⟨t', hrun, hat, hinputs⟩ := h.run_ideal hk hi
  refine ⟨_, run_last hrun (step_region_authFail hat.phase hinputs),
    hat.toRegionRead.recordAuthFail _ _ _, ⟨fun hx => ?_, fun _ hx => ?_⟩, recordAuthFail_inputs _ _ _ _⟩
  · rw [show authFail = true from hx.resolve_left (by omega)]
    exact hat.xstat
  · rw [hx]
    exact xstatWord_region (regionBlock_lt r k (by omega)) r

/-- A region's answers, all of them or up to an AUTH_FAIL (R280, R281). -/
theorem RegionAt.run_answers {k : Nat} (hk : k ≤ 11) {rest : List Event}
    (h : RegionAt s t w r 0 hok okA authFail) (hi : t.inputs = regionAnswers k ++ rest) :
    ∃ u, run (regionAnswers k).length t =
        .next (endRegion w r (decide (k = 11)) hok okA (authFail || decide (k < 11)) u) ∧
      RegionRead s u r k ∧ RegionXstat s u r k authFail ∧ u.inputs = rest := by
  by_cases hlt : k < 11
  · rw [regionAnswers, if_pos hlt, List.append_assoc] at hi
    obtain ⟨u, hrun, hu⟩ := h.run_authFail hlt hi
    rw [regionAnswers, if_pos hlt, List.length_append, List.length_replicate, decide_eq_true hlt,
      decide_eq_false (by omega), Bool.or_true]
    exact ⟨u, hrun, hu⟩
  · obtain rfl : k = 11 := by omega
    obtain ⟨u, hrun, hread, hx, hinputs⟩ := h.run_whole hi
    rw [show (authFail || decide (11 < 11)) = authFail from Bool.or_false _]
    exact ⟨u, hrun, hread, ⟨fun _ => hx, fun hlt => absurd hlt (by omega)⟩, hinputs⟩

end

/-! The header (R280). -/

theorem bufWrite_header (s : State) (t0 t1 : Block) :
    ((s.bufWrite .hdr 0 t0.toList).bufWrite .hdr 16 t1.toList).buf .hdr = t0.toList ++ t1.toList := by
  have hlen : (s.buf .hdr).length = 32 := length_buf s .hdr
  rw [buf_bufWrite_same _ .hdr rfl 16 _ (by simp [Buffer.size]),
    buf_bufWrite_same _ .hdr rfl 0 _ (by simp [Buffer.size])]
  simp [splice, hlen]

theorem bufWrite_header_other (s : State) (t0 t1 : Block) {b : Buffer} (hb : b ≠ .hdr) :
    ((s.bufWrite .hdr 0 t0.toList).bufWrite .hdr 16 t1.toList).buf b = s.buf b := by
  rw [buf_bufWrite_other _ _ _ hb 16 _ (by simp [Buffer.size]),
    buf_bufWrite_other _ _ _ hb 0 _ (by simp [Buffer.size])]

/-- Both header blocks answered. -/
theorem headerRead_eq (w : Word) (t0 t1 : Block) (s : State) :
    ∃ v, headerRead w t0 t1 s = beginRegion w .a (hdrValid (t0.toList ++ t1.toList)) true false v ∧
      v = { s with mem := v.mem } ∧ v.buf .hdr = t0.toList ++ t1.toList ∧
      ∀ b : Buffer, b ≠ .hdr → v.buf b = s.buf b := by
  refine ⟨_, ?_, rfl, bufWrite_header s t0 t1, fun b hb => bufWrite_header_other s t0 t1 hb⟩
  rw [headerRead, ← bufWrite_header s]

/-- READ_RECORD from its command word to the start of region A: its registers zeroed, the tag's header
in HDR. -/
theorem run_header {s : State} {rest : List Event} (hf : s.fetch = some 0x00000032)
    (hi : s.inputs = List.replicate 2 .idealAnswer ++ rest) :
    ∃ v, run 3 s =
        .next (beginRegion 0x00000032 .a (hdrValid (tagHeader s.tag)) true false v) ∧
      v = { s with mem := v.mem, recon := 0, seq := 0, phase := v.phase, inputs := rest } ∧
      v.buf .hdr = tagHeader s.tag ∧ ∀ b : Buffer, b ≠ .hdr → v.buf b = s.buf b := by
  have hd : decode 0x00000032 = .ok .readRecord := decode_encode_word (i := .readRecord) rfl
  obtain ⟨t1, hstep1, ht1⟩ : ∃ t1, step s = .next t1 ∧ t1 = { s with
      recon := 0, seq := 0
      phase := .busy 0x00000032 .readHdr0 (some ⟨0, .read, Config.sector0Key⟩) } :=
    ⟨_, (step_of_decode_ok hf hd).trans (exec_readRecord s), rfl⟩
  have hp1 : t1.phase = .busy 0x00000032 .readHdr0 (some ⟨0, .read, Config.sector0Key⟩) := by rw [ht1]
  have hi1 : t1.inputs = .idealAnswer :: .idealAnswer :: rest := by
    rw [ht1]
    exact hi
  have htag1 : t1.tag = s.tag := by rw [ht1]
  obtain ⟨t2, hstep2, ht2⟩ : ∃ t2, step t1 = .next t2 ∧ t2 = { t1 with
      inputs := .idealAnswer :: rest
      phase := .busy 0x00000032 (.readHdr1 (tagBlock t1.tag 0))
        (some ⟨1, .read, Config.sector0Key⟩) } := by
    have hstep := step_ideal_read hp1 rfl hi1
    rw [onOk, issue_sector_zero _ _ _ _ rfl rfl] at hstep
    exact ⟨_, hstep, rfl⟩
  have hp2 : t2.phase = .busy 0x00000032 (.readHdr1 (tagBlock t1.tag 0))
      (some ⟨1, .read, Config.sector0Key⟩) := by rw [ht2]
  have htag2 : t2.tag = s.tag := by rw [ht2, htag1]
  have hbuf2 (b : Buffer) : t2.buf b = s.buf b := buf_congr (by rw [ht2, ht1]) b
  obtain ⟨v, hv, hframe, hhdr, hothers⟩ :=
    headerRead_eq 0x32 (tagBlock t1.tag 0) (tagBlock t2.tag 1) { t2 with inputs := rest }
  have hstep3 := step_ideal_read hp2 rfl (by rw [ht2])
  rw [onOk, hv] at hstep3
  rw [htag1, htag2, ← tagHeader] at hhdr hstep3
  refine ⟨v, (run_succ 2 hstep1).trans ((run_succ 1 hstep2).trans (run_succ 0 hstep3)), ?_, hhdr,
    fun b hb => (hothers b hb).trans (hbuf2 b)⟩
  rw [hframe, ht2, ht1]

end Sys2Proof.Machine

/-! READ_RECORD from its command word on, and AUTH_FAIL inside it (spec/43_arbiter.md R280 to R284,
R296). -/

namespace Sys2Proof.Machine

theorem seq_fields (a b c d : Byte) :
    (d ++ c ++ b ++ a).extractLsb' 0 8 = a ∧ (d ++ c ++ b ++ a).extractLsb' 8 8 = b ∧
      (d ++ c ++ b ++ a).extractLsb' 16 8 = c ∧ (d ++ c ++ b ++ a).extractLsb' 24 8 = d :=
  ⟨extract_low _ _, (extract_high _ _ 0 8).trans (extract_low _ _),
    (extract_high _ _ 8 8).trans ((extract_high _ _ 0 8).trans (extract_low _ _)),
    (extract_high _ _ 16 8).trans ((extract_high _ _ 8 8).trans ((extract_high _ _ 0 8).trans
      (extract_all _)))⟩

/-- What a state of READ_RECORD at the start of region B, or after it, keeps of the state s at the
command word: region A read up to index i, under the header h. -/
structure RegionARead (s u : State) (i : Nat) (rest : List Event) : Prop where
  frame : u = { s with
    mem := u.mem, recon := 0, seq := 0, xstat := u.xstat, phase := u.phase, inputs := rest }
  hdr : u.buf .hdr = tagHeader s.tag
  ra : u.buf .ra = partialImage s.tag (tagHeader s.tag) .a i
  others : ∀ b : Buffer, b ≠ .hdr → b ≠ .ra → u.buf b = s.buf b
  xstat : RegionXstat s u .a i false

/-- From the start of region A's loop on. -/
theorem RegionRead.afterHeader {s v u : State} {i : Nat} {rest rest' : List Event}
    (hframe : v = { s with mem := v.mem, recon := 0, seq := 0, phase := v.phase, inputs := rest' })
    (hhdr : v.buf .hdr = tagHeader s.tag) (hothers : ∀ b : Buffer, b ≠ .hdr → v.buf b = s.buf b)
    (h : RegionRead v u .a i) (hx : RegionXstat v u .a i false) (hi : u.inputs = rest) :
    RegionARead s u i rest := by
  have htag : v.tag = s.tag := by rw [hframe]
  have hxstat : v.xstat = s.xstat := by rw [hframe]
  refine ⟨by rw [h.frame, hi, hframe], h.hdr.trans hhdr, ?_, fun b h1 h2 => ?_, ?_⟩
  · have himage := h.image
    rwa [hhdr, htag] at himage
  · exact (h.others b h2).trans (hothers b h1)
  · rwa [RegionXstat, hxstat] at hx

/-- READ_RECORD from its command word through region A. -/
theorem run_regionA {s : State} {i : Nat} (hi : i ≤ 11) {rest : List Event}
    (hf : s.fetch = some 0x00000032)
    (hin : s.inputs = List.replicate 2 .idealAnswer ++ (regionAnswers i ++ rest)) :
    ∃ u, run (3 + (regionAnswers i).length) s =
        .next (beginRegion 0x00000032 .b (hdrValid (tagHeader s.tag)) (decide (i = 11))
          (decide (i < 11)) u) ∧
      RegionARead s u i rest := by
  obtain ⟨v, hrun, hframe, hhdr, hothers⟩ := run_header hf hin
  have hvin : v.inputs = regionAnswers i ++ rest := by rw [hframe]
  have hat := beginRegion_at 0x32 .a (hdrValid (tagHeader s.tag)) true false v
  obtain ⟨u, hrunA, hread, hx, huin⟩ :=
    hat.run_answers hi ((beginRegion_inputs _ _ _ _ _ _).trans hvin)
  exact ⟨u, (run_add hrun).trans hrunA, hread.afterHeader hframe hhdr hothers hx huin⟩

/-- A whole READ_RECORD, each region read to its end or up to an AUTH_FAIL (R280 to R282). -/
theorem run_readRecord {s : State} {i j : Nat} (hi : i ≤ 11) (hj : j ≤ 11) {rest : List Event}
    (hf : s.fetch = some 0x00000032)
    (hin : s.inputs = List.replicate 2 .idealAnswer ++ (regionAnswers i ++ (regionAnswers j ++ rest))) :
    ∃ u t, run (3 + (regionAnswers i).length + (regionAnswers j).length) s = .next t ∧
      t = finishRead (hdrValid (tagHeader s.tag)) (decide (i = 11)) (decide (j = 11))
        (decide (i < 11) || decide (j < 11)) u ∧
      u = { s with
        mem := u.mem, recon := 0, seq := 0, xstat := u.xstat, phase := u.phase, inputs := rest } ∧
      u.buf .hdr = tagHeader s.tag ∧
      u.buf .ra = partialImage s.tag (tagHeader s.tag) .a i ∧
      u.buf .rb = partialImage s.tag (tagHeader s.tag) .b j ∧
      (∀ b : Buffer, b ≠ .hdr → b ≠ .ra → b ≠ .rb → u.buf b = s.buf b) ∧
      (i < 11 → RegionXstat s u .a i false) ∧ (i = 11 → RegionXstat s u .b j false) := by
  obtain ⟨v, hrun, hA⟩ := run_regionA hi hf hin
  have htag : v.tag = s.tag := by rw [hA.frame]
  have hvin : v.inputs = regionAnswers j ++ rest := by rw [hA.frame]
  have hat := beginRegion_at 0x32 .b (hdrValid (tagHeader s.tag)) (decide (i = 11)) (decide (i < 11)) v
  obtain ⟨u, hrunB, hread, ⟨hsame, hnew⟩, huin⟩ :=
    hat.run_answers hj ((beginRegion_inputs _ _ _ _ _ _).trans hvin)
  refine ⟨u, _, (run_add hrun).trans hrunB, rfl, ?_, hread.hdr.trans hA.hdr,
    (hread.others .ra (by decide)).trans hA.ra, ?_, fun b h1 h2 h3 => ?_, fun hlt => ?_, fun heq => ?_⟩
  · rw [hread.frame, huin, hA.frame]
  · have himage := hread.image
    rwa [hA.hdr, htag] at himage
  · exact (hread.others b h3).trans (hA.others b h1 h2)
  · rw [RegionXstat, hsame (.inr (decide_eq_true hlt))]
    exact hA.xstat
  · subst heq
    rw [RegionXstat, ← hA.xstat.1 (.inl rfl)]
    exact ⟨fun hx => hsame (hx.imp_right nofun), fun hlt _ => hnew hlt rfl⟩

/-! The clauses of AUTH_FAIL and LOST (R281, R282, R284). -/

/-- AUTH_FAIL inside region A, in any state (R281). -/
theorem authFail_in_a {s : State} {w : Word} {i : Fin 11} {hok okA authFail : Bool}
    {req : PortRequest} {rest : List Event}
    (hp : s.phase = .busy w (.readRegion .a i hok okA authFail) (some req))
    (hi : s.inputs = .answer .authFail :: rest) :
    ∃ t, step s = .next t ∧
      RegionAt (recordAuthFail .a authFail req.block { s with inputs := rest }) t w .b 0 hok false
        true ∧ t.inputs = rest :=
  ⟨_, step_region_authFail hp hi, beginRegion_at _ _ _ _ _ _,
    (beginRegion_inputs _ _ _ _ _ _).trans (recordAuthFail_inputs _ _ _ _)⟩

/-- What an AUTH_FAIL records (R281). -/
theorem recordAuthFail_xstat (r : Region) (authFail : Bool) (n : Nat) (s : State) :
    (authFail = true → (recordAuthFail r authFail n s).xstat = s.xstat) ∧
      (authFail = false →
        (recordAuthFail r authFail n s).xstat =
          xstatWord n (if r = .a then .regionARead else .regionBRead) .authFail ∧
        (n < 64 → (recordAuthFail r authFail n s).xstat.toNat =
          n + 2 ^ 8 * (n / 4) + 2 ^ 12 * (if r = .a then 2 else 3) + 2 ^ 16)) := by
  constructor
  · rintro rfl
    rfl
  · rintro rfl
    exact ⟨rfl, fun hn => xstatWord_region hn r⟩

/-- Bits of RECON and the code after a region B that was not read. -/
theorem ReadOutcome.of_regionB_skipped {hok okA eq : Bool} {ra rb : List Byte} {t : State}
    (h : ReadOutcome hok okA false true eq ra rb t) :
    t.recon.getLsbD 14 = false ∧ t.recon.getLsbD 12 = false ∧ t.recon.getLsbD 10 = false ∧
      t.recon.getLsbD 13 = okA ∧ t.err = .authFailure := by
  obtain ⟨_, _, _, _, _, _, h10, _, h12, h13, h14, _, _, herr⟩ := h
  exact ⟨h14, h12, h10, h13, herr⟩

/-- The bytes of SEQ that no block read gives. -/
theorem ReadOutcome.seq_unread {hok okA okB authFail eq : Bool} {tag : Memory} {h : List Byte}
    {i j : Nat} (hi : i ≤ 11) (hj : j ≤ 11) {t : State}
    (ho : ReadOutcome hok okA okB authFail eq (partialImage tag h .a i) (partialImage tag h .b j) t) :
    (i = 0 → t.seq.extractLsb' 0 8 = 0) ∧ (i ≤ 7 → t.seq.extractLsb' 16 8 = 0) ∧
      (j = 0 → t.seq.extractLsb' 8 8 = 0) ∧ (j ≤ 7 → t.seq.extractLsb' 24 8 = 0) := by
  obtain ⟨_, _, _, _, _, _, _, _, _, _, _, _, hseq, _⟩ := ho
  obtain ⟨h0, h8, h16, h24⟩ := seq_fields (byteAt (partialImage tag h .a i) 0x09)
    (byteAt (partialImage tag h .b j) 0x09) (byteAt (partialImage tag h .a i) 0x72)
    (byteAt (partialImage tag h .b j) 0x72)
  rw [hseq]
  exact ⟨fun hz => h0.trans (byteAt_partialImage _ _ _ hi (by omega)),
    fun hz => h16.trans (byteAt_partialImage _ _ _ hi (by omega)),
    fun hz => h8.trans (byteAt_partialImage _ _ _ hj (by omega)),
    fun hz => h24.trans (byteAt_partialImage _ _ _ hj (by omega))⟩

/-- The state that an AUTH_FAIL leaves at the start of region B, in the terms of the state before it. -/
theorem RegionAt.of_authFail {s u t : State} {w : Word} {hok : Bool} {rest : List Event}
    (hu : u = { s with xstat := u.xstat, inputs := rest }) (hbuf : ∀ b : Buffer, u.buf b = s.buf b)
    (h : RegionAt u t w .b 0 hok false true) (hi : t.inputs = rest) :
    t.phase = .busy w (.readRegion .b 0 hok false true)
        (some ⟨regionBlock .b 0, .read, toVec 6 (s.sectorKey (regionBlock .b 0 / 4))⟩) ∧
      t.buf .rb = zeros 176 ∧
      t = { s with mem := t.mem, xstat := t.xstat, phase := t.phase, inputs := rest } ∧
      ∀ b : Buffer, b ≠ .rb → t.buf b = s.buf b := by
  refine ⟨?_, ?_, by rw [h.frame, hi, hu], fun b hb => (h.others b hb).trans (hbuf b)⟩
  · rw [h.phase, request_congr (hbuf .uid)]
    rfl
  · exact h.image.trans (partialImage_zero _ _ _)

/-- Settles O50: an AUTH_FAIL ends its region's loop, so the command goes on from what the loop read; a
LOST leaves what was read. -/
theorem authFailSkipsRegion : Obligations.AuthFailSkipsRegion := by
  refine ⟨?step, ?skipA, ?inA, ?inB, ?whole⟩
  case step =>
    intro s w r i hok okA authFail req rest hp hi
    have hstep := step_region_authFail hp hi
    obtain ⟨hold, hnew⟩ := recordAuthFail_xstat r authFail req.block { s with inputs := rest }
    have hu := recordAuthFail_eq r authFail req.block { s with inputs := rest }
    have hbuf (b : Buffer) := recordAuthFail_buf r authFail req.block { s with inputs := rest } b
    generalize recordAuthFail r authFail req.block { s with inputs := rest } = u at *
    have huin : u.inputs = rest := by rw [hu]
    cases r with
    | a =>
      have hat := beginRegion_at w .b hok false true u
      have hin := (beginRegion_inputs w .b hok false true u).trans huin
      rw [endRegion] at hstep
      generalize beginRegion w .b hok false true u = t at *
      obtain ⟨hphase, hrb, hframe, hothers⟩ := hat.of_authFail hu hbuf hin
      refine ⟨t, hstep, by rw [hframe], hin, hothers .ra (by decide), hothers .hdr (by decide),
        fun h => hat.xstat.trans (hold h), fun h => by rw [hat.xstat]; exact hnew h,
        fun _ => ⟨hphase, hrb, hothers .p1 (by decide), hothers .p2 (by decide), hframe⟩, nofun⟩
    | b =>
      have hframe := finishRead_frame hok okA false true u
      have hothers := finishRead_buf hok okA false true u
      have hout := finishRead_outcome hok okA false true u
      rw [endRegion] at hstep
      generalize finishRead hok okA false true u = t at *
      have hxstat : t.xstat = u.xstat := by rw [hframe]
      obtain ⟨h14, h12, h10, h13, herr⟩ := hout.of_regionB_skipped
      rw [show u.eqPolicy = s.eqPolicy by rw [hu], hbuf .ra, hbuf .rb] at hout
      have hothers' (b : Buffer) (h1 : b ≠ .p1) (h2 : b ≠ .p2) : t.buf b = s.buf b :=
        (hothers b h1 h2).trans (hbuf b)
      refine ⟨t, hstep, by rw [hframe, hu], by rw [hframe, hu], hothers' .ra (by decide) (by decide),
        hothers' .hdr (by decide) (by decide), fun h => hxstat.trans (hold h),
        fun h => by rw [hxstat]; exact hnew h, nofun, fun _ => ⟨by rw [hframe], by rw [hframe], herr,
          hothers' .rb (by decide) (by decide), h14, h12, h10, h13, hout, ?_, hothers'⟩⟩
      rw [hframe, hu, ← herr, hframe]
  case skipA =>
    intro s w i hok okA authFail req rest hp hi rb
    obtain ⟨t, hstep, hat, hin⟩ := authFail_in_a hp hi
    obtain ⟨hold, hnew⟩ := recordAuthFail_xstat .a authFail req.block
      { s with inputs := List.replicate 11 .idealAnswer ++ rest }
    have hv := recordAuthFail_eq .a authFail req.block
      { s with inputs := List.replicate 11 .idealAnswer ++ rest }
    have hbuf (b : Buffer) := recordAuthFail_buf .a authFail req.block
      { s with inputs := List.replicate 11 .idealAnswer ++ rest } b
    generalize recordAuthFail .a authFail req.block
      { s with inputs := List.replicate 11 .idealAnswer ++ rest } = v at *
    obtain ⟨u, hrun, hread, hx, huin⟩ := hat.run_whole hin
    have hframe := finishRead_frame hok false true true u
    have hothers := finishRead_buf hok false true true u
    have hout := finishRead_outcome hok false true true u
    rw [endRegion] at hrun
    generalize finishRead hok false true true u = z at *
    have hzx : z.xstat = v.xstat := by rw [hframe]; exact hx
    have hrb : u.buf .rb = rb := by
      have himage := hread.image
      rwa [partialImage_full, hbuf .hdr, show v.tag = s.tag by rw [hv]] at himage
    have hra : u.buf .ra = s.buf .ra := (hread.others .ra (by decide)).trans (hbuf .ra)
    have herr : z.err = .authFailure := by
      obtain ⟨_, _, _, _, _, _, _, _, _, _, _, _, _, herr⟩ := hout
      exact herr
    rw [show u.eqPolicy = s.eqPolicy by rw [hread.frame, hv], hra, hrb] at hout
    refine ⟨z, (run_succ 11 hstep).trans hrun, ?_,
      fun b h1 h2 h3 => (hothers b h1 h2).trans ((hread.others b h3).trans (hbuf b)),
      (hothers .rb (by decide) (by decide)).trans hrb, fun h => hzx.trans (hold h),
      fun h hn => by rw [hzx]; exact (hnew h).2 hn, hout⟩
    rw [← herr, hframe, huin, hread.frame, hv]
  case inA =>
    intro s i a rest hlt hf ha hi h n
    rw [List.replicate_add, List.append_assoc] at hi
    obtain ⟨v, hrun, hframe, hhdr, hothers⟩ := run_header hf hi
    have hvin : v.inputs = List.replicate i .idealAnswer ++ .answer a :: rest := by rw [hframe]
    have hat := beginRegion_at 0x32 .a (hdrValid h) true false v
    obtain ⟨t, hrunA, hati, htin⟩ :=
      hat.run_ideal hlt ((beginRegion_inputs _ _ _ _ _ _).trans hvin)
    have hruni := (run_add hrun).trans hrunA
    have hthdr : t.buf .hdr = h := hati.hdr.trans hhdr
    have htra : t.buf .ra = partialImage s.tag h .a i := by
      have himage := hati.image
      rwa [hhdr, show v.tag = s.tag by rw [hframe]] at himage
    have htothers (b : Buffer) (h1 : b ≠ .hdr) (h2 : b ≠ .ra) : t.buf b = s.buf b :=
      (hati.others b h2).trans (hothers b h1)
    rcases ha with rfl | rfl
    · obtain ⟨z, hstep, hz, hin⟩ := authFail_in_a hati.phase htin
      have hu := recordAuthFail_eq .a false n { t with inputs := rest }
      have hbuf (b : Buffer) := recordAuthFail_buf .a false n { t with inputs := rest } b
      have hx := ((recordAuthFail_xstat .a false n { t with inputs := rest }).2 rfl).2
        (regionBlock_lt .a i (by omega))
      obtain ⟨hphase, hrb, hzframe, hzothers⟩ := hz.of_authFail (s := t) hu hbuf hin
      refine ⟨z, ?_, (hzothers .hdr (by decide)).trans hthdr, (hzothers .ra (by decide)).trans htra,
        (congrArg BitVec.toNat hz.xstat).trans hx, nofun, fun _ => ⟨?_, ?_, hrb,
          fun b h1 h2 h3 => (hzothers b h3).trans (htothers b h1 h2)⟩⟩
      · rw [show 4 + i = 3 + i + 1 by omega]
        exact run_last hruni hstep
      · rw [hzframe, hati.frame, hframe]
      · rw [hphase, sectorKey_congr (htothers .uid (by decide) (by decide))]
    · obtain ⟨z, hstep, hz, hx⟩ := hati.step_lost htin
      have hbuf (b : Buffer) : z.buf b = t.buf b := buf_congr (by rw [hz]) b
      refine ⟨z, ?_, (hbuf .hdr).trans hthdr, (hbuf .ra).trans htra, hx, fun _ => ⟨?_,
        fun b h1 h2 => (hbuf b).trans (htothers b h1 h2)⟩, nofun⟩
      · rw [show 4 + i = 3 + i + 1 by omega]
        exact run_last hruni hstep
      · rw [hz, hati.frame, hframe]
  case inB =>
    intro s i j rest hi hj hf hin h n
    rw [List.append_assoc, List.append_assoc] at hin
    obtain ⟨u, hrun, hA⟩ := run_regionA hi hf hin
    have huin : u.inputs = List.replicate j .idealAnswer ++ .answer .lost :: rest := by rw [hA.frame]
    have hat := beginRegion_at 0x32 .b (hdrValid (tagHeader s.tag)) (decide (i = 11)) (decide (i < 11)) u
    obtain ⟨t, hrunB, hatj, htin⟩ :=
      hat.run_ideal hj ((beginRegion_inputs _ _ _ _ _ _).trans huin)
    obtain ⟨z, hstep, hz, hx⟩ := hatj.step_lost htin
    have hbuf (b : Buffer) : z.buf b = t.buf b := buf_congr (by rw [hz]) b
    refine ⟨z, ?_, ?_, hx, (hbuf .hdr).trans (hatj.hdr.trans hA.hdr),
      (hbuf .ra).trans ((hatj.others .ra (by decide)).trans hA.ra), ?_,
      fun b h1 h2 h3 => (hbuf b).trans ((hatj.others b h3).trans (hA.others b h1 h2))⟩
    · rw [show 4 + (regionAnswers i).length + j = 3 + (regionAnswers i).length + (j + 1) by omega]
      exact (run_add hrun).trans (run_last hrunB hstep)
    · rw [hz, hatj.frame, hA.frame]
    · have himage := (hbuf .rb).trans hatj.image
      rwa [hA.hdr, show u.tag = s.tag by rw [hA.frame]] at himage
  case whole =>
    intro s i j rest hi hj hf hin h ra rb nA nB
    rw [List.append_assoc, List.append_assoc] at hin
    obtain ⟨u, t, hrun, ht, hu, hhdr, hra, hrb, hothers, hxA, hxB⟩ :=
      run_readRecord hi hj hf hin
    have hframe := finishRead_frame (hdrValid h) (decide (i = 11)) (decide (j = 11))
      (decide (i < 11) || decide (j < 11)) u
    have hkeep := finishRead_buf (hdrValid h) (decide (i = 11)) (decide (j = 11))
      (decide (i < 11) || decide (j < 11)) u
    have hout := finishRead_outcome (hdrValid h) (decide (i = 11)) (decide (j = 11))
      (decide (i < 11) || decide (j < 11)) u
    rw [← ht] at hframe hkeep hout
    have hxstat : t.xstat = u.xstat := by rw [hframe]
    rw [show u.eqPolicy = s.eqPolicy by rw [hu], hra, hrb] at hout
    obtain ⟨h0, h16, h8, h24⟩ := hout.seq_unread hi hj
    refine ⟨t, hrun, by rw [hframe, hu], fun b b1 b2 b3 b4 b5 => (hkeep b b2 b3).trans (hothers b b1 b4 b5),
      (hkeep .hdr (by decide) (by decide)).trans hhdr, (hkeep .ra (by decide) (by decide)).trans hra,
      (hkeep .rb (by decide) (by decide)).trans hrb, fun hlt => ?_, fun heq hlt => ?_, fun heq heq' => ?_,
      h0, h16, h8, h24, hout⟩
    · rw [hxstat]
      exact (hxA hlt).2 hlt rfl
    · rw [hxstat]
      exact (hxB heq).2 hlt rfl
    · exact hxstat.trans ((hxB heq).1 (.inl heq'))

/-- Settles O51: the whole command of which no answer fails. -/
theorem readRecordResult : Obligations.ReadRecordResult := by
  intro s rest hf hin h ra rb
  have hin' : s.inputs =
      List.replicate 2 .idealAnswer ++ (regionAnswers 11 ++ (regionAnswers 11 ++ rest)) := hin
  obtain ⟨u, t, hrun, ht, hu, hhdr, hra, hrb, hothers, _, hxB⟩ :=
    run_readRecord (le_refl 11) (le_refl 11) hf hin'
  rw [partialImage_full] at hra hrb
  have hxstat : u.xstat = s.xstat := (hxB rfl).1 (.inl rfl)
  have hframe := finishRead_frame (hdrValid h) true true false u
  have hkeep := finishRead_buf (hdrValid h) true true false u
  have hout := finishRead_outcome (hdrValid h) true true false u
  have ht' : t = finishRead (hdrValid h) true true false u := ht
  rw [← ht'] at hframe hkeep hout
  rw [show u.eqPolicy = s.eqPolicy by rw [hu], hra, hrb] at hout
  exact ⟨t, hrun, by rw [hframe, hu, hxstat],
    fun b b1 b2 b3 b4 b5 => (hkeep b b2 b3).trans (hothers b b1 b4 b5),
    (hkeep .hdr (by decide) (by decide)).trans hhdr, (hkeep .ra (by decide) (by decide)).trans hra,
    (hkeep .rb (by decide) (by decide)).trans hrb, hout⟩

/-- The low three bits of a four-bit field that holds a code. -/
theorem extract_code {x : Word} {k : Nat} {c : BitVec 3} (h : x.extractLsb' k 4 = c.setWidth 4) :
    x.extractLsb' k 3 = c := by
  have hlow : x.extractLsb' k 3 = (x.extractLsb' k 4).setWidth 3 := by
    ext j hj
    simp [show j < 4 by omega]
  rw [hlow, h]
  ext j hj
  simp

/-- What the validation leaves, once its two choices are known (R280 to R282). -/
theorem ReadOutcome.of_choices {hok okA okB authFail eq : Bool} {ra rb : List Byte} {t : State}
    {o1 o2 : Choice} (h : ReadOutcome hok okA okB authFail eq ra rb t)
    (ho1 : reconcile (okA && p1Valid (slice ra 0 112)) (byteAt ra 0x09)
      (okB && p1Valid (slice rb 0 112)) (byteAt rb 0x09) eq = o1)
    (ho2 : (if o1.selects.isSome && byteAt (chosenBytes o1 ra rb 0 112) 0x16 != 0 then
        reconcile (okA && p2Valid (slice ra 112 176)) (byteAt ra 0x72)
          (okB && p2Valid (slice rb 112 176)) (byteAt rb 0x72) eq
      else .notAttempted) = o2) :
    t.buf .p1 = chosenBytes o1 ra rb 0 112 ∧ t.buf .p2 = chosenBytes o2 ra rb 112 176 ∧
      t.recon.extractLsb' 0 3 = o1.code ∧ t.recon.extractLsb' 4 3 = o2.code ∧
      t.recon.getLsbD 8 = hok ∧
      t.err = if authFail then .authFailure
        else if o1 = .ambiguous ∨ o2 = .ambiguous then .ambiguousSequence
        else if hok then .ok else .hdrChecksum := by
  subst ho1 ho2
  obtain ⟨hp1, hp2, hr1, hr2, hhok, _, _, _, _, _, _, _, _, herr⟩ := h
  exact ⟨hp1, hp2, extract_code hr1, extract_code hr2, hhok, herr⟩

theorem byteAt_slice (l : List Byte) {i j k : Nat} (hk : k < j - i) :
    byteAt (slice l i j) k = byteAt l (i + k) := by
  rw [byteAt_eq, byteAt_eq, slice, List.getElem?_take_of_lt hk, List.getElem?_drop]

/-- Settles O52: with part 1 valid in region A alone, A is chosen, and part 2 is as it reconciles. -/
theorem readRecordEndToEnd : Obligations.ReadRecordEndToEnd := by
  intro s rest hf hin h ra rb hh hA hseq hB h2A
  obtain ⟨t, hrun, _, _, hhdr, _, _, hout⟩ := readRecordResult s rest hf hin
  have ho1 : reconcile (true && p1Valid (slice ra 0 112)) (byteAt ra 0x09)
      (true && p1Valid (slice rb 0 112)) (byteAt rb 0x09) s.eqPolicy = .fromA := by
    rw [hA, hB]
    rfl
  obtain ⟨o2, ho2⟩ : ∃ o2, (if byteAt ra 0x16 != 0 then
      reconcile true (byteAt ra 0x72) (p2Valid (slice rb 112 176)) (byteAt rb 0x72) s.eqPolicy
      else .notAttempted) = o2 := ⟨_, rfl⟩
  obtain ⟨hp1, hp2, hr1, hr2, hhok, herr⟩ := hout.of_choices ho1 (o2 := o2) (by
    rw [h2A, Bool.true_and, Bool.true_and, show Choice.fromA.selects.isSome = true from rfl,
      show chosenBytes .fromA (plainRegion s.tag (tagHeader s.tag) .a)
        (plainRegion s.tag (tagHeader s.tag) .b) 0 112 = slice ra 0 112 from rfl,
      byteAt_slice _ (by omega), Nat.zero_add, Bool.true_and]
    exact ho2)
  have herr' (hne : o2 ≠ .ambiguous) : t.err = .ok := by
    rw [herr, hh]
    simp [hne]
  have hpresent (hne : byteAt ra 0x16 ≠ 0) :
      o2 = reconcile true (byteAt ra 0x72) (p2Valid (slice rb 112 176)) (byteAt rb 0x72)
        s.eqPolicy := by
    rw [← ho2, if_pos (bne_iff_ne.mpr hne)]
  refine ⟨t, hrun, hhdr, hhok.trans hh, hr1, hp1, fun hz => ?_, fun hne => ⟨?_, fun hcode => ?_⟩,
    fun hne hB2 => ?_⟩
  · obtain rfl : .notAttempted = o2 := by
      rw [← ho2, hz]
      rfl
    exact ⟨hr2, herr' nofun⟩
  · rw [hr2, hpresent hne]
  · refine herr' ?_
    rintro rfl
    exact hcode hr2
  · obtain rfl : o2 = .fromA := by
      rw [hpresent hne, hB2]
      rfl
    exact ⟨hr2, hp2, herr' nofun⟩

end Sys2Proof.Machine

/-! The transactions of WRITE_RECORD as a chain of requests (spec/43_arbiter.md R286 to R292). -/

namespace Sys2Proof.Machine

/-! What transactions do to the tag (R99). -/

/-- The tag after one transaction is answered. -/
def Transaction.apply (x : Transaction) (tag : Memory) : Memory :=
  match x.op with
  | .read => tag
  | .write d => setTagBlock tag x.block d

/-- The tag after the transactions of a list are answered, in order. -/
def applyAll (l : List Transaction) (tag : Memory) : Memory :=
  l.foldl (fun m x => x.apply m) tag

theorem applyAll_append (l l' : List Transaction) (tag : Memory) :
    applyAll (l ++ l') tag = applyAll l' (applyAll l tag) := List.foldl_append

theorem Transaction.apply_of_read {x : Transaction} (h : x.op = .read) (tag : Memory) :
    x.apply tag = tag := by
  rw [Transaction.apply, h]

theorem Transaction.apply_of_write {x : Transaction} {d : Block} (h : x.op = .write d)
    (tag : Memory) : x.apply tag = setTagBlock tag x.block d := by
  rw [Transaction.apply, h]

theorem Transaction.tagBlock_apply_other (x : Transaction) (tag : Memory) {n : Nat}
    (h : x.op ≠ .read → x.block ≠ n) : tagBlock (x.apply tag) n = tagBlock tag n := by
  cases ho : x.op with
  | read => rw [x.apply_of_read ho]
  | write d =>
    rw [x.apply_of_write ho, tagBlock_setTagBlock_other]
    exact (h (by rw [ho]; nofun)).symm

/-- Reads leave the tag as it is. -/
theorem applyAll_of_reads {l : List Transaction} (h : ∀ x ∈ l, x.op = .read) (tag : Memory) :
    applyAll l tag = tag := by
  induction l with
  | nil => rfl
  | cons x l ih =>
    rw [applyAll, List.foldl_cons, x.apply_of_read (h x (by simp))]
    exact ih fun y hy => h y (by simp [hy])

/-- No two writes of a list go to one block. -/
def WritesApart (l : List Transaction) : Prop :=
  l.Pairwise fun x y => x.op ≠ .read → y.op ≠ .read → x.block ≠ y.block

theorem tagAfter_applyAll {l : List Transaction} (h : WritesApart l) (tag : Memory) :
    TagAfter l tag (applyAll l tag) := by
  induction l generalizing tag with
  | nil => exact ⟨fun _ hx => absurd hx (by simp), fun _ _ => rfl⟩
  | cons x l ih =>
    obtain ⟨hx, hl⟩ := List.pairwise_cons.mp h
    obtain ⟨hwritten, hkept⟩ := ih hl (x.apply tag)
    refine ⟨fun y hy d hd => ?_, fun n hn => ?_⟩
    · rcases List.mem_cons.mp hy with rfl | hy
      · have hne : y.op ≠ .read := by rw [hd]; nofun
        refine (hkept y.block fun z hz hzo => (hx z hz hne hzo).symm).trans ?_
        rw [y.apply_of_write hd, tagBlock_setTagBlock_same]
      · exact hwritten y hy d hd
    · refine (hkept n fun y hy => hn y (by simp [hy])).trans ?_
      exact x.tagBlock_apply_other tag (hn x (by simp))

/-! Requests in a chain. -/

/-- A point where the command waits: its position, the transaction, and RES0 so far. -/
structure Stop where
  /-- The position. -/
  pos : Position
  /-- The transaction that is waited for. -/
  x : Transaction
  /-- RES0 while it is waited for. -/
  res0 : Word

/-- The state that waits at a stop: u, with the tag as it then stands and the moves to come. -/
def Stop.state (a : Stop) (w : Word) (u : State) (tag : Memory) (rest : List Event) : State :=
  { u with
    tag := tag, res0 := a.res0, phase := .busy w a.pos (some (u.request a.x.block a.x.op)),
    inputs := rest }

/-- The answer to a's transaction, a write, takes the command to b, whatever the tag holds. -/
def Follows (w : Word) (u : State) (a b : Stop) : Prop :=
  (∃ d, a.x.op = .write d) ∧ ∀ (tag : Memory) (phase : Phase) (rest : List Event) (d : Block),
    onOk w a.pos a.x.block d { u with tag := tag, res0 := a.res0, phase := phase, inputs := rest } =
      b.state w u tag rest

section
variable {w : Word} {u : State} {a b : Stop}

/-- The ideal answer to a write. -/
theorem Stop.step_write {d : Block} (h : a.x.op = .write d) (w : Word) (u : State) (tag : Memory)
    (rest : List Event) :
    step (a.state w u tag (.idealAnswer :: rest)) =
      .next (onOk w a.pos a.x.block d { u with
        tag := a.x.apply tag, res0 := a.res0,
        phase := .busy w a.pos (some (u.request a.x.block a.x.op)), inputs := rest }) := by
  have hstep := step_ideal_write (s := a.state w u tag (.idealAnswer :: rest)) (d := d) rfl h rfl
  rw [hstep, a.x.apply_of_write h]
  rfl

theorem Follows.step (h : Follows w u a b) (tag : Memory) (rest : List Event) :
    step (a.state w u tag (.idealAnswer :: rest)) = .next (b.state w u (a.x.apply tag) rest) := by
  obtain ⟨⟨d, hd⟩, hok⟩ := h
  rw [a.step_write hd, hok]

/-- Along a chain, k answers lead to stop k. -/
theorem run_stops {l : List Stop} (hl : l.IsChain (Follows w u)) (h0 : 0 < l.length) {k : Nat}
    (hk : k < l.length) (tag : Memory) (rest : List Event) :
    run k (l[0].state w u tag (List.replicate k .idealAnswer ++ rest)) =
      .next (l[k].state w u (applyAll ((l.map (·.x)).take k) tag) rest) := by
  induction k generalizing rest with
  | zero => rfl
  | succ k ih =>
    have hfollows : Follows w u l[k] l[k + 1] := List.isChain_iff_getElem.mp hl k hk
    rw [replicate_succ_append]
    refine (run_last (ih (by omega) _) (hfollows.step _ _)).trans ?_
    rw [List.take_add_one, applyAll_append, List.getElem?_map, List.getElem?_eq_getElem (by omega)]
    rfl

end

end Sys2Proof.Machine

/-! The writes of WRITE_RECORD in order: the stale regions' and the re-key's (spec/43_arbiter.md R286, R288,
R290, R291). -/

namespace Sys2Proof.Machine

/-- The write of block i of the part 1 p to region r under the header h (R286). -/
def part1Write (h p : List Byte) (r : Region) (i : Nat) : Transaction :=
  ⟨regionBlock r i,
    .write (cipherBlock h (regionBlock r i) (toVec 16 (slice p (16 * i) (16 * i + 16)))), 6⟩

/-- The write of block 7 + j of the record, of its part 2 q (R286). -/
def part2Write (h q : List Byte) (r : Region) (j : Nat) : Transaction :=
  ⟨regionBlock r (7 + j),
    .write (cipherBlock h (regionBlock r (7 + j)) (toVec 16 (slice q (16 * j) (16 * j + 16)))), 7⟩

/-- The stops of a part: its positions, in order, with one value of RES0. -/
def partStops {n : Nat} (pos : Fin n → Position) (x : Nat → Transaction) (res0 : Word) : List Stop :=
  (List.finRange n).map fun i => ⟨pos i, x i.val, res0⟩

/-- The header and the two parts of a state. -/
structure HoldsRecord (u : State) (h p q : List Byte) : Prop where
  hdr : u.buf .hdr = h
  p1 : u.buf .p1 = p
  p2 : u.buf .p2 = q

section
variable {w : Word} {u : State} {h p q : List Byte}

theorem encBlock_eq (hu : u.buf .hdr = h) (n : Nat) (x : Block) : u.encBlock n x = cipherBlock h n x := by
  rw [State.encBlock, State.blockKey, buf_ksuf, hu, cipherBlock]

/-- The record and the header of a state that differs from u in no buffer. -/
theorem HoldsRecord.congr {z : State} (hu : HoldsRecord u h p q) (hm : z.mem = u.mem) :
    HoldsRecord z h p q :=
  ⟨(buf_congr hm _).trans hu.hdr, (buf_congr hm _).trans hu.p1, (buf_congr hm _).trans hu.p2⟩

/-- The request for a block of part 1. -/
theorem writeRecordBlock_part1 (hu : HoldsRecord u h p q) (w : Word) (r : Region) {i : Nat} (hi : i < 7)
    (pos : Position) :
    writeRecordBlock w r i pos u = { u with
      phase := .busy w pos (some (u.request (part1Write h p r i).block (part1Write h p r i).op)) } := by
  rw [writeRecordBlock_eq w r i (by omega), encBlock_eq hu.hdr, State.recordBlock, if_pos hi, hu.p1]
  rfl

/-- The request for a block of part 2. -/
theorem writeRecordBlock_part2 (hu : HoldsRecord u h p q) (w : Word) (r : Region) {j : Nat} (hj : j < 4)
    (pos : Position) :
    writeRecordBlock w r (7 + j) pos u = { u with
      phase := .busy w pos (some (u.request (part2Write h q r j).block (part2Write h q r j).op)) } := by
  rw [writeRecordBlock_eq w r (7 + j) (by omega), encBlock_eq hu.hdr, State.recordBlock,
    if_neg (by omega), Nat.add_sub_cancel_left, hu.p2]
  rfl

/-- The request for a block of part 1 is the stop there. -/
theorem stop_part1 (hu : HoldsRecord u h p q) (w : Word) (r : Region) {i : Nat} (hi : i < 7)
    (pos : Position) (tag : Memory) (res0 : Word) (phase : Phase) (rest : List Event) :
    writeRecordBlock w r i pos { u with tag := tag, res0 := res0, phase := phase, inputs := rest } =
      Stop.state ⟨pos, part1Write h p r i, res0⟩ w u tag rest :=
  writeRecordBlock_part1 (u := { u with tag := tag, res0 := res0, phase := phase, inputs := rest })
    (hu.congr rfl) w r hi pos

theorem stop_part2 (hu : HoldsRecord u h p q) (w : Word) (r : Region) {j : Nat} (hj : j < 4)
    (pos : Position) (tag : Memory) (res0 : Word) (phase : Phase) (rest : List Event) :
    writeRecordBlock w r (7 + j) pos
        { u with tag := tag, res0 := res0, phase := phase, inputs := rest } =
      Stop.state ⟨pos, part2Write h q r j, res0⟩ w u tag rest :=
  writeRecordBlock_part2 (u := { u with tag := tag, res0 := res0, phase := phase, inputs := rest })
    (hu.congr rfl) w r hj pos

/-- A part's stops form a chain when each goes to the next index. -/
theorem isChain_partStops {n : Nat} {pos : Fin n → Position} {x : Nat → Transaction} {res0 : Word}
    (hstep : ∀ i j, nextIndex i = some j →
      Follows w u ⟨pos i, x i.val, res0⟩ ⟨pos j, x j.val, res0⟩) :
    (partStops pos x res0).IsChain (Follows w u) := by
  rw [List.isChain_iff_getElem]
  intro i hi
  have hi' : i + 1 < n := by simpa [partStops] using hi
  have hnext := hstep ⟨i, by omega⟩ ⟨i + 1, hi'⟩ (dif_pos hi')
  simpa [partStops] using hnext

/-- The answer to a's transaction, a write, completes the command with a value of RES0. -/
def Completes (w : Word) (u : State) (a : Stop) (res0 : Word) : Prop :=
  (∃ d, a.x.op = .write d) ∧ ∀ (tag : Memory) (phase : Phase) (rest : List Event) (d : Block),
    onOk w a.pos a.x.block d { u with tag := tag, res0 := a.res0, phase := phase, inputs := rest } =
      finish .ok { u with tag := tag, res0 := res0, phase := phase, inputs := rest }

/-- A chain answered to its end. -/
theorem run_stops_end {l : List Stop} {res0 : Word} (hl : l.IsChain (Follows w u)) (h0 : 0 < l.length)
    (hend : Completes w u l[l.length - 1] res0) (tag : Memory) (rest : List Event) :
    run l.length (l[0].state w u tag (List.replicate l.length .idealAnswer ++ rest)) =
      .next { u with
        tag := applyAll (l.map (·.x)) tag, res0 := res0, err := .ok, done := true, phase := .idle,
        inputs := rest } := by
  obtain ⟨n, hn⟩ : ∃ n, l.length = n + 1 := ⟨l.length - 1, by omega⟩
  have hlast : l[l.length - 1] = l[n] := by simp only [hn, Nat.add_sub_cancel]
  rw [hlast] at hend
  obtain ⟨⟨d, hd⟩, hok⟩ := hend
  have hall : applyAll (l.map (·.x)) tag =
      l[n].x.apply (applyAll ((l.map (·.x)).take n) tag) := by
    have hsplit : l.map (·.x) = (l.map (·.x)).take n ++ [l[n].x] := by
      have htake : (l.map (·.x)).take (n + 1) = l.map (·.x) :=
        List.take_of_length_le (by rw [List.length_map, hn])
      refine htake.symm.trans ?_
      rw [List.take_add_one, List.getElem?_map, List.getElem?_eq_getElem (by omega)]
      rfl
    conv_lhs => rw [hsplit, applyAll_append]
    rfl
  have hrun := run_stops hl h0 (k := n) (by omega) tag (.idealAnswer :: rest)
  have hstep := (l[n].step_write hd w u (applyAll ((l.map (·.x)).take n) tag) rest).trans
    (congrArg Host.Outcome.next (hok _ _ _ _))
  rw [hn, replicate_succ_append, hall]
  exact run_last hrun hstep

/-- Stops joined: the last of the first part leads to the first of the second. -/
theorem isChain_partStops_append {n : Nat} {pos : Fin (n + 1) → Position} {x : Nat → Transaction}
    {res0 : Word} {a : Stop} {l : List Stop}
    (h1 : (partStops pos x res0).IsChain (Follows w u)) (h2 : (a :: l).IsChain (Follows w u))
    (hjoin : Follows w u ⟨pos (Fin.last n), x n, res0⟩ a) :
    (partStops pos x res0 ++ a :: l).IsChain (Follows w u) := by
  refine h1.append h2 fun b hb c hc => ?_
  obtain rfl : b = ⟨pos (Fin.last n), x n, res0⟩ := by
    simpa [partStops, List.finRange_succ_last, eq_comm] using hb
  obtain rfl : c = a := by simpa [eq_comm] using hc
  exact hjoin

/-! The stale regions' writes (R290, R291). -/

section
variable (hu : HoldsRecord u h p q) (w : Word)
include hu

theorem follows_wrPart1 (p2 : Bool) (stale1 stale2 : Region) (res0 : Word) {i j : Fin 7}
    (hij : nextIndex i = some j) :
    Follows w u ⟨.wrPart1 p2 stale1 stale2 i, part1Write h p stale1 i.val, res0⟩
      ⟨.wrPart1 p2 stale1 stale2 j, part1Write h p stale1 j.val, res0⟩ := by
  refine ⟨⟨_, rfl⟩, fun tag phase rest d => ?_⟩
  simp only [onOk, part1Written, hij]
  exact stop_part1 hu w _ j.isLt _ _ _ _ _

theorem follows_wrPart2 (stale2 : Region) (res0 : Word) {i j : Fin 4} (hij : nextIndex i = some j) :
    Follows w u ⟨.wrPart2 stale2 i, part2Write h q stale2 i.val, res0⟩
      ⟨.wrPart2 stale2 j, part2Write h q stale2 j.val, res0⟩ := by
  refine ⟨⟨_, rfl⟩, fun tag phase rest d => ?_⟩
  simp only [onOk, part2Written, hij]
  exact stop_part2 hu w _ j.isLt _ _ _ _ _

/-- Part 1 written, part 2 follows. -/
theorem follows_wrPart2_first (stale1 stale2 : Region) (res0 : Word) :
    Follows w u ⟨.wrPart1 true stale1 stale2 6, part1Write h p stale1 6, res0⟩
      ⟨.wrPart2 stale2 0, part2Write h q stale2 0, res0 ||| pieceBit false stale1⟩ := by
  refine ⟨⟨_, rfl⟩, fun tag phase rest d => ?_⟩
  simp only [onOk, part1Written, show nextIndex (6 : Fin 7) = none from rfl, if_true]
  exact stop_part2 hu w _ (j := 0) (by omega) _ _ _ _ _

end

theorem completes_wrPart1 (h p : List Byte) (w : Word) (u : State) (stale1 stale2 : Region)
    (res0 : Word) :
    Completes w u ⟨.wrPart1 false stale1 stale2 6, part1Write h p stale1 6, res0⟩
      (res0 ||| pieceBit false stale1) := by
  refine ⟨⟨_, rfl⟩, fun tag phase rest d => ?_⟩
  simp only [onOk, part1Written, show nextIndex (6 : Fin 7) = none from rfl, Bool.false_eq_true,
    if_false]
  rfl

theorem completes_wrPart2 (h q : List Byte) (w : Word) (u : State) (stale2 : Region) (res0 : Word) :
    Completes w u ⟨.wrPart2 stale2 3, part2Write h q stale2 3, res0⟩
      (res0 ||| pieceBit true stale2) := by
  refine ⟨⟨_, rfl⟩, fun tag phase rest d => ?_⟩
  simp only [onOk, part2Written, show nextIndex (3 : Fin 4) = none from rfl]
  rfl

/-- The stops of the stale regions' writes. -/
def staleStops (h p q : List Byte) (stale1 stale2 : Region) : Bool → List Stop
  | true => partStops (.wrPart1 true stale1 stale2) (part1Write h p stale1) 0 ++
      partStops (.wrPart2 stale2) (part2Write h q stale2) (pieceBit false stale1)
  | false => partStops (.wrPart1 false stale1 stale2) (part1Write h p stale1) 0

theorem length_staleStops (h p q : List Byte) (stale1 stale2 : Region) (p2 : Bool) :
    (staleStops h p q stale1 stale2 p2).length = if p2 then 11 else 7 := by
  cases p2 <;> rfl

theorem staleStops_map (h p q : List Byte) (stale1 stale2 : Region) (p2 : Bool) :
    (staleStops h p q stale1 stale2 p2).map (·.x) =
      part1Writes h p stale1 ++ if p2 then part2Writes h q stale2 else [] := by
  cases p2 <;> rfl

theorem isChain_staleStops (hu : HoldsRecord u h p q) (w : Word) (stale1 stale2 : Region) (p2 : Bool) :
    (staleStops h p q stale1 stale2 p2).IsChain (Follows w u) := by
  have h1 := isChain_partStops fun i j => follows_wrPart1 hu w p2 stale1 stale2 0 (i := i) (j := j)
  cases p2 with
  | false => exact h1
  | true =>
    have h2 := isChain_partStops fun i j =>
      follows_wrPart2 hu w stale2 (pieceBit false stale1) (i := i) (j := j)
    have hjoin := follows_wrPart2_first hu w stale1 stale2 0#32
    rw [BitVec.zero_or] at hjoin
    exact isChain_partStops_append h1 h2 hjoin

/-- RES0 once the stale regions are written (R291). -/
def staleRes0 (stale1 stale2 : Region) (p2 : Bool) : Word :=
  if p2 then pieceBit false stale1 ||| pieceBit true stale2 else pieceBit false stale1

/-! The re-key's writes (R288, R291). -/

section
variable (hu : HoldsRecord u h p q) (w : Word)
include hu

theorem follows_wrRekey1 (p2 : Bool) (r : Region) (res0 : Word) {i j : Fin 7}
    (hij : nextIndex i = some j) :
    Follows w u ⟨.wrRekey1 p2 r i, part1Write h p r i.val, res0⟩
      ⟨.wrRekey1 p2 r j, part1Write h p r j.val, res0⟩ := by
  refine ⟨⟨_, rfl⟩, fun tag phase rest d => ?_⟩
  simp only [onOk, rekey1Written, hij]
  exact stop_part1 hu w _ j.isLt _ _ _ _ _

theorem follows_wrRekey2 (r : Region) (res0 : Word) {i j : Fin 4} (hij : nextIndex i = some j) :
    Follows w u ⟨.wrRekey2 r i, part2Write h q r i.val, res0⟩
      ⟨.wrRekey2 r j, part2Write h q r j.val, res0⟩ := by
  refine ⟨⟨_, rfl⟩, fun tag phase rest d => ?_⟩
  simp only [onOk, rekey2Written, hij]
  exact stop_part2 hu w _ j.isLt _ _ _ _ _

/-- Part 1 written to a region, part 2 follows. -/
theorem follows_wrRekey2_first (r : Region) (res0 : Word) :
    Follows w u ⟨.wrRekey1 true r 6, part1Write h p r 6, res0⟩
      ⟨.wrRekey2 r 0, part2Write h q r 0, res0 ||| pieceBit false r⟩ := by
  refine ⟨⟨_, rfl⟩, fun tag phase rest d => ?_⟩
  simp only [onOk, rekey1Written, show nextIndex (6 : Fin 7) = none from rfl, if_true]
  exact stop_part2 hu w _ (j := 0) (by omega) _ _ _ _ _

/-- Region A written without a part 2, region B follows. -/
theorem follows_regionB_of_part1 (res0 : Word) :
    Follows w u ⟨.wrRekey1 false .a 6, part1Write h p .a 6, res0⟩
      ⟨.wrRekey1 false .b 0, part1Write h p .b 0, res0 ||| pieceBit false .a⟩ := by
  refine ⟨⟨_, rfl⟩, fun tag phase rest d => ?_⟩
  simp only [onOk, rekey1Written, show nextIndex (6 : Fin 7) = none from rfl, Bool.false_eq_true,
    if_false, rekeyNext]
  exact stop_part1 hu w _ (by omega) _ _ _ _ _

/-- Region A written, region B follows. -/
theorem follows_regionB_of_part2 (res0 : Word) :
    Follows w u ⟨.wrRekey2 .a 3, part2Write h q .a 3, res0⟩
      ⟨.wrRekey1 true .b 0, part1Write h p .b 0, res0 ||| pieceBit true .a⟩ := by
  refine ⟨⟨_, rfl⟩, fun tag phase rest d => ?_⟩
  simp only [onOk, rekey2Written, show nextIndex (3 : Fin 4) = none from rfl, rekeyNext]
  exact stop_part1 hu w _ (by omega) _ _ _ _ _

end

theorem completes_wrRekey1 (h p : List Byte) (w : Word) (u : State) (res0 : Word) :
    Completes w u ⟨.wrRekey1 false .b 6, part1Write h p .b 6, res0⟩ (res0 ||| pieceBit false .b) := by
  refine ⟨⟨_, rfl⟩, fun tag phase rest d => ?_⟩
  simp only [onOk, rekey1Written, show nextIndex (6 : Fin 7) = none from rfl, Bool.false_eq_true,
    if_false, rekeyNext]
  rfl

theorem completes_wrRekey2 (h q : List Byte) (w : Word) (u : State) (res0 : Word) :
    Completes w u ⟨.wrRekey2 .b 3, part2Write h q .b 3, res0⟩ (res0 ||| pieceBit true .b) := by
  refine ⟨⟨_, rfl⟩, fun tag phase rest d => ?_⟩
  simp only [onOk, rekey2Written, show nextIndex (3 : Fin 4) = none from rfl, rekeyNext]
  rfl

/-- The stops of the re-key's writes. -/
def rekeyStops (h p q : List Byte) : Bool → List Stop
  | true => partStops (.wrRekey1 true .a) (part1Write h p .a) 0x10 ++
      (partStops (.wrRekey2 .a) (part2Write h q .a) 0x11 ++
        (partStops (.wrRekey1 true .b) (part1Write h p .b) 0x15 ++
          partStops (.wrRekey2 .b) (part2Write h q .b) 0x17))
  | false => partStops (.wrRekey1 false .a) (part1Write h p .a) 0x10 ++
      partStops (.wrRekey1 false .b) (part1Write h p .b) 0x11

theorem length_rekeyStops (h p q : List Byte) (p2 : Bool) :
    (rekeyStops h p q p2).length = if p2 then 22 else 14 := by
  cases p2 <;> rfl

theorem isChain_rekeyStops (hu : HoldsRecord u h p q) (w : Word) (p2 : Bool) :
    (rekeyStops h p q p2).IsChain (Follows w u) := by
  have h1 (r : Region) (res0 : Word) :=
    isChain_partStops fun i j => follows_wrRekey1 hu w p2 r res0 (i := i) (j := j)
  have h2 (r : Region) (res0 : Word) :=
    isChain_partStops fun i j => follows_wrRekey2 hu w r res0 (i := i) (j := j)
  cases p2 with
  | false => exact isChain_partStops_append (h1 .a _) (h1 .b _) (follows_regionB_of_part1 hu w _)
  | true =>
    exact isChain_partStops_append (h1 .a _)
      (isChain_partStops_append (h2 .a _)
        (isChain_partStops_append (h1 .b _) (h2 .b _) (follows_wrRekey2_first hu w .b _))
        (follows_regionB_of_part2 hu w _)) (follows_wrRekey2_first hu w .a _)

end

end Sys2Proof.Machine

/-! WRITE_RECORD's refresh and seals, and what each wait of the command leaves (spec/43_arbiter.md R286 to
R292). -/

namespace Sys2Proof.Machine

/-! Seals with a new sequence byte (R286). -/

theorem bufWrite_mem_congr {s t : State} (h : t.mem = s.mem) (b : Buffer) (o : Nat) (bs : List Byte) :
    (t.bufWrite b o bs).mem = (s.bufWrite b o bs).mem := by
  rw [bufWrite_mem, bufWrite_mem, h]

theorem bufWrite_bufWrite_eq (s : State) (b c : Buffer) (o k : Nat) (bs cs : List Byte) :
    (s.bufWrite b o bs).bufWrite c k cs =
      { s with mem := ((s.bufWrite b o bs).bufWrite c k cs).mem } := rfl

theorem sealP1With_eq (s : State) (n : Byte) :
    s.sealP1With n = { s with mem := (s.sealP1With n).mem } :=
  bufWrite_bufWrite_eq s .p1 .p1 9 0 [n] _

theorem sealP2With_eq (s : State) (n : Byte) :
    s.sealP2With n = { s with mem := (s.sealP2With n).mem } :=
  bufWrite_bufWrite_eq s .p2 .p2 2 0 [n] _

theorem sealP1_mem_congr {s t : State} (h : t.mem = s.mem) : t.sealP1.mem = s.sealP1.mem := by
  rw [State.sealP1, State.sealP1, bufWrite_mem, bufWrite_mem, h, buf_of_mem_eq h]

theorem sealP2_mem_congr {s t : State} (h : t.mem = s.mem) : t.sealP2.mem = s.sealP2.mem := by
  rw [State.sealP2, State.sealP2, bufWrite_mem, bufWrite_mem, h, buf_of_mem_eq h]

theorem sealP1With_mem_congr {s t : State} (h : t.mem = s.mem) (n : Byte) :
    (t.sealP1With n).mem = (s.sealP1With n).mem :=
  sealP1_mem_congr (bufWrite_mem_congr h .p1 9 [n])

theorem sealP2With_mem_congr {s t : State} (h : t.mem = s.mem) (n : Byte) :
    (t.sealP2With n).mem = (s.sealP2With n).mem :=
  sealP2_mem_congr (bufWrite_mem_congr h .p2 2 [n])

theorem sealP1With_buf_p1 (s : State) (n : Byte) :
    (s.sealP1With n).buf .p1 = p1Sealed (splice (s.buf .p1) 0x09 [n]) := by
  rw [State.sealP1With, sealP1_buf, buf_bufWrite_same _ .p1 rfl _ _ (by simp [Buffer.size])]

theorem sealP2With_buf_p2 (s : State) (n : Byte) :
    (s.sealP2With n).buf .p2 = p2Sealed (splice (s.buf .p2) 0x02 [n]) := by
  rw [State.sealP2With, sealP2_buf, buf_bufWrite_same _ .p2 rfl _ _ (by simp [Buffer.size])]

theorem sealP1With_buf_other (s : State) (n : Byte) {b : Buffer} (hb : b ≠ .p1) :
    (s.sealP1With n).buf b = s.buf b := by
  rw [State.sealP1With, State.sealP1,
    buf_bufWrite_other _ _ _ hb _ _ (by rw [length_p1Sealed _ (length_buf _ _)]; decide),
    buf_bufWrite_other _ _ _ hb _ _ (by simp [Buffer.size])]

theorem sealP2With_buf_other (s : State) (n : Byte) {b : Buffer} (hb : b ≠ .p2) :
    (s.sealP2With n).buf b = s.buf b := by
  rw [State.sealP2With, State.sealP2,
    buf_bufWrite_other _ _ _ hb _ _ (by rw [length_p2Sealed _ (length_buf _ _)]; decide),
    buf_bufWrite_other _ _ _ hb _ _ (by simp [Buffer.size])]

/-- R286, R291: sealing the record writes the two parts and RES1. -/
theorem sealRecord_eq (s : State) (p2 : Bool) (n1 n2 : Byte) :
    s.sealRecord p2 n1 n2 = { s with
      mem := (s.sealRecord p2 n1 n2).mem, res1 := 0#16 ++ (if p2 then n2 else 0) ++ n1 } := by
  cases p2 with
  | false =>
    simp only [State.sealRecord, Bool.false_eq_true, if_false]
    rw [sealP1With_eq]
    rfl
  | true =>
    simp only [State.sealRecord, if_true]
    rw [sealP2With_eq, sealP1With_eq]
    rfl

theorem sealRecord_mem_congr {s t : State} (h : t.mem = s.mem) (p2 : Bool) (n1 n2 : Byte) :
    (t.sealRecord p2 n1 n2).mem = (s.sealRecord p2 n1 n2).mem := by
  cases p2 with
  | false =>
    simp only [State.sealRecord, Bool.false_eq_true, if_false]
    exact sealP1With_mem_congr h n1
  | true =>
    simp only [State.sealRecord, if_true]
    exact sealP2With_mem_congr (sealP1With_mem_congr h n1) n2

/-- R286: the buffers after the record is sealed. -/
theorem sealRecord_buf (s : State) (p2 : Bool) (n1 n2 : Byte) :
    (s.sealRecord p2 n1 n2).buf .p1 = p1Sealed (splice (s.buf .p1) 0x09 [n1]) ∧
      (s.sealRecord p2 n1 n2).buf .p2 =
        (if p2 then p2Sealed (splice (s.buf .p2) 0x02 [n2]) else s.buf .p2) ∧
      ∀ b : Buffer, b ≠ .p1 → b ≠ .p2 → (s.sealRecord p2 n1 n2).buf b = s.buf b := by
  cases p2 with
  | false =>
    simp only [State.sealRecord, Bool.false_eq_true, if_false, withRes1_buf]
    exact ⟨sealP1With_buf_p1 s n1, sealP1With_buf_other s n1 (by decide),
      fun b h1 _ => sealP1With_buf_other s n1 h1⟩
  | true =>
    simp only [State.sealRecord, if_true, withRes1_buf]
    refine ⟨?_, ?_, fun b h1 h2 => ?_⟩
    · rw [sealP2With_buf_other _ _ (by decide), sealP1With_buf_p1]
    · rw [sealP2With_buf_p2, sealP1With_buf_other _ _ (by decide)]
    · rw [sealP2With_buf_other _ _ h2, sealP1With_buf_other _ _ h1]

/-! The refresh (R287). -/

theorem refreshHdr_buf_other (s : State) (t0 : Block) {b : Buffer} (hb : b ≠ .hdr) :
    (s.refreshHdr t0).buf b = s.buf b := by
  rw [State.refreshHdr, State.sealHdr,
    buf_bufWrite_other _ _ _ hb _ _ (by rw [length_hdrSealed _ (length_buf _ _)]; decide),
    buf_bufWrite_other _ _ _ hb _ _ (by simp [Buffer.size])]

/-- The state of a WRITE_RECORD once begun, but for its request: its results zeroed. -/
def State.begun (s : State) : State := { s with res0 := 0, res1 := 0, seq := 0 }

/-- The same once HDR is refreshed from tag block 0. -/
def State.withRefresh (s : State) : State :=
  { s.begun with mem := (s.refreshHdr (tagBlock s.tag 0)).mem }

/-- The same once the record is sealed with new sequence bytes, and SEQ written. -/
def State.withSeals (s : State) (p2 : Bool) (n1 n2 : Byte) (q : Word) : State :=
  { s.withRefresh with
    mem := (s.withRefresh.sealRecord p2 n1 n2).mem
    res1 := 0#16 ++ (if p2 then n2 else 0) ++ n1
    seq := q }

theorem withRefresh_buf_hdr (s : State) :
    s.withRefresh.buf .hdr = refreshedHeader s.tag (s.buf .hdr) := by
  rw [buf_congr (s := s.refreshHdr (tagBlock s.tag 0)) (t := s.withRefresh) rfl, refreshHdr_buf_hdr, refreshedHeader]

theorem withRefresh_buf_other (s : State) {b : Buffer} (hb : b ≠ .hdr) :
    s.withRefresh.buf b = s.buf b := by
  rw [buf_congr (s := s.refreshHdr (tagBlock s.tag 0)) (t := s.withRefresh) rfl, refreshHdr_buf_other _ _ hb]

/-- The header and the sealed parts. -/
theorem withSeals_holds (s : State) (p2 : Bool) (n1 n2 : Byte) (q : Word) :
    HoldsRecord (s.withSeals p2 n1 n2 q) (refreshedHeader s.tag (s.buf .hdr))
      (p1Sealed (splice (s.buf .p1) 0x09 [n1]))
      (if p2 then p2Sealed (splice (s.buf .p2) 0x02 [n2]) else s.buf .p2) := by
  have hbuf := buf_congr (s := s.withRefresh.sealRecord p2 n1 n2) (t := s.withSeals p2 n1 n2 q) rfl
  obtain ⟨hp1, hp2, hothers⟩ := sealRecord_buf s.withRefresh p2 n1 n2
  rw [withRefresh_buf_other _ (by decide)] at hp1 hp2
  exact ⟨(hbuf _).trans ((hothers .hdr (by decide) (by decide)).trans (withRefresh_buf_hdr s)),
    (hbuf _).trans hp1, (hbuf _).trans hp2⟩

theorem withSeals_buf_other (s : State) (p2 : Bool) (n1 n2 : Byte) (q : Word) {b : Buffer}
    (hb : b ≠ .hdr) (hb1 : b ≠ .p1) (hb2 : b ≠ .p2) : (s.withSeals p2 n1 n2 q).buf b = s.buf b := by
  rw [buf_congr (s := s.withRefresh.sealRecord p2 n1 n2) (t := s.withSeals p2 n1 n2 q) rfl,
    (sealRecord_buf s.withRefresh p2 n1 n2).2.2 b hb1 hb2, withRefresh_buf_other s hb]

end Sys2Proof.Machine

/-! WRITE_RECORD from its command word to its first write (spec/43_arbiter.md R286 to R290). -/

namespace Sys2Proof.Machine

/-- The ideal answer to a read. -/
theorem Stop.step_read {a : Stop} (h : a.x.op = .read) (w : Word) (u : State) (tag : Memory)
    (rest : List Event) :
    step (a.state w u tag (.idealAnswer :: rest)) =
      .next (onOk w a.pos a.x.block (tagBlock tag a.x.block) (a.state w u tag rest)) := by
  have hstep := step_ideal_read (s := a.state w u tag (.idealAnswer :: rest)) rfl h rfl
  rw [hstep]
  rfl

/-- The request for a block that passes the guard, as a stop. -/
theorem issue_stop (w : Word) (u : State) (a : Stop) (hg : portGuard a.x.block a.x.op = true)
    (tag : Memory) (phase : Phase) (rest : List Event) :
    issue w a.x.block a.x.op a.pos
        { u with tag := tag, res0 := a.res0, phase := phase, inputs := rest } =
      a.state w u tag rest := by
  rw [issue_of_guard _ _ _ _ _ hg]
  rfl

/-! The refresh (R287). -/

/-- The read of block 0. -/
def refreshStop0 (rw : Bool) : Stop := ⟨.wrRefresh0 rw, ⟨0, .read, 1⟩, 0⟩

/-- The read of block 1, with block 0 held. -/
def refreshStop1 (rw : Bool) (t0 : Block) : Stop := ⟨.wrRefresh1 rw t0, ⟨1, .read, 1⟩, 0⟩

/-- The write of the identity block (R288). -/
def identStop (h : List Byte) (p2 : Bool) : Stop :=
  ⟨.wrIdent p2, ⟨1, .write (toVec 16 (slice h 16 32)), 4⟩, 0⟩

/-- A read of the sequence read (R289). -/
def seqStop (slot : SeqSlot) (p2 : Bool) (s1A s2A s1B : Byte) : Stop :=
  ⟨.wrSeq slot p2 s1A s2A s1B, ⟨(Position.wrSeq slot p2 s1A s2A s1B).block, .read, 5⟩, 0⟩

theorem portGuard_seqStop (slot : SeqSlot) (p2 : Bool) (s1A s2A s1B : Byte) :
    portGuard (seqStop slot p2 s1A s2A s1B).x.block (seqStop slot p2 s1A s2A s1B).x.op = true :=
  portGuard_block (pos := .wrSeq slot p2 s1A s2A s1B) nofun rfl

section
variable {s : State} {rw : Bool} {rest : List Event} {w : Word}

theorem run_refresh0 (hw : w = (encode (.writeRecord rw)).word) (hf : s.fetch = some w) :
    run 1 s = .next ((refreshStop0 rw).state w s.begun s.tag s.inputs) := by
  subst hw
  refine run_succ 0 ((step_writeRecord hf).trans ?_)
  rw [Stop.state, show (refreshStop0 rw).x.block = 0 from rfl, request_of_sector_zero _ _ rfl]
  rfl

theorem run_refresh1 (hw : w = (encode (.writeRecord rw)).word) (hf : s.fetch = some w)
    (hi : s.inputs = .idealAnswer :: rest) :
    run 2 s = .next ((refreshStop1 rw (tagBlock s.tag 0)).state w s.begun s.tag rest) := by
  have h0 := run_refresh0 hw hf
  rw [hi] at h0
  refine run_last h0 ((Stop.step_read rfl _ _ _ _).trans (congrArg Host.Outcome.next ?_))
  exact issue_stop w s.begun (refreshStop1 rw (tagBlock s.tag 0)) rfl _ _ _

/-- What the refresh goes on with: the comparison of the identity (R287). -/
theorem refreshed_eq (w : Word) (rw : Bool) (t0 t1 : Block) (s : State) :
    refreshed w rw t0 t1 s =
      if slice ((s.refreshHdr t0).buf .hdr) 16 32 = t1.toList then
        issue w (regionBlock .a 0) .read (.wrSeq .a0 (part2Present (s.buf .p1)) 0 0 0) (s.refreshHdr t0)
      else if rw then beginRekey w (part2Present (s.buf .p1)) (s.refreshHdr t0)
      else raise .identityMismatch 1 .compare .none (s.refreshHdr t0) := by
  rw [← refreshHdr_buf_other s t0 (b := .p1) (by decide)]
  rfl

/-- The refresh of a state of the command is that of the state at the command word. -/
theorem refreshHdr_begun (s : State) (phase : Phase) (rest : List Event) :
    State.refreshHdr { s.begun with tag := s.tag, res0 := 0, phase := phase, inputs := rest }
        (tagBlock s.tag 0) =
      { s.withRefresh with tag := s.tag, res0 := 0, phase := phase, inputs := rest } := by
  have hmem := refreshHdr_mem_congr (s := s)
    (t := { s.begun with tag := s.tag, res0 := 0, phase := phase, inputs := rest }) (tagBlock s.tag 0) rfl
  rw [refreshHdr_eq, hmem]
  rfl

theorem run_compare (hw : w = (encode (.writeRecord rw)).word) (hf : s.fetch = some w)
    (hi : s.inputs = .idealAnswer :: .idealAnswer :: rest) :
    ∃ phase, run 3 s = .next
      (if slice (refreshedHeader s.tag (s.buf .hdr)) 16 32 = (tagBlock s.tag 1).toList then
        issue w (regionBlock .a 0) .read (.wrSeq .a0 (part2Present (s.buf .p1)) 0 0 0)
          { s.withRefresh with tag := s.tag, res0 := 0, phase := phase, inputs := rest }
      else if rw then
        beginRekey w (part2Present (s.buf .p1))
          { s.withRefresh with tag := s.tag, res0 := 0, phase := phase, inputs := rest }
      else raise .identityMismatch 1 .compare .none
          { s.withRefresh with tag := s.tag, res0 := 0, phase := phase, inputs := rest }) := by
  have hstep := Stop.step_read (a := refreshStop1 rw (tagBlock s.tag 0)) rfl w s.begun s.tag rest
  obtain ⟨z, hz⟩ : ∃ z, z = (refreshStop1 rw (tagBlock s.tag 0)).state w s.begun s.tag rest :=
    ⟨_, rfl⟩
  have hrefresh : z.refreshHdr (tagBlock s.tag 0) =
      { s.withRefresh with tag := s.tag, res0 := 0, phase := z.phase, inputs := rest } := by
    rw [hz]
    exact refreshHdr_begun s _ rest
  have hp1 : z.buf .p1 = s.buf .p1 := buf_congr (by rw [hz]; rfl) _
  have hhdr : (z.refreshHdr (tagBlock s.tag 0)).buf .hdr = refreshedHeader s.tag (s.buf .hdr) :=
    (buf_congr (by rw [hrefresh]) _).trans (withRefresh_buf_hdr s)
  refine ⟨z.phase, (run_last (run_refresh1 hw hf hi) hstep).trans (congrArg Host.Outcome.next ?_)⟩
  rw [← hz]
  refine (refreshed_eq w rw (tagBlock s.tag 0) (tagBlock s.tag 1) z).trans ?_
  rw [hhdr, hrefresh, hp1]

/-- The identity matches: the sequence read begins (R289). -/
theorem run_matched (hw : w = (encode (.writeRecord rw)).word) (hf : s.fetch = some w)
    (hi : s.inputs = .idealAnswer :: .idealAnswer :: rest)
    (hid : slice (refreshedHeader s.tag (s.buf .hdr)) 16 32 = (tagBlock s.tag 1).toList) :
    run 3 s = .next ((seqStop .a0 (part2Present (s.buf .p1)) 0 0 0).state w s.withRefresh s.tag rest) := by
  obtain ⟨phase, hrun⟩ := run_compare hw hf hi
  rw [if_pos hid] at hrun
  exact hrun.trans (congrArg Host.Outcome.next
    (issue_stop w s.withRefresh (seqStop .a0 (part2Present (s.buf .p1)) 0 0 0)
      (portGuard_seqStop _ _ _ _ _) s.tag phase rest))

/-- The identity differs and the re-key is asked for: the identity block is written (R288). -/
theorem run_mismatched (hw : w = (encode (.writeRecord true)).word) (hf : s.fetch = some w)
    (hi : s.inputs = .idealAnswer :: .idealAnswer :: rest)
    (hid : slice (refreshedHeader s.tag (s.buf .hdr)) 16 32 ≠ (tagBlock s.tag 1).toList) :
    run 3 s = .next ((identStop (refreshedHeader s.tag (s.buf .hdr)) (part2Present (s.buf .p1))).state w
      s.withRefresh s.tag rest) := by
  obtain ⟨phase, hrun⟩ := run_compare hw hf hi
  rw [if_neg hid, if_pos rfl] at hrun
  refine hrun.trans (congrArg Host.Outcome.next ?_)
  rw [← withRefresh_buf_hdr s]
  exact issue_stop w s.withRefresh (identStop (s.withRefresh.buf .hdr) (part2Present (s.buf .p1))) rfl
    s.tag phase rest

end

end Sys2Proof.Machine

/-! WRITE_RECORD's two paths (spec/43_arbiter.md R288 to R290). -/

namespace Sys2Proof.Machine

/-- Sealing a state of the command is sealing the state at its refresh. -/
theorem sealRecord_resumed (s : State) (p2 : Bool) (n1 n2 : Byte) (q : Word) (tag : Memory)
    (res0 : Word) (phase : Phase) (rest : List Event) :
    State.sealRecord { s.withRefresh with
        tag := tag, res0 := res0, seq := q, phase := phase, inputs := rest } p2 n1 n2 =
      { s.withSeals p2 n1 n2 q with tag := tag, res0 := res0, phase := phase, inputs := rest } := by
  have hmem := sealRecord_mem_congr (s := s.withRefresh) (t := { s.withRefresh with
    tag := tag, res0 := res0, seq := q, phase := phase, inputs := rest }) rfl p2 n1 n2
  rw [sealRecord_eq, hmem]
  rfl

/-! The re-key (R288). -/

theorem identityWritten_resumed {s : State} {h p q : List Byte} {p2 : Bool}
    (hu : HoldsRecord (s.withSeals p2 1 1 0) h p q) (w : Word) (tag : Memory) (phase : Phase)
    (rest : List Event) :
    identityWritten w p2
        { s.withRefresh with tag := tag, res0 := 0, phase := phase, inputs := rest } =
      Stop.state ⟨.wrRekey1 p2 .a 0, part1Write h p .a 0, 0x10⟩ w (s.withSeals p2 1 1 0) tag rest := by
  have hseal := sealRecord_resumed s p2 1 1 0 tag 0x10 phase rest
  show writeRecordBlock w .a 0 (.wrRekey1 p2 .a 0) (State.sealRecord { s.withRefresh with
    tag := tag, res0 := 0x10, seq := 0, phase := phase, inputs := rest } p2 1 1) = _
  rw [hseal]
  exact stop_part1 hu w .a (by omega) _ _ _ _ _

theorem rekeyStops_pos (h p q : List Byte) (p2 : Bool) : 0 < (rekeyStops h p q p2).length := by
  rw [length_rekeyStops]
  split <;> omega

theorem rekeyStops_zero (h p q : List Byte) (p2 : Bool) :
    (rekeyStops h p q p2)[0]'(rekeyStops_pos h p q p2) =
      ⟨.wrRekey1 p2 .a 0, part1Write h p .a 0, 0x10⟩ := by cases p2 <;> rfl

/-- The identity block written, the record is sealed with sequence 1 and region A follows. -/
theorem step_ident {s : State} {h p q : List Byte} {p2 : Bool}
    (hu : HoldsRecord (s.withSeals p2 1 1 0) h p q) (w : Word) (rest : List Event) :
    step ((identStop h p2).state w s.withRefresh s.tag (.idealAnswer :: rest)) =
      .next (((rekeyStops h p q p2)[0]'(rekeyStops_pos h p q p2)).state w
        (s.withSeals p2 1 1 0) ((identStop h p2).x.apply s.tag) rest) := by
  refine ((identStop h p2).step_write rfl w _ _ _).trans (congrArg Host.Outcome.next ?_)
  rw [rekeyStops_zero]
  exact identityWritten_resumed hu w _ _ rest

/-! The sequence read (R289). -/

/-- The request for the next read of the sequence read, with the byte just read held. -/
theorem issue_seqStop (s : State) (w : Word) (a : Stop) (slot : SeqSlot) (p2 : Bool) (s1A s2A s1B : Byte)
    (rest : List Event) (ha : a.res0 = 0) :
    issue w (seqStop slot p2 s1A s2A s1B).x.block .read (.wrSeq slot p2 s1A s2A s1B)
        (a.state w s.withRefresh s.tag rest) =
      (seqStop slot p2 s1A s2A s1B).state w s.withRefresh s.tag rest := by
  have hstop := issue_stop w s.withRefresh (seqStop slot p2 s1A s2A s1B) (portGuard_seqStop _ _ _ _ _)
    s.tag (a.state w s.withRefresh s.tag rest).phase rest
  rw [Stop.state, ha]
  exact hstop

section
variable (s : State) (w : Word) (h : List Byte) (hh : s.withRefresh.buf .hdr = h)
include hh

/-- A block of the sequence read, deciphered. -/
theorem decBlock_state (a : Stop) (rest : List Event) (n : Nat) :
    (a.state w s.withRefresh s.tag rest).decBlock n (tagBlock s.tag n) = plainBlock s.tag h n := by
  subst hh
  exact decBlock_tagBlock (a.state w s.withRefresh s.tag rest) n

theorem step_seq_a0 (p2 : Bool) (rest : List Event) :
    step ((seqStop .a0 p2 0 0 0).state w s.withRefresh s.tag (.idealAnswer :: rest)) =
      .next (Stop.state (if p2 then seqStop .a7 p2 (tagSeq1 s.tag h .a) 0 0
        else seqStop .b0 p2 (tagSeq1 s.tag h .a) 0 0) w s.withRefresh s.tag rest) := by
  have hd := decBlock_state s w h hh (seqStop .a0 p2 0 0 0) rest (regionBlock .a 0)
  refine (Stop.step_read rfl w _ _ _).trans (congrArg Host.Outcome.next ?_)
  show sequenceRead w .a0 p2 0 0 0 (regionBlock .a 0) (tagBlock s.tag (regionBlock .a 0)) _ = _
  cases p2 <;> simp only [sequenceRead, hd, if_true, Bool.false_eq_true, if_false]
  · exact issue_seqStop s w _ .b0 false (tagSeq1 s.tag h .a) 0 0 rest rfl
  · exact issue_seqStop s w _ .a7 true (tagSeq1 s.tag h .a) 0 0 rest rfl

theorem step_seq_a7 (s1A : Byte) (rest : List Event) :
    step ((seqStop .a7 true s1A 0 0).state w s.withRefresh s.tag (.idealAnswer :: rest)) =
      .next ((seqStop .b0 true s1A (tagSeq2 s.tag h .a) 0).state w s.withRefresh s.tag rest) := by
  have hd := decBlock_state s w h hh (seqStop .a7 true s1A 0 0) rest (regionBlock .a 7)
  refine (Stop.step_read rfl w _ _ _).trans (congrArg Host.Outcome.next ?_)
  show sequenceRead w .a7 true s1A 0 0 (regionBlock .a 7) (tagBlock s.tag (regionBlock .a 7)) _ = _
  simp only [sequenceRead, hd]
  exact issue_seqStop s w _ .b0 true s1A (tagSeq2 s.tag h .a) 0 rest rfl

theorem step_seq_b0 (s1A s2A : Byte) (rest : List Event) :
    step ((seqStop .b0 true s1A s2A 0).state w s.withRefresh s.tag (.idealAnswer :: rest)) =
      .next ((seqStop .b7 true s1A s2A (tagSeq1 s.tag h .b)).state w s.withRefresh s.tag rest) := by
  have hd := decBlock_state s w h hh (seqStop .b0 true s1A s2A 0) rest (regionBlock .b 0)
  refine (Stop.step_read rfl w _ _ _).trans (congrArg Host.Outcome.next ?_)
  show sequenceRead w .b0 true s1A s2A 0 (regionBlock .b 0) (tagBlock s.tag (regionBlock .b 0)) _ = _
  simp only [sequenceRead, hd, if_true]
  exact issue_seqStop s w _ .b7 true s1A s2A (tagSeq1 s.tag h .b) rest rfl

end

/-! The stale regions' writes begin (R290). -/

theorem staleStops_pos (h p q : List Byte) (stale1 stale2 : Region) (p2 : Bool) :
    0 < (staleStops h p q stale1 stale2 p2).length := by
  rw [length_staleStops]
  split <;> omega

theorem staleStops_zero (h p q : List Byte) (stale1 stale2 : Region) (p2 : Bool) :
    (staleStops h p q stale1 stale2 p2)[0]'(staleStops_pos h p q stale1 stale2 p2) =
      ⟨.wrPart1 p2 stale1 stale2 0, part1Write h p stale1 0, 0⟩ := by cases p2 <;> rfl

theorem beginStaleWrite_resumed {s : State} {h p q : List Byte} {p2 : Bool} {s1A s1B s2A s2B : Byte}
    (hu : HoldsRecord (s.withSeals p2 (nextSequence s1A s1B) (nextSequence s2A s2B)
      (seqWord s1A s1B s2A s2B)) h p q) (w : Word) (a : Stop) (ha : a.res0 = 0) (rest : List Event) :
    beginStaleWrite w p2 s1A s1B s2A s2B (a.state w s.withRefresh s.tag rest) =
      ((staleStops h p q (staleRegion s1A s1B) (staleRegion s2A s2B) p2)[0]'(
        staleStops_pos _ _ _ _ _ _)).state w
        (s.withSeals p2 (nextSequence s1A s1B) (nextSequence s2A s2B) (seqWord s1A s1B s2A s2B)) s.tag
        rest := by
  have hseal := sealRecord_resumed s p2 (nextSequence s1A s1B) (nextSequence s2A s2B)
    (seqWord s1A s1B s2A s2B) s.tag 0 (a.state w s.withRefresh s.tag rest).phase rest
  rw [staleStops_zero, Stop.state, ha]
  show writeRecordBlock w (staleRegion s1A s1B) 0
    (.wrPart1 p2 (staleRegion s1A s1B) (staleRegion s2A s2B) 0) (State.sealRecord { s.withRefresh with
      tag := s.tag, res0 := 0, seq := seqWord s1A s1B s2A s2B
      phase := (a.state w s.withRefresh s.tag rest).phase, inputs := rest } p2 (nextSequence s1A s1B)
      (nextSequence s2A s2B)) = _
  rw [hseal]
  exact stop_part1 hu w _ (by omega) _ _ _ _ _

/-- The sequence bytes as the sequence read gives them: 0 for one that is not read (R289). -/
def readSeq2 (tag : Memory) (h : List Byte) (p2 : Bool) (r : Region) : Byte :=
  if p2 then tagSeq2 tag h r else 0

/-- The state of the stale regions' writes of the matching path, but for its request. -/
def State.matchSealed (s : State) (h : List Byte) (p2 : Bool) : State :=
  s.withSeals p2 (nextSequence (tagSeq1 s.tag h .a) (tagSeq1 s.tag h .b))
    (nextSequence (readSeq2 s.tag h p2 .a) (readSeq2 s.tag h p2 .b))
    (seqWord (tagSeq1 s.tag h .a) (tagSeq1 s.tag h .b) (readSeq2 s.tag h p2 .a)
      (readSeq2 s.tag h p2 .b))

/-- The stops of the matching path's writes. -/
def matchStops (tag : Memory) (h p q : List Byte) (p2 : Bool) : List Stop :=
  staleStops h p q (staleRegion (tagSeq1 tag h .a) (tagSeq1 tag h .b))
    (staleRegion (readSeq2 tag h p2 .a) (readSeq2 tag h p2 .b)) p2

theorem matchStops_pos (tag : Memory) (h p q : List Byte) (p2 : Bool) :
    0 < (matchStops tag h p q p2).length := staleStops_pos _ _ _ _ _ _

/-- The stops of the sequence read. -/
def seqStops (tag : Memory) (h : List Byte) : Bool → List Stop
  | true => [seqStop .a0 true 0 0 0, seqStop .a7 true (tagSeq1 tag h .a) 0 0,
      seqStop .b0 true (tagSeq1 tag h .a) (tagSeq2 tag h .a) 0,
      seqStop .b7 true (tagSeq1 tag h .a) (tagSeq2 tag h .a) (tagSeq1 tag h .b)]
  | false => [seqStop .a0 false 0 0 0, seqStop .b0 false (tagSeq1 tag h .a) 0 0]

theorem length_seqStops (tag : Memory) (h : List Byte) (p2 : Bool) :
    (seqStops tag h p2).length = if p2 then 4 else 2 := by
  cases p2 <;> rfl

theorem seqStops_map (tag : Memory) (h : List Byte) (p2 : Bool) :
    (seqStops tag h p2).map (·.x) = sequenceReads p2 := by
  cases p2 <;> rfl

section
variable {s : State} {w : Word} {h p q : List Byte} (hh : s.withRefresh.buf .hdr = h)
include hh

/-- The first k answers of the sequence read. -/
theorem run_seqStops (p2 : Bool) {k : Nat} (hk : k < (seqStops s.tag h p2).length)
    (rest : List Event) :
    run k ((seqStop .a0 p2 0 0 0).state w s.withRefresh s.tag
        (List.replicate k .idealAnswer ++ rest)) =
      .next ((seqStops s.tag h p2)[k].state w s.withRefresh s.tag rest) := by
  cases p2 with
  | false =>
    match k, hk with
    | 0, _ => rfl
    | 1, _ => exact run_succ 0 (step_seq_a0 s w h hh false rest)
  | true =>
    have h1 (rest : List Event) := run_succ 0 (step_seq_a0 s w h hh true (rest := rest))
    have h2 (rest : List Event) := run_last (h1 _) (step_seq_a7 s w h hh _ rest)
    have h3 (rest : List Event) := run_last (h2 _) (step_seq_b0 s w h hh _ _ rest)
    match k, hk with
    | 0, _ => rfl
    | 1, _ => exact h1 rest
    | 2, _ => exact h2 rest
    | 3, _ => exact h3 rest

theorem step_seq_b0_last (s1A : Byte) (rest : List Event) :
    step ((seqStop .b0 false s1A 0 0).state w s.withRefresh s.tag (.idealAnswer :: rest)) =
      .next (beginStaleWrite w false s1A (tagSeq1 s.tag h .b) 0 0
        ((seqStop .b0 false s1A 0 0).state w s.withRefresh s.tag rest)) := by
  have hd := decBlock_state s w h hh (seqStop .b0 false s1A 0 0) rest (regionBlock .b 0)
  refine (Stop.step_read rfl w _ _ _).trans (congrArg Host.Outcome.next ?_)
  show sequenceRead w .b0 false s1A 0 0 (regionBlock .b 0) (tagBlock s.tag (regionBlock .b 0)) _ = _
  simp only [sequenceRead, hd, Bool.false_eq_true, if_false]
  rfl

theorem step_seq_b7 (s1A s2A s1B : Byte) (rest : List Event) :
    step ((seqStop .b7 true s1A s2A s1B).state w s.withRefresh s.tag (.idealAnswer :: rest)) =
      .next (beginStaleWrite w true s1A s1B s2A (tagSeq2 s.tag h .b)
        ((seqStop .b7 true s1A s2A s1B).state w s.withRefresh s.tag rest)) := by
  have hd := decBlock_state s w h hh (seqStop .b7 true s1A s2A s1B) rest (regionBlock .b 7)
  refine (Stop.step_read rfl w _ _ _).trans (congrArg Host.Outcome.next ?_)
  show sequenceRead w .b7 true s1A s2A s1B (regionBlock .b 7) (tagBlock s.tag (regionBlock .b 7)) _ = _
  simp only [sequenceRead, hd]
  rfl

/-- The whole sequence read, up to the first write. -/
theorem run_seqStops_end {p2 : Bool} (hu : HoldsRecord (s.matchSealed h p2) h p q) (rest : List Event) :
    run (seqStops s.tag h p2).length ((seqStop .a0 p2 0 0 0).state w s.withRefresh s.tag
        (List.replicate (seqStops s.tag h p2).length .idealAnswer ++ rest)) =
      .next (((matchStops s.tag h p q p2)[0]'(matchStops_pos _ _ _ _ _)).state w (s.matchSealed h p2)
        s.tag rest) := by
  have hstale (a : Stop) (ha : a.res0 = 0) := beginStaleWrite_resumed (s1A := tagSeq1 s.tag h .a)
    (s1B := tagSeq1 s.tag h .b) (s2A := readSeq2 s.tag h p2 .a) (s2B := readSeq2 s.tag h p2 .b) hu w a ha
    rest
  cases p2 with
  | false =>
    have hreads := run_seqStops (w := w) hh false (k := 1) (by rw [length_seqStops]; decide)
      (.idealAnswer :: rest)
    exact run_last hreads ((step_seq_b0_last hh (tagSeq1 s.tag h .a) rest).trans
      (congrArg Host.Outcome.next (hstale _ rfl)))
  | true =>
    have hreads := run_seqStops (w := w) hh true (k := 3) (by rw [length_seqStops]; decide)
      (.idealAnswer :: rest)
    exact run_last hreads ((step_seq_b7 hh (tagSeq1 s.tag h .a) (tagSeq2 s.tag h .a)
      (tagSeq1 s.tag h .b) rest).trans (congrArg Host.Outcome.next (hstale _ rfl)))

end

end Sys2Proof.Machine

/-! What WRITE_RECORD leaves at each wait and at its end (spec/43_arbiter.md R288 to R292). -/

namespace Sys2Proof.Machine

/-! A wait of the command. -/

/-- A stop whose position has its transaction's stage, and aborts on AUTH_FAIL. -/
structure Stop.Legal (a : Stop) : Prop where
  stage : a.pos.stageNumber = a.x.stage
  aborts : a.pos.abortsOnAuthFail = true
  block : a.x.block < 64

theorem Stop.state_buf (a : Stop) (w : Word) (u : State) (tag : Memory) (rest : List Event)
    (b : Buffer) : (a.state w u tag rest).buf b = u.buf b := buf_congr rfl b

/-- R292: a failure of the transaction that is waited for ends the command. -/
theorem Stop.step_abort {a : Stop} (ha : a.Legal) (w : Word) (u : State) (tag : Memory) {e : Answer}
    {rest : List Event} (he : e = .authFail ∨ e = .lost) :
    ∃ z, step (a.state w u tag (.answer e :: rest)) = .next z ∧
      AbortedAt a.x e rest (a.state w u tag (.answer e :: rest)) z := by
  obtain ⟨hlost, hauth⟩ := failedTransactionEndsCommand (a.state w u tag (.answer e :: rest)) w a.pos
    (u.request a.x.block a.x.op) rest rfl ha.block
  rcases he with rfl | rfl
  · obtain ⟨z, hstep, hz, hx⟩ := hauth rfl ha.aborts
    exact ⟨z, hstep, hz, by rw [hx, ha.stage]; rfl⟩
  · obtain ⟨z, hstep, hz, hx⟩ := hlost rfl
    exact ⟨z, hstep, hz, by rw [hx, ha.stage]; rfl⟩

/-- Everything that a wait of WRITE_RECORD says, from the state that it is: the k-th transaction of a list
is waited for, the tag holds the first k, and a failure leaves just this. -/
theorem Stop.result {s u : State} {a : Stop} {w : Word} {l : List Transaction} {k : Nat}
    (hk : k < l.length) {rest : List Event} {r1 sq : Word}
    (hrun : run (1 + k) s = .next (a.state w u (applyAll (l.take k) s.tag) rest)) (hx : a.x = l[k])
    (ha : a.Legal) (hl : WritesApart l)
    (hu : u = { s with mem := u.mem, res0 := u.res0, res1 := r1, seq := sq })
    (hbuf : ∀ b : Buffer, b ≠ .hdr → b ≠ .p1 → b ≠ .p2 → u.buf b = s.buf b) :
    ∃ t, run (1 + k) s = .next t ∧ WaitsFor w l[k] s t ∧
      t = { s with
        mem := t.mem, tag := t.tag, res0 := t.res0, res1 := r1, seq := sq, phase := t.phase,
        inputs := rest } ∧
      (∀ b : Buffer, b ≠ .hdr → b ≠ .p1 → b ≠ .p2 → t.buf b = s.buf b) ∧
      (∀ b : Buffer, t.buf b = u.buf b) ∧ t.res0 = a.res0 ∧ TagAfter (l.take k) s.tag t.tag ∧
      ∀ (e : Answer) (rest' : List Event), e = .authFail ∨ e = .lost → rest = .answer e :: rest' →
        ∃ z, run (2 + k) s = .next z ∧ AbortedAt l[k] e rest' t z := by
  have hstate := a.state_buf w u (applyAll (l.take k) s.tag) rest
  refine ⟨_, hrun, ⟨a.pos, ?_⟩, ?_, fun b h0 h1 h2 => (hstate b).trans (hbuf b h0 h1 h2), hstate, rfl,
    tagAfter_applyAll (hl.sublist (List.take_sublist _ _)) _, fun e rest' he hrest => ?_⟩
  · have hkey := sectorKey_congr (hbuf .uid (by decide) (by decide) (by decide)) (a.x.block / 4)
    rw [← hx, ← hkey]
    rfl
  · rw [hu]
    rfl
  · subst hrest
    obtain ⟨z, hstep, hz⟩ := Stop.step_abort ha w u (applyAll (l.take k) s.tag) (rest := rest') he
    rw [← hx, show 2 + k = 1 + k + 1 by omega]
    exact ⟨z, run_last hrun hstep, hz⟩

theorem legal_partStops {n : Nat} {pos : Fin n → Position} {x : Nat → Transaction} {res0 : Word}
    (h : ∀ i, Stop.Legal ⟨pos i, x i.val, res0⟩) : ∀ a ∈ partStops pos x res0, a.Legal := by
  intro a ha
  obtain ⟨i, _, rfl⟩ := List.mem_map.mp ha
  exact h i

theorem legal_refreshStop0 (rw : Bool) : (refreshStop0 rw).Legal := ⟨rfl, rfl, show 0 < 64 by decide⟩

theorem legal_refreshStop1 (rw : Bool) (t0 : Block) : (refreshStop1 rw t0).Legal :=
  ⟨rfl, rfl, show 1 < 64 by decide⟩

theorem legal_identStop (h : List Byte) (p2 : Bool) : (identStop h p2).Legal :=
  ⟨rfl, rfl, show 1 < 64 by decide⟩

theorem legal_seqStop (slot : SeqSlot) (p2 : Bool) (s1A s2A s1B : Byte) :
    (seqStop slot p2 s1A s2A s1B).Legal :=
  ⟨rfl, rfl, lt_of_portGuard (portGuard_seqStop slot p2 s1A s2A s1B)⟩

theorem legal_rekeyStops (h p q : List Byte) (p2 : Bool) : ∀ a ∈ rekeyStops h p q p2, a.Legal := by
  have h1 (r : Region) (res0 : Word) (i : Fin 7) :
      Stop.Legal ⟨.wrRekey1 p2 r i, part1Write h p r i.val, res0⟩ :=
    ⟨rfl, rfl, regionBlock_lt r i.val (by omega)⟩
  have h2 (r : Region) (res0 : Word) (i : Fin 4) :
      Stop.Legal ⟨.wrRekey2 r i, part2Write h q r i.val, res0⟩ :=
    ⟨rfl, rfl, regionBlock_lt r (7 + i.val) (by omega)⟩
  cases p2 <;> simp only [rekeyStops, List.forall_mem_append]
  · exact ⟨legal_partStops (h1 .a _), legal_partStops (h1 .b _)⟩
  · exact ⟨legal_partStops (h1 .a _), legal_partStops (h2 .a _), legal_partStops (h1 .b _),
      legal_partStops (h2 .b _)⟩

theorem legal_staleStops (h p q : List Byte) (stale1 stale2 : Region) (p2 : Bool) :
    ∀ a ∈ staleStops h p q stale1 stale2 p2, a.Legal := by
  have h1 (res0 : Word) (i : Fin 7) :
      Stop.Legal ⟨.wrPart1 p2 stale1 stale2 i, part1Write h p stale1 i.val, res0⟩ :=
    ⟨rfl, rfl, regionBlock_lt stale1 i.val (by omega)⟩
  have h2 (res0 : Word) (i : Fin 4) :
      Stop.Legal ⟨.wrPart2 stale2 i, part2Write h q stale2 i.val, res0⟩ :=
    ⟨rfl, rfl, regionBlock_lt stale2 (7 + i.val) (by omega)⟩
  cases p2 <;> simp only [staleStops, List.forall_mem_append]
  · exact legal_partStops (h1 _)
  · exact ⟨legal_partStops (h1 _), legal_partStops (h2 _)⟩

theorem legal_seqStops (tag : Memory) (h : List Byte) (p2 : Bool) :
    ∀ a ∈ seqStops tag h p2, a.Legal := by
  cases p2 <;> simp only [seqStops, List.forall_mem_cons, List.not_mem_nil, false_implies,
    implies_true, legal_seqStop, and_self]

/-! No block is written twice. -/

theorem writesApart_of_nodup {reads l : List Transaction} (hreads : ∀ x ∈ reads, x.op = .read)
    (hl : (l.map (·.block)).Nodup) : WritesApart (reads ++ l) := by
  refine List.pairwise_append.mpr ⟨?_, ?_, fun x hx y _ hne => absurd (hreads x hx) hne⟩
  · exact List.pairwise_of_forall_mem_list fun x hx _ _ hne => absurd (hreads x hx) hne
  · exact (List.pairwise_map.mp hl).imp fun hne _ _ => hne

/-- R288's transactions, as the stops make them. -/
theorem rekeyTransactions_eq (h p q : List Byte) (p2 : Bool) :
    rekeyTransactions h p q p2 =
      refreshReads ++ (identStop h p2).x :: (rekeyStops h p q p2).map (·.x) := by
  cases p2 <;> rfl

/-- The transactions of the matching path, as the stops make them. -/
theorem matchingTransactions_eq (tag : Memory) (h p q : List Byte) (p2 : Bool) :
    matchingTransactions h p q p2 (staleRegion (tagSeq1 tag h .a) (tagSeq1 tag h .b))
        (staleRegion (readSeq2 tag h p2 .a) (readSeq2 tag h p2 .b)) =
      refreshReads ++ ((seqStops tag h p2).map (·.x) ++ (matchStops tag h p q p2).map (·.x)) := by
  rw [matchStops, staleStops_map, seqStops_map, matchingTransactions]
  simp only [List.append_assoc]

theorem refreshReads_read : ∀ x ∈ refreshReads, x.op = .read := by
  simp [refreshReads]

theorem sequenceReads_read (p2 : Bool) : ∀ x ∈ sequenceReads p2, x.op = .read := by
  cases p2 <;> simp [sequenceReads]

/-- R9: the blocks of distinct indices of the regions are distinct. -/
theorem nodup_regionBlocks {l : List (Region × Nat)} (hl : l.Nodup) (hi : ∀ x ∈ l, x.2 ≤ 10) :
    (l.map fun x => regionBlock x.1 x.2).Nodup :=
  List.Nodup.map_on (fun x hx y hy h =>
    have ⟨hr, hk⟩ := eq_of_regionBlock_eq (hi x hx) (hi y hy) h
    Prod.ext hr hk) hl

/-- The indices of part 1 in a region. -/
def part1Indices (r : Region) : List (Region × Nat) := (List.range 7).map (r, ·)

/-- The indices of part 2 in a region. -/
def part2Indices (r : Region) : List (Region × Nat) := (List.range 4).map fun j => (r, 7 + j)

theorem writesApart_rekey (h p q : List Byte) (p2 : Bool) :
    WritesApart (rekeyTransactions h p q p2) := by
  have hnodup {l : List (Region × Nat)} (hl : l.Nodup) (hi : ∀ x ∈ l, x.2 ≤ 10) :
      (1 :: l.map fun x => regionBlock x.1 x.2).Nodup := by
    refine List.nodup_cons.mpr ⟨fun hmem => ?_, nodup_regionBlocks hl hi⟩
    obtain ⟨x, _, hx⟩ := List.mem_map.mp hmem
    have := regionBlock_ge x.1 x.2
    omega
  rw [rekeyTransactions_eq]
  refine writesApart_of_nodup refreshReads_read ?_
  cases p2
  · exact hnodup (l := part1Indices .a ++ part1Indices .b) (by decide) (by decide)
  · exact hnodup (l := part1Indices .a ++ (part2Indices .a ++ (part1Indices .b ++ part2Indices .b)))
      (by decide) (by decide)

theorem writesApart_match (tag : Memory) (h p q : List Byte) (p2 : Bool) :
    WritesApart (matchingTransactions h p q p2
      (staleRegion (tagSeq1 tag h .a) (tagSeq1 tag h .b))
      (staleRegion (readSeq2 tag h p2 .a) (readSeq2 tag h p2 .b))) := by
  have hreads : ∀ x ∈ refreshReads ++ sequenceReads p2, x.op = .read := fun x hx =>
    (List.mem_append.mp hx).elim (refreshReads_read x) (sequenceReads_read p2 x)
  rw [matchingTransactions, List.append_assoc]
  refine writesApart_of_nodup hreads ?_
  generalize staleRegion (tagSeq1 tag h .a) (tagSeq1 tag h .b) = r1
  generalize staleRegion (readSeq2 tag h p2 .a) (readSeq2 tag h p2 .b) = r2
  cases p2
  · exact nodup_regionBlocks (l := part1Indices r1 ++ []) (by cases r1 <;> decide)
      (by cases r1 <;> decide)
  · exact nodup_regionBlocks (l := part1Indices r1 ++ part2Indices r2)
      (by cases r1 <;> cases r2 <;> decide) (by cases r1 <;> cases r2 <;> decide)

/-! The regions as they are read back. -/

/-- A tag whose blocks 0 to 6 of a region hold a part 1 reads as that part 1 there. -/
theorem slice_plainRegion_part1 {tag : Memory} {h p : List Byte} {r : Region} (hp : p.length = 112)
    (hb : ∀ i < 7, tagBlock tag (regionBlock r i) =
      cipherBlock h (regionBlock r i) (toVec 16 (slice p (16 * i) (16 * i + 16)))) :
    slice (plainRegion tag h r) 0 112 = p := by
  have htake := take_flatMap_blocks (fun i => plainBlock tag h (regionBlock r i)) (i := 7) (k := 11)
    (by omega)
  have hslices := flatMap_slices p 7 (by omega)
  have hblocks : ((List.range 7).flatMap fun i => (plainBlock tag h (regionBlock r i)).toList) =
      (List.range 7).flatMap fun i => (toVec 16 (slice p (16 * i) (16 * i + 16))).toList := by
    refine List.flatMap_congr fun i hi => ?_
    rw [plainBlock, hb i (List.mem_range.mp hi), cipherBlock, cipherD_cipherE]
  calc slice (plainRegion tag h r) 0 112
      = (List.range 7).flatMap fun i => (plainBlock tag h (regionBlock r i)).toList := htake
    _ = slice p 0 112 := hblocks.trans hslices
    _ = p := List.take_of_length_le (by rw [List.drop_zero, hp])

/-- A tag whose blocks 7 to 10 of a region hold a part 2 reads as that part 2 there. -/
theorem slice_plainRegion_part2 {tag : Memory} {h q : List Byte} {r : Region} (hq : q.length = 64)
    (hb : ∀ j < 4, tagBlock tag (regionBlock r (7 + j)) =
      cipherBlock h (regionBlock r (7 + j)) (toVec 16 (slice q (16 * j) (16 * j + 16)))) :
    slice (plainRegion tag h r) 112 176 = q := by
  have hslices := flatMap_slices q 4 (by omega)
  have hsplit : plainRegion tag h r =
      ((List.range 7).flatMap fun i => (plainBlock tag h (regionBlock r i)).toList) ++
        (List.range 4).flatMap fun j => (plainBlock tag h (regionBlock r (7 + j))).toList := by
    rw [plainRegion, show (11 : Nat) = 7 + 4 by rfl, List.range_add, List.flatMap_append,
      List.flatMap_map]
  have hblocks : ((List.range 4).flatMap fun j => (plainBlock tag h (regionBlock r (7 + j))).toList) =
      (List.range 4).flatMap fun j => (toVec 16 (slice q (16 * j) (16 * j + 16))).toList := by
    refine List.flatMap_congr fun j hj => ?_
    rw [plainBlock, hb j (List.mem_range.mp hj), cipherBlock, cipherD_cipherE]
  have hall : slice q 0 64 = q := List.take_of_length_le (by rw [List.drop_zero, hq])
  rw [hsplit, hblocks, hslices, hall, slice, List.drop_left' (length_flatMap_blocks _ 7)]
  exact List.take_of_length_le (by omega)

theorem mem_part1Writes {h p : List Byte} {r : Region} {x : Transaction} :
    x ∈ part1Writes h p r ↔ ∃ i < 7, x = part1Write h p r i := by
  simp only [part1Writes, List.mem_map, List.mem_range, part1Write, eq_comm]

theorem mem_part2Writes {h q : List Byte} {r : Region} {x : Transaction} :
    x ∈ part2Writes h q r ↔ ∃ j < 4, x = part2Write h q r j := by
  simp only [part2Writes, List.mem_map, List.mem_range, part2Write, eq_comm]

end Sys2Proof.Machine

/-! The re-key of WRITE_RECORD (spec/43_arbiter.md R288, R291, R292). -/

namespace Sys2Proof.Machine

/-- RES0 at each wait of the re-key's writes (R291). -/
theorem rekeyStops_res0 (h p q : List Byte) (p2 : Bool) {j : Nat}
    (hj : j < (rekeyStops h p q p2).length) :
    (rekeyStops h p q p2)[j].res0.toNat = 0x10 + (if 7 ≤ j then 1 else 0) +
      (if p2 then (if 11 ≤ j then 4 else 0) + (if 18 ≤ j then 2 else 0) else 0) := by
  have hvalues : (rekeyStops h p q p2).map (·.res0.toNat) =
      (List.range (rekeyStops h p q p2).length).map fun j => 0x10 + (if 7 ≤ j then 1 else 0) +
        (if p2 then (if 11 ≤ j then 4 else 0) + (if 18 ≤ j then 2 else 0) else 0) := by
    cases p2 <;> rfl
  have hget := congrArg (·[j]?) hvalues
  simpa [hj] using hget

section
variable {s : State} {w : Word} {rest : List Event} {h p q : List Byte} {p2 : Bool}

/-- The re-key's waits after the identity block. -/
theorem run_rekeyStops (hw : w = (encode (.writeRecord true)).word) (hf : s.fetch = some w)
    (hh : refreshedHeader s.tag (s.buf .hdr) = h) (hp2 : part2Present (s.buf .p1) = p2)
    (hid : slice h 16 32 ≠ (tagBlock s.tag 1).toList)
    (hu : HoldsRecord (s.withSeals p2 1 1 0) h p q)
    (hi : s.inputs = .idealAnswer :: .idealAnswer :: .idealAnswer :: rest) :
    run 4 s = .next (((rekeyStops h p q p2)[0]'(rekeyStops_pos h p q p2)).state w
      (s.withSeals p2 1 1 0) ((identStop h p2).x.apply s.tag) rest) := by
  subst hh hp2
  have hident := run_mismatched hw hf hi hid
  have hstep := step_ident hu w rest
  exact run_last hident hstep

/-- A wait of the re-key after k answers: state u waits at the stop a. -/
structure RekeyWait (s : State) (w : Word) (h p q : List Byte) (p2 : Bool) (k : Nat)
    (rest : List Event) (u : State) (a : Stop) : Prop where
  run : run (1 + k) s =
    .next (a.state w u (applyAll ((rekeyTransactions h p q p2).take k) s.tag) rest)
  x : (rekeyTransactions h p q p2)[k]? = some a.x
  legal : a.Legal
  frame : u = { s with
    mem := u.mem, res0 := u.res0
    res1 := if k < 3 then 0 else if p2 then 0x0101 else 0x0001
    seq := 0 }
  others : ∀ b : Buffer, b ≠ .hdr → b ≠ .p1 → b ≠ .p2 → u.buf b = s.buf b
  bufHdr : u.buf .hdr = if k < 2 then s.buf .hdr else h
  bufP1 : u.buf .p1 = if k < 3 then s.buf .p1 else p
  bufP2 : u.buf .p2 = if 3 ≤ k ∧ p2 = true then q else s.buf .p2
  res0 : a.res0.toNat = (if 3 ≤ k then 0x10 else 0) + (if 10 ≤ k then 1 else 0) +
    (if p2 then (if 14 ≤ k then 4 else 0) + (if 21 ≤ k then 2 else 0) else 0)

/-- The registers of the sealed state. -/
theorem withSeals_eq (s : State) (p2 : Bool) (n1 n2 : Byte) (q : Word) :
    s.withSeals p2 n1 n2 q = { s with
      mem := (s.withSeals p2 n1 n2 q).mem, res0 := (s.withSeals p2 n1 n2 q).res0
      res1 := 0#16 ++ (if p2 then n2 else 0) ++ n1, seq := q } := rfl

theorem sequenceWord_one (p2 : Bool) :
    (0#16 ++ (if p2 then (1 : Byte) else 0) ++ (1 : Byte) : Word) =
      if p2 then 0x0101 else 0x0001 := by
  cases p2 <;> rfl

/-- The re-key's transactions do not tell what its part 2 is when there is none. -/
theorem rekeyTransactions_congr {q' : List Byte} (hq : p2 = true → q' = q) :
    rekeyTransactions h p q' p2 = rekeyTransactions h p q p2 := by
  cases p2 with
  | false => simp only [rekeyTransactions, Bool.false_eq_true, if_false]
  | true => exact congrArg (rekeyTransactions h p · true) (hq rfl)

/-- The refresh leaves the tag as it is. -/
theorem applyAll_refreshReads (l : List Transaction) {k : Nat} (hk : k ≤ 2) (tag : Memory) :
    applyAll ((refreshReads ++ l).take k) tag = tag := by
  refine applyAll_of_reads (fun x hx => ?_) tag
  rw [List.take_append_of_le_length hk] at hx
  exact refreshReads_read x (List.mem_of_mem_take hx)

/-- The first transactions of the re-key after the identity block. -/
theorem applyAll_rekey (h p q : List Byte) (p2 : Bool) (j : Nat) (tag : Memory) :
    applyAll ((rekeyTransactions h p q p2).take (j + 3)) tag =
      applyAll (((rekeyStops h p q p2).map (·.x)).take j) ((identStop h p2).x.apply tag) := by
  rw [rekeyTransactions_eq]
  simp only [refreshReads, List.cons_append, List.nil_append, List.take_succ_cons, applyAll,
    List.foldl_cons, Transaction.apply_of_read]

theorem rekeyWait (hw : w = (encode (.writeRecord true)).word) (hf : s.fetch = some w)
    (hh : refreshedHeader s.tag (s.buf .hdr) = h) (hp2 : part2Present (s.buf .p1) = p2)
    (hp : p1Sealed (splice (s.buf .p1) 0x09 [1]) = p)
    (hq : p2Sealed (splice (s.buf .p2) 0x02 [1]) = q)
    (hid : slice h 16 32 ≠ (tagBlock s.tag 1).toList) {k : Nat}
    (hk : k < (rekeyTransactions h p q p2).length)
    (hi : s.inputs = List.replicate k .idealAnswer ++ rest) :
    ∃ u a, RekeyWait s w h p q p2 k rest u a := by
  match k with
  | 0 =>
    have hrun := run_refresh0 hw hf
    rw [show s.inputs = rest from hi] at hrun
    exact ⟨s.begun, refreshStop0 true, hrun, rfl, legal_refreshStop0 _, rfl, fun _ _ _ _ => rfl, rfl, rfl,
      rfl, by cases p2 <;> rfl⟩
  | 1 =>
    exact ⟨s.begun, refreshStop1 true (tagBlock s.tag 0), run_refresh1 hw hf hi, rfl,
      legal_refreshStop1 _ _, rfl, fun _ _ _ _ => rfl, rfl, rfl, rfl, by cases p2 <;> rfl⟩
  | 2 =>
    have hrun := run_mismatched hw hf hi (by rwa [hh])
    rw [hh, hp2] at hrun
    have htag := applyAll_refreshReads ((identStop h p2).x :: (rekeyStops h p q p2).map (·.x))
      (le_refl 2) s.tag
    rw [← rekeyTransactions_eq] at htag
    have hrun' : run (1 + 2) s = .next ((identStop h p2).state w s.withRefresh
        (applyAll ((rekeyTransactions h p q p2).take 2) s.tag) rest) := by
      rw [htag]
      exact hrun
    exact ⟨s.withRefresh, identStop h p2, hrun', rfl, legal_identStop _ _, rfl,
      fun b hb _ _ => withRefresh_buf_other s hb, (withRefresh_buf_hdr s).trans hh,
      withRefresh_buf_other s (by decide), withRefresh_buf_other s (by decide),
      by cases p2 <;> rfl⟩
  | j + 3 =>
    have hholds := withSeals_holds s p2 1 1 0
    rw [hh, hp, hq] at hholds
    rw [← rekeyTransactions_congr (q' := if p2 then q else s.buf .p2) (fun h => if_pos h),
      rekeyTransactions_eq] at hk
    have hj : j < (rekeyStops h p (if p2 then q else s.buf .p2) p2).length := by
      simpa [refreshReads] using hk
    have hi3 : s.inputs = .idealAnswer :: .idealAnswer :: .idealAnswer ::
        (List.replicate j .idealAnswer ++ rest) := hi
    have hrun4 := run_rekeyStops hw hf hh hp2 hid hholds hi3
    have hrunj := run_stops (isChain_rekeyStops hholds w p2) (rekeyStops_pos _ _ _ _) hj
      ((identStop h p2).x.apply s.tag) rest
    have hrun := (run_add hrun4).trans hrunj
    refine ⟨s.withSeals p2 1 1 0, (rekeyStops h p (if p2 then q else s.buf .p2) p2)[j], ?_, ?_,
      legal_rekeyStops _ _ _ _ _ (List.getElem_mem hj), ?_, fun b => withSeals_buf_other s p2 1 1 0, ?_,
      ?_, ?_, ?_⟩
    · rw [← rekeyTransactions_congr (q' := if p2 then q else s.buf .p2) (fun h => if_pos h),
        applyAll_rekey, show 1 + (j + 3) = 4 + j by omega]
      exact hrun
    · rw [← rekeyTransactions_congr (q' := if p2 then q else s.buf .p2) (fun h => if_pos h),
        rekeyTransactions_eq]
      show ((rekeyStops h p (if p2 then q else s.buf .p2) p2).map (·.x))[j]? = _
      rw [List.getElem?_map, List.getElem?_eq_getElem hj]
      rfl
    · rw [if_neg (by omega)]
      rw [← sequenceWord_one]
      exact withSeals_eq s p2 1 1 0
    · rw [if_neg (by omega)]
      exact hholds.hdr
    · rw [if_neg (by omega)]
      exact hholds.p1
    · rw [hholds.p2]
      simp
    · rw [rekeyStops_res0 _ _ _ _ hj, if_pos (show 3 ≤ j + 3 by omega)]
      simp only [show 10 ≤ j + 3 ↔ 7 ≤ j by omega, show 14 ≤ j + 3 ↔ 11 ≤ j by omega,
        show 21 ≤ j + 3 ↔ 18 ≤ j by omega]

end

end Sys2Proof.Machine

/-! The whole re-key (spec/43_arbiter.md R288, R291, R292). -/

namespace Sys2Proof.Machine

section
variable {s : State} {w : Word} {rest : List Event} {h p q : List Byte} {p2 : Bool}

theorem rekeyStops_completes (h p q : List Byte) (w : Word) (u : State) (p2 : Bool) :
    Completes w u ((rekeyStops h p q p2)[(rekeyStops h p q p2).length - 1]'(
        Nat.sub_one_lt_of_lt (rekeyStops_pos h p q p2)))
      (if p2 then 0x1F else 0x13) := by
  cases p2 with
  | false => exact completes_wrRekey1 h p w u 0x11
  | true => exact completes_wrRekey2 h q w u 0x17

theorem length_rekeyTransactions (h p q : List Byte) (p2 : Bool) :
    (rekeyTransactions h p q p2).length = if p2 then 25 else 17 := by
  rw [rekeyTransactions_eq, List.length_append, List.length_cons, List.length_map, length_rekeyStops]
  cases p2 <;> rfl

theorem applyAll_rekey_all (h p q : List Byte) (p2 : Bool) (tag : Memory) :
    applyAll (rekeyTransactions h p q p2) tag =
      applyAll ((rekeyStops h p q p2).map (·.x)) ((identStop h p2).x.apply tag) := by
  rw [rekeyTransactions_eq]
  simp only [refreshReads, List.cons_append, List.nil_append, applyAll, List.foldl_cons,
    Transaction.apply_of_read]

/-- The re-key to its end. -/
theorem run_rekey (hw : w = (encode (.writeRecord true)).word) (hf : s.fetch = some w)
    (hh : refreshedHeader s.tag (s.buf .hdr) = h) (hp2 : part2Present (s.buf .p1) = p2)
    (hid : slice h 16 32 ≠ (tagBlock s.tag 1).toList)
    (hu : HoldsRecord (s.withSeals p2 1 1 0) h p q)
    (hi : s.inputs = List.replicate (if p2 then 25 else 17) .idealAnswer ++ rest) :
    run (if p2 then 26 else 18) s = .next { s.withSeals p2 1 1 0 with
      tag := applyAll (rekeyTransactions h p q p2) s.tag, res0 := if p2 then 0x1F else 0x13
      err := .ok, done := true, phase := .idle, inputs := rest } := by
  have hlen := length_rekeyStops h p q p2
  have hi3 : s.inputs = .idealAnswer :: .idealAnswer :: .idealAnswer ::
      (List.replicate (rekeyStops h p q p2).length .idealAnswer ++ rest) := by
    rw [hi, hlen]
    cases p2 <;> rfl
  have hrun4 := run_rekeyStops hw hf hh hp2 hid hu hi3
  have hrun := (run_add hrun4).trans (run_stops_end (isChain_rekeyStops hu w p2) (rekeyStops_pos _ _ _ _)
    (rekeyStops_completes h p q w _ p2) ((identStop h p2).x.apply s.tag) rest)
  rw [applyAll_rekey_all, show (if p2 then 26 else 18) = 4 + (rekeyStops h p q p2).length by
    rw [hlen]; cases p2 <;> rfl]
  exact hrun

theorem mem_ite_nil {α : Type} {x : α} {c : Bool} {l : List α} :
    (x ∈ if c then l else []) ↔ c = true ∧ x ∈ l := by
  cases c <;> simp

/-- The transactions of the re-key: the refresh, the identity block, and the parts' blocks. -/
theorem mem_rekeyTransactions {x : Transaction} (hx : x ∈ rekeyTransactions h p q p2) :
    x ∈ refreshReads ∨ x = (identStop h p2).x ∨ (∃ r, x ∈ part1Writes h p r) ∨
      (p2 = true ∧ ∃ r, x ∈ part2Writes h q r) := by
  simp only [rekeyTransactions, List.mem_append, List.mem_singleton, mem_ite_nil] at hx
  rcases hx with ((((hr | hi) | ha) | ⟨hp2, ha⟩) | hb) | ⟨hp2, hb⟩
  · exact .inl hr
  · exact .inr (.inl hi)
  · exact .inr (.inr (.inl ⟨_, ha⟩))
  · exact .inr (.inr (.inr ⟨hp2, _, ha⟩))
  · exact .inr (.inr (.inl ⟨_, hb⟩))
  · exact .inr (.inr (.inr ⟨hp2, _, hb⟩))

/-- What the tag holds once the re-key is done (R288). -/
theorem rekey_tag (hh : h.length = 32) (hp : p.length = 112) (hq : q.length = 64) {tag tag' : Memory}
    (ht : TagAfter (rekeyTransactions h p q p2) tag tag') :
    (tagBlock tag' 1).toList = slice h 16 32 ∧ (∀ r : Region, slice (plainRegion tag' h r) 0 112 = p) ∧
      (p2 = true → ∀ r : Region, slice (plainRegion tag' h r) 112 176 = q) ∧
      ∀ n, n ≠ 1 → (∀ (r : Region) (i : Nat), i ≤ 6 → n ≠ regionBlock r i) →
        (p2 = true → ∀ (r : Region) (i : Nat), i ≤ 10 → n ≠ regionBlock r i) →
        tagBlock tag' n = tagBlock tag n := by
  obtain ⟨hwritten, hkept⟩ := ht
  have hmem1 (r : Region) {i : Nat} (hi : i < 7) : part1Write h p r i ∈ rekeyTransactions h p q p2 := by
    have := mem_part1Writes.mpr ⟨i, hi, Eq.refl (part1Write h p r i)⟩
    cases r <;> simp [rekeyTransactions, this]
  have hmem2 (r : Region) {j : Nat} (hj : j < 4) (hp2 : p2 = true) :
      part2Write h q r j ∈ rekeyTransactions h p q p2 := by
    have := mem_part2Writes.mpr ⟨j, hj, Eq.refl (part2Write h q r j)⟩
    cases r <;> simp [rekeyTransactions, this, hp2]
  refine ⟨?_, fun r => slice_plainRegion_part1 hp fun i hi => hwritten _ (hmem1 r hi) _ rfl,
    fun hp2 r => slice_plainRegion_part2 hq fun j hj => hwritten _ (hmem2 r hj hp2) _ rfl,
    fun n h1 hpart1 hpart2 => hkept n fun x hx hwrite => ?_⟩
  · have hident : (identStop h p2).x ∈ rekeyTransactions h p q p2 := by
      simp [rekeyTransactions, identStop]
    have hblock : tagBlock tag' 1 = toVec 16 (slice h 16 32) := hwritten _ hident _ rfl
    rw [hblock, toList_toVec _ _ (by rw [length_slice]; omega)]
  · rcases mem_rekeyTransactions hx with hr | rfl | ⟨r, hr⟩ | ⟨hp2, r, hr⟩
    · exact absurd (refreshReads_read x hr) hwrite
    · exact h1.symm
    · obtain ⟨i, hi, rfl⟩ := mem_part1Writes.mp hr
      exact (hpart1 r i (by omega)).symm
    · obtain ⟨j, hj, rfl⟩ := mem_part2Writes.mp hr
      exact (hpart2 hp2 r (7 + j) (by omega)).symm

end

/-- The word of WRITE_RECORD with RW set. -/
theorem word_rekey : (0x00000133 : Word) = (encode (.writeRecord true)).word := rfl

/-- The lengths of a sealed record. -/
theorem length_p1Sealed_splice (s : State) (n : Byte) :
    (p1Sealed (splice (s.buf .p1) 0x09 [n])).length = 112 := by
  rw [length_p1Sealed]
  exact length_splice _ _ _ (by simp [Buffer.size])

theorem length_p2Sealed_splice (s : State) (n : Byte) :
    (p2Sealed (splice (s.buf .p2) 0x02 [n])).length = 64 := by
  rw [length_p2Sealed]
  exact length_splice _ _ _ (by simp [Buffer.size])

/-- Settles O54: every wait of the re-key is a stop of its chain, at whose end the tag holds what the chain
writes. -/
theorem rekeyWritesBothRegions : Obligations.RekeyWritesBothRegions := by
  intro s rest hf h p2 p q l hid
  have hh : refreshedHeader s.tag (s.buf .hdr) = h := rfl
  have hp2 : part2Present (s.buf .p1) = p2 := rfl
  have hp : p1Sealed (splice (s.buf .p1) 0x09 [1]) = p := rfl
  have hq : p2Sealed (splice (s.buf .p2) 0x02 [1]) = q := rfl
  have hl : l = rekeyTransactions h p q p2 := rfl
  clear_value l p q p2 h
  subst hl
  have hlenh : h.length = 32 := by
    rw [← hh, refreshedHeader, length_hdrSealed]
    simp [length_slice, Buffer.size]
  have hlenp : p.length = 112 := hp ▸ length_p1Sealed_splice s 1
  have hlenq : q.length = 64 := hq ▸ length_p2Sealed_splice s 1
  refine ⟨fun hi => ?whole, length_rekeyTransactions h p q p2, fun k hk hi => ?wait⟩
  case whole =>
    have hholds := withSeals_holds s p2 1 1 0
    rw [hh, hp, hq] at hholds
    have hrun := run_rekey word_rekey hf hh hp2 hid hholds hi
    rw [rekeyTransactions_congr (q := q) fun h => if_pos h] at hrun
    have hother := fun b => withSeals_buf_other s p2 1 1 0 (b := b)
    have hframe := withSeals_eq s p2 1 1 0
    rw [sequenceWord_one] at hframe
    generalize s.withSeals p2 1 1 0 = u at *
    have htag := tagAfter_applyAll (writesApart_rekey h p q p2) s.tag
    generalize applyAll (rekeyTransactions h p q p2) s.tag = tag' at *
    obtain ⟨hident, hpart1, hpart2, hkept⟩ := rekey_tag hlenh hlenp hlenq htag
    refine ⟨_, hrun, ?_, hother, hholds.hdr, hident, hholds.p1, hholds.p2, fun r => ?_, fun h2 r => ?_,
      hkept⟩
    · rw [hframe]
    · exact (hpart1 r).trans hholds.p1.symm
    · refine (hpart2 h2 r).trans (Eq.trans ?_ hholds.p2.symm)
      rw [if_pos h2]
  case wait =>
    obtain ⟨u, a, hwait⟩ := rekeyWait word_rekey hf hh hp2 hp hq hid hk hi
    obtain ⟨t, hrun, hwaits, hframe, hothers, hbuf, hres0, htag, habort⟩ := Stop.result hk hwait.run
      (Option.some.inj (hwait.x.symm.trans (List.getElem?_eq_getElem hk))) hwait.legal
      (writesApart_rekey h p q p2) hwait.frame hwait.others
    exact ⟨t, hrun, hwaits, hframe, hothers, (hbuf .hdr).trans hwait.bufHdr,
      (hbuf .p1).trans hwait.bufP1, (hbuf .p2).trans hwait.bufP2, hres0 ▸ hwait.res0, htag, habort⟩

end Sys2Proof.Machine

/-! WRITE_RECORD on the matching-identity path (spec/43_arbiter.md R287, R289 to R292). -/

namespace Sys2Proof.Machine

/-- The next sequence byte of part 1 on the matching path (R285). -/
def nextSeq1 (tag : Memory) (h : List Byte) : Byte :=
  nextSequence (tagSeq1 tag h .a) (tagSeq1 tag h .b)

/-- The next sequence byte of part 2 on the matching path, 0 when there is none (R285, R291). -/
def nextSeq2 (tag : Memory) (h : List Byte) (p2 : Bool) : Byte :=
  if p2 then nextSequence (readSeq2 tag h p2 .a) (readSeq2 tag h p2 .b) else 0

/-- The four bytes of the sequence read, as SEQ holds them (R289). -/
def readSeqWord (tag : Memory) (h : List Byte) (p2 : Bool) : Word :=
  readSeq2 tag h p2 .b ++ readSeq2 tag h p2 .a ++ tagSeq1 tag h .b ++ tagSeq1 tag h .a

/-- The transactions of the matching path, with the stale regions that the tag gives. -/
def pathTransactions (tag : Memory) (h p q : List Byte) (p2 : Bool) : List Transaction :=
  matchingTransactions h p q p2 (staleRegion (tagSeq1 tag h .a) (tagSeq1 tag h .b))
    (staleRegion (readSeq2 tag h p2 .a) (readSeq2 tag h p2 .b))

/-- The reads at the head of the matching path. -/
def pathReads (p2 : Bool) : Nat := if p2 then 6 else 4

theorem seqStops_res0 (tag : Memory) (h : List Byte) (p2 : Bool) :
    ∀ a ∈ seqStops tag h p2, a.res0 = 0 := by
  cases p2 <;> simp [seqStops, seqStop]

section
variable {s : State} {w : Word} {rw p2 : Bool} {rest : List Event} {h p q : List Byte}

theorem pathTransactions_eq (tag : Memory) (h p q : List Byte) (p2 : Bool) :
    pathTransactions tag h p q p2 =
      refreshReads ++ ((seqStops tag h p2).map (·.x) ++ (matchStops tag h p q p2).map (·.x)) :=
  matchingTransactions_eq tag h p q p2

/-- The transactions do not tell what part 2 is when there is none. -/
theorem pathTransactions_congr {q' : List Byte} (tag : Memory) (hq : p2 = true → q' = q) :
    pathTransactions tag h p q' p2 = pathTransactions tag h p q p2 := by
  cases p2 with
  | false => simp only [pathTransactions, matchingTransactions, Bool.false_eq_true, if_false]
  | true => exact congrArg (pathTransactions tag h p · true) (hq rfl)

theorem length_matchStops (tag : Memory) (h p q : List Byte) (p2 : Bool) :
    (matchStops tag h p q p2).length = if p2 then 11 else 7 := length_staleStops _ _ _ _ _ _

theorem pathReads_eq (tag : Memory) (h : List Byte) (p2 : Bool) :
    pathReads p2 = 2 + (seqStops tag h p2).length := by
  rw [length_seqStops, pathReads]
  split <;> rfl

theorem length_pathTransactions (tag : Memory) (h p q : List Byte) (p2 : Bool) :
    (pathTransactions tag h p q p2).length = if p2 then 17 else 11 := by
  rw [pathTransactions_eq, List.length_append, List.length_append, List.length_map, List.length_map,
    length_seqStops, length_matchStops]
  cases p2 <;> rfl

/-- The first transactions of the path are reads, and leave the tag. -/
theorem applyAll_pathReads (h p q : List Byte) (p2 : Bool) {k : Nat} (hk : k ≤ pathReads p2)
    (tag : Memory) : applyAll ((pathTransactions tag h p q p2).take k) tag = tag := by
  refine applyAll_of_reads (fun x hx => ?_) tag
  rw [pathTransactions_eq, ← List.append_assoc, seqStops_map] at hx
  rw [List.take_append_of_le_length (by cases p2 <;> exact hk)] at hx
  exact (List.mem_append.mp (List.mem_of_mem_take hx)).elim (refreshReads_read x)
    (sequenceReads_read p2 x)

/-- The transactions of the path after its reads. -/
theorem applyAll_path (tag : Memory) (h p q : List Byte) (p2 : Bool) (j : Nat) :
    applyAll ((pathTransactions tag h p q p2).take (pathReads p2 + j)) tag =
      applyAll (((matchStops tag h p q p2).map (·.x)).take j) tag := by
  have hlen : (refreshReads ++ sequenceReads p2).length = pathReads p2 := by cases p2 <;> rfl
  have hreads : ∀ x ∈ refreshReads ++ sequenceReads p2, x.op = .read := fun x hx =>
    (List.mem_append.mp hx).elim (refreshReads_read x) (sequenceReads_read p2 x)
  rw [pathTransactions_eq, ← List.append_assoc, seqStops_map, ← hlen, List.take_length_add_append,
    applyAll_append, applyAll_of_reads hreads]

/-- RES0 at each wait of the stale regions' writes (R291). -/
theorem staleStops_res0 (h p q : List Byte) (stale1 stale2 : Region) (p2 : Bool) {j : Nat}
    (hj : j < (staleStops h p q stale1 stale2 p2).length) :
    (staleStops h p q stale1 stale2 p2)[j].res0.toNat =
      if 7 ≤ j then (if stale1 = .a then 1 else 2) else 0 := by
  have hvalues : (staleStops h p q stale1 stale2 p2).map (·.res0.toNat) =
      (List.range (staleStops h p q stale1 stale2 p2).length).map fun j =>
        if 7 ≤ j then (if stale1 = .a then 1 else 2) else 0 := by
    cases p2 <;> cases stale1 <;> rfl
  have hget := congrArg (·[j]?) hvalues
  simpa [hj] using hget

theorem matchStops_completes (tag : Memory) (h p q : List Byte) (w : Word) (u : State) (p2 : Bool) :
    Completes w u ((matchStops tag h p q p2)[(matchStops tag h p q p2).length - 1]'(
        Nat.sub_one_lt_of_lt (matchStops_pos tag h p q p2)))
      (staleRes0 (staleRegion (tagSeq1 tag h .a) (tagSeq1 tag h .b))
        (staleRegion (readSeq2 tag h p2 .a) (readSeq2 tag h p2 .b)) p2) := by
  cases p2 with
  | false =>
    have hend := completes_wrPart1 h p w u (staleRegion (tagSeq1 tag h .a) (tagSeq1 tag h .b))
      (staleRegion (readSeq2 tag h false .a) (readSeq2 tag h false .b)) 0#32
    rw [BitVec.zero_or] at hend
    exact hend
  | true => exact completes_wrPart2 h q w u _ (pieceBit false _)

theorem staleRes0_toNat (stale1 stale2 : Region) (p2 : Bool) :
    (staleRes0 stale1 stale2 p2).toNat =
      (if stale1 = .a then 1 else 2) + if p2 then if stale2 = .a then 4 else 8 else 0 := by
  cases p2 <;> cases stale1 <;> cases stale2 <;> rfl

/-- What the seal leaves on the matching path. -/
theorem matchSealed_holds (hh : refreshedHeader s.tag (s.buf .hdr) = h)
    (hp : p1Sealed (splice (s.buf .p1) 0x09 [nextSeq1 s.tag h]) = p)
    (hq : p2Sealed (splice (s.buf .p2) 0x02 [nextSeq2 s.tag h p2]) = q) :
    HoldsRecord (s.matchSealed h p2) h p (if p2 then q else s.buf .p2) := by
  have hholds := withSeals_holds s p2 (nextSeq1 s.tag h)
    (nextSequence (readSeq2 s.tag h p2 .a) (readSeq2 s.tag h p2 .b))
    (seqWord (tagSeq1 s.tag h .a) (tagSeq1 s.tag h .b) (readSeq2 s.tag h p2 .a)
      (readSeq2 s.tag h p2 .b))
  rw [hh, hp] at hholds
  refine ⟨hholds.hdr, hholds.p1, hholds.p2.trans ?_⟩
  cases p2 with
  | false => simp only [Bool.false_eq_true, if_false]
  | true => simpa only [nextSeq2, if_true] using hq

theorem matchSealed_eq (s : State) (h : List Byte) (p2 : Bool) :
    s.matchSealed h p2 = { s with
      mem := (s.matchSealed h p2).mem, res0 := (s.matchSealed h p2).res0
      res1 := 0#16 ++ nextSeq2 s.tag h p2 ++ nextSeq1 s.tag h, seq := readSeqWord s.tag h p2 } :=
  withSeals_eq s p2 _ _ _

/-- The matching path up to its first write. -/
theorem run_path_begin (hw : w = (encode (.writeRecord rw)).word) (hf : s.fetch = some w)
    (hh : refreshedHeader s.tag (s.buf .hdr) = h) (hp2 : part2Present (s.buf .p1) = p2)
    (hid : slice h 16 32 = (tagBlock s.tag 1).toList) (hu : HoldsRecord (s.matchSealed h p2) h p q)
    (hi : s.inputs = List.replicate (pathReads p2) .idealAnswer ++ rest) :
    run (1 + pathReads p2) s = .next (((matchStops s.tag h p q p2)[0]'(matchStops_pos _ _ _ _ _)).state w
      (s.matchSealed h p2) s.tag rest) := by
  have hlen := pathReads_eq s.tag h p2
  have hi2 : s.inputs = .idealAnswer :: .idealAnswer ::
      (List.replicate (seqStops s.tag h p2).length .idealAnswer ++ rest) := by
    rw [hi, hlen, List.replicate_add]
    rfl
  have hmatched := run_matched hw hf hi2 (by rwa [hh])
  rw [hp2] at hmatched
  have hseq := run_seqStops_end (w := w) ((withRefresh_buf_hdr s).trans hh) hu rest
  rw [hlen, ← Nat.add_assoc]
  exact (run_add hmatched).trans hseq

/-- A wait of the matching path after k answers: state u waits at the stop a. -/
structure PathWait (s : State) (w : Word) (h p q : List Byte) (p2 : Bool) (k : Nat)
    (rest : List Event) (u : State) (a : Stop) : Prop where
  run : run (1 + k) s =
    .next (a.state w u (applyAll ((pathTransactions s.tag h p q p2).take k) s.tag) rest)
  x : (pathTransactions s.tag h p q p2)[k]? = some a.x
  legal : a.Legal
  frame : u = { s with
    mem := u.mem, res0 := u.res0
    res1 := if k < pathReads p2 then 0 else 0#16 ++ nextSeq2 s.tag h p2 ++ nextSeq1 s.tag h
    seq := if k < pathReads p2 then 0 else readSeqWord s.tag h p2 }
  others : ∀ b : Buffer, b ≠ .hdr → b ≠ .p1 → b ≠ .p2 → u.buf b = s.buf b
  bufHdr : u.buf .hdr = if k < 2 then s.buf .hdr else h
  bufP1 : u.buf .p1 = if k < pathReads p2 then s.buf .p1 else p
  bufP2 : u.buf .p2 = if pathReads p2 ≤ k ∧ p2 = true then q else s.buf .p2
  res0 : a.res0.toNat = if pathReads p2 + 7 ≤ k then
    (if staleRegion (tagSeq1 s.tag h .a) (tagSeq1 s.tag h .b) = .a then 1 else 2) else 0

/-- A wait among the reads of the path, which leave RES1, SEQ, the parts and the tag. -/
theorem PathWait.of_read {k : Nat} (hk : k < pathReads p2) {u : State} {a : Stop}
    (hrun : Machine.run (1 + k) s = .next (a.state w u s.tag rest))
    (hx : (refreshReads ++ (seqStops s.tag h p2).map (·.x))[k]? = some a.x) (hlegal : a.Legal)
    (hframe : u = { s with mem := u.mem, res0 := u.res0, res1 := 0, seq := 0 })
    (hothers : ∀ b : Buffer, b ≠ .hdr → u.buf b = s.buf b)
    (hhdr : u.buf .hdr = if k < 2 then s.buf .hdr else h) (hres0 : a.res0 = 0) :
    PathWait s w h p q p2 k rest u a where
  run := by rw [applyAll_pathReads h p q p2 hk.le]; exact hrun
  x := by
    rw [pathTransactions_eq, ← List.append_assoc, List.getElem?_append_left ?_]
    · exact hx
    · rw [seqStops_map]
      cases p2 <;> exact hk
  legal := hlegal
  frame := by rw [if_pos hk, if_pos hk]; exact hframe
  others := fun b hb _ _ => hothers b hb
  bufHdr := hhdr
  bufP1 := by rw [if_pos hk]; exact hothers .p1 (by decide)
  bufP2 := by rw [if_neg (by omega)]; exact hothers .p2 (by decide)
  res0 := by rw [if_neg (by omega), hres0]; rfl

theorem pathWait_of_read (hw : w = (encode (.writeRecord rw)).word) (hf : s.fetch = some w)
    (hh : refreshedHeader s.tag (s.buf .hdr) = h) (hp2 : part2Present (s.buf .p1) = p2)
    (hid : slice h 16 32 = (tagBlock s.tag 1).toList) {k : Nat} (hk : k < pathReads p2)
    (hi : s.inputs = List.replicate k .idealAnswer ++ rest) :
    ∃ u a, PathWait s w h p q p2 k rest u a := by
  match k with
  | 0 =>
    have hrun := run_refresh0 hw hf
    rw [show s.inputs = rest from hi] at hrun
    exact ⟨s.begun, refreshStop0 rw, .of_read hk hrun rfl (legal_refreshStop0 _) rfl (fun _ _ => rfl) rfl
      rfl⟩
  | 1 =>
    exact ⟨s.begun, refreshStop1 rw (tagBlock s.tag 0), .of_read hk (run_refresh1 hw hf hi) rfl
      (legal_refreshStop1 _ _) rfl (fun _ _ => rfl) rfl rfl⟩
  | j + 2 =>
    have hj : j < (seqStops s.tag h p2).length := by
      have := pathReads_eq s.tag h p2
      omega
    have hi2 : s.inputs = .idealAnswer :: .idealAnswer :: (List.replicate j .idealAnswer ++ rest) := hi
    have hmatched := run_matched hw hf hi2 (by rwa [hh])
    rw [hp2] at hmatched
    have hseq := run_seqStops (w := w) ((withRefresh_buf_hdr s).trans hh) p2 hj rest
    have hrun := (run_add hmatched).trans hseq
    rw [show 3 + j = 1 + (j + 2) by omega] at hrun
    have hmem := List.getElem_mem hj
    refine ⟨s.withRefresh, (seqStops s.tag h p2)[j], .of_read hk hrun ?_ (legal_seqStops _ _ _ _ hmem) rfl
      (fun b => withRefresh_buf_other s) ((withRefresh_buf_hdr s).trans hh) ?_⟩
    · show ((seqStops s.tag h p2).map (·.x))[j]? = _
      rw [List.getElem?_map, List.getElem?_eq_getElem hj]
      rfl
    · exact seqStops_res0 _ _ _ _ hmem

theorem pathWait (hw : w = (encode (.writeRecord rw)).word) (hf : s.fetch = some w)
    (hh : refreshedHeader s.tag (s.buf .hdr) = h) (hp2 : part2Present (s.buf .p1) = p2)
    (hp : p1Sealed (splice (s.buf .p1) 0x09 [nextSeq1 s.tag h]) = p)
    (hq : p2Sealed (splice (s.buf .p2) 0x02 [nextSeq2 s.tag h p2]) = q)
    (hid : slice h 16 32 = (tagBlock s.tag 1).toList) {k : Nat}
    (hk : k < (pathTransactions s.tag h p q p2).length)
    (hi : s.inputs = List.replicate k .idealAnswer ++ rest) :
    ∃ u a, PathWait s w h p q p2 k rest u a := by
  by_cases hread : k < pathReads p2
  · exact pathWait_of_read hw hf hh hp2 hid hread hi
  obtain ⟨j, rfl⟩ : ∃ j, k = pathReads p2 + j := ⟨k - pathReads p2, by omega⟩
  have hholds := matchSealed_holds hh hp hq
  have hpath : pathTransactions s.tag h p (if p2 then q else s.buf .p2) p2 =
    pathTransactions s.tag h p q p2 := pathTransactions_congr s.tag fun h => if_pos h
  have hj : j < (matchStops s.tag h p (if p2 then q else s.buf .p2) p2).length := by
    rw [length_pathTransactions] at hk
    rw [length_matchStops]
    cases p2 <;> simp only [pathReads, Bool.false_eq_true, if_false, if_true] at hk ⊢ <;> omega
  have hbegin := run_path_begin hw hf hh hp2 hid hholds
    (rest := List.replicate j .idealAnswer ++ rest) (by rw [hi, List.replicate_add, List.append_assoc])
  have hwrites := run_stops (isChain_staleStops hholds w _ _ p2) (matchStops_pos _ _ _ _ _) hj s.tag rest
  have hrun := (run_add hbegin).trans hwrites
  refine ⟨s.matchSealed h p2, (matchStops s.tag h p (if p2 then q else s.buf .p2) p2)[j],
    ?run, ?x, legal_staleStops _ _ _ _ _ _ _ (List.getElem_mem hj), ?frame,
    fun b => withSeals_buf_other s p2 _ _ _, ?header, ?part1, ?part2, ?res0⟩
  case run =>
    rw [← hpath, applyAll_path, ← Nat.add_assoc]
    exact hrun
  case x =>
    have hlen : (refreshReads ++ (seqStops s.tag h p2).map (·.x)).length = pathReads p2 := by
      rw [seqStops_map]
      cases p2 <;> rfl
    rw [← hpath, pathTransactions_eq, ← List.append_assoc, ← hlen, List.getElem?_append_right (by omega),
      Nat.add_sub_cancel_left, List.getElem?_map, List.getElem?_eq_getElem hj]
    rfl
  case frame =>
    rw [if_neg hread, if_neg hread]
    exact matchSealed_eq s h p2
  case header =>
    rw [if_neg (by rw [pathReads]; split <;> omega)]
    exact hholds.hdr
  case part1 =>
    rw [if_neg hread]
    exact hholds.p1
  case part2 =>
    rw [hholds.p2]
    simp
  case res0 =>
    refine (staleStops_res0 _ _ _ _ _ _ hj).trans ?_
    simp only [Nat.add_le_add_iff_left]

/-- The matching path to its end. -/
theorem run_path (hw : w = (encode (.writeRecord rw)).word) (hf : s.fetch = some w)
    (hh : refreshedHeader s.tag (s.buf .hdr) = h) (hp2 : part2Present (s.buf .p1) = p2)
    (hid : slice h 16 32 = (tagBlock s.tag 1).toList) (hu : HoldsRecord (s.matchSealed h p2) h p q)
    (hi : s.inputs = List.replicate (if p2 then 17 else 11) .idealAnswer ++ rest) :
    run (if p2 then 18 else 12) s = .next { s.matchSealed h p2 with
      tag := applyAll (pathTransactions s.tag h p q p2) s.tag
      res0 := staleRes0 (staleRegion (tagSeq1 s.tag h .a) (tagSeq1 s.tag h .b))
        (staleRegion (readSeq2 s.tag h p2 .a) (readSeq2 s.tag h p2 .b)) p2
      err := .ok, done := true, phase := .idle, inputs := rest } := by
  have hlen := length_matchStops s.tag h p q p2
  have hbegin := run_path_begin hw hf hh hp2 hid hu
    (rest := List.replicate (matchStops s.tag h p q p2).length .idealAnswer ++ rest)
    (by rw [hi, hlen]; cases p2 <;> rfl)
  have hend := run_stops_end (isChain_staleStops hu w _ _ p2) (matchStops_pos _ _ _ _ _)
    (matchStops_completes s.tag h p q w _ p2) s.tag rest
  have hall := applyAll_path s.tag h p q p2 (matchStops s.tag h p q p2).length
  rw [List.take_of_length_le (by
      rw [length_pathTransactions, hlen]; cases p2 <;> decide),
    List.take_of_length_le (by rw [List.length_map])] at hall
  rw [hall, show (if p2 then 18 else 12) = 1 + pathReads p2 + (matchStops s.tag h p q p2).length by
    rw [hlen]; cases p2 <;> rfl]
  exact (run_add hbegin).trans hend

end

end Sys2Proof.Machine

/-! What WRITE_RECORD leaves on the matching-identity path (spec/43_arbiter.md R289 to R292). -/

namespace Sys2Proof.Machine

section
variable {h p q : List Byte} {p2 : Bool}

/-- What the tag holds once the matching path is done (R290). -/
theorem path_tag (hp : p.length = 112) (hq : q.length = 64) {tag tag' : Memory} {stale1 stale2 : Region}
    (ht : TagAfter (matchingTransactions h p q p2 stale1 stale2) tag tag') :
    slice (plainRegion tag' h stale1) 0 112 = p ∧
      (p2 = true → slice (plainRegion tag' h stale2) 112 176 = q) ∧
      ∀ n, (∀ i ≤ 6, n ≠ regionBlock stale1 i) →
        (p2 = true → ∀ i, 7 ≤ i → i ≤ 10 → n ≠ regionBlock stale2 i) →
        tagBlock tag' n = tagBlock tag n := by
  obtain ⟨hwritten, hkept⟩ := ht
  have hmem {x : Transaction} : x ∈ matchingTransactions h p q p2 stale1 stale2 ↔
      ((x ∈ refreshReads ∨ x ∈ sequenceReads p2) ∨ x ∈ part1Writes h p stale1) ∨
        p2 = true ∧ x ∈ part2Writes h q stale2 := by
    simp only [matchingTransactions, List.mem_append, mem_ite_nil]
  have hwritten1 {i : Nat} (hi : i < 7) :=
    hwritten _ (hmem.mpr (.inl (.inr (mem_part1Writes.mpr ⟨i, hi, rfl⟩)))) _ rfl
  have hwritten2 (hp2 : p2 = true) {j : Nat} (hj : j < 4) :=
    hwritten _ (hmem.mpr (.inr ⟨hp2, mem_part2Writes.mpr ⟨j, hj, rfl⟩⟩)) _ rfl
  refine ⟨slice_plainRegion_part1 hp fun i hi => hwritten1 hi,
    fun hp2 => slice_plainRegion_part2 hq fun j hj => hwritten2 hp2 hj,
    fun n hpart1 hpart2 => hkept n fun x hx hwrite => ?_⟩
  rcases hmem.mp hx with ((hr | hr) | hr) | ⟨hp2, hr⟩
  · exact absurd (refreshReads_read x hr) hwrite
  · exact absurd (sequenceReads_read p2 x hr) hwrite
  · obtain ⟨i, hi, rfl⟩ := mem_part1Writes.mp hr
    exact (hpart1 i (by omega)).symm
  · obtain ⟨j, hj, rfl⟩ := mem_part2Writes.mp hr
    exact (hpart2 hp2 (7 + j) (by omega) (by omega)).symm

end

/-- The whole of the matching path: its end, and what the tag then holds. -/
theorem path_result {s : State} {w : Word} {rw p2 : Bool} {rest : List Event} {h p q : List Byte}
    (hw : w = (encode (.writeRecord rw)).word) (hf : s.fetch = some w)
    (hh : refreshedHeader s.tag (s.buf .hdr) = h) (hp2 : part2Present (s.buf .p1) = p2)
    (hp : p1Sealed (splice (s.buf .p1) 0x09 [nextSeq1 s.tag h]) = p)
    (hq : p2Sealed (splice (s.buf .p2) 0x02 [nextSeq2 s.tag h p2]) = q)
    (hid : slice h 16 32 = (tagBlock s.tag 1).toList)
    (hi : s.inputs = List.replicate (if p2 then 17 else 11) .idealAnswer ++ rest) :
    ∃ t, run (if p2 then 18 else 12) s = .next t ∧
      t = { s with
        mem := t.mem, tag := t.tag
        res0 := staleRes0 (staleRegion (tagSeq1 s.tag h .a) (tagSeq1 s.tag h .b))
          (staleRegion (readSeq2 s.tag h p2 .a) (readSeq2 s.tag h p2 .b)) p2
        res1 := 0#16 ++ nextSeq2 s.tag h p2 ++ nextSeq1 s.tag h, seq := readSeqWord s.tag h p2
        err := .ok, done := true, phase := .idle, inputs := rest } ∧
      (∀ b : Buffer, b ≠ .hdr → b ≠ .p1 → b ≠ .p2 → t.buf b = s.buf b) ∧
      HoldsRecord t h p (if p2 then q else s.buf .p2) ∧
      TagAfter (pathTransactions s.tag h p q p2) s.tag t.tag := by
  have hholds := matchSealed_holds hh hp hq
  have hrun := run_path hw hf hh hp2 hid hholds hi
  rw [pathTransactions_congr (q := q) s.tag fun h => if_pos h] at hrun
  have hother := fun b => withSeals_buf_other s p2 (nextSequence (tagSeq1 s.tag h .a) (tagSeq1 s.tag h .b))
    (nextSequence (readSeq2 s.tag h p2 .a) (readSeq2 s.tag h p2 .b))
    (seqWord (tagSeq1 s.tag h .a) (tagSeq1 s.tag h .b) (readSeq2 s.tag h p2 .a)
      (readSeq2 s.tag h p2 .b)) (b := b)
  have hframe := matchSealed_eq s h p2
  have htag := tagAfter_applyAll (writesApart_match s.tag h p q p2) s.tag
  rw [← State.matchSealed] at hother
  generalize s.matchSealed h p2 = u at *
  refine ⟨_, hrun, ?_, hother, ⟨hholds.hdr, hholds.p1, hholds.p2⟩, htag⟩
  rw [hframe]

/-- Settles O55: every wait of the matching path is a stop of its chain, at whose end the tag holds what the
chain writes. -/
theorem writeRecordResult : Obligations.WriteRecordResult := by
  intro s rw rest w hf h p2 s1A s1B s2A s2B stale1 stale2 n1 n2 p q l reads bit1 hid
  have hw : w = (encode (.writeRecord rw)).word := (word_writeRecord rw).symm
  have hh : refreshedHeader s.tag (s.buf .hdr) = h := rfl
  have hp2 : part2Present (s.buf .p1) = p2 := rfl
  have hn1 : nextSeq1 s.tag h = n1 := rfl
  have hn2 : nextSeq2 s.tag h p2 = n2 := rfl
  have hseq : readSeqWord s.tag h p2 = s2B ++ s2A ++ s1B ++ s1A := rfl
  have hstale1 : staleRegion (tagSeq1 s.tag h .a) (tagSeq1 s.tag h .b) = stale1 := rfl
  have hstale2 : staleRegion (readSeq2 s.tag h p2 .a) (readSeq2 s.tag h p2 .b) = stale2 := rfl
  have hp : p1Sealed (splice (s.buf .p1) 0x09 [n1]) = p := rfl
  have hq : p2Sealed (splice (s.buf .p2) 0x02 [n2]) = q := rfl
  have hl : l = matchingTransactions h p q p2 stale1 stale2 := rfl
  have hreads : pathReads p2 = reads := rfl
  have hbit1 : bit1 = if stale1 = .a then 1 else 2 := rfl
  clear_value w l bit1 reads p q n1 n2 stale1 stale2 s2A s2B s1A s1B p2 h
  have hpath : pathTransactions s.tag h p q p2 = l := by rw [hl, pathTransactions, hstale1, hstale2]
  refine ⟨fun hi => ?whole, by rw [← hpath]; exact length_pathTransactions s.tag h p q p2,
    fun k hk hi => ?wait⟩
  case whole =>
    obtain ⟨t, hrun, hframe, hothers, hholds, htag⟩ :=
      path_result hw hf hh hp2 (hn1 ▸ hp) (hn2 ▸ hq) hid hi
    rw [hpath, hl] at htag
    rw [hn1, hn2, hseq, hstale1, hstale2] at hframe
    obtain ⟨hpart1, hpart2, hkept⟩ :=
      path_tag (hp ▸ length_p1Sealed_splice s n1) (hq ▸ length_p2Sealed_splice s n2) htag
    refine ⟨t, hrun, ?_, hothers, hholds.hdr, hholds.p1, hholds.p2, ?_, hpart1.trans hholds.p1.symm,
      fun h2 => (hpart2 h2).trans (Eq.trans ?_ hholds.p2.symm), hkept⟩
    · rw [hframe]
    · rw [hframe, hbit1]
      exact staleRes0_toNat stale1 stale2 p2
    · rw [if_pos h2]
  case wait =>
    have hk' : k < (pathTransactions s.tag h p q p2).length := hpath ▸ hk
    obtain ⟨u, a, hwait⟩ := pathWait hw hf hh hp2 (hn1 ▸ hp) (hn2 ▸ hq) hid hk' hi
    have hapart : WritesApart (pathTransactions s.tag h p q p2) := writesApart_match s.tag h p q p2
    have hx := hwait.x
    have hwrun := hwait.run
    rw [hpath] at hx hwrun hapart
    obtain ⟨t, hrun, hwaits, hframe, hothers, hbuf, hres0, htag, habort⟩ := Stop.result hk hwrun
      (Option.some.inj (hx.symm.trans (List.getElem?_eq_getElem hk))) hwait.legal hapart hwait.frame
      hwait.others
    have hbufHdr := (hbuf .hdr).trans hwait.bufHdr
    have hbufP1 := (hbuf .p1).trans hwait.bufP1
    have hbufP2 := (hbuf .p2).trans hwait.bufP2
    have hwres0 := hwait.res0
    rw [hn1, hn2, hseq, hreads] at hframe
    rw [hreads] at hbufP1 hbufP2
    rw [hreads, hstale1, ← hbit1] at hwres0
    exact ⟨t, hrun, hwaits, hframe, hothers, hbufHdr, hbufP1, hbufP2, hres0 ▸ hwres0, htag, habort⟩

end Sys2Proof.Machine

/-! READ_RECORD after WRITE_RECORD (spec/43_arbiter.md R290, R294). -/

namespace Sys2Proof.Machine

/-! Bytes of a region's image, and of a sealed record. -/

/-- A byte of a region's image is a byte of its block. -/
theorem byteAt_plainRegion (tag : Memory) (h : List Byte) (r : Region) {i k : Nat} (hi : i < 11)
    (hk : k < 16) :
    byteAt (plainRegion tag h r) (16 * i + k) = byteAt (plainBlock tag h (regionBlock r i)).toList k := by
  have htake := take_flatMap_blocks (fun i => plainBlock tag h (regionBlock r i)) (i := i + 1) (k := 11)
    (by omega)
  have hbyte := congrArg (·[16 * i + k]?) htake
  rw [List.getElem?_take_of_lt (by omega), List.range_succ (n := i), List.flatMap_append, List.flatMap_singleton,
    List.getElem?_append_right (by rw [length_flatMap_blocks]; omega), length_flatMap_blocks,
    Nat.add_sub_cancel_left] at hbyte
  rw [byteAt_eq, byteAt_eq]
  exact congrArg (·.getD 0) hbyte

theorem byteAt_plainRegion_seq1 (tag : Memory) (h : List Byte) (r : Region) :
    byteAt (plainRegion tag h r) 0x09 = tagSeq1 tag h r :=
  byteAt_plainRegion tag h r (i := 0) (k := 9) (by omega) (by omega)

theorem byteAt_plainRegion_seq2 (tag : Memory) (h : List Byte) (r : Region) :
    byteAt (plainRegion tag h r) 0x72 = tagSeq2 tag h r :=
  byteAt_plainRegion tag h r (i := 7) (k := 2) (by omega) (by omega)

section
variable {p q : List Byte} (n : Byte)

/-- The seal keeps the sequence byte that was put in. -/
theorem byteAt_p1Sealed_seq (hp : p.length = 112) : byteAt (p1Sealed (splice p 0x09 [n])) 0x09 = n := by
  rw [byteAt_eq, getElem?_p1Sealed_other _ (by rw [length_splice _ _ _ (by simp [hp]), hp]) _ (by omega),
    getElem?_splice _ _ _ _ (by simp [hp])]
  simp

/-- Sealing a part 1 does not change whether a part 2 is present. -/
theorem part2Present_p1Sealed (hp : p.length = 112) :
    part2Present (p1Sealed (splice p 0x09 [n])) = part2Present p := by
  rw [part2Present, part2Present, byteAt_eq, byteAt_eq,
    getElem?_p1Sealed_other _ (by rw [length_splice _ _ _ (by simp [hp]), hp]) _ (by omega),
    getElem?_splice _ _ _ _ (by simp [hp]), if_neg (by simp)]

theorem byteAt_p2Sealed_seq (hq : q.length = 64) : byteAt (p2Sealed (splice q 0x02 [n])) 0x02 = n := by
  have hl : (splice q 0x02 [n]).length = 64 := by rw [length_splice _ _ _ (by simp [hq]), hq]
  rw [byteAt_eq, p2Sealed, getElem?_store16_other _ _ _ _ (by omega) (by omega),
    getElem?_splice _ _ _ _ (by simp [hq])]
  simp

end

/-- R287: where the identity matches, the refreshed header is the one on the tag. -/
theorem tagHeader_of_identity {tag : Memory} {hdr : List Byte} (hl : hdr.length = 32)
    (hid : slice (refreshedHeader tag hdr) 16 32 = (tagBlock tag 1).toList) :
    tagHeader tag = refreshedHeader tag hdr := by
  have hlen : ((tagBlock tag 0).toList ++ slice hdr 16 32).length = 32 := by
    simp [length_slice, hl]
  have hfirst : (refreshedHeader tag hdr).take 16 = (tagBlock tag 0).toList := by
    apply List.ext_getElem?
    intro k
    rw [List.getElem?_take]
    split
    · rw [refreshedHeader, hdrSealed, getElem?_store16_other _ _ _ _ (by omega) (by omega),
        List.getElem?_append_left (by simpa)]
    · rw [List.getElem?_eq_none (by simp; omega)]
  have hlast : (refreshedHeader tag hdr).drop 16 = (tagBlock tag 1).toList := by
    rw [← hid, slice, List.take_of_length_le]
    rw [List.length_drop, refreshedHeader, length_hdrSealed _ hlen]
  rw [tagHeader, ← hfirst, ← hlast, List.take_append_drop]

/-! The reconciliation after a write (R285, R272). -/

/-- A valid copy with the next sequence byte in the stale region is selected. -/
theorem reconcile_written {old new : Region → Byte} {valid : Region → Bool} {r : Region}
    (hr : staleRegion (old .a) (old .b) = r) (hnew : new r = nextSequence (old .a) (old .b))
    (hkept : new (otherRegion r) = old (otherRegion r)) (hvalid : valid r = true) (eq : Bool) :
    reconcile (valid .a) (new .a) (valid .b) (new .b) eq = choiceOf r := by
  obtain ⟨_, _, hsel⟩ := staleWriteIsSelected
  cases r with
  | a =>
    rw [hvalid, hnew, show new .b = old .b from hkept]
    exact ((hsel (old .a) (old .b) (valid .b) eq).2.2.2.1 hr).2
  | b =>
    rw [hvalid, hnew, show new .a = old .a from hkept]
    exact ((hsel (old .a) (old .b) (valid .a) eq).2.2.2.2 hr).2

theorem chosenBytes_choiceOf (r : Region) (image : Region → List Byte) (i j : Nat) :
    chosenBytes (choiceOf r) (image .a) (image .b) i j = slice (image r) i j := by
  cases r <;> rfl

theorem selects_choiceOf (r : Region) : (choiceOf r).selects = some r := by cases r <;> rfl

theorem choiceOf_ne_ambiguous (r : Region) : choiceOf r ≠ .ambiguous := by cases r <;> nofun

/-- A region holds a part at [i, j) of its image: the part is valid, and selected by its sequence byte. -/
structure PartWritten (image : Region → List Byte) (r : Region) (i j k : Nat) (valid : List Byte → Bool)
    (bytes : List Byte) (old : Region → Byte) : Prop where
  part : slice (image r) i j = bytes
  valid : valid bytes = true
  stale : staleRegion (old .a) (old .b) = r
  new : byteAt (image r) k = nextSequence (old .a) (old .b)
  kept : byteAt (image (otherRegion r)) k = old (otherRegion r)

theorem PartWritten.reconcile {image : Region → List Byte} {r : Region} {i j k : Nat}
    {valid : List Byte → Bool} {bytes : List Byte} {old : Region → Byte}
    (hw : PartWritten image r i j k valid bytes old) (eq : Bool) :
    Machine.reconcile (true && valid (slice (image .a) i j)) (byteAt (image .a) k)
      (true && valid (slice (image .b) i j)) (byteAt (image .b) k) eq = choiceOf r :=
  reconcile_written (new := fun r => byteAt (image r) k)
    (valid := fun r => true && valid (slice (image r) i j)) hw.stale hw.new hw.kept
    (by rw [hw.part, hw.valid, Bool.true_and]) eq

/-- R294: what READ_RECORD gives of a written record. -/
theorem ReadOutcome.of_written {image : Region → List Byte} {eq p2 : Bool} {t : State}
    {p q : List Byte} {r1 r2 : Region} {old1 old2 : Region → Byte}
    (ho : ReadOutcome true true true false eq (image .a) (image .b) t)
    (h1 : PartWritten image r1 0 112 0x09 p1Valid p old1) (hpresent : part2Present p = p2)
    (h2 : p2 = true → PartWritten image r2 112 176 0x72 p2Valid q old2) :
    t.err = .ok ∧ t.buf .p1 = p ∧ t.recon.extractLsb' 0 3 = (choiceOf r1).code ∧
      (p2 = true → t.buf .p2 = q ∧ t.recon.extractLsb' 4 3 = (choiceOf r2).code) ∧
      t.recon.getLsbD 8 = true := by
  have hchoice2 : (if (choiceOf r1).selects.isSome &&
      byteAt (chosenBytes (choiceOf r1) (image .a) (image .b) 0 112) 0x16 != 0 then
        reconcile (true && p2Valid (slice (image .a) 112 176)) (byteAt (image .a) 0x72)
          (true && p2Valid (slice (image .b) 112 176)) (byteAt (image .b) 0x72) eq
      else .notAttempted) = if p2 then choiceOf r2 else .notAttempted := by
    rw [chosenBytes_choiceOf, h1.part, selects_choiceOf, Option.isSome_some, Bool.true_and, ← hpresent]
    cases hp : part2Present p with
    | false => exact if_neg (Bool.eq_false_iff.mp hp)
    | true => exact (if_pos hp).trans ((h2 (hpresent.symm.trans hp)).reconcile eq)
  obtain ⟨hp1, hp2, hr1, hr2, hhok, herr⟩ := ho.of_choices (h1.reconcile eq) hchoice2
  rw [chosenBytes_choiceOf, h1.part] at hp1
  refine ⟨?_, hp1, hr1, fun h => ?_, hhok⟩
  · rw [herr, if_neg nofun, if_neg, if_pos rfl]
    rintro (h | h)
    · exact choiceOf_ne_ambiguous r1 h
    · cases p2 with
      | false => exact absurd h nofun
      | true => exact choiceOf_ne_ambiguous r2 h
  · rw [if_pos h] at hp2 hr2
    rw [chosenBytes_choiceOf, (h2 h).part] at hp2
    exact ⟨hp2, hr2⟩

/-! The record on the tag after WRITE_RECORD. -/

theorem otherRegion_ne (r : Region) : otherRegion r ≠ r := by cases r <;> nofun

theorem plainBlock_congr {tag tag' : Memory} {n : Nat} (h : List Byte)
    (ht : tagBlock tag' n = tagBlock tag n) : plainBlock tag' h n = plainBlock tag h n := by
  rw [plainBlock, plainBlock, ht]

/-- The other region's sequence bytes, and the header, stand as they were. -/
theorem path_tag_kept {tag tag' : Memory} {r1 r2 : Region} {p2 : Bool} (h : List Byte)
    (hkept : ∀ n, (∀ i ≤ 6, n ≠ regionBlock r1 i) →
      (p2 = true → ∀ i, 7 ≤ i → i ≤ 10 → n ≠ regionBlock r2 i) → tagBlock tag' n = tagBlock tag n) :
    tagHeader tag' = tagHeader tag ∧
      tagSeq1 tag' h (otherRegion r1) = tagSeq1 tag h (otherRegion r1) ∧
      tagSeq2 tag' h (otherRegion r2) = tagSeq2 tag h (otherRegion r2) := by
  have hlow {n : Nat} (hn : n < 4) : tagBlock tag' n = tagBlock tag n :=
    hkept n (fun i _ => by have := regionBlock_ge r1 i; omega)
      (fun _ i _ _ => by have := regionBlock_ge r2 i; omega)
  refine ⟨?_, ?_, ?_⟩
  · rw [tagHeader, tagHeader, hlow (by omega), hlow (by omega)]
  · rw [tagSeq1, tagSeq1, plainBlock_congr h]
    refine hkept _ (fun i hi => regionBlock_disjoint _ _ _ _ (otherRegion_ne r1) (by omega) (by omega))
      fun _ i hi hi' heq => ?_
    have := (eq_of_regionBlock_eq (by omega) hi' heq).2
    omega
  · rw [tagSeq2, tagSeq2, plainBlock_congr h]
    refine hkept _ (fun i hi heq => ?_)
      fun _ i _ hi => regionBlock_disjoint _ _ _ _ (otherRegion_ne r2) (by omega) hi
    have := (eq_of_regionBlock_eq (by omega) (by omega) heq).2
    omega

end Sys2Proof.Machine

/-! The record as written, read back (spec/43_arbiter.md R294). -/

namespace Sys2Proof.Machine

/-- READ_RECORD issued to an idle machine, under IDEAL_TAG. -/
theorem run_issued_readRecord {t : State} {rest : List Event} (hp : t.phase = .idle)
    (hi : t.inputs = .hostWrite 0x00C .w4 0x00000032 :: (List.replicate 24 .idealAnswer ++ rest)) :
    ∃ u, run 26 t = .next u ∧ u.phase = .idle ∧
      ReadOutcome (hdrValid (tagHeader t.tag)) true true false t.eqPolicy
        (plainRegion t.tag (tagHeader t.tag) .a) (plainRegion t.tag (tagHeader t.tag) .b) u := by
  obtain ⟨u, hrun, hframe, _, _, _, _, hout⟩ :=
    readRecordResult (accept 0x00000032 { t with inputs := List.replicate 24 .idealAnswer ++ rest }) rest
      rfl rfl
  have hissue := run_succ 25 (step_accept hp hi)
  exact ⟨u, hissue.trans hrun, by rw [hframe], hout⟩

/-- A part 1 written to its stale region (R290). -/
theorem partWritten1 {s : State} {tag' : Memory} {h p : List Byte} {r : Region}
    (hr : staleRegion (tagSeq1 s.tag h .a) (tagSeq1 s.tag h .b) = r)
    (hp : p1Sealed (splice (s.buf .p1) 0x09 [nextSeq1 s.tag h]) = p)
    (hpart : slice (plainRegion tag' h r) 0 112 = p)
    (hkept : tagSeq1 tag' h (otherRegion r) = tagSeq1 s.tag h (otherRegion r)) :
    PartWritten (plainRegion tag' h) r 0 112 0x09 p1Valid p (tagSeq1 s.tag h) where
  part := hpart
  valid := by
    rw [← hp]
    exact p1Valid_p1Sealed _ (by rw [length_splice _ _ _ (by simp [Buffer.size])]; simp [Buffer.size])
  stale := hr
  new := by
    have hbyte := byteAt_slice (plainRegion tag' h r) (i := 0) (j := 112) (k := 0x09) (by omega)
    rw [hpart, ← hp, byteAt_p1Sealed_seq _ (length_buf s .p1)] at hbyte
    exact hbyte.symm
  kept := (byteAt_plainRegion_seq1 tag' h _).trans hkept

/-- A part 2 written to its stale region (R290). -/
theorem partWritten2 {s : State} {tag' : Memory} {h q : List Byte} {r : Region}
    (hr : staleRegion (tagSeq2 s.tag h .a) (tagSeq2 s.tag h .b) = r)
    (hq : p2Sealed (splice (s.buf .p2) 0x02 [nextSeq2 s.tag h true]) = q)
    (hpart : slice (plainRegion tag' h r) 112 176 = q)
    (hkept : tagSeq2 tag' h (otherRegion r) = tagSeq2 s.tag h (otherRegion r)) :
    PartWritten (plainRegion tag' h) r 112 176 0x72 p2Valid q (tagSeq2 s.tag h) where
  part := hpart
  valid := by
    rw [← hq]
    exact p2Valid_p2Sealed _ (by rw [length_splice _ _ _ (by simp [Buffer.size])]; simp [Buffer.size])
  stale := hr
  new := by
    have hbyte := byteAt_slice (plainRegion tag' h r) (i := 112) (j := 176) (k := 0x02) (by omega)
    rw [hpart, ← hq, byteAt_p2Sealed_seq _ (length_buf s .p2)] at hbyte
    exact hbyte.symm
  kept := (byteAt_plainRegion_seq2 tag' h _).trans hkept

/-- Settles O57: the copies written have the next sequence bytes, so the read selects them. -/
theorem writeThenReadReturnsRecord : Obligations.WriteThenReadReturnsRecord := by
  intro s rw rest hf h p2 stale1 stale2 hid hi
  have hh : refreshedHeader s.tag (s.buf .hdr) = h := rfl
  have hp2 : part2Present (s.buf .p1) = p2 := rfl
  have hstale1 : staleRegion (tagSeq1 s.tag h .a) (tagSeq1 s.tag h .b) = stale1 := rfl
  have hstale2 : staleRegion (tagSeq2 s.tag h .a) (tagSeq2 s.tag h .b) = stale2 := rfl
  obtain ⟨p, hp⟩ : ∃ p, p1Sealed (splice (s.buf .p1) 0x09 [nextSeq1 s.tag h]) = p := ⟨_, rfl⟩
  obtain ⟨q, hq⟩ : ∃ q, p2Sealed (splice (s.buf .p2) 0x02 [nextSeq2 s.tag h p2]) = q := ⟨_, rfl⟩
  clear_value stale1 stale2 p2 h
  have hlenp := length_p1Sealed_splice s (nextSeq1 s.tag h)
  have hlenq := length_p2Sealed_splice s (nextSeq2 s.tag h p2)
  rw [hp] at hlenp
  rw [hq] at hlenq
  have hpresent := part2Present_p1Sealed (nextSeq1 s.tag h) (length_buf s .p1)
  rw [hp, hp2] at hpresent
  rw [← word_writeRecord rw] at hf
  rw [List.append_assoc] at hi
  obtain ⟨t, hrun, hframe, _, hholds, htag⟩ := path_result rfl hf hh hp2 hp hq hid hi
  obtain ⟨hpart1, hpart2, hkept⟩ := path_tag hlenp hlenq htag
  obtain ⟨hheader, hseq1, hseq2⟩ := path_tag_kept h hkept
  have hphase : t.phase = .idle := by rw [hframe]
  have herr : t.err = .ok := by rw [hframe]
  have hinputs : t.inputs = .hostWrite 0x00C .w4 0x00000032 ::
    (List.replicate 24 .idealAnswer ++ rest) := by rw [hframe]; rfl
  have hidentity := tagHeader_of_identity (length_buf s .hdr) (by rw [hh]; exact hid)
  rw [hh] at hidentity
  have hvalid : hdrValid h = true := by
    rw [← hh, refreshedHeader]
    exact hdrValid_hdrSealed _ (by simp [length_slice, Buffer.size])
  obtain ⟨u, hread, huphase, hout⟩ := run_issued_readRecord hphase hinputs
  rw [hheader, hidentity, hvalid] at hout
  rw [hstale1] at hpart1 hseq1
  have hwritten1 := partWritten1 hstale1 hp hpart1 hseq1
  have hwritten2 : p2 = true → PartWritten (plainRegion t.tag h) stale2 112 176 0x72 p2Valid q
      (tagSeq2 s.tag h) := by
    rintro rfl
    have hstale : staleRegion (readSeq2 s.tag h true .a) (readSeq2 s.tag h true .b) = stale2 := hstale2
    rw [hstale] at hpart2 hseq2
    exact partWritten2 hstale2 hq (hpart2 rfl) hseq2
  obtain ⟨huerr, hup1, hur1, hup2, hu8⟩ := hout.of_written hwritten1 hpresent hwritten2
  refine ⟨t, u, hrun, hphase, herr, hread, huphase, huerr, hup1.trans hholds.p1.symm, hur1, fun h2 => ?_,
    hu8⟩
  obtain ⟨hbuf, hcode⟩ := hup2 h2
  exact ⟨hbuf.trans ((if_pos h2).symm.trans hholds.p2.symm), hcode⟩

end Sys2Proof.Machine

/-! Crash safety: what holds at every point of the matching path (spec/43_arbiter.md R290, R295). -/

namespace Sys2Proof.Machine

/-! The path that a WRITE_RECORD on a matching identity takes from the state s at its command word. -/

/-- The header once refreshed (R287). -/
def State.pathHdr (s : State) : List Byte := refreshedHeader s.tag (s.buf .hdr)

/-- Whether part 2 is written (R230). -/
def State.pathP2 (s : State) : Bool := part2Present (s.buf .p1)

/-- The stale region of part 1 (R285). -/
def State.pathStale1 (s : State) : Region :=
  staleRegion (tagSeq1 s.tag s.pathHdr .a) (tagSeq1 s.tag s.pathHdr .b)

/-- The stale region of part 2, when there is one (R285). -/
def State.pathStale2 (s : State) : Region :=
  staleRegion (tagSeq2 s.tag s.pathHdr .a) (tagSeq2 s.tag s.pathHdr .b)

/-- The blocks that the path may write: the stale regions' own indices (R290). -/
def PathWritable (s : State) (n : Nat) : Prop :=
  (∃ i ≤ 6, n = regionBlock s.pathStale1 i) ∨
    (s.pathP2 = true ∧ ∃ i, 7 ≤ i ∧ i ≤ 10 ∧ n = regionBlock s.pathStale2 i)

/-- Every other block of the tag stands as it was in s. -/
def TagKept (s t : State) : Prop := ∀ n, ¬ PathWritable s n → tagBlock t.tag n = tagBlock s.tag n

/-- What the machine knows at each position of the path: the header, and the sequence bytes read so far,
are those of s. -/
def OnPath (s t : State) : Position → Prop
  | .wrRefresh0 _ => t.tag = s.tag ∧ t.mem = s.mem
  | .wrRefresh1 _ t0 => t.tag = s.tag ∧ t.mem = s.mem ∧ t0 = tagBlock s.tag 0
  | .wrSeq .a0 p2 _ _ _ => t.tag = s.tag ∧ t.buf .hdr = s.pathHdr ∧ p2 = s.pathP2
  | .wrSeq .a7 p2 s1A _ _ => t.tag = s.tag ∧ t.buf .hdr = s.pathHdr ∧ p2 = s.pathP2 ∧
      s1A = tagSeq1 s.tag s.pathHdr .a
  | .wrSeq .b0 p2 s1A s2A _ => t.tag = s.tag ∧ t.buf .hdr = s.pathHdr ∧ p2 = s.pathP2 ∧
      s1A = tagSeq1 s.tag s.pathHdr .a ∧ (p2 = true → s2A = tagSeq2 s.tag s.pathHdr .a)
  | .wrSeq .b7 p2 s1A s2A s1B => t.tag = s.tag ∧ t.buf .hdr = s.pathHdr ∧ p2 = s.pathP2 ∧
      s1A = tagSeq1 s.tag s.pathHdr .a ∧ (p2 = true → s2A = tagSeq2 s.tag s.pathHdr .a) ∧
      s1B = tagSeq1 s.tag s.pathHdr .b
  | .wrPart1 p2 stale1 stale2 _ =>
    p2 = s.pathP2 ∧ stale1 = s.pathStale1 ∧ (p2 = true → stale2 = s.pathStale2)
  | .wrPart2 stale2 _ => s.pathP2 = true ∧ stale2 = s.pathStale2
  | .accepted | .readHdr0 | .readHdr1 _ | .readRegion _ _ _ _ _ | .wrIdent _ | .wrRekey1 _ _ _
  | .wrRekey2 _ _ => False

/-- A state of a run from s: at rest, or waiting on the path for its position's transaction. -/
structure CrashSafe (s t : State) : Prop where
  tag : TagKept s t
  phase : t.phase = .idle ∨ ∃ w pos req, t.phase = .busy w pos (some req) ∧ req.block = pos.block ∧
    req.op.isWrite = pos.writes ∧ OnPath s t pos

section
variable {s t u : State} {pos : Position}

theorem TagKept.congr (h : TagKept s t) (hu : u.tag = t.tag) : TagKept s u := by
  rw [TagKept, hu]
  exact h

theorem OnPath.congr (h : OnPath s t pos) (htag : u.tag = t.tag) (hmem : u.mem = t.mem) :
    OnPath s u pos := by
  have hbuf := buf_congr hmem .hdr
  cases pos
  case wrSeq slot _ _ _ _ => cases slot <;> simpa only [OnPath, htag, hbuf] using h
  case wrRefresh0 | wrRefresh1 => simpa only [OnPath, htag, hmem] using h
  all_goals exact h

theorem OnPath.ne_accepted (h : OnPath s t pos) : pos ≠ .accepted := by
  rintro rfl
  exact h

/-- R292: anywhere on the path AUTH_FAIL ends the command. -/
theorem OnPath.aborts (h : OnPath s t pos) : pos.abortsOnAuthFail = true := by
  cases pos
  case readRegion => exact h.elim
  case accepted => exact h.elim
  all_goals rfl

/-- At a write the position alone says that it is on the path. -/
theorem OnPath.of_writes (h : OnPath s t pos) (hw : pos.writes = true) (u : State) : OnPath s u pos := by
  cases pos
  case wrPart1 => exact h
  case wrPart2 => exact h
  case wrIdent => exact h.elim
  case wrRekey1 => exact h.elim
  case wrRekey2 => exact h.elim
  all_goals exact absurd hw Bool.false_ne_true

/-- The path writes the stale regions' own indices only. -/
theorem OnPath.writable (h : OnPath s t pos) (hw : pos.writes = true) : PathWritable s pos.block := by
  cases pos
  case wrPart1 p2 stale1 stale2 i =>
    obtain ⟨_, rfl, _⟩ := h
    exact .inl ⟨i.val, by omega, rfl⟩
  case wrPart2 stale2 j =>
    obtain ⟨hp2, rfl⟩ := h
    exact .inr ⟨hp2, 7 + j.val, by omega, by omega, rfl⟩
  case wrIdent => exact h.elim
  case wrRekey1 => exact h.elim
  case wrRekey2 => exact h.elim
  all_goals exact absurd hw Bool.false_ne_true

theorem CrashSafe.of_idle (h : TagKept s t) (hp : t.phase = .idle) : CrashSafe s t := ⟨h, .inl hp⟩

theorem CrashSafe.issue (h : TagKept s t) (w : Word) (op : PortOp) (hpos : OnPath s t pos)
    (ho : op.isWrite = pos.writes) : CrashSafe s (issue w pos.block op pos t) := by
  rw [issue_of_guard _ _ _ _ _ (portGuard_block hpos.ne_accepted ho)]
  exact ⟨h.congr rfl, .inr ⟨w, pos, _, rfl, rfl, ho, hpos.congr rfl rfl⟩⟩

theorem CrashSafe.writeRecordBlock (h : TagKept s t) (w : Word) {r : Region} {i : Nat}
    (hpos : OnPath s t pos) (hw : pos.writes = true) (hb : pos.block = regionBlock r i) :
    CrashSafe s (writeRecordBlock w r i pos t) := by
  rw [Machine.writeRecordBlock, ← hb]
  exact .issue h w _ hpos (by rw [hw]; rfl)

/-! The path, position by position: an OK answer keeps to it. -/

section
variable (w : Word)

theorem crashSafe_refreshed (rw : Bool) {t0 t1 : Block}
    (hid : slice s.pathHdr 16 32 = (tagBlock s.tag 1).toList) (hpos : OnPath s t (.wrRefresh1 rw t0))
    (h1 : t1 = tagBlock t.tag 1) : CrashSafe s (refreshed w rw t0 t1 t) := by
  obtain ⟨htag, hmem, rfl⟩ := hpos
  have hhdr : (t.refreshHdr (tagBlock s.tag 0)).buf .hdr = s.pathHdr := by
    rw [refreshHdr_buf_hdr, buf_congr hmem]
    rfl
  have hp2 : part2Present (t.buf .p1) = s.pathP2 := by
    rw [buf_congr hmem]
    rfl
  rw [h1, htag, refreshed_eq, hhdr, if_pos hid, hp2]
  exact CrashSafe.issue (pos := .wrSeq .a0 s.pathP2 0 0 0) (fun n _ => by rw [refreshHdr_eq, htag]) w .read
    ⟨by rw [refreshHdr_eq, htag], hhdr, rfl⟩ rfl

/-- The sequence bytes read, the stale regions are those of the path. -/
theorem crashSafe_beginStaleWrite (h : TagKept s t) {p2 : Bool} {s1A s1B s2A s2B : Byte}
    (hp2 : p2 = s.pathP2) (h1A : s1A = tagSeq1 s.tag s.pathHdr .a)
    (h1B : s1B = tagSeq1 s.tag s.pathHdr .b) (h2A : p2 = true → s2A = tagSeq2 s.tag s.pathHdr .a)
    (h2B : p2 = true → s2B = tagSeq2 s.tag s.pathHdr .b) :
    CrashSafe s (beginStaleWrite w p2 s1A s1B s2A s2B t) := by
  refine CrashSafe.writeRecordBlock (h.congr ?_) w ⟨hp2, ?_, fun h2 => ?_⟩ rfl rfl
  · rw [sealRecord_tag, withSeq_tag]
  · rw [h1A, h1B, State.pathStale1]
  · rw [h2A h2, h2B h2, State.pathStale2]

/-- A block that the path reads, deciphered under its header. -/
theorem decBlock_path (htag : t.tag = s.tag) (hhdr : t.buf .hdr = s.pathHdr) (n : Nat) :
    t.decBlock n (tagBlock t.tag n) = plainBlock s.tag s.pathHdr n := by
  rw [decBlock_tagBlock, hhdr, htag]

theorem crashSafe_sequenceRead (h : TagKept s t) (slot : SeqSlot) {p2 : Bool} {s1A s2A s1B : Byte}
    (hpos : OnPath s t (.wrSeq slot p2 s1A s2A s1B)) {n : Nat}
    (hn : n = (Position.wrSeq slot p2 s1A s2A s1B).block) :
    CrashSafe s (sequenceRead w slot p2 s1A s2A s1B n (tagBlock t.tag n) t) := by
  subst hn
  cases slot with
  | a0 =>
    obtain ⟨htag, hhdr, hp2⟩ := hpos
    simp only [sequenceRead, decBlock_path htag hhdr]
    split
    · exact .issue (pos := .wrSeq .a7 p2 _ s2A s1B) h w .read ⟨htag, hhdr, hp2, rfl⟩ rfl
    · next hno =>
      exact .issue (pos := .wrSeq .b0 p2 _ 0 s1B) h w .read
        ⟨htag, hhdr, hp2, rfl, fun h2 => absurd h2 hno⟩ rfl
  | a7 =>
    obtain ⟨htag, hhdr, hp2, h1A⟩ := hpos
    simp only [sequenceRead, decBlock_path htag hhdr]
    exact .issue (pos := .wrSeq .b0 p2 s1A _ s1B) h w .read ⟨htag, hhdr, hp2, h1A, fun _ => rfl⟩ rfl
  | b0 =>
    obtain ⟨htag, hhdr, hp2, h1A, h2A⟩ := hpos
    simp only [sequenceRead, decBlock_path htag hhdr]
    split
    · exact .issue (pos := .wrSeq .b7 p2 s1A s2A _) h w .read ⟨htag, hhdr, hp2, h1A, h2A, rfl⟩ rfl
    · next hno => exact crashSafe_beginStaleWrite w h hp2 h1A rfl h2A fun h2 => absurd h2 hno
  | b7 =>
    obtain ⟨htag, hhdr, hp2, h1A, h2A, h1B⟩ := hpos
    simp only [sequenceRead, decBlock_path htag hhdr]
    exact crashSafe_beginStaleWrite w h hp2 h1A h1B h2A fun _ => rfl

theorem crashSafe_part1Written (h : TagKept s t) {p2 : Bool} {stale1 stale2 : Region} {i : Fin 7}
    (hpos : OnPath s t (.wrPart1 p2 stale1 stale2 i)) :
    CrashSafe s (part1Written w p2 stale1 stale2 i t) := by
  rw [part1Written]
  split
  · next j _ => exact .writeRecordBlock (pos := .wrPart1 p2 stale1 stale2 j) h w hpos rfl rfl
  · obtain ⟨hp2, _, hstale2⟩ := hpos
    split
    · next h2 =>
      exact .writeRecordBlock (t := t.orRes0 _) (pos := .wrPart2 stale2 0) (h.congr rfl) w
        ⟨hp2.symm.trans h2, hstale2 h2⟩ rfl rfl
    · exact .of_idle (h.congr rfl) rfl

theorem crashSafe_part2Written (h : TagKept s t) {stale2 : Region} {j : Fin 4}
    (hpos : OnPath s t (.wrPart2 stale2 j)) : CrashSafe s (part2Written w stale2 j t) := by
  rw [part2Written]
  split
  · next k _ => exact .writeRecordBlock (pos := .wrPart2 stale2 k) h w hpos rfl rfl
  · exact .of_idle (h.congr rfl) rfl

/-- R290: the path goes on, from the block that is on the tag at a read. -/
theorem OnPath.onOk (hid : slice s.pathHdr 16 32 = (tagBlock s.tag 1).toList) (h : TagKept s t)
    (hpos : OnPath s t pos) (d : Block) (hd : pos.writes = false → d = tagBlock t.tag pos.block) :
    CrashSafe s (onOk w pos pos.block d t) := by
  cases pos
  case wrRefresh0 rw =>
    obtain ⟨htag, hmem⟩ := hpos
    exact .issue (pos := .wrRefresh1 rw d) h w .read ⟨htag, hmem, by rw [hd rfl, htag]; rfl⟩ rfl
  case wrRefresh1 rw t0 => exact crashSafe_refreshed w rw hid hpos (hd rfl)
  case wrSeq slot p2 s1A s2A s1B =>
    rw [hd rfl]
    exact crashSafe_sequenceRead w h slot hpos rfl
  case wrPart1 => exact crashSafe_part1Written w h hpos
  case wrPart2 => exact crashSafe_part2Written w h hpos
  all_goals exact hpos.elim

end

end

end Sys2Proof.Machine

/-! Crash safety: every move keeps to the matching path, or ends it (spec/43_arbiter.md R295). -/

namespace Sys2Proof.Machine

section
variable {s t u : State}

/-- A write to a block of the path leaves the others. -/
theorem TagKept.setTagBlock (h : TagKept s t) {n : Nat} (hn : PathWritable s n) (d : Block) :
    TagKept s (t.withTag (setTagBlock t.tag n d)) := by
  intro m hm
  have hne : m ≠ n := fun heq => hm (heq ▸ hn)
  exact (tagBlock_setTagBlock_other _ _ _ _ hne).trans (h m hm)

theorem crashSafe_onIdealAnswer (hid : slice s.pathHdr 16 32 = (tagBlock s.tag 1).toList)
    (h : CrashSafe s t) : CrashSafe s (onIdealAnswer t) := by
  rcases onIdealAnswer_cases t with ⟨hsame, _⟩ | ⟨w, pos, req, hp, hcases⟩
  · rwa [hsame]
  obtain ⟨htag, hidle | ⟨w', pos', req', hp', hblock, ho, hpos⟩⟩ := h
  · rw [hidle] at hp
    cases hp
  obtain ⟨rfl, rfl, rfl⟩ : w' = w ∧ pos' = pos ∧ req' = req := by
    rw [hp] at hp'
    cases hp'
    exact ⟨rfl, rfl, rfl⟩
  rcases hcases with ⟨hread, heq⟩ | ⟨d, hwrite, heq⟩
  · rw [heq, hblock]
    simp only [onAnswer, hp]
    rw [hblock]
    exact hpos.onOk _ hid htag _ fun _ => rfl
  · rw [hwrite] at ho
    rw [heq, hblock]
    simp only [onAnswer, withTag_phase, hp]
    rw [hblock]
    exact OnPath.onOk _ hid (htag.setTagBlock (hpos.writable ho.symm) d) (hpos.of_writes ho.symm _) d
      fun hno => absurd (ho.trans hno) Bool.false_ne_true.symm

/-- A failure on the path ends the command. -/
theorem crashSafe_onAnswer (h : CrashSafe s t) {a : Answer} (ha : a = .authFail ∨ a = .lost) :
    CrashSafe s (onAnswer a t) := by
  obtain ⟨htag, hidle | ⟨w, pos, req, hp, _, _, hpos⟩⟩ := h
  · refine .of_idle (htag.congr ?_) ?_ <;> simp only [onAnswer, hidle]
  · rcases ha with rfl | rfl <;> simp only [onAnswer, hp]
    · rw [onAuthFail_aborts _ hpos.aborts]
      exact .of_idle (htag.congr rfl) rfl
    · exact .of_idle (htag.congr rfl) rfl

/-- A change that touches neither the tag, the buffers nor the phase. -/
theorem CrashSafe.congr (h : CrashSafe s t) (htag : u.tag = t.tag) (hmem : u.mem = t.mem)
    (hphase : u.phase = t.phase) : CrashSafe s u := by
  obtain ⟨hkept, hidle | ⟨w, pos, req, hp, hblock, ho, hpos⟩⟩ := h
  · exact .of_idle (hkept.congr htag) (hphase.trans hidle)
  · exact ⟨hkept.congr htag, .inr ⟨w, pos, req, hphase.trans hp, hblock, ho, hpos.congr htag hmem⟩⟩

theorem onIdealAnswer_inputs (t : State) : (onIdealAnswer t).inputs = t.inputs := by
  rcases onIdealAnswer_cases t with ⟨h, _⟩ | ⟨_, _, _, _, ⟨_, h⟩ | ⟨_, _, h⟩⟩ <;> rw [h]
  · exact onAnswer_inputs _ _
  · exact onAnswer_inputs _ _

/-- R295: each move of a crash keeps to the path, or ends it. -/
theorem crashSafe_perform (hid : slice s.pathHdr 16 32 = (tagBlock s.tag 1).toList)
    (h : CrashSafe s t) {e : Event} (he : e.crashOnly = true) (hu : perform e t = .next u) :
    CrashSafe s u ∧ u.inputs = t.inputs := by
  cases e with
  | hostRead addr n =>
    cases hu
    rw [hostRead_eq]
    exact ⟨h.congr rfl rfl rfl, rfl⟩
  | hostWrite addr n v => cases he
  | answer a =>
    cases hu
    refine ⟨crashSafe_onAnswer h ?_, onAnswer_inputs _ _⟩
    cases a with
    | ok d => cases he
    | authFail => exact .inl rfl
    | lost => exact .inr rfl
  | idealAnswer =>
    cases hu
    exact ⟨crashSafe_onIdealAnswer hid h, onIdealAnswer_inputs t⟩
  | staleAnswer a =>
    cases hu
    exact ⟨h, rfl⟩
  | tagChanges b d => cases he
  | reset =>
    cases hu
    exact ⟨.of_idle (h.tag.congr rfl) rfl, rfl⟩

theorem CrashSafe.fetch (h : CrashSafe s t) : t.fetch = none := by
  obtain ⟨_, hidle | ⟨w, pos, req, hp, _⟩⟩ := h
  · exact fetch_of_idle hidle
  · exact fetch_of_request hp

theorem crashSafe_step (hid : slice s.pathHdr 16 32 = (tagBlock s.tag 1).toList) (h : CrashSafe s t)
    (he : ∀ e ∈ t.inputs, e.crashOnly = true) :
    ∃ u, step t = .next u ∧ CrashSafe s u ∧ ∀ e ∈ u.inputs, e.crashOnly = true := by
  rcases step_cases t with ⟨w, hf, _⟩ | ⟨e, rest, _, hi, hx⟩ | ⟨_, _, hx⟩
  · rw [h.fetch] at hf
    cases hf
  · rw [hi] at he
    obtain ⟨u, hu⟩ := perform_next e { t with inputs := rest }
    obtain ⟨hsafe, hinputs⟩ := crashSafe_perform (t := { t with inputs := rest }) hid
      (h.congr rfl rfl rfl) (he e (by simp)) hu
    exact ⟨u, hx.trans hu, hsafe, by rw [hinputs]; exact fun x hmem => he x (List.mem_cons_of_mem _ hmem)⟩
  · exact ⟨t, hx, h, he⟩

theorem crashSafe_run (hid : slice s.pathHdr 16 32 = (tagBlock s.tag 1).toList) {k : Nat}
    (h : CrashSafe s t) (he : ∀ e ∈ t.inputs, e.crashOnly = true) (hu : run k t = .next u) :
    CrashSafe s u := by
  induction k generalizing t with
  | zero =>
    cases (run_zero t).symm.trans hu
    exact h
  | succ k ih =>
    obtain ⟨t1, hstep, hsafe, hinputs⟩ := crashSafe_step hid h he
    exact ih hsafe hinputs ((run_succ k hstep).symm.trans hu)

/-- R286: the command's first step is on the path. -/
theorem crashSafe_begin {rw : Bool} (hf : s.fetch = some (encode (.writeRecord rw)).word) :
    ∃ t, step s = .next t ∧ CrashSafe s t ∧ t.inputs = s.inputs :=
  ⟨_, step_writeRecord hf, ⟨fun _ _ => rfl, .inr ⟨_, .wrRefresh0 rw, _, rfl, rfl, rfl, rfl, rfl⟩⟩, rfl⟩

/-- R295: at every point of a command on the matching path the other blocks stand. -/
theorem tagKept_run {rw : Bool} (hf : s.fetch = some (encode (.writeRecord rw)).word)
    (he : ∀ e ∈ s.inputs, e.crashOnly = true)
    (hid : slice s.pathHdr 16 32 = (tagBlock s.tag 1).toList) {k : Nat} (ht : run k s = .next t) :
    TagKept s t := by
  cases k with
  | zero =>
    cases (run_zero s).symm.trans ht
    exact fun _ _ => rfl
  | succ k =>
    obtain ⟨s1, hstep, hsafe, hinputs⟩ := crashSafe_begin hf
    exact (crashSafe_run hid hsafe (hinputs ▸ he) ((run_succ k hstep).symm.trans ht)).tag

/-- The current region of part 1 is not written. -/
theorem not_pathWritable_current1 (s : State) {i : Nat} (hi : i ≤ 6) :
    ¬ PathWritable s (regionBlock (otherRegion s.pathStale1) i) := by
  rintro (⟨j, hj, heq⟩ | ⟨_, j, h7, hj, heq⟩)
  · exact regionBlock_disjoint _ _ _ _ (otherRegion_ne _) (by omega) (by omega) heq
  · have := (eq_of_regionBlock_eq (by omega) hj heq).2
    omega

/-- The current region of part 2 is not written. -/
theorem not_pathWritable_current2 (s : State) {i : Nat} (h7 : 7 ≤ i) (hi : i ≤ 10) :
    ¬ PathWritable s (regionBlock (otherRegion s.pathStale2) i) := by
  rintro (⟨j, hj, heq⟩ | ⟨_, j, _, hj, heq⟩)
  · have := (eq_of_regionBlock_eq hi (by omega) heq).2
    omega
  · exact regionBlock_disjoint _ _ _ _ (otherRegion_ne _) hi hj heq

end

/-- Settles O56: the path writes the stale regions' own indices only, and every other move of a crash leaves
the tag. -/
theorem currentRegionUntouched : Obligations.CurrentRegionUntouched := by
  intro s k t hf he h p2 stale1 stale2 hid hrun
  have hword : ∃ rw, s.fetch = some (encode (.writeRecord rw)).word :=
    hf.elim (fun hf => ⟨false, hf⟩) fun hf => ⟨true, hf⟩
  obtain ⟨rw, hfetch⟩ := hword
  have hkept := tagKept_run hfetch he hid hrun
  refine ⟨fun n h1 h2 => hkept n ?_, fun i hi => hkept _ (not_pathWritable_current1 s hi),
    fun i h7 hi => hkept _ (not_pathWritable_current2 s h7 hi)⟩
  rintro (⟨i, hi, heq⟩ | ⟨hp2, i, h7, hi, heq⟩)
  · exact h1 i hi heq
  · exact h2 hp2 i h7 hi heq

end Sys2Proof.Machine
